-- ==== Sys2Proof/Word.lean ====
section
/-! DEFINITION. The word types of the block: a byte of a buffer, a 32-bit register word and an
11-bit entry of the transmit FIFO (spec/00_scope.md R7, spec/10_state.md R39). -/

namespace Sys2Proof

/-- A byte: 8 bits (R7). -/
abbrev Byte := BitVec 8

/-- A word of the register space, an offset, a speed or a length: 32 bits (R71, R116). -/
abbrev Word := BitVec 32

/-- One entry of the transmit FIFO: the low 11 bits of a word written to `TXCMD` (R39, R101). -/
abbrev CmdEntry := BitVec 11

end Sys2Proof
end

