-- ==== Sys2Proof/Syntax.lean ====
section
/-! DEFINITION. The operations of the block as syntax: the sixteen requests of spec/30_encoding.md
R116 and the four command words of R104, with the descriptors of R106 and R107. -/

namespace Sys2Proof

/-- The direction bit of an address byte: 0 is a write message, 1 a read message (R102). -/
inductive Dir where
  | write
  | read
  deriving DecidableEq, Repr

/-- `MSG`, a message descriptor as the host passes it (R106). `buf` is the address of the message's
buffer in the host's byte space (assumption 8). Only `addr` up to 0x7F and flag bit 0 are legal
(WellFormed). -/
structure Msg where
  addr : BitVec 16
  flags : BitVec 16
  len : Word
  buf : Word
  deriving DecidableEq, Repr

/-- `CHIP`, a chip descriptor (R107). Offset widths 5 to 7 and the reserved flag bits are illegal
(WellFormed). -/
structure Chip where
  addr : BitVec 7
  offsetWidth : BitVec 3
  offsetMask : BitVec 7
  flags : Byte
  deriving DecidableEq, Repr

/-- A command word of the transmit FIFO, decoded (R104). -/
inductive Cmd where
  /-- `CMD_TXDATA`: a byte to send. -/
  | txdata (data : Byte)
  /-- `CMD_RECEIVE`: the byte count minus one (R103). -/
  | receive (count : Byte)
  /-- `CMD_STOP`. -/
  | stop
  /-- `CMD_START`: the address byte of R102, split. -/
  | start (addr : BitVec 7) (dir : Dir)
  deriving DecidableEq, Repr

/-- One constructor per row of the opcode table, in the table's order (R11, R104, R116). -/
inductive Instr where
  | init (speed : Word)
  | speedSet (speed : Word)
  | start (addr : BitVec 7) (dir : Dir)
  | stop
  | send (buf : Word) (len : Word)
  | receive (buf : Word) (len : Word)
  | transfer (msgs : List Msg)
  | chipRead (chip : Chip) (offset : Word) (buf : Word) (len : Word)
  | chipWrite (chip : Chip) (offset : Word) (buf : Word) (len : Word)
  | crc32Region (chip : Chip) (start : Word) (length : Word) (expected : Word)
  | validateMagic (m0 : Byte) (m1 : Byte)
  | waitTxSpace
  | checkClearError
  | checkStuck
  | setupOffset (chip : Chip) (offset : Word)
  | crc32Update (crc : Word) (b : Byte)
  | cmdTxdata (data : Byte)
  | cmdReceive (count : Byte)
  | cmdStop
  | cmdStart (addr : BitVec 7) (dir : Dir)
  deriving DecidableEq, Repr

/-- A command word as an instruction of the table. -/
def Cmd.toInstr : Cmd → Instr
  | .txdata d => .cmdTxdata d
  | .receive n => .cmdReceive n
  | .stop => .cmdStop
  | .start a d => .cmdStart a d

/-- Where an instruction's bits come from: a request of the sequencer (R116) or an entry of the
transmit FIFO (R104). The two spaces are never confused: the table's two formats. -/
inductive Space where
  | request
  | command
  deriving DecidableEq, Repr

/-- The space an instruction belongs to. -/
def Instr.space : Instr → Space
  | .init _ => .request
  | .speedSet _ => .request
  | .start _ _ => .request
  | .stop => .request
  | .send _ _ => .request
  | .receive _ _ => .request
  | .transfer _ => .request
  | .chipRead _ _ _ _ => .request
  | .chipWrite _ _ _ _ => .request
  | .crc32Region _ _ _ _ => .request
  | .validateMagic _ _ => .request
  | .waitTxSpace => .request
  | .checkClearError => .request
  | .checkStuck => .request
  | .setupOffset _ _ => .request
  | .crc32Update _ _ => .request
  | .cmdTxdata _ => .command
  | .cmdReceive _ => .command
  | .cmdStop => .command
  | .cmdStart _ _ => .command

/-- The micro-operations: requests the host cannot make (R11, R116: opcode bit 4). -/
def Instr.isMicro : Instr → Bool
  | .waitTxSpace => true
  | .checkClearError => true
  | .checkStuck => true
  | .setupOffset _ _ => true
  | .crc32Update _ _ => true
  | .init _ => false
  | .speedSet _ => false
  | .start _ _ => false
  | .stop => false
  | .send _ _ => false
  | .receive _ _ => false
  | .transfer _ => false
  | .chipRead _ _ _ _ => false
  | .chipWrite _ _ _ _ => false
  | .crc32Region _ _ _ _ => false
  | .validateMagic _ _ => false
  | .cmdTxdata _ => false
  | .cmdReceive _ => false
  | .cmdStop => false
  | .cmdStart _ _ => false

/-- The chip descriptor an instruction names, if it names one (R22: an operand of CHIP_READ,
CHIP_WRITE and CRC32_REGION; and of the micro-operation SETUP_OFFSET). -/
def Instr.chip? : Instr → Option Chip
  | .chipRead c _ _ _ => some c
  | .chipWrite c _ _ _ => some c
  | .crc32Region c _ _ _ => some c
  | .setupOffset c _ => some c
  | .init _ => none
  | .speedSet _ => none
  | .start _ _ => none
  | .stop => none
  | .send _ _ => none
  | .receive _ _ => none
  | .transfer _ => none
  | .validateMagic _ _ => none
  | .waitTxSpace => none
  | .checkClearError => none
  | .checkStuck => none
  | .crc32Update _ _ => none
  | .cmdTxdata _ => none
  | .cmdReceive _ => none
  | .cmdStop => none
  | .cmdStart _ _ => none

end Sys2Proof
end

