-- ==== Sys2Proof/Config.lean ====
section
/-! DEFINITION. What an implementation fixes (the parameters of spec/00_scope.md R6) and the values
the spec leaves open (opaque constants, which no proof can evaluate). -/

namespace Sys2Proof

/-- The three readings of "standard polynomial, seeded at 0" (R280, parameter `CRC_VARIANT`). -/
inductive CrcVariant where
  | zlib
  | raw0
  | msb0
  deriving DecidableEq, Repr

/-- The implementation parameters of R6 and the platform condition of R364 (2). They are fixed for a
machine: no step writes them. `BASE` and `INDEX` are not here: they are the host-loaded fields of the
bus handle (R21). The register layout is fixed: R6 lists it with the spec's own values (D1 to D3). -/
structure Config where
  /-- `CLOCK_SRC`: frequency in Hz of the clock the divider divides. -/
  clockSrc : Word
  /-- `FIFO_DEPTH`: entries of the transmit FIFO and of the receive FIFO. -/
  fifoDepth : Nat
  /-- `T_POLL`: ticks a polling loop may last, but for the stop-detect loop. -/
  tPoll : Nat
  /-- `T_STOP`: ticks the stop-detect loop may last. -/
  tStop : Nat
  /-- `TIMER_BITS`: width of the free-running timer. -/
  timerBits : Nat
  /-- `REINIT_SPEED`: the speed of the re-init inside START; `none` is "the handle's `rate` field". -/
  reinitSpeed : Option Word
  /-- `P_STOP_DECODE`: the stop-detect loop also runs the error decode (R176). -/
  stopDecode : Bool
  /-- `P_RX_CLEAR`: RECEIVE clears the status flags before its command (R194). -/
  rxClear : Bool
  /-- `CRC_VARIANT` (R280). -/
  crcVariant : CrcVariant
  /-- `SMALL_MSG`: size below which the staging buffer is a fixed register group; not observable
  (R256), so no rule reads it. -/
  smallMsg : Nat
  /-- `MAX_XFER`: largest data length CHIP_WRITE accepts (R256). -/
  maxXfer : Nat
  /-- `MAGIC`: the two magic bytes in stored order (R283). -/
  magic0 : Byte
  magic1 : Byte
  /-- `CHIP0`: the platform's chip descriptor (R22, R258). -/
  chip0 : Chip
  /-- The controller's bus clock is on, so the register space answers (R364 (2)). -/
  busClock : Bool
  deriving DecidableEq, Repr

/-- The defaults of R6. `CLOCK_SRC` has none there: 24000000 is the value of the worked examples
(R6, D34; DESIGN CHOICE, assumption 2). -/
def Config.default : Config where
  clockSrc := 24000000#32
  fifoDepth := 4
  tPoll := 100000
  tStop := 1000
  timerBits := 64
  reinitSpeed := none
  stopDecode := false
  rxClear := false
  crcVariant := .zlib
  smallMsg := 64
  maxXfer := 65535
  magic0 := 0x44#8
  magic1 := 0x54#8
  chip0 := ⟨0x52#7, 1#3, 0#7, 0#8⟩
  busClock := true

/-- The `n`-th draw of the register bits the spec calls "any value" on a read: the bits of `STATUS`
other than the nine named (R33), and of `RXDATA` all but `RXEMPTY` when the FIFO is empty and bits
31:15 and 13:8 when it is not (R40). FREE VALUE (assumption 5). -/
opaque Config.openBits : Nat → Word

/-- The `n`-th byte read from a bus on which no target drives the data wire. The spec says only that
bytes read are inputs (V24). FREE VALUE (assumption 6). -/
opaque Config.floatByte : Nat → Byte

end Sys2Proof
end

