-- ==== Sys2Proof/WellFormed.lean ====
section
/-! DEFINITION. Which terms of the syntax are legal operand values: spec/30_encoding.md R106, R107 and
R118. An ill-formed request is refused. -/

namespace Sys2Proof

/-- A message's address is 7 bits wide and its reserved flag bits 15:1 are 0 (R106, R118). -/
def Msg.wf (m : Msg) : Bool :=
  m.addr.ult 0x80#16 && (m.flags &&& 0xFFFE#16) == 0#16

/-- A chip's offset width is 0 to 4 and its reserved flag bits 0 and 7:3 are 0 (R107, R118). -/
def Chip.wf (c : Chip) : Bool :=
  c.offsetWidth.ult 5#3 && (c.flags &&& 0xF9#8) == 0#8

/-- The legal instructions (R118). The message count is a 32-bit operand (R116, assumption 8). Bounds
that are not operand forms (a RECEIVE of more than 256 bytes, a CHIP_WRITE above `MAX_XFER`) are
refused by the meanings. -/
def Instr.wf : Instr → Bool
  | .init _ => true
  | .speedSet _ => true
  | .start _ _ => true
  | .stop => true
  | .send _ _ => true
  | .receive _ _ => true
  | .transfer ms => ms.all Msg.wf && decide (ms.length < 2 ^ 32)
  | .chipRead c _ _ _ => c.wf
  | .chipWrite c _ _ _ => c.wf
  | .crc32Region c _ _ _ => c.wf
  | .validateMagic _ _ => true
  | .waitTxSpace => true
  | .checkClearError => true
  | .checkStuck => true
  | .setupOffset c _ => c.wf
  | .crc32Update _ _ => true
  | .cmdTxdata _ => true
  | .cmdReceive _ => true
  | .cmdStop => true
  | .cmdStart _ _ => true

end Sys2Proof
end

