-- ==== Sys2Proof/Decode.lean ====
section
/-! DEFINITION. Decoding and encoding of requests (spec/30_encoding.md R116) and of command words
(R101 to R105). The spec numbers the opcodes and lists the operands of a request but lays out no
bytes; the layout here (opcode byte, then the operands in R116's order, each least significant byte
first) is the model's (DESIGN CHOICE, assumption 7). The layout of a command word is the spec's. -/

namespace Sys2Proof

/-- Why a decoder rejects. -/
inductive DecodeError where
  /-- The opcode is one of 0x0B to 0x0F, 0x15 to 0x1F, or above 5 bits (R116, V14). -/
  | reservedOpcode
  /-- The command code is 3, 5, 6 or 7 (R105, V9). -/
  | reservedCommand
  /-- An operand is not a legal value (R118, V16). -/
  | illegalOperand
  /-- The bytes end before the operands do. -/
  | truncated
  deriving DecidableEq, Repr

/-- What a decoder answers: an instruction and the bytes behind it, or a reason. -/
inductive Decoded where
  | ok (i : Instr) (rest : List Byte)
  | bad (e : DecodeError)
  deriving DecidableEq, Repr

/-! ### Reading operands -/

/-- Read one byte. -/
def withByte (bs : List Byte) (k : Byte → List Byte → Decoded) : Decoded :=
  match bs with
  | b :: r => k b r
  | [] => .bad .truncated

/-- Read a 16-bit operand, least significant byte first. -/
def withHalf (bs : List Byte) (k : BitVec 16 → List Byte → Decoded) : Decoded :=
  match bs with
  | b0 :: b1 :: r => k (b1 ++ b0) r
  | _ => .bad .truncated

/-- Read a 32-bit operand, least significant byte first. -/
def withWord (bs : List Byte) (k : Word → List Byte → Decoded) : Decoded :=
  match bs with
  | b0 :: b1 :: b2 :: b3 :: r => k (b3 ++ b2 ++ b1 ++ b0) r
  | _ => .bad .truncated

/-- Read a 7-bit operand held in a byte; a value above 0x7F is refused (R118). -/
def withSeven (bs : List Byte) (k : BitVec 7 → List Byte → Decoded) : Decoded :=
  withByte bs fun b r => if b.ult 0x80#8 then k (b.setWidth 7) r else .bad .illegalOperand

/-- Read a direction operand held in a byte: 0 write, 1 read (R116). -/
def withDir (bs : List Byte) (k : Dir → List Byte → Decoded) : Decoded :=
  withByte bs fun b r =>
    if b = 0#8 then k .write r else if b = 1#8 then k .read r else .bad .illegalOperand

/-- Read a chip descriptor: one byte a field in the order of R107. Widths above 7 do not fit the
field's 3 bits; 5 to 7 are reserved and refused with the rest of R118 when the request is checked. -/
def withChip (bs : List Byte) (k : Chip → List Byte → Decoded) : Decoded :=
  withSeven bs fun a r => withByte r fun w r => withSeven r fun m r => withByte r fun f r =>
    if w.ult 8#8 then k ⟨a, w.setWidth 3, m, f⟩ r else .bad .illegalOperand

/-- Read one message descriptor, fields in the order of R106. -/
def withMsg (bs : List Byte) (k : Msg → List Byte → Decoded) : Decoded :=
  withHalf bs fun a r => withHalf r fun f r => withWord r fun l r => withWord r fun b r =>
    k ⟨a, f, l, b⟩ r

/-- Read `n` message descriptors. -/
def withMsgs (n : Nat) (bs : List Byte) (k : List Msg → List Byte → Decoded) : Decoded :=
  match n with
  | 0 => k [] bs
  | n + 1 => withMsg bs fun m r => withMsgs n r fun ms r => k (m :: ms) r

/-- A request whose operands are read is accepted if they are legal values (R118). -/
def checked (i : Instr) (rest : List Byte) : Decoded :=
  if i.wf then .ok i rest else .bad .illegalOperand

/-! ### The two decoders -/

/-- The request of opcode `op` whose operands begin at `bs` (R116). -/
def decodeOperands (op : Nat) (bs : List Byte) : Decoded :=
  match op with
  | 0x00 => withWord bs fun speed r => checked (.init speed) r
  | 0x01 => withWord bs fun speed r => checked (.speedSet speed) r
  | 0x02 => withSeven bs fun a r => withDir r fun d r => checked (.start a d) r
  | 0x03 => checked .stop bs
  | 0x04 => withWord bs fun buf r => withWord r fun len r => checked (.send buf len) r
  | 0x05 => withWord bs fun buf r => withWord r fun len r => checked (.receive buf len) r
  | 0x06 => withWord bs fun n r => withMsgs n.toNat r fun ms r => checked (.transfer ms) r
  | 0x07 => withChip bs fun c r => withWord r fun o r => withWord r fun buf r =>
      withWord r fun len r => checked (.chipRead c o buf len) r
  | 0x08 => withChip bs fun c r => withWord r fun o r => withWord r fun buf r =>
      withWord r fun len r => checked (.chipWrite c o buf len) r
  | 0x09 => withChip bs fun c r => withWord r fun s r => withWord r fun n r =>
      withWord r fun e r => checked (.crc32Region c s n e) r
  | 0x0A => withByte bs fun m0 r => withByte r fun m1 r => checked (.validateMagic m0 m1) r
  | 0x10 => checked .waitTxSpace bs
  | 0x11 => checked .checkClearError bs
  | 0x12 => checked .checkStuck bs
  | 0x13 => withChip bs fun c r => withWord r fun o r => checked (.setupOffset c o) r
  | 0x14 => withWord bs fun crc r => withByte r fun b r => checked (.crc32Update crc b) r
  | _ => .bad .reservedOpcode

/-- Decode a request: an opcode byte of which only bits 4:0 may be set, then its operands (R116). -/
def decodeRequest (bs : List Byte) : Decoded :=
  withByte bs fun op r => decodeOperands op.toNat r

/-- Decode an entry of the transmit FIFO: `CMD` is bits 10:8, `DATA` bits 7:0 (R101, R104). The
engine ignores `DATA` of a stop; codes 3, 5, 6 and 7 are reserved (R105). -/
def decodeCmd (w : CmdEntry) : Option Cmd :=
  let data : Byte := w.extractLsb' 0 8
  match (w.extractLsb' 8 3).toNat with
  | 0 => some (.txdata data)
  | 1 => some (.receive data)
  | 2 => some .stop
  | 4 => some (.start (data.extractLsb' 1 7) (if data.getLsbD 0 then .read else .write))
  | _ => none

/-- The FIFO entry a `TXCMD` word given as two bytes leaves: its low 11 bits (R39). -/
def entryOfBytes (b0 b1 : Byte) : CmdEntry := (b1 ++ b0).setWidth 11

/-- Decode bytes as an instruction of the given space: total, rejecting by name. -/
def decode (sp : Space) (bs : List Byte) : Decoded :=
  match sp with
  | .request => decodeRequest bs
  | .command =>
    match bs with
    | b0 :: b1 :: r =>
      match decodeCmd (entryOfBytes b0 b1) with
      | some c => .ok c.toInstr r
      | none => .bad .reservedCommand
    | _ => .bad .truncated

/-! ### The encoder -/

/-- A 16-bit operand, least significant byte first. -/
def bytesOfHalf (h : BitVec 16) : List Byte := [h.extractLsb' 0 8, h.extractLsb' 8 8]

/-- A 32-bit operand, least significant byte first. -/
def bytesOfWord (w : Word) : List Byte :=
  [w.extractLsb' 0 8, w.extractLsb' 8 8, w.extractLsb' 16 8, w.extractLsb' 24 8]

/-- The direction bit: 0 write, 1 read (R102). -/
def Dir.bit : Dir → BitVec 1
  | .write => 0#1
  | .read => 1#1

/-- A chip descriptor, one byte a field (R107). -/
def bytesOfChip (c : Chip) : List Byte :=
  [c.addr.setWidth 8, c.offsetWidth.setWidth 8, c.offsetMask.setWidth 8, c.flags]

/-- A message descriptor, fields in the order of R106. -/
def bytesOfMsg (m : Msg) : List Byte :=
  bytesOfHalf m.addr ++ bytesOfHalf m.flags ++ bytesOfWord m.len ++ bytesOfWord m.buf

/-- The `DATA` field of a CMD_START word: `(addr << 1) | dir` (R102). -/
def addrByte (a : BitVec 7) (d : Dir) : Byte := a ++ d.bit

/-- The 11-bit FIFO entry of a command (R104). -/
def encodeCmd : Cmd → CmdEntry
  | .txdata d => 0b000#3 ++ d
  | .receive n => 0b001#3 ++ n
  | .stop => 0b010#3 ++ 0#8
  | .start a d => 0b100#3 ++ addrByte a d

/-- An entry as the two bytes of a `TXCMD` word's low half; bits above 10 are written 0 (R101). -/
def bytesOfEntry (w : CmdEntry) : List Byte := bytesOfHalf (w.setWidth 16)

/-- The bytes of an instruction in its own space (R104, R116). -/
def encode : Instr → List Byte
  | .init speed => 0x00#8 :: bytesOfWord speed
  | .speedSet speed => 0x01#8 :: bytesOfWord speed
  | .start a d => [0x02#8, a.setWidth 8, d.bit.setWidth 8]
  | .stop => [0x03#8]
  | .send buf len => 0x04#8 :: (bytesOfWord buf ++ bytesOfWord len)
  | .receive buf len => 0x05#8 :: (bytesOfWord buf ++ bytesOfWord len)
  | .transfer ms => 0x06#8 :: (bytesOfWord (BitVec.ofNat 32 ms.length) ++ ms.flatMap bytesOfMsg)
  | .chipRead c o buf len =>
      0x07#8 :: (bytesOfChip c ++ bytesOfWord o ++ bytesOfWord buf ++ bytesOfWord len)
  | .chipWrite c o buf len =>
      0x08#8 :: (bytesOfChip c ++ bytesOfWord o ++ bytesOfWord buf ++ bytesOfWord len)
  | .crc32Region c s n e =>
      0x09#8 :: (bytesOfChip c ++ bytesOfWord s ++ bytesOfWord n ++ bytesOfWord e)
  | .validateMagic m0 m1 => [0x0A#8, m0, m1]
  | .waitTxSpace => [0x10#8]
  | .checkClearError => [0x11#8]
  | .checkStuck => [0x12#8]
  | .setupOffset c o => 0x13#8 :: (bytesOfChip c ++ bytesOfWord o)
  | .crc32Update crc b => 0x14#8 :: (bytesOfWord crc ++ [b])
  | .cmdTxdata d => bytesOfEntry (encodeCmd (.txdata d))
  | .cmdReceive n => bytesOfEntry (encodeCmd (.receive n))
  | .cmdStop => bytesOfEntry (encodeCmd .stop)
  | .cmdStart a d => bytesOfEntry (encodeCmd (.start a d))

/-! ### The opcode table's numbering -/

/-- A row of at most 8 bits is a request (R116); a wider one a command word (R104). -/
def tableSpace (nbits : Nat) : Space := if nbits ≤ 8 then .request else .command

/-- The bytes of an instruction whose table bits are `w`: its first word, then zero bytes enough for
the operands of the longest request without messages (CRC32_REGION, 17 bytes). -/
def tableBytes (nbits w : Nat) : List Byte :=
  match tableSpace nbits with
  | .request => BitVec.ofNat 8 w :: List.replicate 31 0#8
  | .command => bytesOfHalf (BitVec.ofNat 16 w)

/-- The instruction the decoder reads from table bits `w`. -/
def decodeTableWord (nbits w : Nat) : Option Instr :=
  match decode (tableSpace nbits) (tableBytes nbits w) with
  | .ok i _ => some i
  | .bad _ => none

end Sys2Proof
end

