-- ==== Sys2Proof/Machine/State.lean ====
section
/-! DEFINITION. The state of the block (spec/10_state.md), the reasons a step can stop, and the state
after power-on (R47, R361). State is plain data. -/

namespace Sys2Proof.Machine

/-! ### Small types -/

/-- A byte space: (address, byte) pairs in canonical form (Memory.wf, Machine/Memory.lean). -/
abbrev Memory := List Host.Cell

/-- The result codes of R321, in the order of their numbers 0 to 11. -/
inductive Code where
  | ok
  | busBusy
  | timeout
  | nack
  | arbLost
  | fifo
  | pinLowTimeout
  | invalidOffsetCfg
  | magic
  | crc
  | formatOld
  | divider
  deriving DecidableEq, Repr

/-- The six values of the phase register (R29). -/
inductive Phase where
  | idle
  | initialized
  | start
  | transferring
  | stop
  | error
  deriving DecidableEq, Repr

/-- The eight registers of the controller the sequencer touches (R31). -/
inductive Reg where
  | ctrl
  | status
  | cfg0
  | cfg1
  | clkcfg
  | fifostat
  | txcmd
  | rxdata
  deriving DecidableEq, Repr

/-- The nine named flags of `STATUS` (R33): the seven write-1-to-clear flags, bits 8 to 14 in this
order, then the master-busy flag (24) and the bus-busy flag (25). -/
structure Status where
  epf : Bool
  sdf : Bool
  ndf : Bool
  alf : Bool
  fef : Bool
  pltf : Bool
  dmf : Bool
  mbf : Bool
  bbf : Bool
  deriving DecidableEq, Repr

/-- The bus handle (R21). -/
structure Handle where
  index : Byte
  base : Word
  rate : Word
  deriving DecidableEq, Repr

/-- The engine's progress (R44 (a)), but for bus ownership, which is `Status.mbf`. -/
structure Engine where
  /-- The direction bit of the last address byte sent: what follows is read (R304). Before any address
  byte, and after a controller reset, it is false (DESIGN CHOICE, assumption 40). -/
  dirRead : Bool
  /-- Bytes of the receive command being executed that are still to come (R302); 0 is none. -/
  recvLeft : Nat
  /-- The address byte of a start command taken from the FIFO that waits for a free bus (R304). -/
  pendingStart : Option Byte
  deriving DecidableEq, Repr

/-- The nominal target of R308, an EEPROM: R44 (c). Its array is held like the host's memory, as
(address, byte) pairs in canonical form. -/
structure Target where
  /-- Its bus address. -/
  addr : BitVec 7
  /-- The address bits that carry folded offset bits. -/
  mask : BitVec 7
  /-- Its offset width in bytes. -/
  width : Nat
  /-- The size of its array in bytes. -/
  size : Nat
  mem : Memory
  /-- Its address pointer. -/
  ptr : Nat
  /-- It acknowledged the last address byte and no stop has come since. -/
  addressed : Bool
  /-- Offset bytes received since the last start in write direction. -/
  loaded : Nat
  /-- The offset assembled from the folded bits and the bytes received so far. -/
  acc : Nat
  deriving DecidableEq, Repr

/-! ### Working registers -/

/-- Where the bytes of a write message come from: a host buffer, or the offset bytes and staging
buffer (R23, R27). -/
inductive ByteSrc where
  | host (addr : Word) (len : Nat)
  | bytes (l : List Byte)
  deriving DecidableEq, Repr

/-- Where the bytes of a read message go: a host buffer, or the byte register `b` of CRC32_REGION
(R28). -/
inductive ByteDst where
  | host (addr : Word)
  | reg
  deriving DecidableEq, Repr

/-- A message of the dispatcher (R23), its direction flag decoded. -/
inductive BusMsg where
  | write (addr : BitVec 7) (src : ByteSrc)
  | read (addr : BitVec 7) (len : Nat) (dst : ByteDst)
  deriving DecidableEq, Repr

/-- The divider search's registers (R25): the pair under test, its rate and error, and the best pair. -/
structure DivRegs where
  p : Nat
  c : Nat
  rate : Nat
  err : Nat
  bestP : Nat
  bestC : Nat
  bestErr : Nat
  chosen : Bool
  deriving DecidableEq, Repr

/-- The working registers of R24 to R28. `none` is the spec's own "holds no value" (R46, R47), the
state of every one of them between operations; each operation writes one before it reads it. The
last two hold what the micro-operations CHECK_STUCK and SETUP_OFFSET answer their caller. -/
structure Work where
  ret : Option Code := none
  k : Option Nat := none
  r : Option Code := none
  rs : Option Code := none
  div : Option DivRegs := none
  menSaved : Option Bool := none
  t0 : Option Nat := none
  s : Option Word := none
  space : Option Nat := none
  v : Option Word := none
  i : Option Nat := none
  obuf : Option (List Byte) := none
  stage : Option (List Byte) := none
  msgs : Option (List BusMsg) := none
  crc : Option Word := none
  j : Option Nat := none
  b : Option Byte := none
  stuck : Option Bool := none
  zeroWidth : Option Bool := none
  deriving DecidableEq, Repr

/-! ### The environment as data -/

/-- One move of the environment agents between two primitives: the unconstrained contract of R300,
R305 and R306, or a step of the nominal engine, one admissible behaviour among those (R307). -/
inductive EnvMove where
  /-- The nominal engine does its next piece of work (R301 to R304, R308 to R311). -/
  | engine
  /-- R300 (a): the head of the transmit FIFO is removed. -/
  | take
  /-- R300 (b): the W1C flags at which the word has a 1 become set; bit 0 is `EPF`, bit 6 `DMF`. -/
  | raiseFlags (w : BitVec 7)
  /-- R300 (c): the busy flags become these values. -/
  | busy (mbf bbf : Bool)
  /-- R300 (d): a byte is appended to the receive FIFO. -/
  | deliver (b : Byte)
  deriving DecidableEq, Repr

/-- What the host does next (R20): it loads the register groups it owns, fills its own buffers, or
makes a request, one at a time (R374). `micro` is a request from inside another operation, the only
place a micro-operation is run from (R116, R342); it stands for a micro-operation alone (DESIGN CHOICE,
assumption 41). -/
inductive HostAct where
  | loadHandle (index : Byte) (base : Word)
  | loadChip (c : Chip)
  | loadBytes (addr : Word) (bytes : List Byte)
  | request (bytes : List Byte)
  | micro (bytes : List Byte)
  deriving DecidableEq, Repr

/-- One primitive of an operation (R8), with the word it moved. A read shows the bits the register
names; the bits the spec calls "any value" show as 0. -/
inductive Access where
  | rd (reg : Reg) (word : Word)
  | wr (reg : Reg) (word : Word)
  | now (count : Nat)
  deriving DecidableEq, Repr

/-! ### The reasons a step stops -/

/-- The faults. Both are the treatments spec/93_implementation_defined.md gives by name. -/
inductive Fault where
  /-- V5: a polling loop whose condition does not hold and whose timer never exceeds the budget does
  not end. Raised by the three polling loops when the budget cannot be exceeded (`TIMER_BITS` too
  narrow for it). Safe: the hardware hangs there. -/
  | pollStuck
  /-- V11, R46: a working register that the current operation has not written is read. Raised by
  CRC32_REGION should `b` hold no value after a read that returned OK; no run reaches it. Safe. -/
  | unwrittenRegister
  deriving DecidableEq, Repr

/-- The refusals: requests and conditions to which the spec gives no meaning. All are safe: the model
claims nothing of a run that meets one. -/
inductive Refusal where
  /-- An instruction the model gives no meaning yet; raised by `exec` alone. -/
  | notModelled (mnemonic : String)
  /-- V14: a request opcode 0x0B to 0x0F or 0x15 to 0x1F; raised by the request port. -/
  | reservedOpcode
  /-- The request's bytes end before its operands; raised by the request port. -/
  | truncatedRequest
  /-- V16, R118: an illegal operand value; raised by the request port and by the meanings. -/
  | illegalOperand
  /-- V14: a micro-operation requested by the host; raised by the request port. -/
  | microFromHost
  /-- A host operation given as an inner request (`HostAct.micro`): V14 and R116 refuse only its converse,
  and R172 and R230 run host operations inside others. That such a request is refused is the model's (DESIGN
  CHOICE, assumption 41). Raised by `microRequest`; safe. -/
  | notAMicroOperation
  /-- V13: a bus operation before a successful INIT; raised by the admission check. -/
  | notInitialised
  /-- V15: RECEIVE of more than 256 bytes. -/
  | receiveTooLong
  /-- V15: CHIP_WRITE of more than `MAX_XFER` bytes. -/
  | aboveMaxXfer
  /-- V17: the divider search selects no pair. -/
  | noDividerPair
  /-- V18: SPEED_SET requested inside a bracket. -/
  | speedSetInBracket
  /-- V9: a command word with a reserved code reaches the engine, the nominal one or that of R300. -/
  | reservedCommand
  /-- V8: `TXCMD` is written when the transmit FIFO is full. -/
  | txFifoFull
  /-- V25: `TXCOUNT` reads greater than `FIFO_DEPTH`. -/
  | txCountOverDepth
  /-- V10: `handle.base` is not a multiple of 4. -/
  | misalignedBase
  /-- V10: a register access that is not 32 bits wide. -/
  | accessWidth
  /-- V10: a register access outside the eight offsets. -/
  | unmappedOffset
  /-- A read of `CLKCFG` or `TXCMD`, or a write of `FIFOSTAT` or `RXDATA`: R31 and R37 to R40 say that no
  operation makes one and give it no effect; that it is refused is the model's (DESIGN CHOICE,
  assumption 35). Raised by `loadReg` and `storeReg`; safe. -/
  | accessDirection
  /-- V20: the register space is not reachable (bus clock off). -/
  | busClockOff
  deriving DecidableEq, Repr

/-! ### The state -/

/-- The whole machine: the sequencer's registers, the controller, the agents around it, and the
model's own fields. -/
structure State where
  /-- The implementation parameters (R6); no step writes them. -/
  cfg : Config
  /-- The bus handle (R21). -/
  handle : Handle
  /-- The chip descriptor the host loaded last (R22; assumptions 25 and 38). -/
  chip : Chip
  /-- The phase register (R29). -/
  phase : Phase
  /-- An INIT has completed with OK (R29). -/
  inited : Bool
  /-- The result register (R30). -/
  result : Code
  /-- The working registers (R24 to R28). -/
  work : Work
  /-- `CTRL` bits 3:0: `MEN`, `RST`, `DOZEN`, `DBGEN` (R32). The other bits read 0. -/
  ctrl : BitVec 4
  /-- The named flags of `STATUS` (R33). -/
  flags : Status
  /-- The interrupt-enable register, which nothing writes (R34). -/
  mier : Word
  cfg0 : Word
  cfg1 : Word
  clkcfg : Word
  /-- The transmit FIFO, head first (R41). `FIFOSTAT.TXCOUNT` is its length (R38). -/
  txf : List CmdEntry
  /-- The receive FIFO, head first (R42). -/
  rxf : List Byte
  /-- The engine (R44 (a)). -/
  engine : Engine
  /-- The target on the bus, if one is attached (R44 (c), R308). -/
  target : Option Target
  /-- The free-running microsecond timer (R344); `Now()` is its low `TIMER_BITS` bits. -/
  timer : Nat
  /-- The host's byte space, which holds its buffers (R70 (4)): canonical (address, byte) pairs. -/
  mem : Memory
  /-- MODEL: a START has queued its word and no STOP has been requested since (R12 "bracket", R370). -/
  bracket : Bool
  /-- MODEL: what the host does next, in order (R20). -/
  host : List HostAct
  /-- MODEL: the environment's moves at each coming primitive; behind the list the nominal engine
  does one piece of work at each (assumption 3). A step without an act of the host leaves it alone
  (assumption 39). -/
  sched : List (List EnvMove)
  /-- MODEL: how far the timer advances before each coming `Now()`; behind the list, by 1 (assumption 4). -/
  ticks : List Nat
  /-- MODEL: how many free values have been drawn. -/
  draws : Nat
  /-- MODEL: the primitives of the operation run last, newest first (R9). -/
  trace : List Access
  deriving DecidableEq, Repr

/-- The engine idle, owning nothing (R47), at power-on and after a controller reset. R47 says no more: that
the direction bit is then that of a write (`dirRead` false) is the model's (DESIGN CHOICE, assumption 40). -/
def Engine.idle : Engine := ⟨false, 0, none⟩

/-- All nine flags clear (R47). -/
def Status.clear : Status := ⟨false, false, false, false, false, false, false, false, false⟩

/-- The platform's chip descriptor: the parameter `CHIP0` at its default (R6, R22, R258). -/
def chip0 : Chip := Config.default.chip0

/-- A nominal EEPROM that answers to `CHIP0`, its array unwritten (R308, R86; assumption 9). -/
def Target.platform : Target :=
  { addr := chip0.addr, mask := chip0.offsetMask, width := chip0.offsetWidth.toNat, size := 256,
    mem := [], ptr := 0, addressed := false, loaded := 0, acc := 0 }

/-- Power-on: column "power-on" of R47. The values R47 leaves unspecified (`result`, the handle, the
chip, the timer's count) are DESIGN CHOICES (assumption 1). -/
def State.reset : State where
  cfg := Config.default
  handle := ⟨0#8, 0#32, 0#32⟩
  chip := chip0
  phase := .idle
  inited := false
  result := .ok
  work := {}
  ctrl := 0#4
  flags := Status.clear
  mier := 0#32
  cfg0 := 0#32
  cfg1 := 0#32
  clkcfg := 0#32
  txf := []
  rxf := []
  engine := Engine.idle
  target := some Target.platform
  timer := 0
  mem := []
  bracket := false
  host := []
  sched := []
  ticks := []
  draws := 0
  trace := []

end Sys2Proof.Machine
end

