-- ==== Sys2Proof/Machine/Layout.lean ====
section
/-! DEFINITION. The controller's register layout: offsets (spec/10_state.md R31), field positions (R32
to R40) and the masks and words of spec/30_encoding.md R112 to R115. The numbers are the spec's own
decisions D1, D2, D27 and D30. -/

namespace Sys2Proof.Machine

/-- `OFF`: the byte offset of a register from `handle.base` (R31). -/
def Reg.off : Reg → Word
  | .ctrl => 0x10#32
  | .status => 0x14#32
  | .cfg0 => 0x20#32
  | .cfg1 => 0x24#32
  | .clkcfg => 0x48#32
  | .fifostat => 0x5C#32
  | .txcmd => 0x60#32
  | .rxdata => 0x70#32

/-- The register at a byte offset, if one of the eight stands there (R31, R90). -/
def regAtOff (o : Word) : Option Reg :=
  if o = Reg.ctrl.off then some .ctrl
  else if o = Reg.status.off then some .status
  else if o = Reg.cfg0.off then some .cfg0
  else if o = Reg.cfg1.off then some .cfg1
  else if o = Reg.clkcfg.off then some .clkcfg
  else if o = Reg.fifostat.off then some .fifostat
  else if o = Reg.txcmd.off then some .txcmd
  else if o = Reg.rxdata.off then some .rxdata
  else none

/-! ### Bits of `CTRL` (R32) -/

def bitMEN : Nat := 0
def bitRST : Nat := 1
def bitDOZEN : Nat := 2
def bitDBGEN : Nat := 3
def bitRTF : Nat := 8
def bitRRF : Nat := 9

/-! ### Bits of `STATUS` (R33) -/

def bitEPF : Nat := 8
def bitSDF : Nat := 9
def bitNDF : Nat := 10
def bitALF : Nat := 11
def bitFEF : Nat := 12
def bitPLTF : Nat := 13
def bitDMF : Nat := 14
def bitMBF : Nat := 24
def bitBBF : Nat := 25

/-! ### Bits of `CFG1` (R36) and `RXDATA` (R40) -/

def bitAUTOSTOP : Nat := 8
def bitIGNACK : Nat := 9
def bitRXEMPTY : Nat := 14

/-! ### Masks -/

/-- The bits of `STATUS` that a read shows: the nine flags (R33). -/
def statusNamed : Word := 0x03007F00#32

/-- The bits of `RXDATA` a read shows when the FIFO is empty (R40): `RXEMPTY`. -/
def rxEmptyNamed : Word := 0x00004000#32

/-- The bits of `RXDATA` a read shows when the FIFO is not empty (R40): `RXEMPTY` and `DATA`. -/
def rxDataNamed : Word := 0x000040FF#32

/-- `ERR_MASK = PLTF | ALF | NDF | FEF` (R114). -/
def errMask : Word := 0x00003C00#32

/-- `CLEAR_ALL`: every write-1-to-clear flag (R114). -/
def clearAll : Word := 0x00007F00#32

/-- `SDF_MASK` (R114). -/
def sdfMask : Word := 0x00000200#32

/-- `FIFO_RESET = RTF | RRF` (R114). -/
def fifoReset : Word := 0x00000300#32

/-- `HREN | HRPOL | HRSEL` of `CFG0` (R35). -/
def hostRequestMask : Word := 0x00000007#32

/-- `PINCFG | IGNACK` of `CFG1` (R36), which INIT writes 0. -/
def pinDefaultsMask : Word := 0x07000200#32

/-- `AUTOSTOP` of `CFG1` (R36). -/
def autostopMask : Word := 0x00000100#32

/-- `PRESCALE` of `CFG1` (R36). -/
def prescaleMask : Word := 0x00000007#32

/-- `MEN` of `CTRL` (R32). -/
def menMask : Word := 0x00000001#32

/-- The three `CTRL` words INIT writes first (R115). -/
def ctrlResetWord : Word := 0x00000002#32

/-- See `ctrlResetWord`. -/
def ctrlReleaseWord : Word := 0x00000000#32

/-- See `ctrlResetWord`: `DOZEN = 1`, `DBGEN = 0`, `MEN = 0`. -/
def ctrlModeWord : Word := 0x00000004#32

end Sys2Proof.Machine
end

