-- ==== Sys2Proof/Machine/Flags.lean ====
section
/-! DEFINITION. The flags: `STATUS` as a word and its write-1-to-clear rule (spec/10_state.md R33),
register words with open bits (R33, R40), the error decode and its priority (spec/43_poll_and_errors.md
R211, R212), and the result codes as numbers (spec/60_exceptions.md R321). -/

namespace Sys2Proof.Machine

/-- A word with one bit, if the flag is set. -/
def flagBit (b : Bool) (n : Nat) : Word := if b then BitVec.ofNat 32 (2 ^ n) else 0#32

/-- The nine named flags at their places in `STATUS` (R33). -/
def Status.word (f : Status) : Word :=
  flagBit f.epf bitEPF ||| flagBit f.sdf bitSDF ||| flagBit f.ndf bitNDF |||
  flagBit f.alf bitALF ||| flagBit f.fef bitFEF ||| flagBit f.pltf bitPLTF |||
  flagBit f.dmf bitDMF ||| flagBit f.mbf bitMBF ||| flagBit f.bbf bitBBF

/-- A write to `STATUS` clears exactly those of bits 14 to 8 at which the written word has a 1 and
changes nothing else (R33). -/
def Status.clearW1C (f : Status) (v : Word) : Status :=
  { f with
    epf := f.epf && !v.getLsbD bitEPF
    sdf := f.sdf && !v.getLsbD bitSDF
    ndf := f.ndf && !v.getLsbD bitNDF
    alf := f.alf && !v.getLsbD bitALF
    fef := f.fef && !v.getLsbD bitFEF
    pltf := f.pltf && !v.getLsbD bitPLTF
    dmf := f.dmf && !v.getLsbD bitDMF }

/-- The engine sets W1C flags, bit 0 of `w` being `EPF` and bit 6 `DMF`; it never clears one (R300). -/
def Status.raiseW1C (f : Status) (w : BitVec 7) : Status :=
  { f with
    epf := f.epf || w.getLsbD 0
    sdf := f.sdf || w.getLsbD 1
    ndf := f.ndf || w.getLsbD 2
    alf := f.alf || w.getLsbD 3
    fef := f.fef || w.getLsbD 4
    pltf := f.pltf || w.getLsbD 5
    dmf := f.dmf || w.getLsbD 6 }

/-- All W1C flags and `MBF` at their reset values. `BBF` follows the wires: what this master held is
released, what another agent holds stays busy (R47, R362, R363; assumption 11). -/
def Status.afterReset (f : Status) : Status :=
  { Status.clear with bbf := f.bbf && !f.mbf }

/-- A word read from a register: the bits the register shows (`named`), and bits that are any value. -/
structure RdWord where
  bits : Word
  named : Word
  openBits : Word
  deriving DecidableEq, Repr

/-- A read of which every bit is given by the register. -/
def RdWord.exact (w : Word) : RdWord := ⟨w, BitVec.allOnes 32, 0#32⟩

/-- The word as it is on the register bus. -/
def RdWord.word (r : RdWord) : Word := (r.bits &&& r.named) ||| (r.openBits &&& ~~~r.named)

/-- One bit of the word. -/
def RdWord.bit (r : RdWord) (n : Nat) : Bool :=
  if r.named.getLsbD n then r.bits.getLsbD n else r.openBits.getLsbD n

/-- `v[7:0]` (R72). -/
def RdWord.low8 (r : RdWord) : Byte :=
  if r.named &&& 0xFF#32 = 0xFF#32 then r.bits.setWidth 8 else r.word.setWidth 8

/-- The bits the register names, the others 0: what the trace shows. -/
def RdWord.shown (r : RdWord) : Word := r.bits &&& r.named

/-- The error decode of one status word: the first set flag in the order pin-low timeout, arbitration
lost, NACK, FIFO error; OK if none is set (R211, R212, R334). -/
def errorOf (s : RdWord) : Code :=
  if s.bit bitPLTF then .pinLowTimeout
  else if s.bit bitALF then .arbLost
  else if s.bit bitNDF then .nack
  else if s.bit bitFEF then .fifo
  else .ok

/-- The stuck-bus test of one status word: `BBF = 1` and `MBF = 0` (R170). -/
def stuckOf (s : RdWord) : Bool := s.bit bitBBF && !s.bit bitMBF

/-- The number of a result code (R321). -/
def Code.number : Code → BitVec 4
  | .ok => 0#4
  | .busBusy => 1#4
  | .timeout => 2#4
  | .nack => 3#4
  | .arbLost => 4#4
  | .fifo => 5#4
  | .pinLowTimeout => 6#4
  | .invalidOffsetCfg => 7#4
  | .magic => 8#4
  | .crc => 9#4
  | .formatOld => 10#4
  | .divider => 11#4

/-- "First error wins": an earlier error is kept, OK is replaced (R234). -/
def firstError (earlier later : Code) : Code := if earlier = .ok then later else earlier

end Sys2Proof.Machine
end

