-- ==== Sys2Proof/Machine/Operands.lean ====
section
/-! DEFINITION. Operand assembly (spec/30_encoding.md section 3): offset bytes, the folded target
address, the staging buffer, descriptor flags; the divider's rate function, error and timing word
(spec/40_init_and_divider.md R144 to R148); the CRC step (spec/46_integrity.md R280). -/

namespace Sys2Proof.Machine

/-! ### Descriptors -/

/-- `chip.flags` bit 1, `RD_BYTEWISE` (R107). -/
def rdBytewise (c : Chip) : Bool := c.flags.getLsbD 1

/-- `chip.flags` bit 2, `WR_BYTEWISE` (R107). -/
def wrBytewise (c : Chip) : Bool := c.flags.getLsbD 2

/-- `chip.offset_width` as a number of bytes (R107). -/
def offsetWidth (c : Chip) : Nat := c.offsetWidth.toNat

/-- `msg.flags` bit 0, `RD` (R106). -/
def msgIsRead (m : Msg) : Bool := m.flags.getLsbD 0

/-- A host message as the dispatcher runs it: its 7-bit address, direction, length and host buffer
(R23, R106). -/
def busMsg (m : Msg) : BusMsg :=
  if msgIsRead m then .read (m.addr.setWidth 7) m.len.toNat (.host m.buf)
  else .write (m.addr.setWidth 7) (.host m.buf m.len.toNat)

/-! ### Offsets -/

/-- `OFFSET(o, w)`: the low `w` bytes of the offset, most significant first (R108). -/
def offsetBytes (w : Nat) (o : Word) : List Byte :=
  (List.range w).map fun t => BitVec.ofNat 8 (o.toNat >>> (8 * (w - 1 - t)))

/-- The inverse of `offsetBytes` (R110). -/
def offsetOfBytes (bs : List Byte) : Nat := bs.foldl (fun acc b => acc * 256 + b.toNat) 0

/-- `A(o) = chip.addr | ((o >> 8w) & chip.offset_mask)`, the shift a mathematical one (R109). -/
def foldedAddr (c : Chip) (o : Word) : BitVec 7 :=
  c.addr ||| (BitVec.ofNat 7 (o.toNat >>> (8 * offsetWidth c)) &&& c.offsetMask)

/-- `STAGE`: the offset bytes, then the payload (R111). -/
def stageBytes (c : Chip) (o : Word) (payload : List Byte) : List Byte :=
  offsetBytes (offsetWidth c) o ++ payload

/-- `o + i` in the offset space, 32-bit addition, wrapping: R252 says so for the bytewise forms; for the
`start + j` of CRC32_REGION it is the model's reading (DEDUCED, assumption 34). -/
def offsetPlus (o : Word) (i : Nat) : Word := o + BitVec.ofNat 32 i

/-! ### Command words on `TXCMD` (R101 to R104) -/

/-- The word START writes: `0x400 | (addr << 1) | dir` (R173). -/
def startWord (a : BitVec 7) (d : Dir) : Word := (encodeCmd (.start a d)).setWidth 32

/-- The word RECEIVE writes: `0x100 | (len - 1)` (R103). -/
def receiveWord (len : Nat) : Word := (encodeCmd (.receive (BitVec.ofNat 8 (len - 1)))).setWidth 32

/-- The word SEND writes: `zext_32(b)` (R190). -/
def dataWord (b : Byte) : Word := (encodeCmd (.txdata b)).setWidth 32

/-- The word STOP writes: `0x200` (R174). -/
def stopWord : Word := (encodeCmd .stop).setWidth 32

/-! ### The divider (R144 to R148) -/

/-- `RATE(p, c)` for the source clock `clk` (R144). -/
def rateOf (clk p c : Nat) : Nat :=
  if c = 1 then clk / p / (1 + 3 + 2 + 2 / p) else clk / p / (3 * c + 2 + 2 / p)

/-- The absolute difference of two unsigned values (R145). -/
def absDiff (a b : Nat) : Nat := if b < a then a - b else b - a

/-- The prescalers in search order (R146). -/
def prescalers : List Nat := [1, 2, 4, 8, 16, 32, 64, 128]

/-- The counts in search order (R146). -/
def counts : List Nat := List.range' 1 31

/-- Nothing tested, nothing chosen; the best error starts at 0xFFFFFFFF (R146). -/
def DivRegs.start : DivRegs := ⟨0, 0, 0, 0, 0, 0, 0xFFFFFFFF, false⟩

/-- Test one pair: it replaces the best so far if its error is strictly smaller (R146). -/
def DivRegs.try (d : DivRegs) (clk speed p c : Nat) : DivRegs :=
  let rate := rateOf clk p c
  let err := absDiff rate speed
  if err < d.bestErr then ⟨p, c, rate, err, p, c, err, true⟩
  else ⟨p, c, rate, err, d.bestP, d.bestC, d.bestErr, d.chosen⟩

/-- The count loop for one prescaler; a new pair of error 0 ends it (R147). -/
def searchCounts (clk speed p : Nat) (cs : List Nat) (d : DivRegs) : DivRegs :=
  match cs with
  | [] => d
  | c :: r =>
    let e := d.try clk speed p c
    if e.err < d.bestErr ∧ e.err = 0 then e else searchCounts clk speed p r e

/-- The prescaler loop; it ends when the best error is 0 (R143, R147). -/
def searchPrescalers (clk speed : Nat) (ps : List Nat) (d : DivRegs) : DivRegs :=
  match ps with
  | [] => d
  | p :: r =>
    if d.bestErr = 0 then d else searchPrescalers clk speed r (searchCounts clk speed p counts d)

/-- The whole search of R143. -/
def dividerSearch (clk speed : Nat) : DivRegs := searchPrescalers clk speed prescalers DivRegs.start

/-- `CLKLO`: doubled, or 3 (R148). -/
def clkLo (c : Nat) : Nat := if 2 ≤ c then 2 * c else 3

/-- `SETHOLD`: the count, or 2 (R148). -/
def setHold (c : Nat) : Nat := if 2 ≤ c then c else 2

/-- `DATAVD`: halved, or 1 (R148). -/
def dataVd (c : Nat) : Nat := if 2 ≤ c then c / 2 else 1

/-- `CLKCFGWORD(c)`: `(DATAVD << 24) | (SETHOLD << 16) | (c << 8) | CLKLO` (R113). -/
def clkcfgWord (c : Nat) : Word :=
  BitVec.ofNat 32 (dataVd c) <<< 24 ||| BitVec.ofNat 32 (setHold c) <<< 16 |||
  BitVec.ofNat 32 c <<< 8 ||| BitVec.ofNat 32 (clkLo c)

/-- `v with PRESCALE = log2(p)` (R112). -/
def withPrescale (v : Word) (p : Nat) : Word :=
  (v &&& ~~~prescaleMask) ||| BitVec.ofNat 32 (Nat.log2 p)

/-! ### Integrity (R280) -/

/-- One bit of the reflected CRC: shift right, reduce by 0xEDB88320 (R280). -/
def crcBitReflected (x : Word) : Word :=
  if x.getLsbD 0 then (x >>> 1) ^^^ 0xEDB88320#32 else x >>> 1

/-- One bit of the CRC taken most significant bit first: shift left, reduce by 0x04C11DB7 (R280). -/
def crcBitMsbFirst (x : Word) : Word :=
  if x.getLsbD 31 then (x <<< 1) ^^^ 0x04C11DB7#32 else x <<< 1

/-- Apply a function `n` times. -/
def applyN (f : Word → Word) (n : Nat) (x : Word) : Word :=
  match n with
  | 0 => x
  | n + 1 => applyN f n (f x)

/-- CRC32_UPDATE in the reading the parameter `CRC_VARIANT` selects (R280). -/
def crcUpdate (v : CrcVariant) (crc : Word) (b : Byte) : Word :=
  match v with
  | .zlib => applyN crcBitReflected 8 (crc ^^^ 0xFFFFFFFF#32 ^^^ b.setWidth 32) ^^^ 0xFFFFFFFF#32
  | .raw0 => applyN crcBitReflected 8 (crc ^^^ b.setWidth 32)
  | .msb0 => applyN crcBitMsbFirst 8 (crc ^^^ b.setWidth 32 <<< 24)

/-! ### Time (R215) -/

/-- Ticks elapsed, on `TIMER_BITS`-bit unsigned values (R215, R382). -/
def elapsed (cfg : Config) (now t0 : Nat) : Nat :=
  (now + 2 ^ cfg.timerBits - t0) % 2 ^ cfg.timerBits

end Sys2Proof.Machine
end

