-- ==== Sys2Proof/Machine/Memory.lean ====
section
/-! DEFINITION. A byte space as a list of (address, byte) pairs in one canonical form: addresses
strictly rising, no entry equal to what an unlisted address reads as. The host's buffers
(spec/20_memory.md R70 (4)) and the target's array (spec/47_command_words.md R308) are held so. -/

namespace Sys2Proof.Machine

/-- What an address nothing has written reads as. The spec gives no initial content of a host buffer
or of the target's array (R46, V24): DESIGN CHOICE, assumption 10. -/
def Memory.fresh : Byte := 0#8

/-- Read one byte. -/
def Memory.read (m : Memory) (a : Nat) : Byte :=
  match m with
  | [] => Memory.fresh
  | (k, b) :: r => if k = a then b else Memory.read r a

/-- Write one byte; writing what an unlisted address reads as removes the entry. -/
def Memory.write (m : Memory) (a : Nat) (v : Byte) : Memory :=
  match m with
  | [] => if v = Memory.fresh then [] else [(a, v)]
  | (k, b) :: r =>
    if a < k then (if v = Memory.fresh then (k, b) :: r else (a, v) :: (k, b) :: r)
    else if a = k then (if v = Memory.fresh then r else (a, v) :: r)
    else (k, b) :: Memory.write r a v

/-- The canonical form. -/
def Memory.wf (m : Memory) : Bool :=
  match m with
  | [] => true
  | (k, b) :: r => b != Memory.fresh && r.all (fun c => decide (k < c.1)) && Memory.wf r

/-- The address `i` bytes behind `addr` in the host's byte space, which is 32 bits wide and wraps
(assumption 8). -/
def hostAddr (addr : Word) (i : Nat) : Nat := (addr.toNat + i) % 2 ^ 32

/-- Write bytes at consecutive addresses of the host's byte space, from `i` bytes behind `addr` on
(R20, R89). -/
def Memory.writeBytes (m : Memory) (addr : Word) (i : Nat) (bs : List Byte) : Memory :=
  match bs with
  | [] => m
  | b :: r => Memory.writeBytes (m.write (hostAddr addr i) b) addr (i + 1) r

end Sys2Proof.Machine
end

