-- ==== Sys2Proof/Machine/Target.lean ====
section
/-! DEFINITION. The nominal target, an EEPROM (spec/47_command_words.md R308): which address bytes it
acknowledges, how offset bytes load its pointer, and how data bytes move. -/

namespace Sys2Proof.Machine

/-- It acknowledges its own address and, with folding, every address `addr | x` for `x` within the
mask (R308). -/
def Target.answers (t : Target) (a : BitVec 7) : Bool := a == (t.addr ||| (a &&& t.mask))

/-- A START in write direction that it acknowledged: the folded address bits become the bits of the
pointer above `8w`. With no offset byte to come and a mask, that is the whole pointer; with neither
nothing loads it (R308; assumption 12). -/
def Target.startWrite (t : Target) (a : BitVec 7) : Target :=
  let fold := (a &&& t.mask).toNat
  { t with
    addressed := true
    loaded := 0
    acc := fold
    ptr := if t.width = 0 ∧ t.mask ≠ 0#7 then fold % t.size else t.ptr }

/-- A START in read direction that it acknowledged leaves the pointer (R308, R363). -/
def Target.startRead (t : Target) : Target := { t with addressed := true }

/-- The bus was released, or another device was addressed. -/
def Target.release (t : Target) : Target := { t with addressed := false }

/-- A data byte in write direction: the first `width` bytes load the pointer, most significant first;
each further byte is stored at the pointer, which advances and wraps at the size (R308). -/
def Target.putByte (t : Target) (b : Byte) : Target :=
  if t.loaded < t.width then
    let acc := t.acc * 256 + b.toNat
    { t with
      acc := acc
      loaded := t.loaded + 1
      ptr := if t.loaded + 1 = t.width then acc % t.size else t.ptr }
  else { t with mem := t.mem.write t.ptr b, ptr := (t.ptr + 1) % t.size }

/-- A byte read in read direction: the byte at the pointer, which advances and wraps (R308). -/
def Target.getByte (t : Target) : Byte × Target :=
  (t.mem.read t.ptr, { t with ptr := (t.ptr + 1) % t.size })

end Sys2Proof.Machine
end

