-- ==== Sys2Proof/Machine/Commands.lean ====
section
/-! DEFINITION. The four command words as the nominal engine executes them
(spec/47_command_words.md R301 to R304, R308 to R311). A command word's meaning is what happens when
it stands at the head of the transmit FIFO. -/

namespace Sys2Proof.Machine

/-! ### Shared operations of the engine -/

/-- `CTRL.MEN = 1` and `CTRL.RST = 0`: the engine runs (R300, R309, R310). -/
def engineOn (s : State) : Bool := s.ctrl.getLsbD bitMEN && !s.ctrl.getLsbD bitRST

/-- The engine may take a word: it runs and has no receive and no start in progress (R302, R304). -/
def engineReady (s : State) : Bool :=
  engineOn s && s.engine.recvLeft == 0 && s.engine.pendingStart.isNone

/-- This master owns the bus (R44, R306). -/
def ownsBus (s : State) : Bool := s.flags.mbf

/-- The engine removes the head of the transmit FIFO. -/
def popTx (s : State) : State := { s with txf := s.txf.tail }

/-- A STOP condition on the bus: `SDF` is set, `MBF` and `BBF` are cleared, the target is released
(R303). -/
def busStop (s : State) : State :=
  { s with
    flags := { s.flags with sdf := true, mbf := false, bbf := false }
    target := s.target.map Target.release }

/-- A byte was not acknowledged: `NDF` is set and the engine stops by itself, unless `CFG1.IGNACK`
makes it treat a NACK as an ACK (R301, R304, R36). -/
def busNack (s : State) : State :=
  if s.cfg1.getLsbD bitIGNACK then s
  else busStop { s with flags := { s.flags with ndf := true } }

/-- A command word out of order: `FEF` is set (R301, R302). -/
def fifoError (s : State) : State := { s with flags := { s.flags with fef := true } }

/-- The bus is busy and this master does not own it: a start waits (R304). -/
def busTaken (s : State) : Bool := s.flags.bbf && !s.flags.mbf

/-- The engine puts a START or repeated START on the bus and sends the address byte; its bit 0 sets
the direction of what follows (R304). -/
def sendAddress (data : Byte) (s : State) : State :=
  let s := { s with
    flags := { s.flags with mbf := true, bbf := true }
    engine := { s.engine with dirRead := data.getLsbD 0, pendingStart := none } }
  let a : BitVec 7 := data.extractLsb' 1 7
  match s.target with
  | some t =>
    if t.answers a then
      { s with target := some (if data.getLsbD 0 then t.startRead else t.startWrite a) }
    else busNack { s with target := some t.release }
  | none => busNack s

/-- A start command that was taken: it goes out at once, or waits for a free bus (R304). -/
def beginStart (data : Byte) (s : State) : State :=
  if busTaken s then { s with engine := { s.engine with pendingStart := some data } }
  else sendAddress data s

/-- One byte to the addressed target, and its acknowledge: a target acknowledges every byte; no
addressed target is a NACK (R301, R308). -/
def sendByte (data : Byte) (s : State) : State :=
  match s.target with
  | some t => if t.addressed then { s with target := some (t.putByte data) } else busNack s
  | none => busNack s

/-- One byte from the bus: the addressed target's, or any value if none drives the wire (R308, V24). -/
def readBus (s : State) : Byte × State :=
  match s.target with
  | some t =>
    if t.addressed then ((t.getByte).1, { s with target := some (t.getByte).2 })
    else (Config.floatByte s.draws, { s with draws := s.draws + 1 })
  | none => (Config.floatByte s.draws, { s with draws := s.draws + 1 })

/-- The receive in progress: byte after byte into the receive FIFO; the engine waits while it is full
(R302). `n` bytes are left. -/
def deliver (n : Nat) (s : State) : State :=
  match n with
  | 0 => { s with engine := { s.engine with recvLeft := 0 } }
  | n + 1 =>
    if s.rxf.length < s.cfg.fifoDepth then
      deliver n { (readBus s).2 with rxf := s.rxf ++ [(readBus s).1] }
    else { s with engine := { s.engine with recvLeft := n + 1 } }

/-! ### The four meanings -/

/-- CMD_TXDATA (R301): out of a write bracket it sets `FEF` (R301, V21; assumption 13). -/
def execCmdTxdata (data : Byte) (s : State) : Host.Outcome State Fault Refusal :=
  .next (if engineReady s then
      (if ownsBus s && !s.engine.dirRead then sendByte data (popTx s) else fifoError (popTx s))
    else s)

/-- CMD_RECEIVE (R302): `count + 1` bytes, or `FEF` out of a read bracket. -/
def execCmdReceive (count : Byte) (s : State) : Host.Outcome State Fault Refusal :=
  .next (if engineReady s then
      (if ownsBus s && s.engine.dirRead then deliver (count.toNat + 1) (popTx s)
       else fifoError (popTx s))
    else s)

/-- CMD_STOP (R303): dropped if this master does not own the bus. -/
def execCmdStop (s : State) : Host.Outcome State Fault Refusal :=
  .next (if engineReady s then (if ownsBus s then busStop (popTx s) else popTx s) else s)

/-- CMD_START (R304). -/
def execCmdStart (addr : BitVec 7) (dir : Dir) (s : State) : Host.Outcome State Fault Refusal :=
  .next (if engineReady s then beginStart (addrByte addr dir) (popTx s) else s)

end Sys2Proof.Machine
end

