-- ==== Sys2Proof/Machine/Engine.lean ====
section
/-! DEFINITION. The environment between two primitives (spec/00_scope.md R9, spec/10_state.md R20): the
nominal engine's next piece of work (spec/47_command_words.md R301 to R304, R309 to R311) and the moves
of the unconstrained contract (R300, R305, R306). -/

namespace Sys2Proof.Machine

/-- Execute one decoded command word. -/
def runCmd (c : Cmd) (s : State) : Host.Outcome State Fault Refusal :=
  match c with
  | .txdata d => execCmdTxdata d s
  | .receive n => execCmdReceive n s
  | .stop => execCmdStop s
  | .start a d => execCmdStart a d s

/-- What the engine does when it has no word to take: a receive in progress goes on, a waiting start
goes out once the bus is free, and with `CFG1.AUTOSTOP = 1` an owned bus is stopped when the transmit
FIFO has run empty (R302, R304, R311, R36). -/
def engineContinue (s : State) : State :=
  if !engineOn s then s
  else if s.engine.recvLeft ≠ 0 then deliver s.engine.recvLeft s
  else
    match s.engine.pendingStart with
    | some data => if busTaken s then s else sendAddress data s
    | none => if s.txf.isEmpty && s.cfg1.getLsbD bitAUTOSTOP && ownsBus s then busStop s else s

/-- The command word the engine takes next, if it may take one and one is queued. -/
def nextEntry (s : State) : Option CmdEntry := if engineReady s then s.txf.head? else none

/-- One piece of the nominal engine's work. A word with a reserved code is refused (R105). -/
def engineMove (s : State) : Host.Outcome State Fault Refusal :=
  match nextEntry s with
  | some w =>
    match decodeCmd w with
    | some c => runCmd c s
    | none => .refused .reservedCommand
  | none => .next (engineContinue s)

/-- The head of the transmit FIFO is removed, if there is one (R300 (a)). A word with a reserved code is
refused, whoever the engine that takes it (R105, V9). -/
def takeWord (s : State) : Host.Outcome State Fault Refusal :=
  match s.txf with
  | [] => .next s
  | w :: _ => if (decodeCmd w).isSome then .next (popTx s) else .refused .reservedCommand

/-- One move of the environment. What the contract does not allow in the present state (taking a word
or delivering a byte while the master is disabled, a byte into a full FIFO, a flag while the
controller is held in reset) does not happen (R300, R362). -/
def envMove (m : EnvMove) (s : State) : Host.Outcome State Fault Refusal :=
  match m with
  | .engine => engineMove s
  | .take => if engineOn s then takeWord s else .next s
  | .raiseFlags w =>
    .next (if s.ctrl.getLsbD bitRST then s else { s with flags := s.flags.raiseW1C w })
  | .busy mbf bbf =>
    .next { s with flags := { s.flags with mbf := mbf && !s.ctrl.getLsbD bitRST, bbf := bbf } }
  | .deliver b =>
    .next (if engineOn s && decide (s.rxf.length < s.cfg.fifoDepth)
      then { s with rxf := s.rxf ++ [b] } else s)

/-- The moves of one gap between primitives, in order. -/
def envMoves (ms : List EnvMove) (s : State) : Host.Outcome State Fault Refusal :=
  match ms with
  | [] => .next s
  | m :: r =>
    match envMove m s with
    | .next s' => envMoves r s'
    | .fault f => .fault f
    | .refused e => .refused e

/-- The environment's turn before a primitive (R9): the moves scheduled for it, or, behind the end of
the schedule, one piece of the nominal engine's work (assumption 3). -/
def envSlot (s : State) : Host.Outcome State Fault Refusal :=
  match s.sched with
  | [] => engineMove s
  | ms :: r => envMoves ms { s with sched := r }

end Sys2Proof.Machine
end

