-- ==== Sys2Proof/Machine/Ops.lean ====
section
/-! DEFINITION. The named operations every meaning is built from: the primitives `MemRead`, `MemWrite`,
`RegRead`, `RegWrite` and `Now` with their side effects (spec/00_scope.md R8, R9; spec/20_memory.md R71 to
R79, R90; spec/10_state.md R31 to R42), taking an error (`raise`) and ending an operation
(spec/60_exceptions.md R320, R337), admission (R339). -/

namespace Sys2Proof.Machine

/-! ### Sequencing -/

/-- A part of an operation: it answers a value and the state it leaves, or the machine stops. -/
abbrev Run (α : Type) := Host.Outcome (α × State) Fault Refusal

/-- Nothing more to do. -/
def done {α : Type} (a : α) (s : State) : Run α := .next (a, s)

/-- One part after another; a stop ends the whole. -/
def andThen {α β : Type} (m : Run α) (k : α → State → Run β) : Run β :=
  match m with
  | .next p => k p.1 p.2
  | .fault f => .fault f
  | .refused r => .refused r

/-- Write working registers (R24 to R28). -/
def note (f : Work → Work) (s : State) : State := { s with work := f s.work }

/-- Record a primitive. -/
def logged (a : Access) (s : State) : State := { s with trace := a :: s.trace }

/-! ### The controller's registers -/

/-- The controller is held in reset: `CTRL.RST = 1` (R32, R362). -/
def heldInReset (s : State) : Bool := s.ctrl.getLsbD bitRST

/-- The controller software reset: everything but `CTRL` at its reset value, both FIFOs empty, the
engine stopped and the wires released. The sequencer's registers, the timer and the target are not
touched (R47, R310, R362). The engine's direction bit becomes that of a write (DESIGN CHOICE, assumption
40). -/
def controllerReset (s : State) : State :=
  { s with
    flags := s.flags.afterReset
    mier := 0#32
    cfg0 := 0#32
    cfg1 := 0#32
    clkcfg := 0#32
    txf := []
    rxf := []
    engine := Engine.idle }

/-- A write to `CTRL`: `MEN`, `RST`, `DOZEN`, `DBGEN` are stored; `RTF` and `RRF` empty the FIFOs;
`RST = 1` resets the rest of the controller (R32, R78). -/
def writeCtrl (v : Word) (s : State) : State :=
  let s := { s with ctrl := v.setWidth 4 }
  if v.getLsbD bitRST then controllerReset s
  else { s with
    txf := if v.getLsbD bitRTF then [] else s.txf
    rxf := if v.getLsbD bitRRF then [] else s.rxf }

/-- `FIFOSTAT`: `TXCOUNT` in bits 2:0, `RXCOUNT` in bits 18:16 (R38). -/
def fifostatWord (s : State) : Word :=
  (BitVec.ofNat 3 s.txf.length).setWidth 32 |||
  (BitVec.ofNat 3 s.rxf.length).setWidth 32 <<< 16

/-- A read of a register and its side effect (R78): `RXDATA` removes the head of the receive FIFO if
it holds one (R40). No operation reads `CLKCFG` or `TXCMD` (R31, R37, R39); what such a read would do the
spec does not say, and the model refuses it (DESIGN CHOICE, assumption 35). -/
def loadReg (r : Reg) (s : State) : Run RdWord :=
  match r with
  | .ctrl => done (.exact (s.ctrl.setWidth 32)) s
  | .status =>
    done ⟨s.flags.word, statusNamed, Config.openBits s.draws⟩ { s with draws := s.draws + 1 }
  | .cfg0 => done (.exact s.cfg0) s
  | .cfg1 => done (.exact s.cfg1) s
  | .clkcfg => .refused .accessDirection
  | .fifostat => done (.exact (fifostatWord s)) s
  | .txcmd => .refused .accessDirection
  | .rxdata =>
    match s.rxf with
    | [] =>
      done ⟨flagBit true bitRXEMPTY, rxEmptyNamed, Config.openBits s.draws⟩
        { s with draws := s.draws + 1 }
    | b :: r =>
      done ⟨b.setWidth 32, rxDataNamed, Config.openBits s.draws⟩
        { s with rxf := r, draws := s.draws + 1 }

/-- A write of a register and its side effect (R78). While the controller is held in reset only `CTRL`
takes a write (R32). A `TXCMD` write pushes the low 11 bits; onto a full FIFO it has no meaning (R39).
No operation writes `FIFOSTAT` or `RXDATA` (R31, R38, R40); what such a write would do the spec does not
say, and the model refuses it (DESIGN CHOICE, assumption 35). -/
def storeReg (r : Reg) (v : Word) (s : State) : Run Unit :=
  match r with
  | .ctrl => done () (writeCtrl v s)
  | .status => done () { s with flags := s.flags.clearW1C v }
  | .cfg0 => done () (if heldInReset s then s else { s with cfg0 := v })
  | .cfg1 => done () (if heldInReset s then s else { s with cfg1 := v })
  | .clkcfg => done () (if heldInReset s then s else { s with clkcfg := v })
  | .fifostat => .refused .accessDirection
  | .txcmd =>
    if heldInReset s then done () s
    else if s.txf.length < s.cfg.fifoDepth then
      done () { s with txf := s.txf ++ [v.setWidth 11] }
    else .refused .txFifoFull
  | .rxdata => .refused .accessDirection

/-- Which register an access of `width` bytes at `addr` reaches. Refused: an unreachable register space
(R364), a base that is not a multiple of 4 (R73; here and not when the base is loaded: DESIGN CHOICE,
assumption 32), another width than 4 bytes or an offset outside the eight (R72, R90). The offset is the
address minus the base modulo 2 to the 32 (DESIGN CHOICE, assumption 37). -/
def regAccess (addr : Word) (width : Nat) (s : State) : Except Refusal Reg :=
  if !s.cfg.busClock then .error .busClockOff
  else if s.handle.base &&& 3#32 ≠ 0#32 then .error .misalignedBase
  else if width ≠ 4 then .error .accessWidth
  else
    match regAtOff (addr - s.handle.base) with
    | some r => .ok r
    | none => .error .unmappedOffset

/-- `MemRead(addr, width)` on the register space (R8, R71). -/
def memRead (addr : Word) (width : Nat) (s : State) : Run RdWord :=
  match regAccess addr width s with
  | .ok r => andThen (loadReg r s) fun v s => done v (logged (.rd r v.shown) s)
  | .error e => .refused e

/-- `MemWrite(addr, width, v)` on the register space (R8, R71). -/
def memWrite (addr : Word) (width : Nat) (v : Word) (s : State) : Run Unit :=
  match regAccess addr width s with
  | .ok r => andThen (storeReg r v s) fun _ s => done () (logged (.wr r v) s)
  | .error e => .refused e

/-! ### The primitives of an operation -/

/-- The environment's turn, then a primitive (R9). -/
def afterGap {α : Type} (k : State → Run α) (s : State) : Run α :=
  match envSlot s with
  | .next s' => k s'
  | .fault f => .fault f
  | .refused r => .refused r

/-- `RegRead(REG)` is `MemRead(handle.base + OFF(REG), 4)` (R8, R71). The sum is taken modulo 2 to the 32
(DESIGN CHOICE, assumption 37). -/
def regRead (r : Reg) (s : State) : Run RdWord :=
  afterGap (fun s => memRead (s.handle.base + r.off) 4 s) s

/-- `RegWrite(REG, v)` is `MemWrite(handle.base + OFF(REG), 4, v)` (R8, R71). The sum is taken modulo 2 to
the 32 (DESIGN CHOICE, assumption 37). -/
def regWrite (r : Reg) (v : Word) (s : State) : Run Unit :=
  afterGap (fun s => memWrite (s.handle.base + r.off) 4 v s) s

/-- The timer before a read: it advances by the next scheduled amount, or by 1 (R344, assumption 4). -/
def tickTimer (s : State) : State :=
  match s.ticks with
  | [] => { s with timer := s.timer + 1 }
  | d :: r => { s with timer := s.timer + d, ticks := r }

/-- The count a timer read returns: `TIMER_BITS` bits (R344, R382). -/
def timerCount (s : State) : Nat := s.timer % 2 ^ s.cfg.timerBits

/-- `Now()`: one read of the timer (R8, R344). -/
def now (s : State) : Run Nat :=
  afterGap (fun s =>
    done (timerCount (tickTimer s)) (logged (.now (timerCount (tickTimer s))) (tickTimer s))) s

/-- How many iterations a polling loop may make before its timer must have exceeded the budget: each
iteration reads the timer once, and behind the scheduled advances every read advances it by 1. A loop
that is still going then never ends (R216, V5). -/
def pollFuel (budget : Nat) (s : State) : Nat := s.ticks.length + budget + 2

/-! ### Ending an operation -/

/-- `raise`: taking an error. The phase becomes Error, the code goes to `result`, the operation ends
with it; nothing is saved and control goes nowhere (R8, R320, R337). There is no return from it
(R343): the next request is served as usual (R339). -/
def raiseError (c : Code) (s : State) : Run Code :=
  done c { s with phase := .error, result := c }

/-- An operation begins: the working registers hold no value (R46). -/
def beginOp (s : State) : State := { s with work := {}, trace := [] }

/-- An operation ends: its code is in `result` and the working registers hold no value (R30, R46). -/
def finish (m : Run Code) : Host.Outcome State Fault Refusal :=
  match m with
  | .next p => .next { p.2 with result := p.1, work := {} }
  | .fault f => .fault f
  | .refused r => .refused r

/-- A micro-operation that answers a code ends: the code is in `result`, and the working registers go
back to the operation it is part of (R8, R342). -/
def finishMicro (m : Run Code) : Host.Outcome State Fault Refusal :=
  match m with
  | .next p => .next { p.2 with result := p.1 }
  | .fault f => .fault f
  | .refused r => .refused r

/-- Admission of a bus operation: only after an INIT has succeeded (R339, R372). -/
def ifInited (s : State) (k : Host.Outcome State Fault Refusal) :
    Host.Outcome State Fault Refusal :=
  if s.inited then k else .refused .notInitialised

/-- An operand that is no legal value is refused (R118). -/
def ifLegal (ok : Bool) (k : Host.Outcome State Fault Refusal) :
    Host.Outcome State Fault Refusal :=
  if ok then k else .refused .illegalOperand

end Sys2Proof.Machine
end

