-- ==== Sys2Proof/Machine/Poll.lean ====
section
/-! DEFINITION. The two polling micro-operations (spec/43_poll_and_errors.md): CHECK_CLEAR_ERROR (R211
to R213) and WAIT_TX_SPACE (R210, R214 to R219). -/

namespace Sys2Proof.Machine

/-- A decoded error clears all status flags and resets both FIFOs, in that order, `CTRL` by a
read-modify-write (R213). -/
def clearError (e : Code) (s : State) : Run Code :=
  andThen (regWrite .status clearAll s) fun _ s =>
  andThen (regRead .ctrl s) fun v s =>
  andThen (regWrite .ctrl (v.word ||| fifoReset) s) fun _ s =>
  done e s

/-- CHECK_CLEAR_ERROR: a single status read, decoded; any error has the side effect of R213 (R211). -/
def checkClearError (s : State) : Run Code :=
  andThen (regRead .status s) fun v s =>
  let s := note (fun w => { w with s := some v.word }) s
  if errorOf v = .ok then done .ok s else clearError (errorOf v) s

/-- `FIFOSTAT.TXCOUNT` of a word read (R38). -/
def txCount (f : RdWord) : Nat := (f.word.extractLsb' 0 3).toNat

/-- The loop of WAIT_TX_SPACE: sample the FIFO count, decode errors, test the timer, test the space
(R210). -/
def txWaitLoop (fuel : Nat) (t0 : Nat) (s : State) : Run Code :=
  match fuel with
  | 0 => .fault .pollStuck
  | fuel + 1 =>
    andThen (regRead .fifostat s) fun f s =>
    if s.cfg.fifoDepth < txCount f then .refused .txCountOverDepth
    else
      andThen (checkClearError
        (note (fun w => { w with space := some (s.cfg.fifoDepth - txCount f) }) s)) fun e s =>
      if e ≠ .ok then done e s
      else
        andThen (now s) fun t s =>
        if s.cfg.tPoll < elapsed s.cfg t t0 then done .timeout s
        else if s.cfg.fifoDepth - txCount f ≠ 0 then done .ok s
        else txWaitLoop fuel t0 s

/-- WAIT_TX_SPACE (R210). -/
def waitTxSpace (s : State) : Run Code :=
  andThen (now s) fun t0 s =>
  txWaitLoop (pollFuel s.cfg.tPoll s) t0 (note (fun w => { w with t0 := some t0 }) s)

/-- WAIT_TX_SPACE as an instruction; it is admitted always and does not touch the phase (R210, R339). -/
def execWaitTxSpace (s : State) : Host.Outcome State Fault Refusal :=
  finishMicro (waitTxSpace (beginOp s))

/-- CHECK_CLEAR_ERROR as an instruction (R211, R339). -/
def execCheckClearError (s : State) : Host.Outcome State Fault Refusal :=
  finishMicro (checkClearError (beginOp s))

end Sys2Proof.Machine
end

