-- ==== Sys2Proof/Machine/Bytes.lean ====
section
/-! DEFINITION. The byte-transfer state machine (spec/42_byte_transfer.md): SEND (R190, R191) and RECEIVE
(R192 to R197). -/

namespace Sys2Proof.Machine

/-- The length of a write message's data. -/
def srcLen (src : ByteSrc) : Nat :=
  match src with
  | .host _ len => len
  | .bytes l => l.length

/-- `buf[i]` of a write message, read when the byte is about to be written (R84, R89). -/
def srcByte (src : ByteSrc) (i : Nat) (s : State) : Byte :=
  match src with
  | .host addr _ => s.mem.read (hostAddr addr i)
  | .bytes l => l.getD i 0#8

/-- `buf[i] <- b` of a read message (R89, R196); for CRC32_REGION the buffer is its register `b`. -/
def putReceived (dst : ByteDst) (i : Nat) (b : Byte) (s : State) : State :=
  match dst with
  | .host addr => { s with mem := s.mem.write (hostAddr addr i) b }
  | .reg => note (fun w => { w with b := some b }) s

/-- The loop of SEND: `n` bytes from byte `i` on, each behind its own wait (R190). -/
def sendLoop (src : ByteSrc) (i : Nat) (n : Nat) (s : State) : Run Code :=
  match n with
  | 0 => done .ok s
  | n + 1 =>
    andThen (waitTxSpace (note (fun w => { w with i := some i }) s)) fun e s =>
    if e ≠ .ok then raiseError e s
    else
      andThen (regWrite .txcmd (dataWord (srcByte src i s)) s) fun _ s =>
      sendLoop src (i + 1) n s

/-- SEND (R190). -/
def send (src : ByteSrc) (s : State) : Run Code :=
  sendLoop src 0 (srcLen src) { s with phase := .transferring }

/-- What the polls for one byte answer: the byte, or the code the operation ends with. -/
inductive Polled where
  | byte (b : Byte)
  | failed (c : Code)
  deriving DecidableEq, Repr

/-- The polls for one byte: decode, timer test, data read, until the FIFO is not empty (R192, R195,
R196). -/
def rxPoll (fuel : Nat) (t0 : Nat) (s : State) : Run Polled :=
  match fuel with
  | 0 => .fault .pollStuck
  | fuel + 1 =>
    andThen (checkClearError s) fun e s =>
    if e ≠ .ok then andThen (raiseError e s) fun c s => done (.failed c) s
    else
      andThen (now s) fun t s =>
      if s.cfg.tPoll < elapsed s.cfg t t0 then
        andThen (raiseError .timeout s) fun c s => done (.failed c) s
      else
        andThen (regRead .rxdata s) fun v s =>
        let s := note (fun w => { w with v := some v.word }) s
        if v.bit bitRXEMPTY then rxPoll fuel t0 s else done (.byte v.low8) s

/-- The byte loop of RECEIVE: `n` bytes from byte `i` on (R192). -/
def rxLoop (dst : ByteDst) (t0 : Nat) (i : Nat) (n : Nat) (s : State) : Run Code :=
  match n with
  | 0 => done .ok s
  | n + 1 =>
    andThen (rxPoll (pollFuel s.cfg.tPoll s) t0 (note (fun w => { w with i := some i }) s))
      fun p s =>
      match p with
      | .failed c => done c s
      | .byte b => rxLoop dst t0 (i + 1) n (putReceived dst i b s)

/-- The variant `P_RX_CLEAR`: all status flags are cleared before the receive command (R194). -/
def rxClear (s : State) : Run Unit :=
  if s.cfg.rxClear then regWrite .status clearAll s else done () s

/-- RECEIVE (R192). Length 0 returns at once; a length above 256 has no meaning (R193). -/
def receive (dst : ByteDst) (len : Nat) (s : State) : Run Code :=
  if len = 0 then done .ok s
  else if 256 < len then .refused .receiveTooLong
  else
    andThen (now { s with phase := .transferring }) fun t0 s =>
    andThen (waitTxSpace s) fun e s =>
    if e ≠ .ok then raiseError e s
    else
      andThen (rxClear (note (fun w => { w with t0 := some t0 }) s)) fun _ s =>
      andThen (regWrite .txcmd (receiveWord len) s) fun _ s =>
      rxLoop dst t0 0 len s

/-- SEND as an instruction (R190, R339). -/
def execSend (buf len : Word) (s : State) : Host.Outcome State Fault Refusal :=
  ifInited s (finish (send (.host buf len.toNat) (beginOp s)))

/-- RECEIVE as an instruction (R192, R339). -/
def execReceive (buf len : Word) (s : State) : Host.Outcome State Fault Refusal :=
  ifInited s (finish (receive (.host buf) len.toNat (beginOp s)))

end Sys2Proof.Machine
end

