-- ==== Sys2Proof/Machine/Divider.lean ====
section
/-! DEFINITION. Bring-up and the clock divider (spec/40_init_and_divider.md): SPEED_SET (R143 to R153)
and INIT (R140 to R142). -/

namespace Sys2Proof.Machine

/-- SPEED_SET disables the master, before the search and the divider writes (R143, R149). -/
def masterOff (v : RdWord) : Word := v.word &&& ~~~menMask

/-- The master is enabled: `v with MEN=1` (R140, R143). -/
def masterOn (v : RdWord) : Word := v.word ||| menMask

/-- The master goes back to the state it had on entry (R149). -/
def restoreMaster (menSaved : Bool) (s : State) : Run Unit :=
  if menSaved then
    andThen (regRead .ctrl s) fun v s => regWrite .ctrl (masterOn v) s
  else done () s

/-- SPEED_SET: with no source clock `ERR_DIVIDER` before any access (R150); else the search, the timing
word, the prescaler, the master as before, and the speed into the handle (R143, R151). When no pair is
chosen the request has no meaning (R153). -/
def speedSet (speed : Word) (s : State) : Run Code :=
  if s.cfg.clockSrc = 0#32 then done .divider s
  else
    andThen (regRead .ctrl s) fun v s =>
    let men := v.bit bitMEN
    andThen (regWrite .ctrl (masterOff v)
      (note (fun w => { w with menSaved := some men }) s)) fun _ s =>
    let d := dividerSearch s.cfg.clockSrc.toNat speed.toNat
    let s := note (fun w => { w with div := some d }) s
    if !d.chosen then .refused .noDividerPair
    else
      andThen (regWrite .clkcfg (clkcfgWord d.bestC) s) fun _ s =>
      andThen (regRead .cfg1 s) fun v s =>
      andThen (regWrite .cfg1 (withPrescale v.word d.bestP) s) fun _ s =>
      andThen (restoreMaster men s) fun _ s =>
      done .ok { s with handle := { s.handle with rate := speed } }

/-- The last lines of INIT: on OK the block is initialised; on a failure the phase is Idle and `inited`
stays as it was (R140, R141). -/
def initOutcome (r : Code) (s : State) : State :=
  if r = .ok then { s with inited := true, phase := .initialized }
  else { s with phase := .idle }

/-- INIT: reset the controller, program the defaults, set the speed, enable the master whether or not
that succeeded (R140, R141). Whatever transfer was open is discarded (R142). -/
def initBlock (speed : Word) (s : State) : Run Code :=
  andThen (regWrite .ctrl ctrlResetWord s) fun _ s =>
  andThen (regWrite .ctrl ctrlReleaseWord { s with bracket := false }) fun _ s =>
  andThen (regWrite .ctrl ctrlModeWord s) fun _ s =>
  andThen (regRead .cfg0 s) fun v s =>
  andThen (regWrite .cfg0 (v.word &&& ~~~hostRequestMask) s) fun _ s =>
  andThen (regRead .cfg1 s) fun v s =>
  andThen (regWrite .cfg1 (v.word &&& ~~~pinDefaultsMask) s) fun _ s =>
  andThen (speedSet speed s) fun r s =>
  andThen (regRead .ctrl s) fun v s =>
  andThen (regWrite .ctrl (masterOn v) s) fun _ s =>
  done r (initOutcome r s)

/-- INIT as an instruction: admitted always (R142, R339). -/
def execInit (speed : Word) (s : State) : Host.Outcome State Fault Refusal :=
  finish (initBlock speed (beginOp s))

/-- SPEED_SET as an instruction: admitted always, but inside a bracket it has no meaning (R339, R370,
V18; assumption 14). -/
def execSpeedSet (speed : Word) (s : State) : Host.Outcome State Fault Refusal :=
  if s.bracket then .refused .speedSetInBracket else finish (speedSet speed (beginOp s))

end Sys2Proof.Machine
end

