-- ==== Sys2Proof/Machine/StartStop.lean ====
section
/-! DEFINITION. The start/stop generator (spec/41_start_stop.md): CHECK_STUCK (R170), START (R171 to
R173, R177 to R179) and STOP (R174 to R176). -/

namespace Sys2Proof.Machine

/-- CHECK_STUCK: one status read (R170). -/
def checkStuck (s : State) : Run Bool :=
  andThen (regRead .status s) fun v s =>
  done (stuckOf v) (note (fun w => { w with s := some v.word, stuck := some (stuckOf v) }) s)

/-- The speed START re-inits with: `REINIT_SPEED`, by default the handle's rate (R172). -/
def reinitSpeed (s : State) : Word := s.cfg.reinitSpeed.getD s.handle.rate

/-- Stuck-bus recovery: at most one INIT, whose result is not looked at; the answer is whether the bus
is still stuck (R171, R172). -/
def recoverBus (s : State) : Run Bool :=
  andThen (checkStuck s) fun stuck s =>
  if stuck then andThen (initBlock (reinitSpeed s) s) fun _ s => checkStuck s
  else done false s

/-- The part of START behind the stuck test: clear the flags, disable auto-stop, wait for space, queue
the start command (R171). -/
def queueStart (addr : BitVec 7) (dir : Dir) (s : State) : Run Code :=
  andThen (regWrite .status clearAll s) fun _ s =>
  andThen (regRead .cfg1 s) fun v s =>
  andThen (regWrite .cfg1 (v.word &&& ~~~autostopMask) s) fun _ s =>
  andThen (waitTxSpace s) fun e s =>
  if e ≠ .ok then raiseError e s
  else
    andThen (regWrite .txcmd (startWord addr dir) s) fun _ s =>
    done .ok { s with phase := .start, bracket := true }

/-- START (R171). -/
def start (addr : BitVec 7) (dir : Dir) (s : State) : Run Code :=
  andThen (recoverBus s) fun stuck s =>
  if stuck then raiseError .busBusy s else queueStart addr dir s

/-- `SDF` of a status word. -/
def stopDetected (v : RdWord) : Bool := v.bit bitSDF

/-- The stop was seen: `SDF` alone is cleared, and the operation ends, in phase Idle unless an error
was decoded in the same iteration (R174, R175, R176). -/
def stopSeen (e : Code) (s : State) : Run Code :=
  andThen (regWrite .status sdfMask s) fun _ s =>
  if e = .ok then done .ok { s with phase := .idle } else raiseError e s

/-- The error decode of the stop-detect loop, run only with `P_STOP_DECODE` (R176). -/
def stopDecode (s : State) : Run Code :=
  if s.cfg.stopDecode then checkClearError s else done .ok s

/-- The stop-detect loop: status, decode if selected, `SDF` test, timer test (R174, R176). -/
def stopWaitLoop (fuel : Nat) (t0 : Nat) (s : State) : Run Code :=
  match fuel with
  | 0 => .fault .pollStuck
  | fuel + 1 =>
    andThen (regRead .status s) fun v s =>
    andThen (stopDecode (note (fun w => { w with s := some v.word }) s)) fun e s =>
    if stopDetected v then stopSeen e s
    else
      andThen (now s) fun t s =>
      if s.cfg.tStop < elapsed s.cfg t t0 then raiseError .timeout s
      else stopWaitLoop fuel t0 s

/-- STOP (R174). Its request closes the bracket (R12). -/
def stop (s : State) : Run Code :=
  andThen (waitTxSpace { s with phase := .stop, bracket := false }) fun e s =>
  if e ≠ .ok then raiseError e s
  else
    andThen (regWrite .txcmd stopWord s) fun _ s =>
    andThen (now s) fun t0 s =>
    stopWaitLoop (pollFuel s.cfg.tStop s) t0 (note (fun w => { w with t0 := some t0 }) s)

/-- START as an instruction: admitted in every phase once initialised (R179). -/
def execStart (addr : BitVec 7) (dir : Dir) (s : State) : Host.Outcome State Fault Refusal :=
  ifInited s (finish (start addr dir (beginOp s)))

/-- STOP as an instruction (R174, R179). -/
def execStop (s : State) : Host.Outcome State Fault Refusal :=
  ifInited s (finish (stop (beginOp s)))

/-- CHECK_STUCK as an instruction; what it answers stays in the working register `stuck` (R170). -/
def execCheckStuck (s : State) : Host.Outcome State Fault Refusal :=
  match checkStuck (beginOp s) with
  | .next p => .next p.2
  | .fault f => .fault f
  | .refused r => .refused r

end Sys2Proof.Machine
end

