-- ==== Sys2Proof/Machine/Dispatcher.lean ====
section
/-! DEFINITION. The message dispatcher (spec/44_dispatcher.md): TRANSFER (R230 to R239). -/

namespace Sys2Proof.Machine

/-- One message: its START with its own address and direction, then its bytes (R230, R238). -/
def runMsg (m : BusMsg) (s : State) : Run Code :=
  match m with
  | .write addr src =>
    andThen (start addr .write s) fun r s => if r = .ok then send src s else done r s
  | .read addr len dst =>
    andThen (start addr .read s) fun r s => if r = .ok then receive dst len s else done r s

/-- A failed write message ends the loop, a failed read message does not (R231, R232). -/
def endsLoop (m : BusMsg) (r : Code) : Bool :=
  match m with
  | .write _ _ => decide (r ≠ .ok)
  | .read _ _ _ => false

/-- The message loop, from message number `k` with the first error so far in `ret` (R230). -/
def transferLoop (k : Nat) (ms : List BusMsg) (ret : Code) (s : State) : Run Code :=
  match ms with
  | [] => done ret s
  | m :: rest =>
    andThen (runMsg m (note (fun w => { w with k := some k }) s)) fun r s =>
    let ret := firstError ret r
    let s := note (fun w => { w with r := some r, ret := some ret }) s
    if endsLoop m r then done ret s else transferLoop (k + 1) rest ret s

/-- TRANSFER: the loop, then one STOP, always; the first error wins (R230, R233, R234). -/
def transfer (ms : List BusMsg) (s : State) : Run Code :=
  andThen (transferLoop 0 ms .ok (note (fun w => { w with ret := some .ok, msgs := some ms }) s))
    fun ret s =>
    andThen (stop s) fun rs s =>
    done (firstError ret rs)
      (note (fun w => { w with rs := some rs, ret := some (firstError ret rs) }) s)

/-- TRANSFER as an instruction (R230, R339). A message with an illegal address or flag is refused
(R106, R118). The spec gives no moment for that: the model looks at the whole list first, so a request
with such a message anywhere in it is refused before the first access, also when a failing write before
the message would have ended the loop (R84, R231; DESIGN CHOICE, assumption 33). -/
def execTransfer (msgs : List Msg) (s : State) : Host.Outcome State Fault Refusal :=
  ifLegal (msgs.all Msg.wf) (ifInited s (finish (transfer (msgs.map busMsg) (beginOp s))))

end Sys2Proof.Machine
end

