-- ==== Sys2Proof/Machine/Chip.lean ====
section
/-! DEFINITION. The chip-addressing layer (spec/45_chip_addressing.md): SETUP_OFFSET (R250), CHIP_READ
(R251, R252) and CHIP_WRITE (R253, R254). -/

namespace Sys2Proof.Machine

/-- `ZERO_WIDTH`, the internal signal of SETUP_OFFSET (R250, R255). -/
def isZeroWidth (c : Chip) : Bool := offsetWidth c == 0

/-- The offset-only message of SETUP_OFFSET; its address is set also when the width is 0 (R250). -/
def offsetMsg (c : Chip) (o : Word) : BusMsg :=
  .write (foldedAddr c o) (.bytes (offsetBytes (offsetWidth c) o))

/-- SETUP_OFFSET writes the message and the offset bytes; it touches no register and reads no timer
(R250). -/
def setupOffset (c : Chip) (o : Word) (s : State) : State :=
  note (fun w => { w with
    msgs := some [offsetMsg c o]
    obuf := some (offsetBytes (offsetWidth c) o)
    zeroWidth := some (isZeroWidth c) }) s

/-- The message list of a block read: the offset message unless the width is 0, the read message unless
the length is 0 (R251, R255, R257). -/
def readMsgs (c : Chip) (o : Word) (dst : ByteDst) (len : Nat) : List BusMsg :=
  (if isZeroWidth c then [] else [offsetMsg c o]) ++
  (if len = 0 then [] else [.read (foldedAddr c o) len dst])

/-- Byte `i` of a host buffer as a buffer of its own, `&buf[i]` (R252); `&b` has one byte. -/
def dstAt (dst : ByteDst) (i : Nat) : ByteDst :=
  match dst with
  | .host addr => .host (addr + BitVec.ofNat 32 i)
  | .reg => .reg

/-- READ_BYTEWISE: a fresh bracket per byte, the first failure ends it (R252, R259). -/
def readBytewise (c : Chip) (o : Word) (dst : ByteDst) (i n : Nat) (s : State) : Run Code :=
  match n with
  | 0 => done .ok s
  | n + 1 =>
    let s := setupOffset c (offsetPlus o i) (note (fun w => { w with i := some i }) s)
    if isZeroWidth c then done .invalidOffsetCfg s
    else
      andThen (transfer [offsetMsg c (offsetPlus o i),
        .read (foldedAddr c (offsetPlus o i)) 1 (dstAt dst i)] s) fun r s =>
      if r ≠ .ok then done r s else readBytewise c o dst (i + 1) n s

/-- CHIP_READ (R251). In block mode a length above 256 makes the whole request one the spec refuses
(R251, R193). -/
def chipRead (c : Chip) (o : Word) (dst : ByteDst) (len : Nat) (s : State) : Run Code :=
  if rdBytewise c then readBytewise c o dst 0 len s
  else if 256 < len then .refused .receiveTooLong
  else transfer (readMsgs c o dst len) (setupOffset c o s)

/-- The payload of a write, read whole before the transfer starts (R89, R253). -/
def payloadOf (buf : Word) (len : Nat) (s : State) : List Byte :=
  (List.range len).map fun i => s.mem.read (hostAddr buf i)

/-- The one message of a write: offset and payload coalesced (R111, R253). -/
def writeMsg (c : Chip) (o : Word) (payload : List Byte) : BusMsg :=
  .write (foldedAddr c o) (.bytes (stageBytes c o payload))

/-- The staging buffer is filled (R27, R253). -/
def fillStage (c : Chip) (o : Word) (payload : List Byte) (s : State) : State :=
  note (fun w => { w with
    stage := some (stageBytes c o payload), msgs := some [writeMsg c o payload] })
    (setupOffset c o s)

/-- WRITE_BYTEWISE: offset and byte coalesced, a bracket per byte (R254, R259). -/
def writeBytewise (c : Chip) (o buf : Word) (i n : Nat) (s : State) : Run Code :=
  match n with
  | 0 => done .ok s
  | n + 1 =>
    let s := setupOffset c (offsetPlus o i) (note (fun w => { w with i := some i }) s)
    if isZeroWidth c then done .invalidOffsetCfg s
    else
      let b := s.mem.read (hostAddr buf i)
      andThen (transfer [writeMsg c (offsetPlus o i) [b]]
        (fillStage c (offsetPlus o i) [b] s)) fun r s =>
      if r ≠ .ok then done r s else writeBytewise c o buf (i + 1) n s

/-- CHIP_WRITE (R253). A length above `MAX_XFER` is refused (R256). -/
def chipWrite (c : Chip) (o buf : Word) (len : Nat) (s : State) : Run Code :=
  if s.cfg.maxXfer < len then .refused .aboveMaxXfer
  else if wrBytewise c then writeBytewise c o buf 0 len s
  else
    let payload := payloadOf buf len s
    transfer [writeMsg c o payload] (fillStage c o payload s)

/-- CHIP_READ as an instruction (R251, R339). -/
def execChipRead (chip : Chip) (offset buf len : Word) (s : State) :
    Host.Outcome State Fault Refusal :=
  ifLegal chip.wf
    (ifInited s (finish (chipRead chip offset (.host buf) len.toNat (beginOp s))))

/-- CHIP_WRITE as an instruction (R253, R339). -/
def execChipWrite (chip : Chip) (offset buf len : Word) (s : State) :
    Host.Outcome State Fault Refusal :=
  ifLegal chip.wf
    (ifInited s (finish (chipWrite chip offset buf len.toNat (beginOp s))))

/-- SETUP_OFFSET as an instruction: the message, the offset bytes and the signal stay in the working
registers (R250, R339). -/
def execSetupOffset (chip : Chip) (offset : Word) (s : State) :
    Host.Outcome State Fault Refusal :=
  ifLegal chip.wf (.next (setupOffset chip offset (beginOp s)))

end Sys2Proof.Machine
end

