-- ==== Sys2Proof/Machine/Integrity.lean ====
section
/-! DEFINITION. The integrity checker (spec/46_integrity.md): CRC32_UPDATE (R280), CRC32_REGION (R281,
R282, R285) and VALIDATE_MAGIC (R283, R284). -/

namespace Sys2Proof.Machine

/-- The byte loop of CRC32_REGION: one CHIP_READ of one byte at a time, `n` bytes from byte `j` on; the
first failing read ends it (R281, R285). `start + j` wraps at 32 bits, which R281 does not say (DEDUCED,
assumption 34). -/
def crcLoop (c : Chip) (start : Word) (expected : Word) (j n : Nat) (crc : Word) (s : State) :
    Run Code :=
  match n with
  | 0 => done (if crc = expected then .ok else .crc) s
  | n + 1 =>
    andThen (chipRead c (offsetPlus start j) .reg 1
      (note (fun w => { w with j := some j, crc := some crc }) s)) fun r s =>
    if r ≠ .ok then done r s
    else
      match s.work.b with
      | some b => crcLoop c start expected (j + 1) n (crcUpdate s.cfg.crcVariant crc b) s
      | none => .fault .unwrittenRegister

/-- CRC32_REGION (R281). -/
def crc32Region (c : Chip) (start length expected : Word) (s : State) : Run Code :=
  crcLoop c start expected 0 length.toNat 0#32 s

/-- The magic test (R283): `(m0 << 8) | m1` is the constant the two bytes of `MAGIC` make (R6). -/
def magicResult (cfg : Config) (m0 m1 : Byte) : Code :=
  if m0 ++ m1 = cfg.magic0 ++ cfg.magic1 then .ok else .magic

/-- CRC32_REGION as an instruction (R281, R339). -/
def execCrc32Region (chip : Chip) (start length expected : Word) (s : State) :
    Host.Outcome State Fault Refusal :=
  ifLegal chip.wf
    (ifInited s (finish (crc32Region chip start length expected (beginOp s))))

/-- VALIDATE_MAGIC as an instruction: no register, timer or flag is touched (R283). -/
def execValidateMagic (m0 m1 : Byte) (s : State) : Host.Outcome State Fault Refusal :=
  finish (done (magicResult s.cfg m0 m1) (beginOp s))

/-- CRC32_UPDATE as an instruction: the new accumulator is in the working register `crc` (R280). -/
def execCrc32Update (crc : Word) (b : Byte) (s : State) : Host.Outcome State Fault Refusal :=
  .next (note (fun w => { w with b := some b, crc := some (crcUpdate s.cfg.crcVariant crc b) })
    (beginOp s))

end Sys2Proof.Machine
end

