-- ==== Sys2Proof/Machine/Dispatch.lean ====
section
/-! DEFINITION. Which meaning each instruction has. -/

namespace Sys2Proof.Machine

def exec (i : Instr) (s : State) : Host.Outcome State Fault Refusal :=
  match i with
  -- the eleven host operations (R11)
  | .init speed => Sys2Proof.Machine.execInit speed s
  | .speedSet speed => Sys2Proof.Machine.execSpeedSet speed s
  | .start addr dir => Sys2Proof.Machine.execStart addr dir s
  | .stop => Sys2Proof.Machine.execStop s
  | .send buf len => Sys2Proof.Machine.execSend buf len s
  | .receive buf len => Sys2Proof.Machine.execReceive buf len s
  | .transfer msgs => Sys2Proof.Machine.execTransfer msgs s
  | .chipRead chip offset buf len => Sys2Proof.Machine.execChipRead chip offset buf len s
  | .chipWrite chip offset buf len => Sys2Proof.Machine.execChipWrite chip offset buf len s
  | .crc32Region chip start length expected => Sys2Proof.Machine.execCrc32Region chip start length expected s
  | .validateMagic m0 m1 => Sys2Proof.Machine.execValidateMagic m0 m1 s
  -- the five micro-operations
  | .waitTxSpace => Sys2Proof.Machine.execWaitTxSpace s
  | .checkClearError => Sys2Proof.Machine.execCheckClearError s
  | .checkStuck => Sys2Proof.Machine.execCheckStuck s
  | .setupOffset chip offset => Sys2Proof.Machine.execSetupOffset chip offset s
  | .crc32Update crc b => Sys2Proof.Machine.execCrc32Update crc b s
  -- the four command words
  | .cmdTxdata data => Sys2Proof.Machine.execCmdTxdata data s
  | .cmdReceive count => Sys2Proof.Machine.execCmdReceive count s
  | .cmdStop => Sys2Proof.Machine.execCmdStop s
  | .cmdStart addr dir => Sys2Proof.Machine.execCmdStart addr dir s

end Sys2Proof.Machine
end

