-- ==== Sys2Proof/Machine/Port.lean ====
section
/-! DEFINITION. What a step fetches and from where. The block has no stored program
(spec/20_memory.md R84): its instructions are the requests of the host (spec/10_state.md R20) and the
words of the transmit FIFO that the engine takes (spec/47_command_words.md). -/

namespace Sys2Proof.Machine

/-- The refusal of a request that does not decode (R116, R118, V14, V16). -/
def refusalOf (e : DecodeError) : Refusal :=
  match e with
  | .reservedOpcode => .reservedOpcode
  | .reservedCommand => .reservedCommand
  | .illegalOperand => .illegalOperand
  | .truncated => .truncatedRequest

/-- The host's request brings the chip descriptor it names (R22). -/
def loadChipOf (i : Instr) (s : State) : State :=
  match i.chip? with
  | some c => { s with chip := c }
  | none => s

/-- A request of the host: a micro-operation is refused, any other decoded request is run (R116, V14). -/
def hostRequest (bs : List Byte) (s : State) : Host.Outcome State Fault Refusal :=
  match decode .request bs with
  | .ok i _ => if i.isMicro then .refused .microFromHost else exec i (loadChipOf i s)
  | .bad e => .refused (refusalOf e)

/-- A request from inside another operation: a micro-operation is run (R116, R342). The host operations that
R172 and R230 run inside others are calls within a meaning and never come this way; that a host operation
given as such a request is refused is the model's (DESIGN CHOICE, assumption 41). -/
def microRequest (bs : List Byte) (s : State) : Host.Outcome State Fault Refusal :=
  match decode .request bs with
  | .ok i _ => if i.isMicro then exec i s else .refused .notAMicroOperation
  | .bad e => .refused (refusalOf e)

/-- What the host does next (R20, R21, R22, R89). A `handle.base` that is not a multiple of 4 is loaded
like any other; the refusal R73 asks for comes at the first register access (DESIGN CHOICE, assumption
32). R21 has the host load `index` and `base` once, before the first INIT; the model takes a later load
too, and the one controller then answers at the new base (DESIGN CHOICE, assumption 36). R22 has the host
load the chip descriptor once; the model takes such a load at any time, again, and of a descriptor that is
not legal, whose refusal comes at a request that names one (DESIGN CHOICE, assumption 38). -/
def hostTurn (a : HostAct) (s : State) : Host.Outcome State Fault Refusal :=
  match a with
  | .loadHandle index base => .next { s with handle := { s.handle with index := index, base := base } }
  | .loadChip c => .next { s with chip := c }
  | .loadBytes addr bs => .next { s with mem := s.mem.writeBytes addr 0 bs }
  | .request bs => hostRequest bs s
  | .micro bs => microRequest bs s

/-- The engine's turn when the host has nothing to do: the command word at the head of the transmit
FIFO, if the engine may take one, else what it has in progress (R301 to R304). R300 leaves open what the
engine does then, and whether it does anything; that a step without an act of the host is always the
nominal engine's next piece of work, and that it neither reads nor uses up the scheduled moves of `sched`,
which come before primitives alone, is the model's (DESIGN CHOICE, assumption 39). -/
def engineTurn (s : State) : Host.Outcome State Fault Refusal :=
  match nextEntry s with
  | some w =>
    match decodeCmd w with
    | some c => exec c.toInstr s
    | none => .refused .reservedCommand
  | none => .next (engineContinue s)

/-- The request port holds this request: from the host, or, with opcode bit 4, from inside an
operation (R116). -/
def requestAct (bs : List Byte) (micro : Bool) : HostAct := if micro then .micro bs else .request bs

/-- The state whose very next step fetches the instruction with table bits `w`: at the request port, or
as the one word of the transmit FIFO of an engine that may take it. -/
def placeWord (s : State) (nbits w : Nat) : State :=
  match tableSpace nbits with
  | .request => { s with host := requestAct (tableBytes nbits w) (w.testBit 4) :: s.host }
  | .command =>
    { s with
      host := []
      txf := [BitVec.ofNat 11 w]
      ctrl := (s.ctrl ||| 1#4) &&& 0xD#4
      engine := { s.engine with recvLeft := 0, pendingStart := none } }

end Sys2Proof.Machine
end

