-- ==== Sys2Proof/Machine/Step.lean ====
section
/-! DEFINITION. One step: the host's next act, or the engine's turn (spec/10_state.md R20). -/

namespace Sys2Proof.Machine

/-- The host's next act (its request runs to its end, R374); with none left, the engine's turn. -/
def step (s : State) : Host.Outcome State Fault Refusal :=
  match s.host with
  | a :: rest => hostTurn a { s with host := rest }
  | [] => engineTurn s

/-- `s` with the instruction of table bits `w` where `step` fetches its next instruction. -/
def State.withFetchWord (s : State) (nbits w : Nat) : State := placeWord s nbits w

end Sys2Proof.Machine
end

