-- ==== Sys2Proof/Safety.lean ====
section
/-! DEFINITION. What claims speak of: the invariant of the machine, the platform conditions of
spec/70_reset_and_hazards.md R364, the environment contract of spec/47_command_words.md R300, and the
command words an operation wrote. -/

namespace Sys2Proof.Machine

/-! ### Conditions on a state -/

/-- Parameters under which the rules make sense: a FIFO of 1 to 7 entries (`TXCOUNT` has 3 bits, R38)
and a timer that can exceed both budgets (R382). -/
def configValid (c : Config) : Prop :=
  1 ≤ c.fifoDepth ∧ c.fifoDepth ≤ 7 ∧ c.tPoll + 1 < 2 ^ c.timerBits ∧ c.tStop + 1 < 2 ^ c.timerBits

/-- A FIFO entry whose command code is not reserved (R105). -/
def entryLegal (w : CmdEntry) : Prop := (decodeCmd w).isSome = true

/-- A target whose array is in canonical form. -/
def targetWf (t : Option Target) : Prop := ∀ e, t = some e → e.mem.wf = true

/-- The invariant but for the reset bit: the FIFOs hold no more than their depth (R41, R42), every
queued word is one the engine has a meaning for (R105), no interrupt is enabled (R34), both byte spaces
are canonical. -/
structure CoreInv (s : State) : Prop where
  cfgValid : configValid s.cfg
  txBound : s.txf.length ≤ s.cfg.fifoDepth
  rxBound : s.rxf.length ≤ s.cfg.fifoDepth
  txLegal : ∀ w ∈ s.txf, entryLegal w
  noInterrupt : s.mier = 0#32
  memWf : s.mem.wf = true
  targetMemWf : targetWf s.target

/-- The invariant: `CoreInv`, and between operations the controller is not held in reset (R32, R47). -/
structure Inv (s : State) : Prop where
  core : CoreInv s
  notReset : s.ctrl.getLsbD bitRST = false

/-- The platform conditions of R364 (2) and R73: the register space answers and the base is aligned. -/
structure Platform (s : State) : Prop where
  clockOn : s.cfg.busClock = true
  aligned : s.handle.base &&& 3#32 = 0#32

/-- No error flag is set (R114). -/
def noErrorFlag (f : Status) : Prop :=
  f.pltf = false ∧ f.alf = false ∧ f.ndf = false ∧ f.fef = false

/-- The stuck bus of R170. -/
def busStuck (s : State) : Prop := s.flags.bbf = true ∧ s.flags.mbf = false

/-- The nominal engine has nothing to do: no word queued, no start waiting, no auto-stop due, and any
receive in progress is held up by a full receive FIFO (R302, R304, R311). -/
structure EngineRests (s : State) : Prop where
  noWord : s.txf = []
  noStart : s.engine.pendingStart = none
  noAutostop : s.cfg1.getLsbD bitAUTOSTOP = false ∨ s.flags.mbf = false
  noReceive : s.engine.recvLeft = 0 ∨ s.cfg.fifoDepth ≤ s.rxf.length

/-- The environment leaves flags, FIFOs, engine and target alone at the next `n` primitives: it is
scheduled to do nothing there (R300 promises no progress), or it is the nominal engine with nothing to
do. -/
def Calm (n : Nat) (s : State) : Prop :=
  (∃ rest, s.sched = List.replicate n [] ++ rest) ∨ (s.sched = [] ∧ EngineRests s)

/-- The environment is the nominal engine and target from here on, one piece of work between two
primitives, and the timer advances by one tick a read (R307, assumptions 3 and 4). -/
structure Nominal (s : State) : Prop where
  sched : s.sched = []
  ticks : s.ticks = []

/-- The bus is ready for this master: the engine runs and rests, holding no received byte, a target is
attached, and the bus is not stuck (R170, R300, R302). -/
structure BusReady (s : State) (t : Target) : Prop where
  on : engineOn s = true
  rests : EngineRests s
  noReceived : s.rxf = []
  attached : s.target = some t
  notStuck : ¬ busStuck s

/-! ### What the nominal target sees -/

/-- Data bytes sent in write direction (R308). -/
def Target.putBytes (t : Target) (bs : List Byte) : Target :=
  match bs with
  | [] => t
  | b :: r => (t.putByte b).putBytes r

/-- `n` bytes read in read direction, and the target behind them (R308). -/
def Target.getBytes (t : Target) (n : Nat) : List Byte × Target :=
  match n with
  | 0 => ([], t)
  | n + 1 => (t.getByte.1 :: (t.getByte.2.getBytes n).1, (t.getByte.2.getBytes n).2)

/-- The bytes of a write message, read from host memory (R84). -/
def sentBytes (src : ByteSrc) (m : Memory) : List Byte :=
  match src with
  | .host addr len => (List.range len).map fun i => m.read (hostAddr addr i)
  | .bytes l => l

/-- What one acknowledged message does to host memory and the target (R230, R304, R308). -/
def busEffect (m : BusMsg) (x : Memory × Target) : Memory × Target :=
  match m with
  | .write a src => (x.1, (x.2.startWrite a).putBytes (sentBytes src x.1))
  | .read _ len (.host addr) =>
    (x.1.writeBytes addr 0 (x.2.startRead.getBytes len).1, (x.2.startRead.getBytes len).2)
  | .read _ len .reg => (x.1, (x.2.startRead.getBytes len).2)

/-- The target is the EEPROM a chip descriptor describes (R107, R308). -/
structure Wired (c : Chip) (t : Target) : Prop where
  addr : t.addr = c.addr
  mask : t.mask = c.offsetMask
  width : t.width = offsetWidth c
  size : 0 < t.size
  apart : c.addr &&& c.offsetMask = 0#7

/-- Every bit of the offset above its offset bytes is a bit the chip folds (R109, R260). -/
def offsetSeen (c : Chip) (o : Word) : Prop :=
  (o.toNat >>> (8 * offsetWidth c)) &&& c.offsetMask.toNat = o.toNat >>> (8 * offsetWidth c)

/-- Every offset of `len` bytes from `o` on reaches the chip whole, and none wraps (R252). -/
def offsetsSeen (c : Chip) (o : Word) (len : Nat) : Prop :=
  offsetSeen c o ∧ o.toNat + len ≤ 2 ^ 32 ∧ ∀ j, j < len → offsetSeen c (offsetPlus o j)

/-- `len` bytes of an EEPROM array of this size from offset `o` on, wrapping at the size (R308). -/
def eepromBytes (m : Memory) (size o len : Nat) : List Byte :=
  (List.range len).map fun j => m.read ((o + j) % size)

/-- The address of a message. -/
def BusMsg.addr (m : BusMsg) : BitVec 7 :=
  match m with
  | .write a _ => a
  | .read a _ _ => a

/-- The length of a read message, 0 for a write message. -/
def BusMsg.readLen (m : BusMsg) : Nat :=
  match m with
  | .write _ _ => 0
  | .read _ len _ => len

/-! ### The environment contract (R300) -/

/-- Every write-1-to-clear flag of `f` is still set in `g`. -/
def flagsKept (f g : Status) : Prop :=
  (f.epf = true → g.epf = true) ∧ (f.sdf = true → g.sdf = true) ∧ (f.ndf = true → g.ndf = true) ∧
  (f.alf = true → g.alf = true) ∧ (f.fef = true → g.fef = true) ∧ (f.pltf = true → g.pltf = true) ∧
  (f.dmf = true → g.dmf = true)

/-- What the environment may do between two primitives (R300): it changes nothing but flags, FIFOs, its
own state and the model's schedule and draw count; it clears no W1C flag, only removes words from the
head of the transmit FIFO and only appends to the receive FIFO, and it does neither while the master is
disabled or the controller held in reset. -/
structure Contract (s t : State) : Prop where
  same : t =
    { s with
      flags := t.flags
      txf := t.txf
      rxf := t.rxf
      engine := t.engine
      target := t.target
      sched := t.sched
      draws := t.draws }
  flagsKept : flagsKept s.flags t.flags
  txTaken : ∃ n, t.txf = s.txf.drop n
  rxGrown : ∃ l, t.rxf = s.rxf ++ l
  rxBound : t.rxf.length ≤ max s.rxf.length s.cfg.fifoDepth
  off : engineOn s = false → t.txf = s.txf ∧ t.rxf = s.rxf

/-! ### What an operation wrote -/

/-- The word of a `TXCMD` write. -/
def txcmdWord (a : Access) : Option Word :=
  match a with
  | .wr .txcmd w => some w
  | .wr _ _ => none
  | .rd _ _ => none
  | .now _ => none

/-- The command words the last operation wrote to `TXCMD`, in order. -/
def txWritten (s : State) : List Word := s.trace.reverse.filterMap txcmdWord

/-- A primitive without the word it moved. -/
inductive Prim where
  | rd (reg : Reg)
  | wr (reg : Reg)
  | now
  deriving DecidableEq, Repr

/-- Which primitive a trace entry is. -/
def Access.prim (a : Access) : Prim :=
  match a with
  | .rd r _ => .rd r
  | .wr r _ => .wr r
  | .now _ => .now

/-- The primitives of the last operation, in order. -/
def primsOf (s : State) : List Prim := (s.trace.map Access.prim).reverse

/-- The primitives of the SPEED_SET inside INIT: none with no source clock (R150), else those of R143,
the master being off on entry. -/
def initSpeedPrims (c : Config) : List Prim :=
  if c.clockSrc = 0#32 then [] else [.rd .ctrl, .wr .ctrl, .wr .clkcfg, .rd .cfg1, .wr .cfg1]

/-- The primitives of one INIT, in order (R140). -/
def initPrims (c : Config) : List Prim :=
  [.wr .ctrl, .wr .ctrl, .wr .ctrl, .rd .cfg0, .wr .cfg0, .rd .cfg1, .wr .cfg1] ++
    initSpeedPrims c ++ [.rd .ctrl, .wr .ctrl]

/-- The bytes of a host buffer. -/
def bufferBytes (s : State) (buf : Word) (len : Nat) : List Byte :=
  (List.range len).map fun i => s.mem.read (hostAddr buf i)

/-- An address outside the `len` bytes from `buf` on. -/
def outsideBuffer (buf : Word) (len : Nat) (a : Nat) : Prop := ∀ i, i < len → a ≠ hostAddr buf i

/-! ### Flags, time and divider -/

/-- The code of R211 for these flags. -/
def flagsCode (f : Status) : Code :=
  if f.pltf then .pinLowTimeout
  else if f.alf then .arbLost
  else if f.ndf then .nack
  else if f.fef then .fifo
  else .ok

/-- The first elapsed time WAIT_TX_SPACE computes when its first timer read is behind `u`. -/
def firstElapsed (u : State) : Nat :=
  elapsed u.cfg (timerCount (tickTimer (tickTimer u))) (timerCount (tickTimer u))

/-- The state behind `n` timer reads. -/
def afterReads (n : Nat) (u : State) : State :=
  match n with
  | 0 => u
  | n + 1 => afterReads n (tickTimer u)

/-- The elapsed time that the timer read `n` reads behind the first one computes. -/
def elapsedAfter (n : Nat) (u : State) : Nat :=
  elapsed u.cfg (timerCount (afterReads (n + 1) u)) (timerCount (tickTimer u))

/-- All seven write-1-to-clear flags cleared (R213). -/
def clearedFlags (f : Status) : Status :=
  ⟨false, false, false, false, false, false, false, f.mbf, f.bbf⟩

/-- The primitives of CHECK_CLEAR_ERROR at these flags (R211, R213). -/
def decodePrims (f : Status) : List Prim :=
  if flagsCode f = .ok then [.rd .status] else [.rd .status, .wr .status, .rd .ctrl, .wr .ctrl]

/-! ### One pass of a wait, at the flags its first read shows -/

/-- The pass of the stop-detect loop decodes an error, which only the variant `P_STOP_DECODE` looks for
(R176). -/
def stopErrs (c : Config) (f : Status) : Bool := c.stopDecode && decide (flagsCode f ≠ .ok)

/-- The code STOP ends with in a pass that ends it: OK once the stop is seen, unless the variant has
decoded an error; else the timeout (R174, R176). -/
def stopCode (c : Config) (f : Status) : Code :=
  if f.sdf then (if stopErrs c f then flagsCode f else .ok) else .timeout

/-- The flags behind that pass: `SDF` alone is cleared (R175), or all by the decode (R176). -/
def stopFlags (c : Config) (f : Status) : Status :=
  if stopErrs c f then clearedFlags f else { f with sdf := false }

/-- The primitives of that pass (R174, R176). -/
def stopPassPrims (c : Config) (f : Status) : List Prim :=
  [.rd .status] ++ (if c.stopDecode then decodePrims f else []) ++
    (if f.sdf then [.wr .status] else [.now])

/-- The flags RECEIVE's first poll sees: the variant `P_RX_CLEAR` clears them before the command (R194). -/
def rxFlags (c : Config) (f : Status) : Status := if c.rxClear then clearedFlags f else f

/-- RECEIVE's first poll decodes an error (R192). -/
def rxErrs (c : Config) (f : Status) : Bool := decide (flagsCode (rxFlags c f) ≠ .ok)

/-- The flags behind that poll (R194, R213). -/
def rxEndFlags (c : Config) (f : Status) : Status :=
  if rxErrs c f then clearedFlags (rxFlags c f) else rxFlags c f

/-- The code RECEIVE ends with in a first poll that ends it: the error decoded, else the timeout (R192). -/
def rxCode (c : Config) (f : Status) : Code :=
  if rxErrs c f then flagsCode (rxFlags c f) else .timeout

/-- The primitives of RECEIVE behind its WAIT_TX_SPACE, up to the end of that poll (R192, R194). -/
def rxPassPrims (c : Config) (f : Status) : List Prim :=
  (if c.rxClear then [.wr .status] else []) ++ [.wr .txcmd] ++ decodePrims (rxFlags c f) ++
    (if rxErrs c f then [] else [.now])

/-- The register accesses of a SPEED_SET that finds the pair `p`, `c`: the master is off while the timing
word and the prescaler are written, and comes back only if it was on (R143, R149). -/
def speedAccesses (s : State) (p c : Nat) : List Access :=
  [.rd .ctrl (s.ctrl.setWidth 32), .wr .ctrl (s.ctrl.setWidth 32 &&& ~~~menMask),
    .wr .clkcfg (clkcfgWord c), .rd .cfg1 s.cfg1, .wr .cfg1 (withPrescale s.cfg1 p)] ++
  (if s.ctrl.getLsbD bitMEN then
    [.rd .ctrl (s.ctrl.setWidth 32 &&& ~~~menMask), .wr .ctrl (s.ctrl.setWidth 32)]
  else [])

/-- The bits of `CFG1` START leaves. -/
def startCfg1 (w : Word) : Word := w &&& ~~~autostopMask

/-- The error of a pair (R145). -/
def pairErr (clk speed : Nat) (q : Nat × Nat) : Nat := absDiff (rateOf clk q.1 q.2) speed

/-- The search order (R146). -/
def before (q r : Nat × Nat) : Prop := q.1 < r.1 ∨ (q.1 = r.1 ∧ q.2 < r.2)

/-- All pairs in search order: 8 prescalers with 31 counts each (R146). -/
def allPairs : List (Nat × Nat) := prescalers.flatMap fun p => counts.map fun c => (p, c)

/-- A pair is found for this speed, or there is no clock to divide. -/
def dividerAnswers (cfg : Config) (speed : Word) : Prop :=
  cfg.clockSrc = 0#32 ∨ (dividerSearch cfg.clockSrc.toNat speed.toNat).chosen = true

/-! ### The words of messages -/

/-- The words SEND writes for `n` bytes from byte `i` on. -/
def sendWords (src : ByteSrc) (i n : Nat) (s : State) : List Word :=
  (List.range n).map fun j => dataWord (srcByte src (i + j) s)

/-- The start word of a message (R238). -/
def startOf (m : BusMsg) : Word :=
  match m with
  | .write a _ => startWord a .write
  | .read a _ _ => startWord a .read

/-- The words of a message behind its start, its bytes read from this state's memory. -/
def bodyOf (s : State) (m : BusMsg) : List Word :=
  match m with
  | .write _ src => sendWords src 0 (srcLen src) s
  | .read _ len _ => if len = 0 then [] else [receiveWord len]

/-- All words of a message. -/
def msgWords (s : State) (m : BusMsg) : List Word := startOf m :: bodyOf s m

/-- A start word. -/
def isStart (w : Word) : Bool := w.extractLsb' 8 3 == 4#3

/-- The start words among some words. -/
def starts (ws : List Word) : List Word := ws.filter isStart

/-- A read message's length is one RECEIVE has a meaning for (R193). -/
def lenLegal (m : BusMsg) : Prop :=
  match m with
  | .write _ _ => True
  | .read _ len _ => len ≤ 256

/-- An address outside the host buffer a read message fills. -/
def outsideMsg (m : BusMsg) (a : Nat) : Prop :=
  match m with
  | .write _ _ => True
  | .read _ len (.host addr) => ∀ j, j < len → a ≠ hostAddr addr j
  | .read _ _ .reg => True

/-- The words of an offset message (R251, R252): none for width 0. -/
def offsetWords (c : Chip) (o : Word) : List Word :=
  if isZeroWidth c then []
  else startWord (foldedAddr c o) .write :: (offsetBytes (offsetWidth c) o).map dataWord

/-- The words of a read of `len` bytes, its STOP included (R251, R257). -/
def readWords (c : Chip) (o : Word) (len : Nat) : List Word :=
  offsetWords c o ++
    (if len = 0 then [] else [startWord (foldedAddr c o) .read, receiveWord len]) ++ [stopWord]

/-- The words of a write of this payload, its STOP included (R253). -/
def writeWords (c : Chip) (o : Word) (payload : List Byte) : List Word :=
  startWord (foldedAddr c o) .write :: (stageBytes c o payload).map dataWord ++ [stopWord]

/-! ### Targets and traces -/

/-- Bytes stored from a pointer on, wrapping at the size (R308). -/
def storeAll (m : Memory) (size ptr : Nat) (bs : List Byte) : Memory :=
  match bs with
  | [] => m
  | b :: r => storeAll (m.write ptr b) size ((ptr + 1) % size) r

/-- What a message needs: an address the target answers, a length RECEIVE can poll for in time. -/
def msgFits (tg : Target) (c : Config) (m : BusMsg) : Prop :=
  tg.answers m.addr = true ∧ m.readLen ≤ 256 ∧ m.readLen + 2 ≤ c.tPoll

/-- An INIT has run, as the trace shows by its reset write (R115, R140). -/
def reinited (t : State) : Prop := Access.wr .ctrl ctrlResetWord ∈ t.trace

/-! ### What an instruction needs and what it leaves alone -/

/-- This master owns the bus in this direction, the target is addressed, no error is pending and no
receive is in progress: where SEND (write) and RECEIVE (read) belong (R373). -/
structure InBracket (d : Dir) (s : State) (t : Target) : Prop extends BusReady s t where
  owned : s.flags.mbf = true
  direction : s.engine.dirRead = decide (d = .read)
  addressed : t.addressed = true
  clean : noErrorFlag s.flags

/-- The request is one the rules give a meaning in this state: admitted (R339, R370, R372), its length
legal (R193, R256), and, where a divider may have to be programmed, a pair is found (R153). -/
def admitted (i : Instr) (s : State) : Prop :=
  match i with
  | .init speed => dividerAnswers s.cfg speed
  | .speedSet speed => s.bracket = false ∧ dividerAnswers s.cfg speed
  | .start _ _ => s.inited = true ∧ dividerAnswers s.cfg (reinitSpeed s)
  | .stop => s.inited = true
  | .send _ _ => s.inited = true
  | .receive _ len => s.inited = true ∧ len.toNat ≤ 256
  | .transfer ms => s.inited = true ∧ dividerAnswers s.cfg (reinitSpeed s) ∧
      ∀ m ∈ ms, lenLegal (busMsg m)
  | .chipRead c _ _ len => s.inited = true ∧ dividerAnswers s.cfg (reinitSpeed s) ∧
      (rdBytewise c = true ∨ len.toNat ≤ 256)
  | .chipWrite _ _ _ len => s.inited = true ∧ dividerAnswers s.cfg (reinitSpeed s) ∧
      len.toNat ≤ s.cfg.maxXfer
  | .crc32Region _ _ _ _ => s.inited = true ∧ dividerAnswers s.cfg (reinitSpeed s)
  | .validateMagic _ _ => True
  | .waitTxSpace => True
  | .checkClearError => True
  | .checkStuck => True
  | .setupOffset _ _ => True
  | .crc32Update _ _ => True
  | .cmdTxdata _ => True
  | .cmdReceive _ => True
  | .cmdStop => True
  | .cmdStart _ _ => True

/-- A host address outside every buffer the instruction may fill (R89). -/
def outsideOf (i : Instr) (a : Nat) : Prop :=
  match i with
  | .receive buf len => outsideBuffer buf len.toNat a
  | .transfer ms => ∀ m ∈ ms, outsideMsg (busMsg m) a
  | .chipRead _ _ buf len => outsideBuffer buf len.toNat a
  | .init _ => True
  | .speedSet _ => True
  | .start _ _ => True
  | .stop => True
  | .send _ _ => True
  | .chipWrite _ _ _ _ => True
  | .crc32Region _ _ _ _ => True
  | .validateMagic _ _ => True
  | .waitTxSpace => True
  | .checkClearError => True
  | .checkStuck => True
  | .setupOffset _ _ => True
  | .crc32Update _ _ => True
  | .cmdTxdata _ => True
  | .cmdReceive _ => True
  | .cmdStop => True
  | .cmdStart _ _ => True

/-- The instructions by what of the configuration they may write: INIT and SPEED_SET program it (R140,
R143); START and what is built on it clears `CFG1.AUTOSTOP` and may re-run INIT (R171); the others
write none of it. -/
inductive ConfigUse where
  | programs
  | restarts
  | none
  deriving DecidableEq, Repr

/-- Which of the three an instruction is. -/
def configUse (i : Instr) : ConfigUse :=
  match i with
  | .init _ => .programs
  | .speedSet _ => .programs
  | .start _ _ => .restarts
  | .transfer _ => .restarts
  | .chipRead _ _ _ _ => .restarts
  | .chipWrite _ _ _ _ => .restarts
  | .crc32Region _ _ _ _ => .restarts
  | .stop => .none
  | .send _ _ => .none
  | .receive _ _ => .none
  | .validateMagic _ _ => .none
  | .waitTxSpace => .none
  | .checkClearError => .none
  | .checkStuck => .none
  | .setupOffset _ _ => .none
  | .crc32Update _ _ => .none
  | .cmdTxdata _ => .none
  | .cmdReceive _ => .none
  | .cmdStop => .none
  | .cmdStart _ _ => .none

end Sys2Proof.Machine
end

