-- ==== Sys2Proof/Certificates/Slice0/Obligations.lean ====
section
/-! DEFINITION. The statements for the provers. `Inv` is the invariant every step keeps; `Platform` is
what the spec asks of the platform (R73, R364). Statements with no premise on the environment hold for
every schedule of its moves (R300, R307); `Calm n` premises say that it does nothing at the next `n`
primitives; `Nominal` premises say that it is the nominal engine and target of R301 to R311, at the pace of
assumptions 3, 4 and 26. A premise on `sched`, or on what the coming timer reads give (`firstElapsed`,
`afterReads`, `elapsedAfter`), speaks through the model's data of assumptions 3 and 4. The bracket bit
that START, STOP and INIT move and SPEED_SET tests is the model's (assumption 14). -/

open Sys2Proof Sys2Proof.Machine

/-! ### Encoding -/

/-- Decoding the encoding of a well-formed instruction gives it back, with what follows it. The byte
layout of a request is the model's (assumption 7); the opcodes, operands and command words are R104's
and R116's. -/
def Obligations.DecodeEncode : Prop :=
  ∀ (i : Instr) (rest : List Byte), i.wf = true → decode i.space (encode i ++ rest) = .ok i rest

/-- R104, R105: the four command codes 0, 1, 2, 4 have a meaning and the other four have none; a word
with a meaning is the encoding of its command, but for the `DATA` bits of a stop, which are ignored. -/
def Obligations.CommandWordCodes : Prop :=
  ∀ w : CmdEntry,
    ((decodeCmd w).isSome = true ↔ w.extractLsb' 8 3 ∈ [0#3, 1#3, 2#3, 4#3]) ∧
    ∀ c, decodeCmd w = some c → encodeCmd c = w ∨ (c = .stop ∧ w.extractLsb' 8 3 = 2#3)

/-- Words written out from R101 to R104, and requests of R116 (their byte layout is the model's, assumption
7), with what they decode to. -/
def Obligations.WrittenWordsDecode : Prop :=
  decodeCmd 0b10010100100#11 = some (.start 0x52#7 .write) ∧
  decodeCmd 0b10010100101#11 = some (.start 0x52#7 .read) ∧
  decodeCmd 0b00111111111#11 = some (.receive 0xFF#8) ∧
  decodeCmd 0b01000000000#11 = some .stop ∧
  decodeCmd 0b00000100000#11 = some (.txdata 0x20#8) ∧
  decode .request [0x00#8, 0xA0#8, 0x86#8, 0x01#8, 0x00#8] = .ok (.init 100000#32) [] ∧
  decode .request [0x0A#8, 0x44#8, 0x54#8] = .ok (.validateMagic 0x44#8 0x54#8) []

/-- R116: a request with a reserved opcode is refused, and so is a micro-operation the host asks for. That a
request is a list of bytes whose first is the opcode (assumption 7), and that the host's requests wait in the
list `host`, from which a step takes the first (assumption 15), is the model's choice (DESIGN CHOICE). -/
def Obligations.ReservedRequestsRefused : Prop :=
  (∀ (s : State) (op : Byte) (rest : List Byte) (acts : List HostAct),
    s.host = .request (op :: rest) :: acts →
    ((0x0B ≤ op.toNat ∧ op.toNat ≤ 0x0F) ∨ (0x15 ≤ op.toNat ∧ op.toNat ≤ 0x1F)) →
    step s = .refused .reservedOpcode) ∧
  ∀ (s : State) (bs rest : List Byte) (i : Instr) (acts : List HostAct),
    s.host = .request bs :: acts → decode .request bs = .ok i rest → i.isMicro = true →
    step s = .refused .microFromHost

/-! ### The step -/

/-- A step runs the decoded instruction: a request of the host, a micro-operation from inside an
operation, or the command word the engine takes when the host has nothing to do; with none to take the
engine goes on with what it has in progress. The host's other acts load its own groups and buffers (R20 to
R22, R89). The model's choices: that what the host does waits in a list of the state (assumption 15), that
a request stores the chip descriptor it names in `State.chip` (assumption 25), that a receive or a start
in progress comes before a queued word (assumption 26), that the handle may be loaded at any time
(assumption 36) and any chip descriptor too (assumption 38), and that the engine, when the host has nothing
to do, is the nominal one, whatever is scheduled in `sched` (assumption 39). -/
def Obligations.StepRunsInstruction : Prop :=
  (∀ (s : State) (bs rest : List Byte) (i : Instr) (acts : List HostAct),
    s.host = .request bs :: acts → decode .request bs = .ok i rest → i.isMicro = false →
    step s = exec i (loadChipOf i { s with host := acts })) ∧
  (∀ (s : State) (bs rest : List Byte) (i : Instr) (acts : List HostAct),
    s.host = .micro bs :: acts → decode .request bs = .ok i rest → i.isMicro = true →
    step s = exec i { s with host := acts }) ∧
  (∀ (s : State) (w : CmdEntry) (c : Cmd), s.host = [] → nextEntry s = some w →
    decodeCmd w = some c → step s = exec c.toInstr s) ∧
  (∀ s : State, s.host = [] → nextEntry s = none → step s = .next (engineContinue s)) ∧
  (∀ (s : State) (index : Byte) (base : Word) (acts : List HostAct),
    s.host = .loadHandle index base :: acts →
    step s = .next { s with host := acts, handle := { s.handle with index := index, base := base } }) ∧
  (∀ (s : State) (c : Chip) (acts : List HostAct), s.host = .loadChip c :: acts →
    step s = .next { s with host := acts, chip := c }) ∧
  ∀ (s : State) (addr : Word) (bs : List Byte) (acts : List HostAct),
    s.host = .loadBytes addr bs :: acts →
    step s = .next { s with host := acts, mem := s.mem.writeBytes addr 0 bs }

/-- R47, R361: what power-on leaves, as far as the spec gives it; of the idle engine R47 leaves the direction
bit open, and that it is that of a write is the model's choice (DESIGN CHOICE, assumption 40), as is that the
wires are idle (assumption 1). -/
def Obligations.ResetValues : Prop :=
  State.reset.ctrl = 0#4 ∧ State.reset.flags = Status.clear ∧ State.reset.cfg0 = 0#32 ∧
  State.reset.cfg1 = 0#32 ∧ State.reset.clkcfg = 0#32 ∧ State.reset.mier = 0#32 ∧
  fifostatWord State.reset = 0#32 ∧ State.reset.txf = [] ∧ State.reset.rxf = [] ∧
  State.reset.phase = .idle ∧ State.reset.inited = false ∧ State.reset.work = {} ∧
  State.reset.engine = ⟨false, 0, none⟩

/-- The invariant holds at reset (with the parameters of assumption 2). -/
def Obligations.ResetInvariant : Prop := Inv State.reset

/-- The invariant holds after every step from any state in which it holds, whatever the step was: both
FIFOs within their depth (R41, R42), no reserved command word queued (R105), no interrupt enabled (R34),
the controller out of reset between operations (R140), both byte spaces canonical; and, the model's own
condition, parameters under which the rules make sense (assumption 16). -/
def Obligations.InvariantKept : Prop := ∀ s t : State, Inv s → step s = .next t → Inv t

/-- What no instruction changes: the parameters (R6), the chip descriptor (R22), the host's queue, the
handle's base and index (R21), the interrupt enables (R34), the sticky bit `inited` (R29), and every byte
of host memory outside the buffers the instruction may fill (R89). -/
def Obligations.InstructionFrame : Prop :=
  ∀ (i : Instr) (s t : State), Inv s → exec i s = .next t →
    t.cfg = s.cfg ∧ t.chip = s.chip ∧ t.host = s.host ∧ t.handle.base = s.handle.base ∧
    t.handle.index = s.handle.index ∧ t.mier = s.mier ∧ (s.inited = true → t.inited = true) ∧
    ∀ a, outsideOf i a → t.mem.read a = s.mem.read a

/-- Who writes the configuration: STOP, SEND, RECEIVE, VALIDATE_MAGIC, the micro-operations and the
command words write none of `CTRL`'s stored bits, `CFG0`, `CFG1`, `CLKCFG`, the handle and `inited`; START
and what is built on it writes only `CFG1.AUTOSTOP`, unless an INIT ran inside it (R171, R172, R213). -/
def Obligations.ConfigurationFrame : Prop :=
  ∀ (i : Instr) (s t : State), Inv s → exec i s = .next t →
    (configUse i = .none → t.ctrl = s.ctrl ∧ t.handle = s.handle ∧ t.inited = s.inited ∧
      t.cfg0 = s.cfg0 ∧ t.cfg1 = s.cfg1 ∧ t.clkcfg = s.clkcfg) ∧
    (configUse i = .restarts → ¬ reinited t → t.ctrl = s.ctrl ∧ t.handle = s.handle ∧
      t.inited = s.inited ∧ t.cfg0 = s.cfg0 ∧ startCfg1 t.cfg1 = startCfg1 s.cfg1 ∧
      t.clkcfg = s.clkcfg)

/-- R46: after a host operation the working registers hold no value. -/
def Obligations.WorkingRegistersEmpty : Prop :=
  ∀ (i : Instr) (s t : State), i.space = .request → i.isMicro = false → exec i s = .next t →
    t.work = {}

/-- R216: no request the rules give a meaning blocks for ever or is turned away. Whatever the
environment does, it ends, in a state in which the invariant holds again. -/
def Obligations.NothingBlocks : Prop :=
  ∀ (i : Instr) (s : State), i.wf = true → Inv s → Platform s → admitted i s →
    ∃ t, exec i s = .next t ∧ Inv t

/-! ### Bring-up and the divider -/

/-- R152: the chosen pair's error is at most that of every other representable pair. -/
def Obligations.DividerOptimal : Prop :=
  ∀ clk speed : Nat, (dividerSearch clk speed).chosen = true →
    ∀ p c : Nat, p ∈ [1, 2, 4, 8, 16, 32, 64, 128] → 1 ≤ c → c ≤ 31 →
    absDiff (rateOf clk (dividerSearch clk speed).bestP (dividerSearch clk speed).bestC) speed ≤
      absDiff (rateOf clk p c) speed

/-- R146: the chosen pair is one of the 248 pairs, and every pair before it in search order has a larger
error. -/
def Obligations.DividerFirst : Prop :=
  ∀ clk speed : Nat, (dividerSearch clk speed).chosen = true →
    ((dividerSearch clk speed).bestP, (dividerSearch clk speed).bestC) ∈ allPairs ∧
    ∀ q ∈ allPairs, before q ((dividerSearch clk speed).bestP, (dividerSearch clk speed).bestC) →
      pairErr clk speed
        ((dividerSearch clk speed).bestP, (dividerSearch clk speed).bestC) < pairErr clk speed q

/-- R153: no pair is selected exactly when the speed is 0xFFFFFFFF and the clock below 8 Hz. -/
def Obligations.DividerNoPair : Prop :=
  ∀ clk speed : Word, (dividerSearch clk.toNat speed.toNat).chosen = false ↔
    (clk.toNat < 8 ∧ speed = 0xFFFFFFFF#32)

/-- R113, R148: the timing fields of the word SPEED_SET writes, for every count. -/
def Obligations.TimingFields : Prop :=
  ∀ c : Nat, 1 ≤ c → c ≤ 31 →
    ((clkcfgWord c).extractLsb' 8 6).toNat = c ∧
    ((clkcfgWord c).extractLsb' 0 6).toNat = (if 2 ≤ c then 2 * c else 3) ∧
    ((clkcfgWord c).extractLsb' 16 6).toNat = (if 2 ≤ c then c else 2) ∧
    ((clkcfgWord c).extractLsb' 24 6).toNat = (if 2 ≤ c then c / 2 else 1) ∧
    clkcfgWord c &&& 0xC0C0C0C0#32 = 0#32

/-- R143, R149, R151: SPEED_SET programs the timing word and the prescaler of the chosen pair, stores the
speed, and leaves the master, the phase and everything else of the configuration as they were, whatever
the environment does. Its register accesses are exactly `speedAccesses`, in order: the word that switches
the master off is written before the two divider registers, and the master comes back behind them, only if
it was on. It is requested outside a bracket (R370), by the model's bracket bit (assumption 14). -/
def Obligations.SpeedSetDone : Prop :=
  ∀ (speed : Word) (s : State), Inv s → Platform s → s.bracket = false → s.cfg.clockSrc ≠ 0#32 →
    ¬ (s.cfg.clockSrc.toNat < 8 ∧ speed = 0xFFFFFFFF#32) →
    ∃ t, exec (.speedSet speed) s = .next t ∧ t.result = .ok ∧
      t.clkcfg = clkcfgWord (dividerSearch s.cfg.clockSrc.toNat speed.toNat).bestC ∧
      t.cfg1 = withPrescale s.cfg1 (dividerSearch s.cfg.clockSrc.toNat speed.toNat).bestP ∧
      t.handle = { s.handle with rate := speed } ∧ t.ctrl = s.ctrl ∧ t.cfg0 = s.cfg0 ∧
      t.phase = s.phase ∧ t.inited = s.inited ∧ t.bracket = s.bracket ∧ t.mem = s.mem ∧
      txWritten t = [] ∧
      t.trace.reverse = speedAccesses s (dividerSearch s.cfg.clockSrc.toNat speed.toNat).bestP
        (dividerSearch s.cfg.clockSrc.toNat speed.toNat).bestC

/-- R150, R332: with no source clock SPEED_SET fails before any register access, outside a bracket (R370;
the bit is the model's, assumption 14). -/
def Obligations.SpeedSetNoClock : Prop :=
  ∀ (speed : Word) (s : State), s.bracket = false → s.cfg.clockSrc = 0#32 →
    exec (.speedSet speed) s = .next { s with result := .divider, work := {}, trace := [] }

/-- The conditions under which SPEED_SET has no meaning: inside a bracket (R370; assumption 14), and,
whatever the environment does, when no pair can be selected (R153); INIT is refused then too, as a whole
(assumption 20). -/
def Obligations.SpeedSetRefused : Prop :=
  (∀ (speed : Word) (s : State), s.bracket = true →
    exec (.speedSet speed) s = .refused .speedSetInBracket) ∧
  ∀ (speed : Word) (s : State), Inv s → Platform s → s.cfg.clockSrc ≠ 0#32 →
    s.cfg.clockSrc.toNat < 8 → speed = 0xFFFFFFFF#32 →
    (s.bracket = false → exec (.speedSet speed) s = .refused .noDividerPair) ∧
    exec (.init speed) s = .refused .noDividerPair

/-- R140: INIT from any state, under any environment: its primitives, what it programs, and that both FIFOs
are empty. -/
def Obligations.InitDone : Prop :=
  ∀ (speed : Word) (s : State), Inv s → Platform s → s.cfg.clockSrc ≠ 0#32 →
    ¬ (s.cfg.clockSrc.toNat < 8 ∧ speed = 0xFFFFFFFF#32) →
    ∃ t, exec (.init speed) s = .next t ∧ t.result = .ok ∧ t.phase = .initialized ∧
      t.inited = true ∧ t.ctrl = 0b0101#4 ∧ t.cfg0 = 0#32 ∧
      t.cfg1 = withPrescale 0#32 (dividerSearch s.cfg.clockSrc.toNat speed.toNat).bestP ∧
      t.clkcfg = clkcfgWord (dividerSearch s.cfg.clockSrc.toNat speed.toNat).bestC ∧
      t.handle = { s.handle with rate := speed } ∧ t.txf = [] ∧ t.rxf = [] ∧ t.mier = 0#32 ∧
      t.bracket = false ∧ t.mem = s.mem ∧ txWritten t = [] ∧ primsOf t = initPrims s.cfg

/-- R141: INIT with no source clock: the master is enabled all the same, the divider fields are the reset
values, the phase is Idle and `inited` and the handle stay. -/
def Obligations.InitNoClock : Prop :=
  ∀ (speed : Word) (s : State), Inv s → Platform s → s.cfg.clockSrc = 0#32 →
    ∃ t, exec (.init speed) s = .next t ∧ t.result = .divider ∧ t.phase = .idle ∧
      t.inited = s.inited ∧ t.ctrl = 0b0101#4 ∧ t.cfg0 = 0#32 ∧ t.cfg1 = 0#32 ∧
      t.clkcfg = 0#32 ∧ t.handle = s.handle ∧ t.txf = [] ∧ t.rxf = [] ∧ t.mem = s.mem ∧
      primsOf t = initPrims s.cfg

/-! ### START and STOP -/

/-- R170: CHECK_STUCK is one status read, behind one turn of the environment (R9, R300); it answers whether
the bus was busy without this master owning it at that read, and changes nothing else. That the answer
stands in the working register `stuck`, and that `result` is not written, is the model's (assumption 23). -/
def Obligations.CheckStuckReads : Prop :=
  ∀ s : State, Inv s → Platform s →
    ∃ u t, envSlot (beginOp s) = .next u ∧ Contract (beginOp s) u ∧
      exec .checkStuck s = .next t ∧ t.work.stuck = some (u.flags.bbf && !u.flags.mbf) ∧
      t = { u with work := t.work, draws := t.draws, trace := t.trace } ∧ primsOf t = [.rd .status]

/-- R171: START on a bus that is not stuck, with space and time, the environment doing nothing: the flags
are cleared, auto-stop is disabled, one start word is queued, and nothing else changes. -/
def Obligations.StartQueues : Prop :=
  ∀ (a : BitVec 7) (d : Dir) (s : State), Inv s → Platform s → s.inited = true → Calm 9 s →
    ¬ busStuck s → s.txf.length < s.cfg.fifoDepth → firstElapsed s ≤ s.cfg.tPoll →
    ∃ t, exec (.start a d) s = .next t ∧ txWritten t = [startWord a d] ∧
      t = { s with
        result := .ok
        work := {}
        phase := .start
        bracket := true
        flags := s.flags.clearW1C clearAll
        cfg1 := s.cfg1 &&& ~~~autostopMask
        txf := s.txf ++ [(startWord a d).setWidth 11]
        timer := t.timer
        sched := t.sched
        ticks := t.ticks
        draws := t.draws
        trace := t.trace }

/-- R217: under a timer that exceeds the budget on the first check, and with no error flag set, every
polling operation returns the timeout error after one `FIFOSTAT` read, one `STATUS` read and two timer
reads of its wait, whatever the transmit FIFO holds, and writes no command word. -/
def Obligations.LateTimer : Prop :=
  ∀ s : State, Inv s → Platform s → s.inited = true → Calm 9 s → noErrorFlag s.flags →
    (∀ (a : BitVec 7) (d : Dir), ¬ busStuck s → s.cfg.tPoll < firstElapsed s →
      ∃ t, exec (.start a d) s = .next t ∧ t.result = .timeout ∧ t.phase = .error ∧
        txWritten t = [] ∧ primsOf t = [.rd .status, .wr .status, .rd .cfg1, .wr .cfg1,
          .now, .rd .fifostat, .rd .status, .now]) ∧
    (s.cfg.tPoll < firstElapsed s →
      ∃ t, exec .stop s = .next t ∧ t.result = .timeout ∧ t.phase = .error ∧ txWritten t = [] ∧
        primsOf t = [.now, .rd .fifostat, .rd .status, .now]) ∧
    (∀ buf len : Word, len ≠ 0#32 → s.cfg.tPoll < firstElapsed s →
      ∃ t, exec (.send buf len) s = .next t ∧ t.result = .timeout ∧ t.phase = .error ∧
        txWritten t = [] ∧ primsOf t = [.now, .rd .fifostat, .rd .status, .now]) ∧
    ∀ buf len : Word, len ≠ 0#32 → len.toNat ≤ 256 → s.cfg.tPoll < firstElapsed (tickTimer s) →
      ∃ t, exec (.receive buf len) s = .next t ∧ t.result = .timeout ∧ t.phase = .error ∧
        txWritten t = [] ∧ primsOf t = [.now, .now, .rd .fifostat, .rd .status, .now]

/-- R172, R322: a bus that stays stuck: START's primitives are a status read, those of one INIT, and a
status read; it fails and writes no command word. That the bus still reads busy after INIT's reset is R363
with R47 (assumption 11). -/
def Obligations.StartStuck : Prop :=
  ∀ (a : BitVec 7) (d : Dir) (s : State), Inv s → Platform s → s.inited = true → Calm 18 s →
    busStuck s → dividerAnswers s.cfg (reinitSpeed s) →
    ∃ t, exec (.start a d) s = .next t ∧ t.result = .busBusy ∧ t.phase = .error ∧
      txWritten t = [] ∧ t.txf = [] ∧ t.rxf = [] ∧ t.ctrl = 0b0101#4 ∧ t.mem = s.mem ∧
      primsOf t = [.rd .status] ++ initPrims s.cfg ++ [.rd .status]

/-- START under any environment: it ends; on OK it has written its one command word and opened a bracket,
on an error it has written none and the phase is Error (R171, R177). And exactly, on a bus that is not stuck,
when the environment sets the flags `w` behind START's clear and before its wait for space, an error among
them, and does nothing else: START ends with the code of that error, whatever the timer and the space, its
flags and FIFOs cleared by the decode, auto-stop disabled (R171, R213, R335). -/
def Obligations.StartAny : Prop :=
  (∀ (a : BitVec 7) (d : Dir) (s : State), Inv s → Platform s → s.inited = true →
    dividerAnswers s.cfg (reinitSpeed s) →
    ∃ t, exec (.start a d) s = .next t ∧ t.mem = s.mem ∧
      ((t.result = .ok ∧ t.phase = .start ∧ t.bracket = true ∧ txWritten t = [startWord a d]) ∨
        (t.result ≠ .ok ∧ t.phase = .error ∧ txWritten t = []))) ∧
  ∀ (a : BitVec 7) (d : Dir) (s : State) (w : BitVec 7) (rest : List (List EnvMove)), Inv s →
    Platform s → s.inited = true → ¬ busStuck s →
    ¬ noErrorFlag ((s.flags.clearW1C clearAll).raiseW1C w) →
    s.sched = List.replicate 4 [] ++ [.raiseFlags w] :: (List.replicate 5 [] ++ rest) →
    ∃ t, exec (.start a d) s = .next t ∧ txWritten t = [] ∧
      primsOf t = [.rd .status, .wr .status, .rd .cfg1, .wr .cfg1, .now, .rd .fifostat,
        .rd .status, .wr .status, .rd .ctrl, .wr .ctrl] ∧
      t = { s with
        result := flagsCode ((s.flags.clearW1C clearAll).raiseW1C w)
        work := {}
        phase := .error
        cfg1 := s.cfg1 &&& ~~~autostopMask
        flags := clearedFlags s.flags
        txf := []
        rxf := []
        timer := t.timer
        sched := t.sched
        ticks := t.ticks
        draws := t.draws
        trace := t.trace }

/-- R174, R303: STOP of a bracket the nominal engine holds: one stop word; the bus is released, `SDF` is
cleared again, the phase is Idle, and host memory and the target's array stay. -/
def Obligations.StopReleases : Prop :=
  ∀ (d : Dir) (s : State) (e : Target), Inv s → Platform s → s.inited = true → Nominal s →
    InBracket d s e → 1 ≤ s.cfg.tPoll →
    ∃ t, exec .stop s = .next t ∧ t.result = .ok ∧ t.phase = .idle ∧ t.bracket = false ∧
      txWritten t = [stopWord] ∧ t.txf = [] ∧ t.rxf = [] ∧ t.flags.mbf = false ∧
      t.flags.bbf = false ∧ t.flags.sdf = false ∧ noErrorFlag t.flags ∧
      t.target = some e.release ∧ t.mem = s.mem

/-- STOP under any environment: it ends, closing the bracket; on OK it has written one stop word and the
phase is Idle, on an error at most one and the phase is Error (R174). And exactly, when `m` passes of the
stop-detect loop see no flag, the environment then sets the flags `w` and does nothing else, and the next
pass sees `SDF` or finds the timer past `T_STOP`: OK and `SDF` alone cleared, or the timeout (R174, R175). A
pass whose elapsed time is at most `T_STOP`, equal to it included, does not end the loop (R215). With the
variant `P_STOP_DECODE` an error among the flags is decoded first, with R213's side effects, and becomes the
result if `SDF` was seen (R176). Last, in a quiet environment with an error flag set on entry: STOP ends
with the code of that error and writes no stop word (R174, R335). -/
def Obligations.StopAny : Prop :=
  (∀ s : State, Inv s → Platform s → s.inited = true →
    ∃ t, exec .stop s = .next t ∧ t.mem = s.mem ∧ t.bracket = false ∧
      ((t.result = .ok ∧ t.phase = .idle ∧ txWritten t = [stopWord]) ∨
        (t.result ≠ .ok ∧ t.phase = .error ∧ (txWritten t = [] ∨ txWritten t = [stopWord])))) ∧
  (∀ (s : State) (m : Nat) (w : BitVec 7) (rest : List (List EnvMove)), Inv s → Platform s →
    s.inited = true → noErrorFlag s.flags → s.txf.length < s.cfg.fifoDepth →
    firstElapsed s ≤ s.cfg.tPoll →
    s.sched = List.replicate (6 + m * (stopPassPrims s.cfg s.flags).length) [] ++
      [.raiseFlags w] :: (List.replicate 5 [] ++ rest) →
    (0 < m → s.flags.sdf = false) →
    (∀ j, j < m → elapsedAfter (j + 1) (afterReads 2 s) ≤ s.cfg.tStop) →
    ((s.flags.raiseW1C w).sdf = false → s.cfg.tStop < elapsedAfter (m + 1) (afterReads 2 s)) →
    ∃ t, exec .stop s = .next t ∧ txWritten t = [stopWord] ∧
      primsOf t = [.now, .rd .fifostat, .rd .status, .now, .wr .txcmd, .now] ++
        (List.replicate m (stopPassPrims s.cfg s.flags)).flatten ++
        stopPassPrims s.cfg (s.flags.raiseW1C w) ∧
      t = { s with
        result := stopCode s.cfg (s.flags.raiseW1C w)
        work := {}
        phase := if stopCode s.cfg (s.flags.raiseW1C w) = .ok then .idle else .error
        bracket := false
        flags := stopFlags s.cfg (s.flags.raiseW1C w)
        txf := if stopErrs s.cfg (s.flags.raiseW1C w) then [] else s.txf ++ [stopWord.setWidth 11]
        rxf := if stopErrs s.cfg (s.flags.raiseW1C w) then [] else s.rxf
        timer := t.timer
        sched := t.sched
        ticks := t.ticks
        draws := t.draws
        trace := t.trace }) ∧
  ∀ s : State, Inv s → Platform s → s.inited = true → Calm 6 s → ¬ noErrorFlag s.flags →
    ∃ t, exec .stop s = .next t ∧ txWritten t = [] ∧
      primsOf t = [.now, .rd .fifostat, .rd .status, .wr .status, .rd .ctrl, .wr .ctrl] ∧
      t = { s with
        result := flagsCode s.flags
        work := {}
        phase := .error
        bracket := false
        flags := clearedFlags s.flags
        txf := []
        rxf := []
        timer := t.timer
        sched := t.sched
        ticks := t.ticks
        draws := t.draws
        trace := t.trace }

/-! ### SEND and RECEIVE -/

/-- R190, R301, R308: SEND in a write bracket of the nominal engine writes one data word per byte, in
order, and once the engine has taken the last word the target has received exactly those bytes. -/
def Obligations.SendDelivers : Prop :=
  ∀ (buf len : Word) (s : State) (e : Target), Inv s → Platform s → s.inited = true → Nominal s →
    InBracket .write s e → 1 ≤ s.cfg.tPoll →
    ∃ t u, exec (.send buf len) s = .next t ∧ t.result = .ok ∧ t.phase = .transferring ∧
      txWritten t = (bufferBytes s buf len.toNat).map dataWord ∧ t.mem = s.mem ∧
      envSlot t = .next u ∧ u.txf = [] ∧ u.flags.mbf = true ∧ noErrorFlag u.flags ∧
      u.target = some (e.putBytes (bufferBytes s buf len.toNat))

/-- SEND under any environment: it ends; the words it wrote are the data words of all its bytes, or, on
an error, of the bytes before the failing one (R190, R191). In a quiet environment with an error flag set on
entry SEND of at least one byte ends with the code of that error, and at any byte it ends with the code of
the failed wait for space (R190, R213, R335). -/
def Obligations.SendAny : Prop :=
  (∀ (buf len : Word) (s : State), Inv s → Platform s → s.inited = true →
    ∃ t, exec (.send buf len) s = .next t ∧ t.mem = s.mem ∧ t.bracket = s.bracket ∧
      ((t.result = .ok ∧ t.phase = .transferring ∧
          txWritten t = (bufferBytes s buf len.toNat).map dataWord) ∨
        (t.result ≠ .ok ∧ t.phase = .error ∧
          ∃ k, k < len.toNat ∧ txWritten t = (bufferBytes s buf k).map dataWord))) ∧
  (∀ (buf len : Word) (s : State), Inv s → Platform s → s.inited = true → len ≠ 0#32 → Calm 6 s →
    ¬ noErrorFlag s.flags →
    ∃ t, exec (.send buf len) s = .next t ∧ txWritten t = [] ∧
      primsOf t = [.now, .rd .fifostat, .rd .status, .wr .status, .rd .ctrl, .wr .ctrl] ∧
      t = { s with
        result := flagsCode s.flags
        work := {}
        phase := .error
        flags := clearedFlags s.flags
        txf := []
        rxf := []
        timer := t.timer
        sched := t.sched
        ticks := t.ticks
        draws := t.draws
        trace := t.trace }) ∧
  ∀ (src : ByteSrc) (i n : Nat) (e : Code) (s t : State),
    waitTxSpace (note (fun w => { w with i := some i }) s) = .next (e, t) → e ≠ .ok →
    sendLoop src i (n + 1) s = .next (e, { t with phase := .error, result := e })

/-- R192, R196, R302: RECEIVE of 1 to 256 bytes in a read bracket of the nominal engine fills the buffer
with the target's bytes in order and leaves the receive FIFO empty. -/
def Obligations.ReceiveFills : Prop :=
  ∀ (buf len : Word) (s : State) (e : Target), Inv s → Platform s → s.inited = true → Nominal s →
    InBracket .read s e → len ≠ 0#32 → len.toNat ≤ 256 → len.toNat + 2 ≤ s.cfg.tPoll →
    ∃ t, exec (.receive buf len) s = .next t ∧ t.result = .ok ∧ t.phase = .transferring ∧
      txWritten t = [receiveWord len.toNat] ∧ t.txf = [] ∧ t.rxf = [] ∧
      t.mem = s.mem.writeBytes buf 0 (e.getBytes len.toNat).1 ∧
      t.target = some (e.getBytes len.toNat).2

/-- RECEIVE under any environment: it ends; on OK it has written its one command word, on an error at
most that one; outside its buffer every byte stays (R89, R192). And exactly, when the environment sets the
flags `w` behind the wait for space and does nothing else, and its first poll shows an error or a timer past
the budget: the error decoded, with R213's side effects, else the timeout, and no byte received (R192,
R195). With the variant `P_RX_CLEAR` all flags are cleared before the command, so that only the timeout is
left (R194). Last, in a quiet environment with an error flag set on entry: RECEIVE ends with the code of that
error and writes no receive word (R192, R335). -/
def Obligations.ReceiveAny : Prop :=
  (∀ (buf len : Word) (s : State), Inv s → Platform s → s.inited = true → len ≠ 0#32 →
    len.toNat ≤ 256 →
    ∃ t, exec (.receive buf len) s = .next t ∧ t.bracket = s.bracket ∧
      (∀ a, outsideBuffer buf len.toNat a → t.mem.read a = s.mem.read a) ∧
      ((t.result = .ok ∧ t.phase = .transferring ∧ txWritten t = [receiveWord len.toNat]) ∨
        (t.result ≠ .ok ∧ t.phase = .error ∧
          (txWritten t = [] ∨ txWritten t = [receiveWord len.toNat])))) ∧
  (∀ (buf len : Word) (s : State) (w : BitVec 7) (rest : List (List EnvMove)), Inv s → Platform s →
    s.inited = true → len ≠ 0#32 → len.toNat ≤ 256 → noErrorFlag s.flags →
    s.txf.length < s.cfg.fifoDepth → firstElapsed (tickTimer s) ≤ s.cfg.tPoll →
    s.sched = List.replicate 5 [] ++ [.raiseFlags w] :: (List.replicate 4 [] ++ rest) →
    (flagsCode (rxFlags s.cfg (s.flags.raiseW1C w)) = .ok → s.cfg.tPoll < elapsedAfter 3 s) →
    ∃ t, exec (.receive buf len) s = .next t ∧ txWritten t = [receiveWord len.toNat] ∧
      primsOf t = [.now, .now, .rd .fifostat, .rd .status, .now] ++
        rxPassPrims s.cfg (s.flags.raiseW1C w) ∧
      t = { s with
        result := rxCode s.cfg (s.flags.raiseW1C w)
        work := {}
        phase := .error
        flags := rxEndFlags s.cfg (s.flags.raiseW1C w)
        txf := if rxErrs s.cfg (s.flags.raiseW1C w) then []
          else s.txf ++ [(receiveWord len.toNat).setWidth 11]
        rxf := if rxErrs s.cfg (s.flags.raiseW1C w) then [] else s.rxf
        timer := t.timer
        sched := t.sched
        ticks := t.ticks
        draws := t.draws
        trace := t.trace }) ∧
  ∀ (buf len : Word) (s : State), Inv s → Platform s → s.inited = true → len ≠ 0#32 →
    len.toNat ≤ 256 → Calm 7 s → ¬ noErrorFlag s.flags →
    ∃ t, exec (.receive buf len) s = .next t ∧ txWritten t = [] ∧
      primsOf t = [.now, .now, .rd .fifostat, .rd .status, .wr .status, .rd .ctrl, .wr .ctrl] ∧
      t = { s with
        result := flagsCode s.flags
        work := {}
        phase := .error
        flags := clearedFlags s.flags
        txf := []
        rxf := []
        timer := t.timer
        sched := t.sched
        ticks := t.ticks
        draws := t.draws
        trace := t.trace }

/-- R193: RECEIVE of no byte returns OK at once, touches no register, reads no timer and leaves the phase;
of more than 256 it is refused; 256 is legal, and when such a RECEIVE ends with OK the one word it wrote is
0x1FF. -/
def Obligations.ReceiveLengths : Prop :=
  (∀ (buf : Word) (s : State), s.inited = true →
    exec (.receive buf 0#32) s = .next { s with result := .ok, work := {}, trace := [] }) ∧
  (∀ (buf len : Word) (s : State), s.inited = true → 256 < len.toNat →
    exec (.receive buf len) s = .refused .receiveTooLong) ∧
  ∀ (buf : Word) (s : State), Inv s → Platform s → s.inited = true →
    ∃ t, exec (.receive buf 256#32) s = .next t ∧ (t.result = .ok → txWritten t = [0x1FF#32])

/-! ### Polling -/

/-- R211 to R213: CHECK_CLEAR_ERROR, the environment doing nothing. With no error flag set it is one status
read and changes nothing; else it reports the first set flag in the order pin-low timeout, arbitration
lost, NACK, FIFO error, clears all seven write-1-to-clear flags and empties both FIFOs. -/
def Obligations.CheckClearErrorDecodes : Prop :=
  ∀ s : State, Inv s → Platform s → Calm 4 s →
    ∃ t, exec .checkClearError s = .next t ∧ t.result = flagsCode s.flags ∧
      (noErrorFlag s.flags → primsOf t = [.rd .status] ∧
        t = { s with
          result := .ok
          work := t.work
          sched := t.sched
          draws := t.draws
          trace := t.trace }) ∧
      (¬ noErrorFlag s.flags → primsOf t = [.rd .status, .wr .status, .rd .ctrl, .wr .ctrl] ∧
        t = { s with
          result := flagsCode s.flags
          work := t.work
          flags := ⟨false, false, false, false, false, false, false, s.flags.mbf, s.flags.bbf⟩
          txf := []
          rxf := []
          sched := t.sched
          draws := t.draws
          trace := t.trace })

/-- R210, R215: WAIT_TX_SPACE, the environment doing nothing and no error pending: the first timer test
decides. An elapsed time equal to the budget does not fail; one above it fails even when there is space. -/
def Obligations.WaitTxSpaceFirstTest : Prop :=
  ∀ s : State, Inv s → Platform s → Calm 4 s → noErrorFlag s.flags →
    (s.txf.length < s.cfg.fifoDepth ∨ s.cfg.tPoll < firstElapsed s) →
    ∃ t, exec .waitTxSpace s = .next t ∧
      primsOf t = [.now, .rd .fifostat, .rd .status, .now] ∧
      t = { s with
        result := if s.cfg.tPoll < firstElapsed s then .timeout else .ok
        work := t.work
        timer := t.timer
        sched := t.sched
        ticks := t.ticks
        draws := t.draws
        trace := t.trace }

/-- The two polling micro-operations under any environment: each ends, writes no command word, and leaves
everything but the flags, the FIFOs, the timer, the environment, the result and the working registers;
WAIT_TX_SPACE answers OK only with space in the transmit FIFO (R210, R211, R371). -/
def Obligations.PollingAny : Prop :=
  ∀ s : State, Inv s → Platform s → ∀ i ∈ [Instr.waitTxSpace, Instr.checkClearError],
    ∃ t, exec i s = .next t ∧ txWritten t = [] ∧
      (i = .waitTxSpace → t.result = .ok → t.txf.length < t.cfg.fifoDepth) ∧
      t.result ∈ [.ok, .timeout, .pinLowTimeout, .arbLost, .nack, .fifo] ∧
      (i = .checkClearError → t.result ≠ .timeout) ∧
      (∀ w ∈ t.txf, w ∈ s.txf) ∧
      t = { s with
        result := t.result
        work := t.work
        flags := t.flags
        txf := t.txf
        rxf := t.rxf
        engine := t.engine
        target := t.target
        timer := t.timer
        sched := t.sched
        ticks := t.ticks
        draws := t.draws
        trace := t.trace }

/-! ### The dispatcher -/

/-- R233, R236, R238: TRANSFER under any environment. Its command words hold at most one stop, at the end;
its start words are those of its messages, in order, none twice; after OK every message was started, the
stop was written and the phase is Idle. Host memory outside the read buffers stays. -/
def Obligations.TransferBrackets : Prop :=
  ∀ (ms : List Msg) (s : State), (Instr.transfer ms).wf = true → Inv s → Platform s →
    s.inited = true → dividerAnswers s.cfg (reinitSpeed s) → (∀ m ∈ ms, lenLegal (busMsg m)) →
    ∃ t ws, exec (.transfer ms) s = .next t ∧ t.bracket = false ∧ stopWord ∉ ws ∧
      List.Sublist (starts ws) ((ms.map busMsg).map startOf) ∧
      (txWritten t = ws ∨ txWritten t = ws ++ [stopWord]) ∧
      (t.result = .ok → t.phase = .idle ∧ txWritten t = ws ++ [stopWord] ∧
        starts ws = (ms.map busMsg).map startOf) ∧
      (t.phase = .idle ∨ t.phase = .error) ∧
      ∀ a, (∀ m ∈ ms, outsideMsg (busMsg m) a) → t.mem.read a = s.mem.read a

/-- R231, R232, R234: a failed write message ends the message loop, a failed read message does not; an
error found earlier is never replaced, neither by a later message nor by the STOP. R252, R254, R261, R281,
R285, R336: the bytewise loops of CHIP_READ and CHIP_WRITE and the loop of CRC32_REGION end at the first
transfer or read that fails, with its code and in the state it leaves, and go on behind one that does not;
the three operations, and both block forms, answer what their loop or their one transfer answers. That the
offset of byte `j` wraps in CRC32_REGION is assumption 34. -/
def Obligations.FirstErrorWins : Prop :=
  (∀ (k : Nat) (m : BusMsg) (rest : List BusMsg) (ret r : Code) (s t : State),
    runMsg m (note (fun w => { w with k := some k }) s) = .next (r, t) → r ≠ .ok →
    ((∃ a src, m = .write a src) → transferLoop k (m :: rest) ret s = .next (firstError ret r,
      note (fun w => { w with r := some r, ret := some (firstError ret r) }) t)) ∧
    ((∃ a len dst, m = .read a len dst) →
      transferLoop k (m :: rest) ret s = transferLoop (k + 1) rest (firstError ret r)
        (note (fun w => { w with r := some r, ret := some (firstError ret r) }) t))) ∧
  (∀ (k : Nat) (ms : List BusMsg) (ret c : Code) (s t : State), ret ≠ .ok →
    transferLoop k ms ret s = .next (c, t) → c = ret) ∧
  (∀ (ms : List BusMsg) (ret rs : Code) (s t u : State),
    transferLoop 0 ms .ok (note (fun w => { w with ret := some .ok, msgs := some ms }) s) =
      .next (ret, t) → stop t = .next (rs, u) →
    ∃ v, transfer ms s = .next (if ret = .ok then rs else ret, v)) ∧
  (∀ (c : Chip) (o : Word) (dst : ByteDst) (i n : Nat) (r : Code) (s t : State),
    offsetWidth c ≠ 0 →
    transfer [offsetMsg c (offsetPlus o i), .read (foldedAddr c (offsetPlus o i)) 1 (dstAt dst i)]
      (setupOffset c (offsetPlus o i) (note (fun w => { w with i := some i }) s)) = .next (r, t) →
    readBytewise c o dst i (n + 1) s =
      if r = .ok then readBytewise c o dst (i + 1) n t else .next (r, t)) ∧
  (∀ (c : Chip) (o buf : Word) (i n : Nat) (r : Code) (s t : State), offsetWidth c ≠ 0 →
    transfer [writeMsg c (offsetPlus o i) [s.mem.read (hostAddr buf i)]]
      (fillStage c (offsetPlus o i) [s.mem.read (hostAddr buf i)]
        (setupOffset c (offsetPlus o i) (note (fun w => { w with i := some i }) s))) =
      .next (r, t) →
    writeBytewise c o buf i (n + 1) s =
      if r = .ok then writeBytewise c o buf (i + 1) n t else .next (r, t)) ∧
  (∀ (c : Chip) (start expected crc : Word) (j n : Nat) (r : Code) (s t : State),
    chipRead c (offsetPlus start j) .reg 1
      (note (fun w => { w with j := some j, crc := some crc }) s) = .next (r, t) →
    (r ≠ .ok → crcLoop c start expected j (n + 1) crc s = .next (r, t)) ∧
    (r = .ok → ∀ b, t.work.b = some b → crcLoop c start expected j (n + 1) crc s =
      crcLoop c start expected (j + 1) n (crcUpdate t.cfg.crcVariant crc b) t)) ∧
  (∀ (c : Chip) (o : Word) (dst : ByteDst) (len : Nat) (s : State),
    (rdBytewise c = true ∨ len ≤ 256) → chipRead c o dst len s = if rdBytewise c
      then readBytewise c o dst 0 len s
      else transfer (readMsgs c o dst len) (setupOffset c o s)) ∧
  (∀ (c : Chip) (o buf len : Word) (s : State), c.wf = true → s.inited = true →
    exec (.chipRead c o buf len) s = finish (chipRead c o (.host buf) len.toNat (beginOp s))) ∧
  (∀ (c : Chip) (o buf len : Word) (s : State), c.wf = true → s.inited = true →
    len.toNat ≤ s.cfg.maxXfer →
    exec (.chipWrite c o buf len) s = finish (if wrBytewise c
      then writeBytewise c o buf 0 len.toNat (beginOp s)
      else transfer [writeMsg c o (bufferBytes s buf len.toNat)]
        (fillStage c o (bufferBytes s buf len.toNat) (beginOp s)))) ∧
  (∀ (c : Chip) (start length expected : Word) (s : State), c.wf = true → s.inited = true →
    exec (.crc32Region c start length expected) s =
      finish (crcLoop c start expected 0 length.toNat 0#32 (beginOp s))) ∧
  ∀ (ms : List Msg) (s : State), (∀ m ∈ ms, m.wf = true) → s.inited = true →
    exec (.transfer ms) s = finish (transfer (ms.map busMsg) (beginOp s))

/-- R230 with the nominal engine and target: a TRANSFER whose messages the target answers returns OK; the
bus is released, both FIFOs are empty, and host memory and target are what the messages, one after the
other, make of them. -/
def Obligations.TransferDelivers : Prop :=
  ∀ (ms : List Msg) (s : State) (e : Target), (Instr.transfer ms).wf = true → ms ≠ [] → Inv s →
    Platform s → s.inited = true → Nominal s → BusReady s e →
    (∀ m ∈ ms, msgFits e s.cfg (busMsg m)) →
    ∃ t, exec (.transfer ms) s = .next t ∧ t.result = .ok ∧ t.phase = .idle ∧ t.txf = [] ∧
      t.rxf = [] ∧ t.flags.mbf = false ∧ t.flags.bbf = false ∧ t.flags.sdf = false ∧
      noErrorFlag t.flags ∧
      t.mem = ((ms.map busMsg).foldl (fun x m => busEffect m x) (s.mem, e)).1 ∧
      t.target = some ((ms.map busMsg).foldl (fun x m => busEffect m x) (s.mem, e)).2.release

/-! ### The chip-addressing layer -/

/-- R251, R252: the command words of CHIP_READ under any environment. A CHIP_READ that returns OK has
written, in block mode, the words of one bracket, in bytewise mode those of one bracket per byte, the
offset of byte `j` being `offset + j`; outside its buffer every byte stays. -/
def Obligations.ChipReadWords : Prop :=
  ∀ (c : Chip) (o buf len : Word) (s : State), c.wf = true → Inv s → Platform s →
    s.inited = true → dividerAnswers s.cfg (reinitSpeed s) →
    (rdBytewise c = true ∨ len.toNat ≤ 256) →
    ∃ t, exec (.chipRead c o buf len) s = .next t ∧
      (∀ a, outsideBuffer buf len.toNat a → t.mem.read a = s.mem.read a) ∧
      (t.result = .ok → txWritten t =
        if rdBytewise c then
          (List.range len.toNat).flatMap fun j => readWords c (offsetPlus o j) 1
        else readWords c o len.toNat)

/-- R251, R255, R257 with the nominal engine: CHIP_READ in block mode, any offset width, has the effect of
its message list: the offset message unless the width is 0, the read message unless the length is 0. -/
def Obligations.ChipReadBlock : Prop :=
  ∀ (c : Chip) (o buf len : Word) (s : State) (e : Target), c.wf = true → rdBytewise c = false →
    len.toNat ≤ 256 → (offsetWidth c ≠ 0 ∨ len ≠ 0#32) → Inv s → Platform s → s.inited = true →
    Nominal s → BusReady s e → e.answers (foldedAddr c o) = true → len.toNat + 2 ≤ s.cfg.tPoll →
    ∃ t, exec (.chipRead c o buf len) s = .next t ∧ t.result = .ok ∧ t.phase = .idle ∧
      t.txf = [] ∧ t.rxf = [] ∧
      t.mem = ((readMsgs c o (.host buf) len.toNat).foldl (fun x m => busEffect m x) (s.mem, e)).1 ∧
      t.target =
        some ((readMsgs c o (.host buf) len.toNat).foldl (fun x m => busEffect m x) (s.mem, e)).2.release

/-- R76, R251, R252, R308: CHIP_READ of the EEPROM its descriptor describes, in either mode: byte `j` of the
buffer is the EEPROM's byte at `offset + j`, and the EEPROM's contents stay. -/
def Obligations.ChipReadEeprom : Prop :=
  ∀ (c : Chip) (o buf len : Word) (s : State) (e : Target), c.wf = true → offsetWidth c ≠ 0 →
    Wired c e → offsetsSeen c o len.toNat → Inv s → Platform s → s.inited = true → Nominal s →
    BusReady s e → (if rdBytewise c then len ≠ 0#32 ∧ 3 ≤ s.cfg.tPoll
      else len.toNat ≤ 256 ∧ len.toNat + 2 ≤ s.cfg.tPoll) →
    ∃ t f, exec (.chipRead c o buf len) s = .next t ∧ t.result = .ok ∧ t.phase = .idle ∧
      (∀ j, j < len.toNat → t.mem.read (hostAddr buf j) = e.mem.read ((o.toNat + j) % e.size)) ∧
      (∀ a, outsideBuffer buf len.toNat a → t.mem.read a = s.mem.read a) ∧
      t.target = some f ∧ f.mem = e.mem

/-- R111, R253, R254: the command words of CHIP_WRITE under any environment: one message with the offset and
the payload coalesced, or in bytewise mode one per byte. Host memory stays. -/
def Obligations.ChipWriteWords : Prop :=
  ∀ (c : Chip) (o buf len : Word) (s : State), c.wf = true → Inv s → Platform s →
    s.inited = true → dividerAnswers s.cfg (reinitSpeed s) → len.toNat ≤ s.cfg.maxXfer →
    ∃ t, exec (.chipWrite c o buf len) s = .next t ∧ (∀ a, t.mem.read a = s.mem.read a) ∧
      (t.result = .ok → txWritten t =
        if wrBytewise c then
          (List.range len.toNat).flatMap fun j =>
            writeWords c (offsetPlus o j) [s.mem.read (hostAddr buf j)]
        else writeWords c o (bufferBytes s buf len.toNat))

/-- R253, R255, R257 with the nominal engine: CHIP_WRITE in block mode, any offset width: the target receives
the offset bytes and the payload as one message, and host memory stays. -/
def Obligations.ChipWriteBlock : Prop :=
  ∀ (c : Chip) (o buf len : Word) (s : State) (e : Target), c.wf = true → wrBytewise c = false →
    len.toNat ≤ s.cfg.maxXfer → Inv s → Platform s → s.inited = true → Nominal s → BusReady s e →
    e.answers (foldedAddr c o) = true → 2 ≤ s.cfg.tPoll →
    ∃ t, exec (.chipWrite c o buf len) s = .next t ∧ t.result = .ok ∧ t.phase = .idle ∧
      t.txf = [] ∧ t.rxf = [] ∧ t.mem = s.mem ∧
      t.target = some ((e.startWrite (foldedAddr c o)).putBytes
        (offsetBytes (offsetWidth c) o ++ bufferBytes s buf len.toNat)).release

/-- R76, R253, R254, R308: CHIP_WRITE to the EEPROM its descriptor describes, in either mode: its byte at
`offset + j` becomes byte `j` of the buffer, every other byte of it stays, and so does host memory. -/
def Obligations.ChipWriteEeprom : Prop :=
  ∀ (c : Chip) (o buf len : Word) (s : State) (e : Target), c.wf = true → offsetWidth c ≠ 0 →
    Wired c e → offsetsSeen c o len.toNat → len.toNat ≤ s.cfg.maxXfer → len.toNat ≤ e.size →
    (wrBytewise c = true → len ≠ 0#32) → Inv s → Platform s → s.inited = true → Nominal s →
    BusReady s e → 2 ≤ s.cfg.tPoll →
    ∃ t f, exec (.chipWrite c o buf len) s = .next t ∧ t.result = .ok ∧ t.phase = .idle ∧
      t.mem = s.mem ∧ t.target = some f ∧
      (∀ j, j < len.toNat → f.mem.read ((o.toNat + j) % e.size) = s.mem.read (hostAddr buf j)) ∧
      ∀ a, (∀ j, j < len.toNat → a ≠ (o.toNat + j) % e.size) → f.mem.read a = e.mem.read a

/-- R259, R328: a bytewise chip request with offset width 0 and a length above 0 returns the descriptor
error, and so does a CRC32_REGION that reads bytewise (R321); no register is touched and the phase does not
change. -/
def Obligations.ZeroWidthBytewise : Prop :=
  ∀ (c : Chip) (o buf len : Word) (s : State), c.wf = true → s.inited = true →
    offsetWidth c = 0 → len ≠ 0#32 →
    (rdBytewise c = true → exec (.chipRead c o buf len) s =
      .next { s with result := .invalidOffsetCfg, work := {}, trace := [] }) ∧
    (wrBytewise c = true → len.toNat ≤ s.cfg.maxXfer → exec (.chipWrite c o buf len) s =
      .next { s with result := .invalidOffsetCfg, work := {}, trace := [] }) ∧
    (rdBytewise c = true → ∀ expected : Word, exec (.crc32Region c o len expected) s =
      .next { s with result := .invalidOffsetCfg, work := {}, trace := [] })

/-- R118, R193, R256, R339, R372: which requests are turned away: a bus operation before a successful INIT,
an illegal message or chip descriptor (wherever in the list the message stands: assumption 33), a block
CHIP_READ above 256 bytes, a CHIP_WRITE above the limit. -/
def Obligations.RequestsRefused : Prop :=
  (∀ (i : Instr) (s : State), i.wf = true → s.inited = false →
    ((∃ a d, i = .start a d) ∨ i = .stop ∨ (∃ b l, i = .send b l) ∨ (∃ b l, i = .receive b l) ∨
      (∃ ms, i = .transfer ms) ∨ (∃ c o b l, i = .chipRead c o b l) ∨
      (∃ c o b l, i = .chipWrite c o b l) ∨ ∃ c a n x, i = .crc32Region c a n x) →
    exec i s = .refused .notInitialised) ∧
  (∀ (ms : List Msg) (s : State), (∃ m ∈ ms, m.wf = false) →
    exec (.transfer ms) s = .refused .illegalOperand) ∧
  (∀ (c : Chip) (o b l x : Word) (s : State), c.wf = false →
    exec (.chipRead c o b l) s = .refused .illegalOperand ∧
    exec (.chipWrite c o b l) s = .refused .illegalOperand ∧
    exec (.crc32Region c o l x) s = .refused .illegalOperand ∧
    exec (.setupOffset c o) s = .refused .illegalOperand) ∧
  (∀ (c : Chip) (o b l : Word) (s : State), c.wf = true → s.inited = true → rdBytewise c = false →
    256 < l.toNat → exec (.chipRead c o b l) s = .refused .receiveTooLong) ∧
  ∀ (c : Chip) (o b l : Word) (s : State), c.wf = true → s.inited = true →
    s.cfg.maxXfer < l.toNat → exec (.chipWrite c o b l) s = .refused .aboveMaxXfer

/-- R250: SETUP_OFFSET builds the offset-only message, its address set also for width 0, and the signal; it
touches no controller register and reads no timer. That the signal stands in the working register
`zeroWidth`, and that, run by itself, it empties the other working registers, is the model's (assumption
23). -/
def Obligations.SetupOffsetBuilds : Prop :=
  ∀ (c : Chip) (o : Word) (s : State), c.wf = true →
    exec (.setupOffset c o) s = .next { s with
      trace := []
      work := { ({} : Work) with
        msgs := some [.write
          (c.addr ||| (BitVec.ofNat 7 (o.toNat >>> (8 * offsetWidth c)) &&& c.offsetMask))
          (.bytes (offsetBytes (offsetWidth c) o))]
        obuf := some (offsetBytes (offsetWidth c) o)
        zeroWidth := some (decide (offsetWidth c = 0)) } }

/-- R108, R110, R260: the offset bytes are `w` bytes, most significant first, and decode to the low `8w`
bits of the offset; an offset below `2^(8w)` comes back whole and folds nothing into the address. -/
def Obligations.OffsetRoundTrip : Prop :=
  (∀ (w : Nat) (o : Word), (offsetBytes w o).length = w ∧
    offsetOfBytes (offsetBytes w o) = o.toNat % 2 ^ (8 * w)) ∧
  ∀ (c : Chip) (o : Word), o.toNat < 2 ^ (8 * offsetWidth c) →
    offsetOfBytes (offsetBytes (offsetWidth c) o) = o.toNat ∧ foldedAddr c o = c.addr

/-! ### The integrity checker -/

/-- R280: CRC32_UPDATE computes the new accumulator; no controller register, timer or flag is touched. That
accumulator and byte stand in the working registers `crc` and `b`, and that, run by itself, it empties the
others, is the model's (assumption 23). The accumulators of the rule's examples in its three readings. -/
def Obligations.Crc32UpdateEffect : Prop :=
  (∀ (crc : Word) (b : Byte) (s : State), exec (.crc32Update crc b) s = .next { s with
    trace := []
    work := { ({} : Work) with b := some b, crc := some (crcUpdate s.cfg.crcVariant crc b) } }) ∧
  crcUpdate .zlib 0#32 0x00#8 = 0xD202EF8D#32 ∧
  [0x31#8, 0x32#8, 0x33#8, 0x34#8, 0x35#8, 0x36#8, 0x37#8, 0x38#8, 0x39#8].foldl
    (crcUpdate .zlib) 0#32 = 0xCBF43926#32 ∧
  [0x31#8, 0x32#8, 0x33#8, 0x34#8, 0x35#8, 0x36#8, 0x37#8, 0x38#8, 0x39#8].foldl
    (crcUpdate .raw0) 0#32 = 0x2DFD2D88#32 ∧
  [0x31#8, 0x32#8, 0x33#8, 0x34#8, 0x35#8, 0x36#8, 0x37#8, 0x38#8, 0x39#8].foldl
    (crcUpdate .msb0) 0#32 = 0x89A1897F#32

/-- R282: two byte sequences that differ in exactly one byte never have the same CRC, in any of the three
readings and from any seed. -/
def Obligations.CrcDetectsOneByte : Prop :=
  ∀ (v : CrcVariant) (l r : List Byte) (a b : Byte) (seed : Word), a ≠ b →
    (l ++ a :: r).foldl (crcUpdate v) seed ≠ (l ++ b :: r).foldl (crcUpdate v) seed

/-- R281 with the nominal engine and the EEPROM the descriptor describes: the result is OK exactly when the
CRC, seeded at 0, of the region's bytes is the expected one, else the CRC error; host memory and the
EEPROM's contents stay. -/
def Obligations.Crc32RegionChecks : Prop :=
  ∀ (c : Chip) (start length expected : Word) (s : State) (e : Target), c.wf = true →
    offsetWidth c ≠ 0 → Wired c e → offsetsSeen c start length.toNat → length ≠ 0#32 → Inv s →
    Platform s → s.inited = true → Nominal s → BusReady s e → 3 ≤ s.cfg.tPoll →
    ∃ t f, exec (.crc32Region c start length expected) s = .next t ∧
      t.result = (if (eepromBytes e.mem e.size start.toNat length.toNat).foldl
        (crcUpdate s.cfg.crcVariant) 0#32 = expected then .ok else .crc) ∧
      t.phase = .idle ∧ t.mem = s.mem ∧ t.target = some f ∧ f.mem = e.mem

/-- R281 under any environment: CRC32_REGION ends and leaves host memory; after OK it has written one
bracket's words per byte, the offsets wrapping at 32 bits (assumption 34). Of no byte it reads nothing and
is OK exactly when 0 is expected. -/
def Obligations.Crc32RegionAny : Prop :=
  (∀ (c : Chip) (start length expected : Word) (s : State), c.wf = true → Inv s → Platform s →
    s.inited = true → dividerAnswers s.cfg (reinitSpeed s) →
    ∃ t, exec (.crc32Region c start length expected) s = .next t ∧
      (∀ a, t.mem.read a = s.mem.read a) ∧
      (t.result = .ok → txWritten t =
        (List.range length.toNat).flatMap fun j => readWords c (offsetPlus start j) 1)) ∧
  ∀ (c : Chip) (start expected : Word) (s : State), c.wf = true → s.inited = true →
    exec (.crc32Region c start 0#32 expected) s = .next { s with
      result := if expected = 0#32 then .ok else .crc
      work := {}
      trace := [] }

/-- R283, R329: VALIDATE_MAGIC is OK for the two bytes of the parameter `MAGIC` and the magic error for
every other pair; no register is touched and the phase does not change. With `MAGIC` at the document's
value, its default (R6), exactly 0x44, 0x54 is accepted. -/
def Obligations.ValidateMagicExact : Prop :=
  (∀ (m0 m1 : Byte) (s : State), exec (.validateMagic m0 m1) s = .next { s with
    result := if m0 = s.cfg.magic0 ∧ m1 = s.cfg.magic1 then .ok else .magic
    work := {}
    trace := [] }) ∧
  (∀ (m0 m1 : Byte) (s : State), s.cfg.magic0 = 0x44#8 → s.cfg.magic1 = 0x54#8 →
    exec (.validateMagic m0 m1) s = .next { s with
      result := if m0 = 0x44#8 ∧ m1 = 0x54#8 then .ok else .magic
      work := {}
      trace := [] }) ∧
  Config.default.magic0 = 0x44#8 ∧ Config.default.magic1 = 0x54#8

/-! ### The command words and the engine -/

/-- R301: CMD_TXDATA at the head of the transmit FIFO. In a write bracket the byte goes to the addressed
target; if no target is addressed the byte is lost and, with `IGNACK` 0, the engine sets `NDF`, stops by
itself, sets `SDF` and clears the busy flags; if this master does not own the bus, or owns it in read
direction (assumption 13), it sets `FEF`. -/
def Obligations.CmdTxdataSends : Prop :=
  ∀ (data : Byte) (s : State) (w : CmdEntry) (r : List CmdEntry), s.txf = w :: r →
    engineReady s = true →
    (∀ e : Target, s.flags.mbf = true → s.engine.dirRead = false → s.target = some e →
      e.addressed = true →
      exec (.cmdTxdata data) s = .next { s with txf := r, target := some (e.putByte data) }) ∧
    (s.flags.mbf = true → s.engine.dirRead = false →
      (∀ e : Target, s.target = some e → e.addressed = false) → s.cfg1.getLsbD bitIGNACK = false →
      exec (.cmdTxdata data) s = .next { s with
        txf := r
        target := s.target.map Target.release
        flags := { s.flags with ndf := true, sdf := true, mbf := false, bbf := false } }) ∧
    (s.flags.mbf = true → s.engine.dirRead = false →
      (∀ e : Target, s.target = some e → e.addressed = false) → s.cfg1.getLsbD bitIGNACK = true →
      exec (.cmdTxdata data) s = .next { s with txf := r }) ∧
    (s.flags.mbf = false ∨ s.engine.dirRead = true → exec (.cmdTxdata data) s =
      .next { s with txf := r, flags := { s.flags with fef := true } })

/-- R302: CMD_RECEIVE in a read bracket moves `DATA + 1` bytes from the target to the receive FIFO, in order,
as far as the FIFO has room, and remembers how many are to come; if no target is addressed the bytes are
free values (assumption 6); if this master does not own the bus it sets `FEF`. That all bytes that fit come
in one piece is assumption 26; that a word on an owned bus in write direction sets `FEF`, too, is assumption
13 (V21). A receive in progress goes on in the same way when the engine has its next turn. -/
def Obligations.CmdReceiveMoves : Prop :=
  (∀ (count : Byte) (s : State) (w : CmdEntry) (r : List CmdEntry), s.txf = w :: r →
    engineReady s = true →
    (∀ e : Target, s.flags.mbf = true → s.engine.dirRead = true → s.target = some e →
      e.addressed = true →
      exec (.cmdReceive count) s = .next { s with
        txf := r
        rxf := s.rxf ++
          (e.getBytes (min (count.toNat + 1) (s.cfg.fifoDepth - s.rxf.length))).1
        target := some (e.getBytes (min (count.toNat + 1) (s.cfg.fifoDepth - s.rxf.length))).2
        engine := { s.engine with
          recvLeft := count.toNat + 1 - (s.cfg.fifoDepth - s.rxf.length) } }) ∧
    (s.flags.mbf = true → s.engine.dirRead = true →
      (∀ e : Target, s.target = some e → e.addressed = false) →
      ∃ l : List Byte, l.length = min (count.toNat + 1) (s.cfg.fifoDepth - s.rxf.length) ∧
        exec (.cmdReceive count) s = .next { s with
          txf := r
          rxf := s.rxf ++ l
          draws := s.draws + l.length
          engine := { s.engine with
            recvLeft := count.toNat + 1 - (s.cfg.fifoDepth - s.rxf.length) } }) ∧
    (s.flags.mbf = false ∨ s.engine.dirRead = false → exec (.cmdReceive count) s =
      .next { s with txf := r, flags := { s.flags with fef := true } })) ∧
  ∀ (s : State) (n : Nat), engineOn s = true → s.engine.recvLeft = n → n ≠ 0 →
    (∀ e : Target, s.target = some e → e.addressed = true → engineContinue s = { s with
      rxf := s.rxf ++ (e.getBytes (min n (s.cfg.fifoDepth - s.rxf.length))).1
      target := some (e.getBytes (min n (s.cfg.fifoDepth - s.rxf.length))).2
      engine := { s.engine with recvLeft := n - (s.cfg.fifoDepth - s.rxf.length) } }) ∧
    ((∀ e : Target, s.target = some e → e.addressed = false) →
      ∃ l : List Byte, l.length = min n (s.cfg.fifoDepth - s.rxf.length) ∧
        engineContinue s = { s with
          rxf := s.rxf ++ l
          draws := s.draws + l.length
          engine := { s.engine with recvLeft := n - (s.cfg.fifoDepth - s.rxf.length) } })

/-- R303: CMD_STOP. If this master owns the bus a STOP goes out: `SDF` is set, the busy flags are cleared,
the target is released; if not, the word is removed and nothing else happens. R36, R311: with `AUTOSTOP` 1
the engine stops an owned bus in the same way when it has nothing in progress and the transmit FIFO has run
empty (as a piece of work of its own: assumption 22); else it holds the bus. -/
def Obligations.CmdStopReleases : Prop :=
  (∀ (s : State) (w : CmdEntry) (r : List CmdEntry), s.txf = w :: r → engineReady s = true →
    (s.flags.mbf = true → exec .cmdStop s = .next { s with
      txf := r
      target := s.target.map Target.release
      flags := { s.flags with sdf := true, mbf := false, bbf := false } }) ∧
    (s.flags.mbf = false → exec .cmdStop s = .next { s with txf := r })) ∧
  ∀ s : State, engineOn s = true → s.engine.recvLeft = 0 → s.engine.pendingStart = none →
    (s.txf = [] → s.cfg1.getLsbD bitAUTOSTOP = true → s.flags.mbf = true → engineContinue s = { s with
      target := s.target.map Target.release
      flags := { s.flags with sdf := true, mbf := false, bbf := false } }) ∧
    (s.txf ≠ [] ∨ s.cfg1.getLsbD bitAUTOSTOP = false ∨ s.flags.mbf = false → engineContinue s = s)

/-- R304: CMD_START on a bus that is free or this master's. The busy flags are set and the direction of what
follows is the word's; a target that answers is addressed; if none answers and `IGNACK` is 0 the engine
sets `NDF`, stops by itself, sets `SDF` and clears the busy flags; with `IGNACK` 1 it goes on. On a bus
another agent holds the start waits: as long as the bus is so held the engine does nothing, and when it is
free the start goes out with the same outcomes. That a start in progress comes before a queued word is
assumption 26. -/
def Obligations.CmdStartAddresses : Prop :=
  (∀ (a : BitVec 7) (d : Dir) (s : State) (w : CmdEntry) (r : List CmdEntry), s.txf = w :: r →
    engineReady s = true →
    ((s.flags.bbf = false ∨ s.flags.mbf = true) →
      (∀ e : Target, s.target = some e → e.answers a = true →
        exec (.cmdStart a d) s = .next { s with
          txf := r
          flags := { s.flags with mbf := true, bbf := true }
          engine := { s.engine with dirRead := decide (d = .read), pendingStart := none }
          target := some (if d = .read then e.startRead else e.startWrite a) }) ∧
      ((∀ e : Target, s.target = some e → e.answers a = false) →
        s.cfg1.getLsbD bitIGNACK = false →
        exec (.cmdStart a d) s = .next { s with
          txf := r
          flags := { s.flags with ndf := true, sdf := true, mbf := false, bbf := false }
          engine := { s.engine with dirRead := decide (d = .read), pendingStart := none }
          target := s.target.map Target.release }) ∧
      ((∀ e : Target, s.target = some e → e.answers a = false) →
        s.cfg1.getLsbD bitIGNACK = true →
        exec (.cmdStart a d) s = .next { s with
          txf := r
          flags := { s.flags with mbf := true, bbf := true }
          engine := { s.engine with dirRead := decide (d = .read), pendingStart := none }
          target := s.target.map Target.release })) ∧
    (s.flags.bbf = true → s.flags.mbf = false → exec (.cmdStart a d) s = .next { s with
      txf := r, engine := { s.engine with pendingStart := some (addrByte a d) } })) ∧
  ∀ (a : BitVec 7) (d : Dir) (s : State), engineOn s = true → s.engine.recvLeft = 0 →
    s.engine.pendingStart = some (addrByte a d) →
    nextEntry s = none ∧ (s.flags.bbf = true → s.flags.mbf = false → engineContinue s = s) ∧
    ((s.flags.bbf = false ∨ s.flags.mbf = true) →
      (∀ e : Target, s.target = some e → e.answers a = true → engineContinue s = { s with
        flags := { s.flags with mbf := true, bbf := true }
        engine := { s.engine with dirRead := decide (d = .read), pendingStart := none }
        target := some (if d = .read then e.startRead else e.startWrite a) }) ∧
      ((∀ e : Target, s.target = some e → e.answers a = false) →
        s.cfg1.getLsbD bitIGNACK = false → engineContinue s = { s with
          flags := { s.flags with ndf := true, sdf := true, mbf := false, bbf := false }
          engine := { s.engine with dirRead := decide (d = .read), pendingStart := none }
          target := s.target.map Target.release }) ∧
      ((∀ e : Target, s.target = some e → e.answers a = false) →
        s.cfg1.getLsbD bitIGNACK = true → engineContinue s = { s with
          flags := { s.flags with mbf := true, bbf := true }
          engine := { s.engine with dirRead := decide (d = .read), pendingStart := none }
          target := s.target.map Target.release }))

/-- R300, R307, R309: between two primitives the environment, the nominal engine among its behaviours, stays
within the contract of R300; while the controller is held in reset it changes nothing but `BBF`, and `MBF`
from 1 to 0 at most (R362; assumption 27); it stops only at a reserved command word; while the master is
disabled the nominal engine, though not every environment, changes nothing; and a reserved word at the head
is refused by whatever engine takes it, the nominal one also when the host has nothing to do (R105, V9;
assumption 39). Behind the end of the schedule the environment's turn is the command word the nominal engine
takes, or with none to take its going on with what it has in progress (assumption 3). -/
def Obligations.EngineWithinContract : Prop :=
  (∀ s t : State, envSlot s = .next t → Contract s t) ∧
  (∀ (s : State) (f : Fault), envSlot s ≠ .fault f) ∧
  (∀ (s : State) (r : Refusal), envSlot s = .refused r →
    r = .reservedCommand ∧ ∃ w ∈ s.txf, decodeCmd w = none) ∧
  (∀ s t : State, envSlot s = .next t → s.ctrl.getLsbD bitRST = true →
    (t.flags.mbf = true → s.flags.mbf = true) ∧
    t = { s with
      flags := { s.flags with mbf := t.flags.mbf, bbf := t.flags.bbf }
      sched := t.sched }) ∧
  (∀ (s : State), s.ctrl.getLsbD bitMEN = false →
    (s.sched = [] → envSlot s = .next s) ∧ ∀ c : Cmd, exec c.toInstr s = .next s) ∧
  (∀ (s : State) (w : CmdEntry) (r : List CmdEntry), s.txf = w :: r → decodeCmd w = none →
    (engineOn s = true → ∀ (ms : List EnvMove) (sch : List (List EnvMove)),
      s.sched = (.take :: ms) :: sch → envSlot s = .refused .reservedCommand) ∧
    (engineReady s = true → (s.sched = [] → envSlot s = .refused .reservedCommand) ∧
      (s.host = [] → step s = .refused .reservedCommand))) ∧
  ∀ s : State, s.sched = [] →
    (∀ (w : CmdEntry) (c : Cmd), nextEntry s = some w → decodeCmd w = some c →
      envSlot s = exec c.toInstr s) ∧
    (nextEntry s = none → envSlot s = .next (engineContinue s))

/-! ### The registers -/

/-- R32, R33, R38 to R40, R73, R78, R90: side effects of register accesses. A `STATUS` write clears exactly
the write-1-to-clear bits written 1 and changes nothing else; reads of `CTRL`, `CFG0` and `CFG1` show
the word stored, a `STATUS` read the nine flags, and change nothing (R78); a `FIFOSTAT` read shows both
counts; an `RXDATA` read takes the head byte, or shows empty, and changes nothing else; a `CTRL` write
stores `MEN`, `RST`, `DOZEN` and `DBGEN` and, with `RST`, resets the controller (its `BBF`: assumption 11;
its engine's direction bit: assumption 40, DESIGN CHOICE), else empties the FIFOs its `RTF` and
`RRF` name; `CFG0`, `CFG1` and `CLKCFG` store the word; a `TXCMD` write pushes the low 11 bits, or is
refused when the FIFO is full; an unaligned base (assumption 32), another width and another offset are
refused, of a read and of a write. Addresses are sums modulo 2 to the 32 (assumption 37). -/
def Obligations.RegisterEffects : Prop :=
  (∀ (s : State) (v : Word), Platform s →
    memWrite (s.handle.base + 0x14#32) 4 v s =
      .next ((), { s with flags := s.flags.clearW1C v, trace := .wr .status v :: s.trace }) ∧
    (s.flags.clearW1C v).word = s.flags.word &&& ~~~(v &&& 0x00007F00#32)) ∧
  (∀ (s : State), Platform s → ∃ v t, memRead (s.handle.base + 0x5C#32) 4 s = .next (v, t) ∧
    (v.word.extractLsb' 0 3).toNat = s.txf.length % 8 ∧
    (v.word.extractLsb' 16 3).toNat = s.rxf.length % 8 ∧ t = { s with trace := t.trace }) ∧
  (∀ (s : State) (v : Word), Platform s →
    (v.getLsbD bitRST = true → ∃ t, memWrite (s.handle.base + 0x10#32) 4 v s = .next ((), t) ∧
      t = { s with
        ctrl := v.setWidth 4
        flags := ⟨false, false, false, false, false, false, false, false, s.flags.bbf && !s.flags.mbf⟩
        mier := 0#32
        cfg0 := 0#32
        cfg1 := 0#32
        clkcfg := 0#32
        txf := []
        rxf := []
        engine := ⟨false, 0, none⟩
        trace := t.trace }) ∧
    (v.getLsbD bitRST = false → ∃ t, memWrite (s.handle.base + 0x10#32) 4 v s = .next ((), t) ∧
      t = { s with
        ctrl := v.setWidth 4
        txf := if v.getLsbD bitRTF then [] else s.txf
        rxf := if v.getLsbD bitRRF then [] else s.rxf
        trace := t.trace })) ∧
  (∀ (s : State) (v : Word), Platform s → s.ctrl.getLsbD bitRST = false →
    memWrite (s.handle.base + 0x20#32) 4 v s =
      .next ((), { s with cfg0 := v, trace := .wr .cfg0 v :: s.trace }) ∧
    memWrite (s.handle.base + 0x24#32) 4 v s =
      .next ((), { s with cfg1 := v, trace := .wr .cfg1 v :: s.trace }) ∧
    memWrite (s.handle.base + 0x48#32) 4 v s =
      .next ((), { s with clkcfg := v, trace := .wr .clkcfg v :: s.trace })) ∧
  (∀ (s : State), Platform s →
    memRead (s.handle.base + 0x10#32) 4 s = .next (.exact (s.ctrl.setWidth 32),
      { s with trace := .rd .ctrl (s.ctrl.setWidth 32) :: s.trace }) ∧
    memRead (s.handle.base + 0x20#32) 4 s =
      .next (.exact s.cfg0, { s with trace := .rd .cfg0 s.cfg0 :: s.trace }) ∧
    memRead (s.handle.base + 0x24#32) 4 s =
      .next (.exact s.cfg1, { s with trace := .rd .cfg1 s.cfg1 :: s.trace }) ∧
    ∃ v t, memRead (s.handle.base + 0x14#32) 4 s = .next (v, t) ∧
      v.word &&& 0x03007F00#32 = s.flags.word ∧
      t = { s with draws := t.draws, trace := .rd .status s.flags.word :: s.trace }) ∧
  (∀ (s : State), Platform s → s.rxf = [] → ∃ v t, memRead (s.handle.base + 0x70#32) 4 s =
    .next (v, t) ∧ v.bit bitRXEMPTY = true ∧
      t = { s with draws := t.draws, trace := t.trace }) ∧
  (∀ (s : State) (b : Byte) (r : List Byte), Platform s → s.rxf = b :: r →
    ∃ v t, memRead (s.handle.base + 0x70#32) 4 s = .next (v, t) ∧ v.bit bitRXEMPTY = false ∧
      v.low8 = b ∧ t = { s with rxf := r, draws := t.draws, trace := t.trace }) ∧
  (∀ (s : State) (v : Word), Platform s → s.ctrl.getLsbD bitRST = false →
    (s.txf.length < s.cfg.fifoDepth → memWrite (s.handle.base + 0x60#32) 4 v s =
      .next ((), { s with txf := s.txf ++ [v.setWidth 11], trace := .wr .txcmd v :: s.trace })) ∧
    (s.cfg.fifoDepth ≤ s.txf.length →
      memWrite (s.handle.base + 0x60#32) 4 v s = .refused .txFifoFull)) ∧
  (∀ (s : State) (a v : Word) (n : Nat), s.cfg.busClock = true → s.handle.base &&& 3#32 ≠ 0#32 →
    memRead a n s = .refused .misalignedBase ∧ memWrite a n v s = .refused .misalignedBase) ∧
  (∀ (s : State) (a v : Word) (n : Nat), Platform s → n ≠ 4 →
    memRead a n s = .refused .accessWidth ∧ memWrite a n v s = .refused .accessWidth) ∧
  ∀ (s : State) (o v : Word), Platform s →
    o ∉ [0x10#32, 0x14#32, 0x20#32, 0x24#32, 0x48#32, 0x5C#32, 0x60#32, 0x70#32] →
    memRead (s.handle.base + o) 4 s = .refused .unmappedOffset ∧
    memWrite (s.handle.base + o) 4 v s = .refused .unmappedOffset
end

