-- ==== Sys2Proof/Laws/Memory.lean ====
section
/-! SUPPORT. Byte spaces: reading what was written, leaving every other place alone, and keeping the
canonical form. -/

namespace Sys2Proof.Machine

/-- No entry below or at `k`: reading there gives the fresh value. -/
theorem Memory.read_of_lt (m : Memory) (a : Nat) (h : m.all (fun c => decide (a < c.1)) = true) :
    m.read a = Memory.fresh := by
  induction m with
  | nil => rfl
  | cons c r ih =>
    obtain ⟨k, b⟩ := c
    simp only [List.all_cons, Bool.and_eq_true, decide_eq_true_eq] at h
    have hk : k ≠ a := by omega
    simp only [Memory.read, if_neg hk]
    exact ih h.2

theorem Memory.wf_cons {k : Nat} {b : Byte} {r : Memory} :
    Memory.wf ((k, b) :: r) = true ↔
      b ≠ Memory.fresh ∧ (r.all (fun c => decide (k < c.1)) = true) ∧ r.wf = true := by
  simp [Memory.wf, and_assoc]

/-- Read after write, at the same address. -/
theorem Memory.read_write_same (m : Memory) (a : Nat) (v : Byte) (h : m.wf = true) :
    (m.write a v).read a = v := by
  induction m with
  | nil => by_cases hv : v = Memory.fresh <;> simp [Memory.write, Memory.read, hv]
  | cons c r ih =>
    obtain ⟨k, b⟩ := c
    obtain ⟨hb, hk, hr⟩ := Memory.wf_cons.1 h
    by_cases h1 : a < k
    · have hka : k ≠ a := by omega
      have hra : Memory.read r a = Memory.fresh := by
        apply Memory.read_of_lt
        simp only [List.all_eq_true, decide_eq_true_eq] at hk ⊢
        intro c hc; have := hk c hc; omega
      by_cases hv : v = Memory.fresh
      · simp [Memory.write, Memory.read, h1, hv, hka, hra]
      · simp [Memory.write, Memory.read, h1, hv]
    · by_cases h2 : a = k
      · subst h2
        by_cases hv : v = Memory.fresh
        · simp [Memory.write, hv, Memory.read_of_lt r a hk]
        · simp [Memory.write, Memory.read, hv]
      · have hka : k ≠ a := fun e => h2 e.symm
        simp [Memory.write, Memory.read, h1, h2, hka, ih hr]

/-- A write leaves every other address alone. -/
theorem Memory.read_write_other (m : Memory) (a c : Nat) (v : Byte) (h : c ≠ a) :
    (m.write a v).read c = m.read c := by
  induction m with
  | nil =>
    by_cases hv : v = Memory.fresh <;> simp [Memory.write, Memory.read, hv, Ne.symm h]
  | cons e r ih =>
    obtain ⟨k, b⟩ := e
    by_cases h1 : a < k
    · by_cases hv : v = Memory.fresh <;> simp [Memory.write, Memory.read, h1, hv, Ne.symm h]
    · by_cases h2 : a = k
      · subst h2
        by_cases hv : v = Memory.fresh <;> simp [Memory.write, Memory.read, hv, Ne.symm h]
      · simp [Memory.write, Memory.read, h1, h2, ih]

theorem Memory.all_write (m : Memory) (a k : Nat) (v : Byte) (ha : k < a)
    (h : m.all (fun c => decide (k < c.1)) = true) :
    (m.write a v).all (fun c => decide (k < c.1)) = true := by
  induction m with
  | nil => by_cases hv : v = Memory.fresh <;> simp [Memory.write, hv, ha]
  | cons e r ih =>
    obtain ⟨k', b⟩ := e
    obtain ⟨h1, h2⟩ : k < k' ∧ r.all (fun c => decide (k < c.1)) = true := by simpa using h
    unfold Memory.write
    split
    · split
      · simp only [List.all_cons, h1, h2, decide_true, Bool.and_self]
      · simp only [List.all_cons, h1, h2, ha, decide_true, Bool.and_self]
    · split
      · split <;> simp only [List.all_cons, h2, ha, decide_true, Bool.and_self]
      · simp only [List.all_cons, Bool.and_eq_true, decide_eq_true_eq]
        exact ⟨h1, ih h2⟩

/-- Every write keeps the canonical form. -/
theorem Memory.wf_write (m : Memory) (a : Nat) (v : Byte) (h : m.wf = true) :
    (m.write a v).wf = true := by
  induction m with
  | nil => by_cases hv : v = Memory.fresh <;> simp [Memory.write, Memory.wf, hv]
  | cons e r ih =>
    obtain ⟨k, b⟩ := e
    obtain ⟨hb, hk, hr⟩ := Memory.wf_cons.1 h
    unfold Memory.write
    split
    · rename_i h1
      split
      · exact h
      · rename_i hv
        refine Memory.wf_cons.2 ⟨hv, ?_, h⟩
        simp only [List.all_cons, Bool.and_eq_true, decide_eq_true_eq, List.all_eq_true] at hk ⊢
        exact ⟨h1, fun c hc => lt_trans h1 (hk c hc)⟩
    · split
      · rename_i h1 h2
        split
        · exact hr
        · rename_i hv
          subst h2
          exact Memory.wf_cons.2 ⟨hv, hk, hr⟩
      · rename_i h1 h2
        exact Memory.wf_cons.2 ⟨hb, Memory.all_write r a k v (by omega) hk, ih hr⟩

/-- Filling a buffer keeps the canonical form. -/
theorem Memory.wf_writeBytes (bs : List Byte) (m : Memory) (addr : Word) (i : Nat)
    (h : m.wf = true) : (m.writeBytes addr i bs).wf = true := by
  induction bs generalizing m i with
  | nil => exact h
  | cons b r ih => exact ih _ _ (Memory.wf_write _ _ _ h)

/-- A filled buffer leaves every address outside it alone. -/
theorem Memory.read_writeBytes_other (bs : List Byte) (m : Memory) (addr : Word) (i c : Nat)
    (h : ∀ j, i ≤ j → j < i + bs.length → c ≠ hostAddr addr j) :
    (m.writeBytes addr i bs).read c = m.read c := by
  induction bs generalizing m i with
  | nil => rfl
  | cons b r ih =>
    simp only [Memory.writeBytes]
    rw [ih]
    · exact Memory.read_write_other _ _ _ _ (h i (le_refl i) (by simp))
    · intro j hj hj'
      exact h j (by omega) (by simp only [List.length_cons]; omega)

/-- Distinct bytes of one buffer have distinct addresses, as the space has 2^32 bytes. -/
theorem hostAddr_inj (addr : Word) (i j : Nat) (hi : i < 2 ^ 32) (hj : j < 2 ^ 32)
    (h : hostAddr addr i = hostAddr addr j) : i = j := by
  unfold hostAddr at h
  omega

/-- The target's moves keep its array canonical. -/
theorem Target.wf_putByte (t : Target) (b : Byte) (h : t.mem.wf = true) :
    (t.putByte b).mem.wf = true := by
  unfold Target.putByte
  split
  · exact h
  · exact Memory.wf_write _ _ _ h

end Sys2Proof.Machine
end

