-- ==== Sys2Proof/Laws/State.lean ====
section
/-! SUPPORT. One lemma per field per named update of the state, so that no later proof unfolds a record
update. -/

namespace Sys2Proof.Machine

@[simp] theorem note_cfg (f : Work → Work) (s : State) : (note f s).cfg = s.cfg := rfl
@[simp] theorem note_handle (f : Work → Work) (s : State) : (note f s).handle = s.handle := rfl
@[simp] theorem note_chip (f : Work → Work) (s : State) : (note f s).chip = s.chip := rfl
@[simp] theorem note_phase (f : Work → Work) (s : State) : (note f s).phase = s.phase := rfl
@[simp] theorem note_inited (f : Work → Work) (s : State) : (note f s).inited = s.inited := rfl
@[simp] theorem note_result (f : Work → Work) (s : State) : (note f s).result = s.result := rfl
@[simp] theorem note_work (f : Work → Work) (s : State) : (note f s).work = f s.work := rfl
@[simp] theorem note_ctrl (f : Work → Work) (s : State) : (note f s).ctrl = s.ctrl := rfl
@[simp] theorem note_flags (f : Work → Work) (s : State) : (note f s).flags = s.flags := rfl
@[simp] theorem note_mier (f : Work → Work) (s : State) : (note f s).mier = s.mier := rfl
@[simp] theorem note_cfg0 (f : Work → Work) (s : State) : (note f s).cfg0 = s.cfg0 := rfl
@[simp] theorem note_cfg1 (f : Work → Work) (s : State) : (note f s).cfg1 = s.cfg1 := rfl
@[simp] theorem note_clkcfg (f : Work → Work) (s : State) : (note f s).clkcfg = s.clkcfg := rfl
@[simp] theorem note_txf (f : Work → Work) (s : State) : (note f s).txf = s.txf := rfl
@[simp] theorem note_rxf (f : Work → Work) (s : State) : (note f s).rxf = s.rxf := rfl
@[simp] theorem note_engine (f : Work → Work) (s : State) : (note f s).engine = s.engine := rfl
@[simp] theorem note_target (f : Work → Work) (s : State) : (note f s).target = s.target := rfl
@[simp] theorem note_timer (f : Work → Work) (s : State) : (note f s).timer = s.timer := rfl
@[simp] theorem note_mem (f : Work → Work) (s : State) : (note f s).mem = s.mem := rfl
@[simp] theorem note_bracket (f : Work → Work) (s : State) : (note f s).bracket = s.bracket := rfl
@[simp] theorem note_host (f : Work → Work) (s : State) : (note f s).host = s.host := rfl
@[simp] theorem note_sched (f : Work → Work) (s : State) : (note f s).sched = s.sched := rfl
@[simp] theorem note_ticks (f : Work → Work) (s : State) : (note f s).ticks = s.ticks := rfl
@[simp] theorem note_draws (f : Work → Work) (s : State) : (note f s).draws = s.draws := rfl
@[simp] theorem note_trace (f : Work → Work) (s : State) : (note f s).trace = s.trace := rfl

@[simp] theorem logged_cfg (a : Access) (s : State) : (logged a s).cfg = s.cfg := rfl
@[simp] theorem logged_handle (a : Access) (s : State) : (logged a s).handle = s.handle := rfl
@[simp] theorem logged_chip (a : Access) (s : State) : (logged a s).chip = s.chip := rfl
@[simp] theorem logged_phase (a : Access) (s : State) : (logged a s).phase = s.phase := rfl
@[simp] theorem logged_inited (a : Access) (s : State) : (logged a s).inited = s.inited := rfl
@[simp] theorem logged_result (a : Access) (s : State) : (logged a s).result = s.result := rfl
@[simp] theorem logged_work (a : Access) (s : State) : (logged a s).work = s.work := rfl
@[simp] theorem logged_ctrl (a : Access) (s : State) : (logged a s).ctrl = s.ctrl := rfl
@[simp] theorem logged_flags (a : Access) (s : State) : (logged a s).flags = s.flags := rfl
@[simp] theorem logged_mier (a : Access) (s : State) : (logged a s).mier = s.mier := rfl
@[simp] theorem logged_cfg0 (a : Access) (s : State) : (logged a s).cfg0 = s.cfg0 := rfl
@[simp] theorem logged_cfg1 (a : Access) (s : State) : (logged a s).cfg1 = s.cfg1 := rfl
@[simp] theorem logged_clkcfg (a : Access) (s : State) : (logged a s).clkcfg = s.clkcfg := rfl
@[simp] theorem logged_txf (a : Access) (s : State) : (logged a s).txf = s.txf := rfl
@[simp] theorem logged_rxf (a : Access) (s : State) : (logged a s).rxf = s.rxf := rfl
@[simp] theorem logged_engine (a : Access) (s : State) : (logged a s).engine = s.engine := rfl
@[simp] theorem logged_target (a : Access) (s : State) : (logged a s).target = s.target := rfl
@[simp] theorem logged_timer (a : Access) (s : State) : (logged a s).timer = s.timer := rfl
@[simp] theorem logged_mem (a : Access) (s : State) : (logged a s).mem = s.mem := rfl
@[simp] theorem logged_bracket (a : Access) (s : State) : (logged a s).bracket = s.bracket := rfl
@[simp] theorem logged_host (a : Access) (s : State) : (logged a s).host = s.host := rfl
@[simp] theorem logged_sched (a : Access) (s : State) : (logged a s).sched = s.sched := rfl
@[simp] theorem logged_ticks (a : Access) (s : State) : (logged a s).ticks = s.ticks := rfl
@[simp] theorem logged_draws (a : Access) (s : State) : (logged a s).draws = s.draws := rfl
@[simp] theorem logged_trace (a : Access) (s : State) : (logged a s).trace = a :: s.trace := rfl

@[simp] theorem popTx_cfg (s : State) : (popTx s).cfg = s.cfg := rfl
@[simp] theorem popTx_handle (s : State) : (popTx s).handle = s.handle := rfl
@[simp] theorem popTx_chip (s : State) : (popTx s).chip = s.chip := rfl
@[simp] theorem popTx_phase (s : State) : (popTx s).phase = s.phase := rfl
@[simp] theorem popTx_inited (s : State) : (popTx s).inited = s.inited := rfl
@[simp] theorem popTx_result (s : State) : (popTx s).result = s.result := rfl
@[simp] theorem popTx_work (s : State) : (popTx s).work = s.work := rfl
@[simp] theorem popTx_ctrl (s : State) : (popTx s).ctrl = s.ctrl := rfl
@[simp] theorem popTx_flags (s : State) : (popTx s).flags = s.flags := rfl
@[simp] theorem popTx_mier (s : State) : (popTx s).mier = s.mier := rfl
@[simp] theorem popTx_cfg0 (s : State) : (popTx s).cfg0 = s.cfg0 := rfl
@[simp] theorem popTx_cfg1 (s : State) : (popTx s).cfg1 = s.cfg1 := rfl
@[simp] theorem popTx_clkcfg (s : State) : (popTx s).clkcfg = s.clkcfg := rfl
@[simp] theorem popTx_txf (s : State) : (popTx s).txf = s.txf.tail := rfl
@[simp] theorem popTx_rxf (s : State) : (popTx s).rxf = s.rxf := rfl
@[simp] theorem popTx_engine (s : State) : (popTx s).engine = s.engine := rfl
@[simp] theorem popTx_target (s : State) : (popTx s).target = s.target := rfl
@[simp] theorem popTx_timer (s : State) : (popTx s).timer = s.timer := rfl
@[simp] theorem popTx_mem (s : State) : (popTx s).mem = s.mem := rfl
@[simp] theorem popTx_bracket (s : State) : (popTx s).bracket = s.bracket := rfl
@[simp] theorem popTx_host (s : State) : (popTx s).host = s.host := rfl
@[simp] theorem popTx_sched (s : State) : (popTx s).sched = s.sched := rfl
@[simp] theorem popTx_ticks (s : State) : (popTx s).ticks = s.ticks := rfl
@[simp] theorem popTx_draws (s : State) : (popTx s).draws = s.draws := rfl
@[simp] theorem popTx_trace (s : State) : (popTx s).trace = s.trace := rfl

@[simp] theorem busStop_cfg (s : State) : (busStop s).cfg = s.cfg := rfl
@[simp] theorem busStop_handle (s : State) : (busStop s).handle = s.handle := rfl
@[simp] theorem busStop_chip (s : State) : (busStop s).chip = s.chip := rfl
@[simp] theorem busStop_phase (s : State) : (busStop s).phase = s.phase := rfl
@[simp] theorem busStop_inited (s : State) : (busStop s).inited = s.inited := rfl
@[simp] theorem busStop_result (s : State) : (busStop s).result = s.result := rfl
@[simp] theorem busStop_work (s : State) : (busStop s).work = s.work := rfl
@[simp] theorem busStop_ctrl (s : State) : (busStop s).ctrl = s.ctrl := rfl
@[simp] theorem busStop_mier (s : State) : (busStop s).mier = s.mier := rfl
@[simp] theorem busStop_cfg0 (s : State) : (busStop s).cfg0 = s.cfg0 := rfl
@[simp] theorem busStop_cfg1 (s : State) : (busStop s).cfg1 = s.cfg1 := rfl
@[simp] theorem busStop_clkcfg (s : State) : (busStop s).clkcfg = s.clkcfg := rfl
@[simp] theorem busStop_txf (s : State) : (busStop s).txf = s.txf := rfl
@[simp] theorem busStop_rxf (s : State) : (busStop s).rxf = s.rxf := rfl
@[simp] theorem busStop_engine (s : State) : (busStop s).engine = s.engine := rfl
@[simp] theorem busStop_target (s : State) : (busStop s).target = s.target.map Target.release := rfl
@[simp] theorem busStop_timer (s : State) : (busStop s).timer = s.timer := rfl
@[simp] theorem busStop_mem (s : State) : (busStop s).mem = s.mem := rfl
@[simp] theorem busStop_bracket (s : State) : (busStop s).bracket = s.bracket := rfl
@[simp] theorem busStop_host (s : State) : (busStop s).host = s.host := rfl
@[simp] theorem busStop_sched (s : State) : (busStop s).sched = s.sched := rfl
@[simp] theorem busStop_ticks (s : State) : (busStop s).ticks = s.ticks := rfl
@[simp] theorem busStop_draws (s : State) : (busStop s).draws = s.draws := rfl
@[simp] theorem busStop_trace (s : State) : (busStop s).trace = s.trace := rfl

@[simp] theorem fifoError_cfg (s : State) : (fifoError s).cfg = s.cfg := rfl
@[simp] theorem fifoError_handle (s : State) : (fifoError s).handle = s.handle := rfl
@[simp] theorem fifoError_chip (s : State) : (fifoError s).chip = s.chip := rfl
@[simp] theorem fifoError_phase (s : State) : (fifoError s).phase = s.phase := rfl
@[simp] theorem fifoError_inited (s : State) : (fifoError s).inited = s.inited := rfl
@[simp] theorem fifoError_result (s : State) : (fifoError s).result = s.result := rfl
@[simp] theorem fifoError_work (s : State) : (fifoError s).work = s.work := rfl
@[simp] theorem fifoError_ctrl (s : State) : (fifoError s).ctrl = s.ctrl := rfl
@[simp] theorem fifoError_mier (s : State) : (fifoError s).mier = s.mier := rfl
@[simp] theorem fifoError_cfg0 (s : State) : (fifoError s).cfg0 = s.cfg0 := rfl
@[simp] theorem fifoError_cfg1 (s : State) : (fifoError s).cfg1 = s.cfg1 := rfl
@[simp] theorem fifoError_clkcfg (s : State) : (fifoError s).clkcfg = s.clkcfg := rfl
@[simp] theorem fifoError_txf (s : State) : (fifoError s).txf = s.txf := rfl
@[simp] theorem fifoError_rxf (s : State) : (fifoError s).rxf = s.rxf := rfl
@[simp] theorem fifoError_engine (s : State) : (fifoError s).engine = s.engine := rfl
@[simp] theorem fifoError_target (s : State) : (fifoError s).target = s.target := rfl
@[simp] theorem fifoError_timer (s : State) : (fifoError s).timer = s.timer := rfl
@[simp] theorem fifoError_mem (s : State) : (fifoError s).mem = s.mem := rfl
@[simp] theorem fifoError_bracket (s : State) : (fifoError s).bracket = s.bracket := rfl
@[simp] theorem fifoError_host (s : State) : (fifoError s).host = s.host := rfl
@[simp] theorem fifoError_sched (s : State) : (fifoError s).sched = s.sched := rfl
@[simp] theorem fifoError_ticks (s : State) : (fifoError s).ticks = s.ticks := rfl
@[simp] theorem fifoError_draws (s : State) : (fifoError s).draws = s.draws := rfl
@[simp] theorem fifoError_trace (s : State) : (fifoError s).trace = s.trace := rfl

@[simp] theorem controllerReset_cfg (s : State) : (controllerReset s).cfg = s.cfg := rfl
@[simp] theorem controllerReset_handle (s : State) : (controllerReset s).handle = s.handle := rfl
@[simp] theorem controllerReset_chip (s : State) : (controllerReset s).chip = s.chip := rfl
@[simp] theorem controllerReset_phase (s : State) : (controllerReset s).phase = s.phase := rfl
@[simp] theorem controllerReset_inited (s : State) : (controllerReset s).inited = s.inited := rfl
@[simp] theorem controllerReset_result (s : State) : (controllerReset s).result = s.result := rfl
@[simp] theorem controllerReset_work (s : State) : (controllerReset s).work = s.work := rfl
@[simp] theorem controllerReset_ctrl (s : State) : (controllerReset s).ctrl = s.ctrl := rfl
@[simp] theorem controllerReset_flags (s : State) : (controllerReset s).flags = s.flags.afterReset := rfl
@[simp] theorem controllerReset_mier (s : State) : (controllerReset s).mier = 0#32 := rfl
@[simp] theorem controllerReset_cfg0 (s : State) : (controllerReset s).cfg0 = 0#32 := rfl
@[simp] theorem controllerReset_cfg1 (s : State) : (controllerReset s).cfg1 = 0#32 := rfl
@[simp] theorem controllerReset_clkcfg (s : State) : (controllerReset s).clkcfg = 0#32 := rfl
@[simp] theorem controllerReset_txf (s : State) : (controllerReset s).txf = [] := rfl
@[simp] theorem controllerReset_rxf (s : State) : (controllerReset s).rxf = [] := rfl
@[simp] theorem controllerReset_engine (s : State) : (controllerReset s).engine = Engine.idle := rfl
@[simp] theorem controllerReset_target (s : State) : (controllerReset s).target = s.target := rfl
@[simp] theorem controllerReset_timer (s : State) : (controllerReset s).timer = s.timer := rfl
@[simp] theorem controllerReset_mem (s : State) : (controllerReset s).mem = s.mem := rfl
@[simp] theorem controllerReset_bracket (s : State) : (controllerReset s).bracket = s.bracket := rfl
@[simp] theorem controllerReset_host (s : State) : (controllerReset s).host = s.host := rfl
@[simp] theorem controllerReset_sched (s : State) : (controllerReset s).sched = s.sched := rfl
@[simp] theorem controllerReset_ticks (s : State) : (controllerReset s).ticks = s.ticks := rfl
@[simp] theorem controllerReset_draws (s : State) : (controllerReset s).draws = s.draws := rfl
@[simp] theorem controllerReset_trace (s : State) : (controllerReset s).trace = s.trace := rfl

@[simp] theorem beginOp_cfg (s : State) : (beginOp s).cfg = s.cfg := rfl
@[simp] theorem beginOp_handle (s : State) : (beginOp s).handle = s.handle := rfl
@[simp] theorem beginOp_chip (s : State) : (beginOp s).chip = s.chip := rfl
@[simp] theorem beginOp_phase (s : State) : (beginOp s).phase = s.phase := rfl
@[simp] theorem beginOp_inited (s : State) : (beginOp s).inited = s.inited := rfl
@[simp] theorem beginOp_result (s : State) : (beginOp s).result = s.result := rfl
@[simp] theorem beginOp_work (s : State) : (beginOp s).work = {} := rfl
@[simp] theorem beginOp_ctrl (s : State) : (beginOp s).ctrl = s.ctrl := rfl
@[simp] theorem beginOp_flags (s : State) : (beginOp s).flags = s.flags := rfl
@[simp] theorem beginOp_mier (s : State) : (beginOp s).mier = s.mier := rfl
@[simp] theorem beginOp_cfg0 (s : State) : (beginOp s).cfg0 = s.cfg0 := rfl
@[simp] theorem beginOp_cfg1 (s : State) : (beginOp s).cfg1 = s.cfg1 := rfl
@[simp] theorem beginOp_clkcfg (s : State) : (beginOp s).clkcfg = s.clkcfg := rfl
@[simp] theorem beginOp_txf (s : State) : (beginOp s).txf = s.txf := rfl
@[simp] theorem beginOp_rxf (s : State) : (beginOp s).rxf = s.rxf := rfl
@[simp] theorem beginOp_engine (s : State) : (beginOp s).engine = s.engine := rfl
@[simp] theorem beginOp_target (s : State) : (beginOp s).target = s.target := rfl
@[simp] theorem beginOp_timer (s : State) : (beginOp s).timer = s.timer := rfl
@[simp] theorem beginOp_mem (s : State) : (beginOp s).mem = s.mem := rfl
@[simp] theorem beginOp_bracket (s : State) : (beginOp s).bracket = s.bracket := rfl
@[simp] theorem beginOp_host (s : State) : (beginOp s).host = s.host := rfl
@[simp] theorem beginOp_sched (s : State) : (beginOp s).sched = s.sched := rfl
@[simp] theorem beginOp_ticks (s : State) : (beginOp s).ticks = s.ticks := rfl
@[simp] theorem beginOp_draws (s : State) : (beginOp s).draws = s.draws := rfl
@[simp] theorem beginOp_trace (s : State) : (beginOp s).trace = [] := rfl

@[simp] theorem setupOffset_cfg (c : Chip) (o : Word) (s : State) : (setupOffset c o s).cfg = s.cfg := rfl
@[simp] theorem setupOffset_handle (c : Chip) (o : Word) (s : State) : (setupOffset c o s).handle = s.handle := rfl
@[simp] theorem setupOffset_chip (c : Chip) (o : Word) (s : State) : (setupOffset c o s).chip = s.chip := rfl
@[simp] theorem setupOffset_phase (c : Chip) (o : Word) (s : State) : (setupOffset c o s).phase = s.phase := rfl
@[simp] theorem setupOffset_inited (c : Chip) (o : Word) (s : State) : (setupOffset c o s).inited = s.inited := rfl
@[simp] theorem setupOffset_result (c : Chip) (o : Word) (s : State) : (setupOffset c o s).result = s.result := rfl
@[simp] theorem setupOffset_ctrl (c : Chip) (o : Word) (s : State) : (setupOffset c o s).ctrl = s.ctrl := rfl
@[simp] theorem setupOffset_flags (c : Chip) (o : Word) (s : State) : (setupOffset c o s).flags = s.flags := rfl
@[simp] theorem setupOffset_mier (c : Chip) (o : Word) (s : State) : (setupOffset c o s).mier = s.mier := rfl
@[simp] theorem setupOffset_cfg0 (c : Chip) (o : Word) (s : State) : (setupOffset c o s).cfg0 = s.cfg0 := rfl
@[simp] theorem setupOffset_cfg1 (c : Chip) (o : Word) (s : State) : (setupOffset c o s).cfg1 = s.cfg1 := rfl
@[simp] theorem setupOffset_clkcfg (c : Chip) (o : Word) (s : State) : (setupOffset c o s).clkcfg = s.clkcfg := rfl
@[simp] theorem setupOffset_txf (c : Chip) (o : Word) (s : State) : (setupOffset c o s).txf = s.txf := rfl
@[simp] theorem setupOffset_rxf (c : Chip) (o : Word) (s : State) : (setupOffset c o s).rxf = s.rxf := rfl
@[simp] theorem setupOffset_engine (c : Chip) (o : Word) (s : State) : (setupOffset c o s).engine = s.engine := rfl
@[simp] theorem setupOffset_target (c : Chip) (o : Word) (s : State) : (setupOffset c o s).target = s.target := rfl
@[simp] theorem setupOffset_timer (c : Chip) (o : Word) (s : State) : (setupOffset c o s).timer = s.timer := rfl
@[simp] theorem setupOffset_mem (c : Chip) (o : Word) (s : State) : (setupOffset c o s).mem = s.mem := rfl
@[simp] theorem setupOffset_bracket (c : Chip) (o : Word) (s : State) : (setupOffset c o s).bracket = s.bracket := rfl
@[simp] theorem setupOffset_host (c : Chip) (o : Word) (s : State) : (setupOffset c o s).host = s.host := rfl
@[simp] theorem setupOffset_sched (c : Chip) (o : Word) (s : State) : (setupOffset c o s).sched = s.sched := rfl
@[simp] theorem setupOffset_ticks (c : Chip) (o : Word) (s : State) : (setupOffset c o s).ticks = s.ticks := rfl
@[simp] theorem setupOffset_draws (c : Chip) (o : Word) (s : State) : (setupOffset c o s).draws = s.draws := rfl
@[simp] theorem setupOffset_trace (c : Chip) (o : Word) (s : State) : (setupOffset c o s).trace = s.trace := rfl

@[simp] theorem fillStage_cfg (c : Chip) (o : Word) (l : List Byte) (s : State) : (fillStage c o l s).cfg = s.cfg := rfl
@[simp] theorem fillStage_handle (c : Chip) (o : Word) (l : List Byte) (s : State) : (fillStage c o l s).handle = s.handle := rfl
@[simp] theorem fillStage_chip (c : Chip) (o : Word) (l : List Byte) (s : State) : (fillStage c o l s).chip = s.chip := rfl
@[simp] theorem fillStage_phase (c : Chip) (o : Word) (l : List Byte) (s : State) : (fillStage c o l s).phase = s.phase := rfl
@[simp] theorem fillStage_inited (c : Chip) (o : Word) (l : List Byte) (s : State) : (fillStage c o l s).inited = s.inited := rfl
@[simp] theorem fillStage_result (c : Chip) (o : Word) (l : List Byte) (s : State) : (fillStage c o l s).result = s.result := rfl
@[simp] theorem fillStage_ctrl (c : Chip) (o : Word) (l : List Byte) (s : State) : (fillStage c o l s).ctrl = s.ctrl := rfl
@[simp] theorem fillStage_flags (c : Chip) (o : Word) (l : List Byte) (s : State) : (fillStage c o l s).flags = s.flags := rfl
@[simp] theorem fillStage_mier (c : Chip) (o : Word) (l : List Byte) (s : State) : (fillStage c o l s).mier = s.mier := rfl
@[simp] theorem fillStage_cfg0 (c : Chip) (o : Word) (l : List Byte) (s : State) : (fillStage c o l s).cfg0 = s.cfg0 := rfl
@[simp] theorem fillStage_cfg1 (c : Chip) (o : Word) (l : List Byte) (s : State) : (fillStage c o l s).cfg1 = s.cfg1 := rfl
@[simp] theorem fillStage_clkcfg (c : Chip) (o : Word) (l : List Byte) (s : State) : (fillStage c o l s).clkcfg = s.clkcfg := rfl
@[simp] theorem fillStage_txf (c : Chip) (o : Word) (l : List Byte) (s : State) : (fillStage c o l s).txf = s.txf := rfl
@[simp] theorem fillStage_rxf (c : Chip) (o : Word) (l : List Byte) (s : State) : (fillStage c o l s).rxf = s.rxf := rfl
@[simp] theorem fillStage_engine (c : Chip) (o : Word) (l : List Byte) (s : State) : (fillStage c o l s).engine = s.engine := rfl
@[simp] theorem fillStage_target (c : Chip) (o : Word) (l : List Byte) (s : State) : (fillStage c o l s).target = s.target := rfl
@[simp] theorem fillStage_timer (c : Chip) (o : Word) (l : List Byte) (s : State) : (fillStage c o l s).timer = s.timer := rfl
@[simp] theorem fillStage_mem (c : Chip) (o : Word) (l : List Byte) (s : State) : (fillStage c o l s).mem = s.mem := rfl
@[simp] theorem fillStage_bracket (c : Chip) (o : Word) (l : List Byte) (s : State) : (fillStage c o l s).bracket = s.bracket := rfl
@[simp] theorem fillStage_host (c : Chip) (o : Word) (l : List Byte) (s : State) : (fillStage c o l s).host = s.host := rfl
@[simp] theorem fillStage_sched (c : Chip) (o : Word) (l : List Byte) (s : State) : (fillStage c o l s).sched = s.sched := rfl
@[simp] theorem fillStage_ticks (c : Chip) (o : Word) (l : List Byte) (s : State) : (fillStage c o l s).ticks = s.ticks := rfl
@[simp] theorem fillStage_draws (c : Chip) (o : Word) (l : List Byte) (s : State) : (fillStage c o l s).draws = s.draws := rfl
@[simp] theorem fillStage_trace (c : Chip) (o : Word) (l : List Byte) (s : State) : (fillStage c o l s).trace = s.trace := rfl

@[simp] theorem busNack_cfg (s : State) : (busNack s).cfg = s.cfg := by unfold busNack; split <;> rfl
@[simp] theorem busNack_handle (s : State) : (busNack s).handle = s.handle := by unfold busNack; split <;> rfl
@[simp] theorem busNack_chip (s : State) : (busNack s).chip = s.chip := by unfold busNack; split <;> rfl
@[simp] theorem busNack_phase (s : State) : (busNack s).phase = s.phase := by unfold busNack; split <;> rfl
@[simp] theorem busNack_inited (s : State) : (busNack s).inited = s.inited := by unfold busNack; split <;> rfl
@[simp] theorem busNack_result (s : State) : (busNack s).result = s.result := by unfold busNack; split <;> rfl
@[simp] theorem busNack_work (s : State) : (busNack s).work = s.work := by unfold busNack; split <;> rfl
@[simp] theorem busNack_ctrl (s : State) : (busNack s).ctrl = s.ctrl := by unfold busNack; split <;> rfl
@[simp] theorem busNack_mier (s : State) : (busNack s).mier = s.mier := by unfold busNack; split <;> rfl
@[simp] theorem busNack_cfg0 (s : State) : (busNack s).cfg0 = s.cfg0 := by unfold busNack; split <;> rfl
@[simp] theorem busNack_cfg1 (s : State) : (busNack s).cfg1 = s.cfg1 := by unfold busNack; split <;> rfl
@[simp] theorem busNack_clkcfg (s : State) : (busNack s).clkcfg = s.clkcfg := by unfold busNack; split <;> rfl
@[simp] theorem busNack_txf (s : State) : (busNack s).txf = s.txf := by unfold busNack; split <;> rfl
@[simp] theorem busNack_rxf (s : State) : (busNack s).rxf = s.rxf := by unfold busNack; split <;> rfl
@[simp] theorem busNack_engine (s : State) : (busNack s).engine = s.engine := by unfold busNack; split <;> rfl
@[simp] theorem busNack_timer (s : State) : (busNack s).timer = s.timer := by unfold busNack; split <;> rfl
@[simp] theorem busNack_mem (s : State) : (busNack s).mem = s.mem := by unfold busNack; split <;> rfl
@[simp] theorem busNack_bracket (s : State) : (busNack s).bracket = s.bracket := by unfold busNack; split <;> rfl
@[simp] theorem busNack_host (s : State) : (busNack s).host = s.host := by unfold busNack; split <;> rfl
@[simp] theorem busNack_sched (s : State) : (busNack s).sched = s.sched := by unfold busNack; split <;> rfl
@[simp] theorem busNack_ticks (s : State) : (busNack s).ticks = s.ticks := by unfold busNack; split <;> rfl
@[simp] theorem busNack_draws (s : State) : (busNack s).draws = s.draws := by unfold busNack; split <;> rfl
@[simp] theorem busNack_trace (s : State) : (busNack s).trace = s.trace := by unfold busNack; split <;> rfl

@[simp] theorem tickTimer_cfg (s : State) : (tickTimer s).cfg = s.cfg := by unfold tickTimer; split <;> rfl
@[simp] theorem tickTimer_handle (s : State) : (tickTimer s).handle = s.handle := by unfold tickTimer; split <;> rfl
@[simp] theorem tickTimer_chip (s : State) : (tickTimer s).chip = s.chip := by unfold tickTimer; split <;> rfl
@[simp] theorem tickTimer_phase (s : State) : (tickTimer s).phase = s.phase := by unfold tickTimer; split <;> rfl
@[simp] theorem tickTimer_inited (s : State) : (tickTimer s).inited = s.inited := by unfold tickTimer; split <;> rfl
@[simp] theorem tickTimer_result (s : State) : (tickTimer s).result = s.result := by unfold tickTimer; split <;> rfl
@[simp] theorem tickTimer_work (s : State) : (tickTimer s).work = s.work := by unfold tickTimer; split <;> rfl
@[simp] theorem tickTimer_ctrl (s : State) : (tickTimer s).ctrl = s.ctrl := by unfold tickTimer; split <;> rfl
@[simp] theorem tickTimer_flags (s : State) : (tickTimer s).flags = s.flags := by unfold tickTimer; split <;> rfl
@[simp] theorem tickTimer_mier (s : State) : (tickTimer s).mier = s.mier := by unfold tickTimer; split <;> rfl
@[simp] theorem tickTimer_cfg0 (s : State) : (tickTimer s).cfg0 = s.cfg0 := by unfold tickTimer; split <;> rfl
@[simp] theorem tickTimer_cfg1 (s : State) : (tickTimer s).cfg1 = s.cfg1 := by unfold tickTimer; split <;> rfl
@[simp] theorem tickTimer_clkcfg (s : State) : (tickTimer s).clkcfg = s.clkcfg := by unfold tickTimer; split <;> rfl
@[simp] theorem tickTimer_txf (s : State) : (tickTimer s).txf = s.txf := by unfold tickTimer; split <;> rfl
@[simp] theorem tickTimer_rxf (s : State) : (tickTimer s).rxf = s.rxf := by unfold tickTimer; split <;> rfl
@[simp] theorem tickTimer_engine (s : State) : (tickTimer s).engine = s.engine := by unfold tickTimer; split <;> rfl
@[simp] theorem tickTimer_target (s : State) : (tickTimer s).target = s.target := by unfold tickTimer; split <;> rfl
@[simp] theorem tickTimer_mem (s : State) : (tickTimer s).mem = s.mem := by unfold tickTimer; split <;> rfl
@[simp] theorem tickTimer_bracket (s : State) : (tickTimer s).bracket = s.bracket := by unfold tickTimer; split <;> rfl
@[simp] theorem tickTimer_host (s : State) : (tickTimer s).host = s.host := by unfold tickTimer; split <;> rfl
@[simp] theorem tickTimer_sched (s : State) : (tickTimer s).sched = s.sched := by unfold tickTimer; split <;> rfl
@[simp] theorem tickTimer_draws (s : State) : (tickTimer s).draws = s.draws := by unfold tickTimer; split <;> rfl
@[simp] theorem tickTimer_trace (s : State) : (tickTimer s).trace = s.trace := by unfold tickTimer; split <;> rfl

@[simp] theorem writeCtrl_cfg (v : Word) (s : State) : (writeCtrl v s).cfg = s.cfg := by unfold writeCtrl; dsimp only; split <;> rfl
@[simp] theorem writeCtrl_handle (v : Word) (s : State) : (writeCtrl v s).handle = s.handle := by unfold writeCtrl; dsimp only; split <;> rfl
@[simp] theorem writeCtrl_chip (v : Word) (s : State) : (writeCtrl v s).chip = s.chip := by unfold writeCtrl; dsimp only; split <;> rfl
@[simp] theorem writeCtrl_phase (v : Word) (s : State) : (writeCtrl v s).phase = s.phase := by unfold writeCtrl; dsimp only; split <;> rfl
@[simp] theorem writeCtrl_inited (v : Word) (s : State) : (writeCtrl v s).inited = s.inited := by unfold writeCtrl; dsimp only; split <;> rfl
@[simp] theorem writeCtrl_result (v : Word) (s : State) : (writeCtrl v s).result = s.result := by unfold writeCtrl; dsimp only; split <;> rfl
@[simp] theorem writeCtrl_work (v : Word) (s : State) : (writeCtrl v s).work = s.work := by unfold writeCtrl; dsimp only; split <;> rfl
@[simp] theorem writeCtrl_target (v : Word) (s : State) : (writeCtrl v s).target = s.target := by unfold writeCtrl; dsimp only; split <;> rfl
@[simp] theorem writeCtrl_timer (v : Word) (s : State) : (writeCtrl v s).timer = s.timer := by unfold writeCtrl; dsimp only; split <;> rfl
@[simp] theorem writeCtrl_mem (v : Word) (s : State) : (writeCtrl v s).mem = s.mem := by unfold writeCtrl; dsimp only; split <;> rfl
@[simp] theorem writeCtrl_bracket (v : Word) (s : State) : (writeCtrl v s).bracket = s.bracket := by unfold writeCtrl; dsimp only; split <;> rfl
@[simp] theorem writeCtrl_host (v : Word) (s : State) : (writeCtrl v s).host = s.host := by unfold writeCtrl; dsimp only; split <;> rfl
@[simp] theorem writeCtrl_sched (v : Word) (s : State) : (writeCtrl v s).sched = s.sched := by unfold writeCtrl; dsimp only; split <;> rfl
@[simp] theorem writeCtrl_ticks (v : Word) (s : State) : (writeCtrl v s).ticks = s.ticks := by unfold writeCtrl; dsimp only; split <;> rfl
@[simp] theorem writeCtrl_draws (v : Word) (s : State) : (writeCtrl v s).draws = s.draws := by unfold writeCtrl; dsimp only; split <;> rfl
@[simp] theorem writeCtrl_trace (v : Word) (s : State) : (writeCtrl v s).trace = s.trace := by unfold writeCtrl; dsimp only; split <;> rfl

@[simp] theorem initOutcome_cfg (r : Code) (s : State) : (initOutcome r s).cfg = s.cfg := by unfold initOutcome; split <;> rfl
@[simp] theorem initOutcome_handle (r : Code) (s : State) : (initOutcome r s).handle = s.handle := by unfold initOutcome; split <;> rfl
@[simp] theorem initOutcome_chip (r : Code) (s : State) : (initOutcome r s).chip = s.chip := by unfold initOutcome; split <;> rfl
@[simp] theorem initOutcome_result (r : Code) (s : State) : (initOutcome r s).result = s.result := by unfold initOutcome; split <;> rfl
@[simp] theorem initOutcome_work (r : Code) (s : State) : (initOutcome r s).work = s.work := by unfold initOutcome; split <;> rfl
@[simp] theorem initOutcome_ctrl (r : Code) (s : State) : (initOutcome r s).ctrl = s.ctrl := by unfold initOutcome; split <;> rfl
@[simp] theorem initOutcome_flags (r : Code) (s : State) : (initOutcome r s).flags = s.flags := by unfold initOutcome; split <;> rfl
@[simp] theorem initOutcome_mier (r : Code) (s : State) : (initOutcome r s).mier = s.mier := by unfold initOutcome; split <;> rfl
@[simp] theorem initOutcome_cfg0 (r : Code) (s : State) : (initOutcome r s).cfg0 = s.cfg0 := by unfold initOutcome; split <;> rfl
@[simp] theorem initOutcome_cfg1 (r : Code) (s : State) : (initOutcome r s).cfg1 = s.cfg1 := by unfold initOutcome; split <;> rfl
@[simp] theorem initOutcome_clkcfg (r : Code) (s : State) : (initOutcome r s).clkcfg = s.clkcfg := by unfold initOutcome; split <;> rfl
@[simp] theorem initOutcome_txf (r : Code) (s : State) : (initOutcome r s).txf = s.txf := by unfold initOutcome; split <;> rfl
@[simp] theorem initOutcome_rxf (r : Code) (s : State) : (initOutcome r s).rxf = s.rxf := by unfold initOutcome; split <;> rfl
@[simp] theorem initOutcome_engine (r : Code) (s : State) : (initOutcome r s).engine = s.engine := by unfold initOutcome; split <;> rfl
@[simp] theorem initOutcome_target (r : Code) (s : State) : (initOutcome r s).target = s.target := by unfold initOutcome; split <;> rfl
@[simp] theorem initOutcome_timer (r : Code) (s : State) : (initOutcome r s).timer = s.timer := by unfold initOutcome; split <;> rfl
@[simp] theorem initOutcome_mem (r : Code) (s : State) : (initOutcome r s).mem = s.mem := by unfold initOutcome; split <;> rfl
@[simp] theorem initOutcome_bracket (r : Code) (s : State) : (initOutcome r s).bracket = s.bracket := by unfold initOutcome; split <;> rfl
@[simp] theorem initOutcome_host (r : Code) (s : State) : (initOutcome r s).host = s.host := by unfold initOutcome; split <;> rfl
@[simp] theorem initOutcome_sched (r : Code) (s : State) : (initOutcome r s).sched = s.sched := by unfold initOutcome; split <;> rfl
@[simp] theorem initOutcome_ticks (r : Code) (s : State) : (initOutcome r s).ticks = s.ticks := by unfold initOutcome; split <;> rfl
@[simp] theorem initOutcome_draws (r : Code) (s : State) : (initOutcome r s).draws = s.draws := by unfold initOutcome; split <;> rfl
@[simp] theorem initOutcome_trace (r : Code) (s : State) : (initOutcome r s).trace = s.trace := by unfold initOutcome; split <;> rfl

@[simp] theorem putReceived_cfg (d : ByteDst) (i : Nat) (x : Byte) (s : State) : (putReceived d i x s).cfg = s.cfg := by unfold putReceived; split <;> rfl
@[simp] theorem putReceived_handle (d : ByteDst) (i : Nat) (x : Byte) (s : State) : (putReceived d i x s).handle = s.handle := by unfold putReceived; split <;> rfl
@[simp] theorem putReceived_chip (d : ByteDst) (i : Nat) (x : Byte) (s : State) : (putReceived d i x s).chip = s.chip := by unfold putReceived; split <;> rfl
@[simp] theorem putReceived_phase (d : ByteDst) (i : Nat) (x : Byte) (s : State) : (putReceived d i x s).phase = s.phase := by unfold putReceived; split <;> rfl
@[simp] theorem putReceived_inited (d : ByteDst) (i : Nat) (x : Byte) (s : State) : (putReceived d i x s).inited = s.inited := by unfold putReceived; split <;> rfl
@[simp] theorem putReceived_result (d : ByteDst) (i : Nat) (x : Byte) (s : State) : (putReceived d i x s).result = s.result := by unfold putReceived; split <;> rfl
@[simp] theorem putReceived_ctrl (d : ByteDst) (i : Nat) (x : Byte) (s : State) : (putReceived d i x s).ctrl = s.ctrl := by unfold putReceived; split <;> rfl
@[simp] theorem putReceived_flags (d : ByteDst) (i : Nat) (x : Byte) (s : State) : (putReceived d i x s).flags = s.flags := by unfold putReceived; split <;> rfl
@[simp] theorem putReceived_mier (d : ByteDst) (i : Nat) (x : Byte) (s : State) : (putReceived d i x s).mier = s.mier := by unfold putReceived; split <;> rfl
@[simp] theorem putReceived_cfg0 (d : ByteDst) (i : Nat) (x : Byte) (s : State) : (putReceived d i x s).cfg0 = s.cfg0 := by unfold putReceived; split <;> rfl
@[simp] theorem putReceived_cfg1 (d : ByteDst) (i : Nat) (x : Byte) (s : State) : (putReceived d i x s).cfg1 = s.cfg1 := by unfold putReceived; split <;> rfl
@[simp] theorem putReceived_clkcfg (d : ByteDst) (i : Nat) (x : Byte) (s : State) : (putReceived d i x s).clkcfg = s.clkcfg := by unfold putReceived; split <;> rfl
@[simp] theorem putReceived_txf (d : ByteDst) (i : Nat) (x : Byte) (s : State) : (putReceived d i x s).txf = s.txf := by unfold putReceived; split <;> rfl
@[simp] theorem putReceived_rxf (d : ByteDst) (i : Nat) (x : Byte) (s : State) : (putReceived d i x s).rxf = s.rxf := by unfold putReceived; split <;> rfl
@[simp] theorem putReceived_engine (d : ByteDst) (i : Nat) (x : Byte) (s : State) : (putReceived d i x s).engine = s.engine := by unfold putReceived; split <;> rfl
@[simp] theorem putReceived_target (d : ByteDst) (i : Nat) (x : Byte) (s : State) : (putReceived d i x s).target = s.target := by unfold putReceived; split <;> rfl
@[simp] theorem putReceived_timer (d : ByteDst) (i : Nat) (x : Byte) (s : State) : (putReceived d i x s).timer = s.timer := by unfold putReceived; split <;> rfl
@[simp] theorem putReceived_bracket (d : ByteDst) (i : Nat) (x : Byte) (s : State) : (putReceived d i x s).bracket = s.bracket := by unfold putReceived; split <;> rfl
@[simp] theorem putReceived_host (d : ByteDst) (i : Nat) (x : Byte) (s : State) : (putReceived d i x s).host = s.host := by unfold putReceived; split <;> rfl
@[simp] theorem putReceived_sched (d : ByteDst) (i : Nat) (x : Byte) (s : State) : (putReceived d i x s).sched = s.sched := by unfold putReceived; split <;> rfl
@[simp] theorem putReceived_ticks (d : ByteDst) (i : Nat) (x : Byte) (s : State) : (putReceived d i x s).ticks = s.ticks := by unfold putReceived; split <;> rfl
@[simp] theorem putReceived_draws (d : ByteDst) (i : Nat) (x : Byte) (s : State) : (putReceived d i x s).draws = s.draws := by unfold putReceived; split <;> rfl
@[simp] theorem putReceived_trace (d : ByteDst) (i : Nat) (x : Byte) (s : State) : (putReceived d i x s).trace = s.trace := by unfold putReceived; split <;> rfl

@[simp] theorem writeCtrl_ctrl (v : Word) (s : State) : (writeCtrl v s).ctrl = v.setWidth 4 := by
  unfold writeCtrl; dsimp only; split <;> rfl

end Sys2Proof.Machine
end

