-- ==== Sys2Proof/Laws/Env.lean ====
section
/-! SUPPORT. What the environment can do between two primitives: every move of it, the nominal engine's
among them, stays within the contract of R300, stops only on a reserved command word, and keeps the
invariant. -/

namespace Sys2Proof.Machine

/-! ### The contract composes -/

theorem flagsKept_refl (f : Status) : flagsKept f f := by simp [flagsKept]

theorem flagsKept_trans {f g h : Status} (a : flagsKept f g) (b : flagsKept g h) :
    flagsKept f h := by
  obtain ⟨a1, a2, a3, a4, a5, a6, a7⟩ := a
  obtain ⟨b1, b2, b3, b4, b5, b6, b7⟩ := b
  exact ⟨b1 ∘ a1, b2 ∘ a2, b3 ∘ a3, b4 ∘ a4, b5 ∘ a5, b6 ∘ a6, b7 ∘ a7⟩

theorem Contract.refl (s : State) : Contract s s :=
  ⟨rfl, flagsKept_refl _, ⟨0, rfl⟩, ⟨[], by simp⟩, le_max_left _ _, fun _ => ⟨rfl, rfl⟩⟩

namespace Contract

variable {s t u : State}

theorem cfg (h : Contract s t) : t.cfg = s.cfg := by have e := congrArg State.cfg h.same; exact e
theorem handle (h : Contract s t) : t.handle = s.handle := by have e := congrArg State.handle h.same; exact e
theorem chip (h : Contract s t) : t.chip = s.chip := by have e := congrArg State.chip h.same; exact e
theorem phase (h : Contract s t) : t.phase = s.phase := by have e := congrArg State.phase h.same; exact e
theorem inited (h : Contract s t) : t.inited = s.inited := by have e := congrArg State.inited h.same; exact e
theorem result (h : Contract s t) : t.result = s.result := by have e := congrArg State.result h.same; exact e
theorem work (h : Contract s t) : t.work = s.work := by have e := congrArg State.work h.same; exact e
theorem ctrl (h : Contract s t) : t.ctrl = s.ctrl := by have e := congrArg State.ctrl h.same; exact e
theorem mier (h : Contract s t) : t.mier = s.mier := by have e := congrArg State.mier h.same; exact e
theorem cfg0 (h : Contract s t) : t.cfg0 = s.cfg0 := by have e := congrArg State.cfg0 h.same; exact e
theorem cfg1 (h : Contract s t) : t.cfg1 = s.cfg1 := by have e := congrArg State.cfg1 h.same; exact e
theorem clkcfg (h : Contract s t) : t.clkcfg = s.clkcfg := by have e := congrArg State.clkcfg h.same; exact e
theorem timer (h : Contract s t) : t.timer = s.timer := by have e := congrArg State.timer h.same; exact e
theorem mem (h : Contract s t) : t.mem = s.mem := by have e := congrArg State.mem h.same; exact e
theorem bracket (h : Contract s t) : t.bracket = s.bracket := by have e := congrArg State.bracket h.same; exact e
theorem host (h : Contract s t) : t.host = s.host := by have e := congrArg State.host h.same; exact e
theorem ticks (h : Contract s t) : t.ticks = s.ticks := by have e := congrArg State.ticks h.same; exact e
theorem trace (h : Contract s t) : t.trace = s.trace := by have e := congrArg State.trace h.same; exact e

theorem engineOn (h : Contract s t) : engineOn t = engineOn s := by
  unfold Machine.engineOn; rw [h.ctrl]

theorem trans (a : Contract s t) (b : Contract t u) : Contract s u := by
  refine ⟨?_, flagsKept_trans a.flagsKept b.flagsKept, ?_, ?_, ?_, ?_⟩
  · have hb := b.same
    rw [a.same] at hb
    exact hb
  · obtain ⟨n, hn⟩ := a.txTaken
    obtain ⟨m, hm⟩ := b.txTaken
    exact ⟨n + m, by rw [hm, hn, List.drop_drop]⟩
  · obtain ⟨l, hl⟩ := a.rxGrown
    obtain ⟨k, hk⟩ := b.rxGrown
    exact ⟨l ++ k, by rw [hk, hl, List.append_assoc]⟩
  · have h1 := a.rxBound
    have h2 := b.rxBound
    rw [a.cfg] at h2
    omega
  · intro h
    have h1 := a.off h
    have h2 := b.off (by rw [a.engineOn, h])
    exact ⟨h2.1.trans h1.1, h2.2.trans h1.2⟩

/-- The words left in the transmit FIFO were there before. -/
theorem txSubset (h : Contract s t) : ∀ w ∈ t.txf, w ∈ s.txf := by
  obtain ⟨n, hn⟩ := h.txTaken
  intro w hw
  rw [hn] at hw
  exact List.mem_of_mem_drop hw

theorem txLength (h : Contract s t) : t.txf.length ≤ s.txf.length := by
  obtain ⟨n, hn⟩ := h.txTaken
  rw [hn, List.length_drop]
  omega

end Contract

/-- An update of the environment's own fields that clears no flag and leaves the FIFOs alone. -/
theorem contract_of_update {s t : State}
    (same : t = { s with
      flags := t.flags
      engine := t.engine
      target := t.target
      sched := t.sched
      draws := t.draws })
    (keep : flagsKept s.flags t.flags) : Contract s t := by
  have htx : t.txf = s.txf := by have e := congrArg State.txf same; exact e
  have hrx : t.rxf = s.rxf := by have e := congrArg State.rxf same; exact e
  refine ⟨?_, keep, ⟨0, by simp [htx]⟩, ⟨[], by simp [hrx]⟩, ?_, fun _ => ⟨htx, hrx⟩⟩
  · rw [htx, hrx]; exact same
  · rw [hrx]; exact le_max_left _ _

/-! ### The nominal engine stays within the contract (R307) -/

theorem contract_busStop (s : State) : Contract s (busStop s) :=
  contract_of_update rfl (by simp [flagsKept, busStop])

theorem contract_fifoError (s : State) : Contract s (fifoError s) :=
  contract_of_update rfl (by simp [flagsKept, fifoError])

theorem contract_busNack (s : State) : Contract s (busNack s) := by
  unfold busNack
  split
  · exact Contract.refl s
  · exact contract_of_update rfl (by simp [flagsKept, busStop])

theorem contract_popTx {s : State} (h : engineOn s = true) : Contract s (popTx s) :=
  ⟨rfl, flagsKept_refl _, ⟨1, by simp [popTx]⟩, ⟨[], by simp [popTx]⟩, by simp [popTx],
    fun h' => by simp [h] at h'⟩

theorem contract_sendAddress (d : Byte) (s : State) : Contract s (sendAddress d s) := by
  unfold sendAddress
  dsimp only
  split
  · split
    · exact contract_of_update rfl (by simp [flagsKept])
    · exact Contract.trans (contract_of_update rfl (by simp [flagsKept])) (contract_busNack _)
  · exact Contract.trans (contract_of_update rfl (by simp [flagsKept])) (contract_busNack _)

theorem contract_beginStart (d : Byte) (s : State) : Contract s (beginStart d s) := by
  unfold beginStart
  split
  · exact contract_of_update rfl (flagsKept_refl _)
  · exact contract_sendAddress d s

theorem contract_sendByte (d : Byte) (s : State) : Contract s (sendByte d s) := by
  unfold sendByte
  split
  · split
    · exact contract_of_update rfl (flagsKept_refl _)
    · exact contract_busNack s
  · exact contract_busNack s

theorem contract_readBus (s : State) : Contract s (readBus s).2 := by
  unfold readBus
  split
  · split
    · exact contract_of_update rfl (flagsKept_refl _)
    · exact contract_of_update rfl (flagsKept_refl _)
  · exact contract_of_update rfl (flagsKept_refl _)

theorem readBus_rxf (s : State) : (readBus s).2.rxf = s.rxf := by
  unfold readBus; split <;> (try split) <;> rfl

theorem contract_pushRx {s : State} (b : Byte) (on : engineOn s = true)
    (room : s.rxf.length < s.cfg.fifoDepth) : Contract s { s with rxf := s.rxf ++ [b] } :=
  ⟨rfl, flagsKept_refl _, ⟨0, rfl⟩, ⟨[b], rfl⟩, by simp; omega, fun h => by simp [on] at h⟩

theorem contract_deliver (n : Nat) {s : State} (on : engineOn s = true) :
    Contract s (deliver n s) := by
  induction n generalizing s with
  | zero => exact contract_of_update rfl (flagsKept_refl _)
  | succ n ih =>
    unfold deliver
    split
    · rename_i room
      have h1 := contract_readBus s
      have on1 : engineOn (readBus s).2 = true := by rw [h1.engineOn, on]
      have room1 : (readBus s).2.rxf.length < (readBus s).2.cfg.fifoDepth := by
        rw [readBus_rxf, h1.cfg]; exact room
      have h2 := contract_pushRx (readBus s).1 on1 room1
      rw [readBus_rxf] at h2
      have h3 := h1.trans h2
      exact h3.trans (ih (by rw [h3.engineOn, on]))
    · exact contract_of_update rfl (flagsKept_refl _)

theorem engineOn_of_ready {s : State} (h : engineReady s = true) : engineOn s = true := by
  unfold engineReady at h
  simp only [Bool.and_eq_true] at h
  exact h.1.1

/-- Every command word's execution stays within the contract and does not stop. -/
theorem runCmd_spec (c : Cmd) (s : State) : ∃ t, runCmd c s = .next t ∧ Contract s t := by
  have key : ∀ (f : State → State), (∀ u, engineOn u = true → Contract u (f u)) →
      Contract s (if engineReady s then f (popTx s) else s) := by
    intro f hf
    split
    · rename_i h
      have on := engineOn_of_ready h
      have hp := contract_popTx on
      exact hp.trans (hf _ (by rw [hp.engineOn, on]))
    · exact Contract.refl s
  cases c with
  | txdata d =>
    refine ⟨_, rfl, ?_⟩
    split
    · rename_i h
      have on := engineOn_of_ready h
      have hp := contract_popTx on
      split
      · exact hp.trans (contract_sendByte d _)
      · exact hp.trans (contract_fifoError _)
    · exact Contract.refl s
  | receive n =>
    refine ⟨_, rfl, ?_⟩
    split
    · rename_i h
      have on := engineOn_of_ready h
      have hp := contract_popTx on
      split
      · exact hp.trans (contract_deliver _ (by rw [hp.engineOn, on]))
      · exact hp.trans (contract_fifoError _)
    · exact Contract.refl s
  | stop =>
    refine ⟨_, rfl, ?_⟩
    split
    · rename_i h
      have hp := contract_popTx (engineOn_of_ready h)
      split
      · exact hp.trans (contract_busStop _)
      · exact hp
    · exact Contract.refl s
  | start a d => exact ⟨_, rfl, key (beginStart (addrByte a d)) fun u _ => contract_beginStart _ u⟩

theorem contract_engineContinue (s : State) : Contract s (engineContinue s) := by
  unfold engineContinue
  split
  · exact Contract.refl s
  · rename_i on
    have on : engineOn s = true := by simpa using on
    split
    · exact contract_deliver _ on
    · split
      · split
        · exact Contract.refl s
        · exact contract_sendAddress _ s
      · split
        · exact contract_busStop s
        · exact Contract.refl s

/-- The engine takes only a word of the transmit FIFO. -/
theorem nextEntry_mem {s : State} {w : CmdEntry} (h : nextEntry s = some w) : w ∈ s.txf := by
  unfold nextEntry at h
  split at h
  · exact List.mem_of_mem_head? h
  · simp at h

/-- The nominal engine's next piece of work stays within the contract; it stops only on a reserved
command word (R105). -/
theorem engineMove_spec (s : State) :
    (∃ t, engineMove s = .next t ∧ Contract s t) ∨
    (engineMove s = .refused .reservedCommand ∧ ∃ w ∈ s.txf, ¬ entryLegal w) := by
  unfold engineMove
  split
  · rename_i w hw
    split
    · exact .inl (runCmd_spec _ s)
    · rename_i hd
      exact .inr ⟨rfl, w, nextEntry_mem hw, by simp [entryLegal, hd]⟩
  · exact .inl ⟨_, rfl, contract_engineContinue s⟩

/-! ### Every environment stays within the contract -/

theorem flagsKept_raise (f : Status) (w : BitVec 7) : flagsKept f (f.raiseW1C w) := by
  simp only [flagsKept, Status.raiseW1C, Bool.or_eq_true]
  tauto

/-- Taking a word: the contract, or, at a reserved one, a refusal (R105). -/
theorem takeWord_spec {s : State} (on : engineOn s = true) :
    (∃ t, takeWord s = .next t ∧ Contract s t) ∨
    (takeWord s = .refused .reservedCommand ∧ ∃ w ∈ s.txf, ¬ entryLegal w) := by
  unfold takeWord
  split
  · exact .inl ⟨_, rfl, Contract.refl s⟩
  · rename_i w r h
    split
    · exact .inl ⟨_, rfl, contract_popTx on⟩
    · rename_i hd
      exact .inr ⟨rfl, w, by simp [h], hd⟩

theorem envMove_spec (m : EnvMove) (s : State) :
    (∃ t, envMove m s = .next t ∧ Contract s t) ∨
    (envMove m s = .refused .reservedCommand ∧ ∃ w ∈ s.txf, ¬ entryLegal w) := by
  cases m with
  | engine => exact engineMove_spec s
  | take =>
    unfold envMove
    dsimp only
    split
    · rename_i h; exact takeWord_spec h
    · exact .inl ⟨_, rfl, Contract.refl s⟩
  | raiseFlags w =>
    refine .inl ⟨_, rfl, ?_⟩
    split
    · exact Contract.refl s
    · exact contract_of_update rfl (flagsKept_raise _ _)
  | busy a b => exact .inl ⟨_, rfl, contract_of_update rfl (by simp [flagsKept])⟩
  | deliver b =>
    refine .inl ⟨_, rfl, ?_⟩
    split
    · rename_i h
      simp only [Bool.and_eq_true, decide_eq_true_eq] at h
      exact contract_pushRx b h.1 h.2
    · exact Contract.refl s

theorem envMoves_spec (ms : List EnvMove) (s : State) :
    (∃ t, envMoves ms s = .next t ∧ Contract s t) ∨
    (envMoves ms s = .refused .reservedCommand ∧ ∃ w ∈ s.txf, ¬ entryLegal w) := by
  induction ms generalizing s with
  | nil => exact .inl ⟨s, rfl, Contract.refl s⟩
  | cons m r ih =>
    rcases envMove_spec m s with ⟨t, ht, hc⟩ | ⟨hr, hw⟩
    · rcases ih t with ⟨u, hu, hc'⟩ | ⟨hr, w, hw, hl⟩
      · exact .inl ⟨u, by simp [envMoves, ht, hu], hc.trans hc'⟩
      · exact .inr ⟨by simp [envMoves, ht, hr], w, hc.txSubset w hw, hl⟩
    · exact .inr ⟨by simp [envMoves, hr], hw⟩

/-- The environment's turn before a primitive: a state within the contract, or, only if a reserved
command word is queued, a refusal. -/
theorem envSlot_spec (s : State) :
    (∃ t, envSlot s = .next t ∧ Contract s t) ∨
    (envSlot s = .refused .reservedCommand ∧ ∃ w ∈ s.txf, ¬ entryLegal w) := by
  unfold envSlot
  split
  · exact engineMove_spec s
  · rename_i ms r h
    have h0 : Contract s { s with sched := r } := contract_of_update rfl (flagsKept_refl _)
    rcases envMoves_spec ms { s with sched := r } with ⟨t, ht, hc⟩ | ⟨hr, hw⟩
    · exact .inl ⟨t, ht, h0.trans hc⟩
    · exact .inr ⟨hr, hw⟩

/-! ### The environment while the controller is held in reset -/

/-- What the environment may still change while `RST` is 1 (R362): it lowers `MBF`, moves `BBF`, and uses
up its schedule. -/
structure StaysReset (s t : State) : Prop where
  same : t = { s with
    flags := { s.flags with mbf := t.flags.mbf, bbf := t.flags.bbf }
    sched := t.sched }
  mbf : t.flags.mbf = true → s.flags.mbf = true

theorem StaysReset.refl (s : State) : StaysReset s s := ⟨rfl, id⟩

theorem StaysReset.trans {s t u : State} (a : StaysReset s t) (b : StaysReset t u) : StaysReset s u :=
  ⟨by rw [b.same, a.same], fun h => a.mbf (b.mbf h)⟩

theorem StaysReset.ctrl {s t : State} (a : StaysReset s t) : t.ctrl = s.ctrl := by rw [a.same]

theorem envMove_reset {m : EnvMove} {s t : State} (h : s.ctrl.getLsbD bitRST = true)
    (e : envMove m s = .next t) : StaysReset s t := by
  have off : engineOn s = false := by simp [engineOn, h]
  cases m with
  | engine =>
    have n : nextEntry s = none := by simp [nextEntry, engineReady, off]
    simp only [envMove, engineMove, n, engineContinue, off] at e
    cases e
    exact StaysReset.refl s
  | take => simp only [envMove, off] at e; cases e; exact StaysReset.refl s
  | raiseFlags w => simp only [envMove, h, if_true] at e; cases e; exact StaysReset.refl s
  | busy a b => simp only [envMove, h] at e; cases e; exact ⟨rfl, by simp⟩
  | deliver b => simp only [envMove, off] at e; cases e; exact StaysReset.refl s

theorem envMoves_reset {ms : List EnvMove} {s t : State} (h : s.ctrl.getLsbD bitRST = true)
    (e : envMoves ms s = .next t) : StaysReset s t := by
  induction ms generalizing s with
  | nil => cases e; exact StaysReset.refl _
  | cons m r ih =>
    unfold envMoves at e
    cases em : envMove m s with
    | next u =>
      rw [em] at e
      have hu := envMove_reset h em
      exact hu.trans (ih (by rw [hu.ctrl]; exact h) e)
    | fault f => rw [em] at e; cases e
    | refused x => rw [em] at e; cases e

/-- The environment's turn while `RST` is 1 (R362, assumption 27). -/
theorem envSlot_reset {s t : State} (h : s.ctrl.getLsbD bitRST = true) (e : envSlot s = .next t) :
    StaysReset s t := by
  unfold envSlot at e
  split at e
  · exact envMove_reset (m := .engine) h e
  · rename_i ms r _
    have b := envMoves_reset (s := { s with sched := r }) h e
    have a : StaysReset s { s with sched := r } := ⟨rfl, id⟩
    exact a.trans b

/-! ### The environment keeps the invariant -/

theorem targetWf_some {t : Target} (h : t.mem.wf = true) : targetWf (some t) := by
  intro e he; cases he; exact h

theorem targetWf_none : targetWf none := by intro e he; cases he

theorem targetWf_release {o : Option Target} (h : targetWf o) :
    targetWf (o.map Target.release) := by
  intro e he
  cases o with
  | none => simp at he
  | some t => simp only [Option.map_some, Option.some.injEq] at he; subst he; exact h t rfl

theorem targetWf_busStop {s : State} (h : targetWf s.target) : targetWf (busStop s).target :=
  targetWf_release h

theorem targetWf_busNack {s : State} (h : targetWf s.target) : targetWf (busNack s).target := by
  unfold busNack
  split
  · exact h
  · exact targetWf_release h

theorem targetWf_sendAddress {s : State} (d : Byte) (h : targetWf s.target) :
    targetWf (sendAddress d s).target := by
  unfold sendAddress
  dsimp only
  split
  · rename_i t ht
    have hm : t.mem.wf = true := h t ht
    split
    · refine targetWf_some ?_
      split <;> exact hm
    · exact targetWf_busNack (targetWf_some hm)
  · rename_i ht
    exact targetWf_busNack (by show targetWf s.target; exact h)

theorem targetWf_beginStart {s : State} (d : Byte) (h : targetWf s.target) :
    targetWf (beginStart d s).target := by
  unfold beginStart
  split
  · exact h
  · exact targetWf_sendAddress d h

theorem targetWf_sendByte {s : State} (d : Byte) (h : targetWf s.target) :
    targetWf (sendByte d s).target := by
  unfold sendByte
  split
  · rename_i t ht
    split
    · exact targetWf_some (Target.wf_putByte _ _ (h t ht))
    · exact targetWf_busNack h
  · exact targetWf_busNack h

theorem targetWf_readBus {s : State} (h : targetWf s.target) : targetWf (readBus s).2.target := by
  unfold readBus
  split
  · rename_i t ht
    split
    · exact targetWf_some (h t ht)
    · exact h
  · exact h

theorem targetWf_deliver (n : Nat) {s : State} (h : targetWf s.target) :
    targetWf (deliver n s).target := by
  induction n generalizing s with
  | zero => exact h
  | succ n ih =>
    unfold deliver
    split
    · exact ih (targetWf_readBus h)
    · exact h

theorem targetWf_runCmd (c : Cmd) {s t : State} (h : targetWf s.target)
    (e : runCmd c s = .next t) : targetWf t.target := by
  have hp : targetWf (popTx s).target := h
  cases c with
  | txdata d =>
    simp only [runCmd, execCmdTxdata, Host.Outcome.next.injEq] at e
    subst e
    split
    · split
      · exact targetWf_sendByte d hp
      · exact hp
    · exact h
  | receive n =>
    simp only [runCmd, execCmdReceive, Host.Outcome.next.injEq] at e
    subst e
    split
    · split
      · exact targetWf_deliver _ hp
      · exact hp
    · exact h
  | stop =>
    simp only [runCmd, execCmdStop, Host.Outcome.next.injEq] at e
    subst e
    split
    · split
      · exact targetWf_busStop hp
      · exact hp
    · exact h
  | start a d =>
    simp only [runCmd, execCmdStart, Host.Outcome.next.injEq] at e
    subst e
    split
    · exact targetWf_beginStart _ hp
    · exact h

theorem targetWf_engineContinue {s : State} (h : targetWf s.target) :
    targetWf (engineContinue s).target := by
  unfold engineContinue
  split
  · exact h
  · split
    · exact targetWf_deliver _ h
    · split
      · split
        · exact h
        · exact targetWf_sendAddress _ h
      · split
        · exact targetWf_busStop h
        · exact h

theorem targetWf_engineMove {s t : State} (h : targetWf s.target) (e : engineMove s = .next t) :
    targetWf t.target := by
  unfold engineMove at e
  split at e
  · split at e
    · exact targetWf_runCmd _ h e
    · cases e
  · cases e; exact targetWf_engineContinue h

theorem targetWf_envMove (m : EnvMove) {s t : State} (h : targetWf s.target)
    (e : envMove m s = .next t) : targetWf t.target := by
  cases m with
  | engine => exact targetWf_engineMove h e
  | take =>
    unfold envMove takeWord at e
    dsimp only at e
    split at e
    · split at e
      · cases e; exact h
      · split at e
        · cases e; exact h
        · cases e
    · cases e; exact h
  | raiseFlags w => simp only [envMove, Host.Outcome.next.injEq] at e; subst e; split <;> exact h
  | busy a b => simp only [envMove, Host.Outcome.next.injEq] at e; subst e; exact h
  | deliver b => simp only [envMove, Host.Outcome.next.injEq] at e; subst e; split <;> exact h

theorem targetWf_envMoves (ms : List EnvMove) {s t : State} (h : targetWf s.target)
    (e : envMoves ms s = .next t) : targetWf t.target := by
  induction ms generalizing s with
  | nil => cases e; exact h
  | cons m r ih =>
    unfold envMoves at e
    split at e
    · rename_i u hu
      exact ih (targetWf_envMove m h hu) e
    · cases e
    · cases e

theorem targetWf_envSlot {s t : State} (h : targetWf s.target) (e : envSlot s = .next t) :
    targetWf t.target := by
  unfold envSlot at e
  split at e
  · exact targetWf_engineMove h e
  · exact targetWf_envMoves _ (by exact h) e

/-- A state the contract reaches keeps the invariant, if its target does. -/
theorem coreInv_of_contract {s t : State} (h : CoreInv s) (c : Contract s t)
    (ht : targetWf t.target) : CoreInv t where
  cfgValid := by rw [c.cfg]; exact h.cfgValid
  txBound := by rw [c.cfg]; exact le_trans c.txLength h.txBound
  rxBound := by
    have := c.rxBound
    rw [c.cfg]
    exact le_trans this (max_le h.rxBound (le_refl _))
  txLegal := fun w hw => h.txLegal w (c.txSubset w hw)
  noInterrupt := by rw [c.mier]; exact h.noInterrupt
  memWf := by rw [c.mem]; exact h.memWf
  targetMemWf := ht

/-- In a state with the invariant the environment's turn never stops, stays within the contract and
keeps the invariant. -/
theorem envSlot_inv {s : State} (h : CoreInv s) :
    ∃ t, envSlot s = .next t ∧ Contract s t ∧ CoreInv t := by
  rcases envSlot_spec s with ⟨t, ht, hc⟩ | ⟨_, w, hw, hl⟩
  · exact ⟨t, ht, hc, coreInv_of_contract h hc (targetWf_envSlot h.targetMemWf ht)⟩
  · exact absurd (h.txLegal w hw) hl

/-- A quiet slot. -/
theorem envSlot_quiet {s : State} {r : List (List EnvMove)} (h : s.sched = [] :: r) :
    envSlot s = .next { s with sched := r } := by
  unfold envSlot; rw [h]; rfl

end Sys2Proof.Machine
end

