-- ==== Sys2Proof/Laws/Run.lean ====
section
/-! SUPPORT. How parts of an operation end, and what each primitive can do under any environment: one
lemma per primitive, which later proofs cite instead of unfolding it. -/

namespace Sys2Proof.Machine

/-! ### Ending -/

/-- A part of an operation ends: it answers a value and a state of which `Q` holds. -/
def Ends {α : Type} (m : Run α) (Q : α → State → Prop) : Prop := ∃ a t, m = .next (a, t) ∧ Q a t

theorem andThen_done {α β : Type} (a : α) (s : State) (k : α → State → Run β) :
    andThen (done a s) k = k a s := rfl

theorem andThen_next {α β : Type} (a : α) (s : State) (k : α → State → Run β) :
    andThen (.next (a, s)) k = k a s := rfl

theorem ends_done {α : Type} {a : α} {s : State} {Q : α → State → Prop} (h : Q a s) :
    Ends (done a s) Q := ⟨a, s, rfl, h⟩

theorem ends_andThen {α β : Type} {m : Run α} {k : α → State → Run β} {P : α → State → Prop}
    {Q : β → State → Prop} (h : Ends m P) (hk : ∀ a t, P a t → Ends (k a t) Q) :
    Ends (andThen m k) Q := by
  obtain ⟨a, t, rfl, hP⟩ := h
  exact hk a t hP

theorem ends_mono {α : Type} {m : Run α} {P Q : α → State → Prop} (h : Ends m P)
    (hq : ∀ a t, P a t → Q a t) : Ends m Q := by
  obtain ⟨a, t, e, hP⟩ := h
  exact ⟨a, t, e, hq a t hP⟩

theorem ends_finish {m : Run Code} {Q : Code → State → Prop} (h : Ends m Q) :
    ∃ c u, finish m = .next { u with result := c, work := {} } ∧ Q c u := by
  obtain ⟨c, u, rfl, hQ⟩ := h
  exact ⟨c, u, rfl, hQ⟩

theorem ends_finishMicro {m : Run Code} {Q : Code → State → Prop} (h : Ends m Q) :
    ∃ c u, finishMicro m = .next { u with result := c } ∧ Q c u := by
  obtain ⟨c, u, rfl, hQ⟩ := h
  exact ⟨c, u, rfl, hQ⟩

/-! ### Register access -/

theorem regAccess_ok {s : State} (p : Platform s) (r : Reg) :
    regAccess (s.handle.base + r.off) 4 s = .ok r := by
  have hsub : s.handle.base + r.off - s.handle.base = r.off := by
    rw [BitVec.add_comm, BitVec.add_sub_cancel]
  unfold regAccess
  rw [p.clockOn, hsub]
  simp only [Bool.not_true, Bool.false_eq_true, if_false, p.aligned, ne_eq, not_true]
  cases r <;> rfl

/-- The word a register shows, for the registers a read leaves unchanged. -/
theorem memRead_eq {s : State} (p : Platform s) (r : Reg) :
    memRead (s.handle.base + r.off) 4 s =
      andThen (loadReg r s) fun v s => done v (logged (.rd r v.shown) s) := by
  unfold memRead; rw [regAccess_ok p r]

theorem memWrite_eq {s : State} (p : Platform s) (r : Reg) (v : Word) :
    memWrite (s.handle.base + r.off) 4 v s =
      andThen (storeReg r v s) fun _ s => done () (logged (.wr r v) s) := by
  unfold memWrite; rw [regAccess_ok p r]

theorem regRead_eq {s u : State} (r : Reg) (e : envSlot s = .next u) (p : Platform u) :
    regRead r s = andThen (loadReg r u) fun v w => done v (logged (.rd r v.shown) w) := by
  unfold regRead afterGap; rw [e]; exact memRead_eq p r

theorem regWrite_eq {s u : State} (r : Reg) (v : Word) (e : envSlot s = .next u)
    (p : Platform u) :
    regWrite r v s = andThen (storeReg r v u) fun _ w => done () (logged (.wr r v) w) := by
  unfold regWrite afterGap; rw [e]; exact memWrite_eq p r v

theorem now_eq {s u : State} (e : envSlot s = .next u) :
    now s = done (timerCount (tickTimer u))
      (logged (.now (timerCount (tickTimer u))) (tickTimer u)) := by
  unfold now afterGap; rw [e]

theorem platform_of_contract {s t : State} (p : Platform s) (c : Contract s t) : Platform t :=
  ⟨by rw [c.cfg]; exact p.clockOn, by rw [c.handle]; exact p.aligned⟩

/-! ### Polling: what reads, timer reads and the error decode do -/

/-- The command words in a trace, in the order they were written. -/
def wordsOf (tr : List Access) : List Word := tr.reverse.filterMap txcmdWord

theorem txWritten_eq (s : State) : txWritten s = wordsOf s.trace := rfl

theorem wordsOf_cons (a : Access) (tr : List Access) :
    wordsOf (a :: tr) = wordsOf tr ++ (txcmdWord a).toList := by
  unfold wordsOf
  rw [List.reverse_cons, List.filterMap_append]
  cases h : txcmdWord a <;> simp [List.filterMap, h]

/-- `t` comes from `s` by polling alone: only the environment's part, the timer, the working registers
and the trace differ; nothing was queued, and no command word was written. -/
structure Polls (s t : State) : Prop where
  same : t =
    { s with
      work := t.work
      flags := t.flags
      txf := t.txf
      rxf := t.rxf
      engine := t.engine
      target := t.target
      timer := t.timer
      sched := t.sched
      ticks := t.ticks
      draws := t.draws
      trace := t.trace }
  byte : t.work.b = s.work.b
  txSub : ∀ w ∈ t.txf, w ∈ s.txf
  txLen : t.txf.length ≤ s.txf.length
  rxLen : t.rxf.length ≤ max s.rxf.length s.cfg.fifoDepth
  target : targetWf s.target → targetWf t.target
  words : wordsOf t.trace = wordsOf s.trace

namespace Polls

variable {s t u : State}

theorem cfg (h : Polls s t) : t.cfg = s.cfg := by have e := congrArg State.cfg h.same; exact e
theorem handle (h : Polls s t) : t.handle = s.handle := by
  have e := congrArg State.handle h.same; exact e
theorem chip (h : Polls s t) : t.chip = s.chip := by have e := congrArg State.chip h.same; exact e
theorem phase (h : Polls s t) : t.phase = s.phase := by
  have e := congrArg State.phase h.same; exact e
theorem inited (h : Polls s t) : t.inited = s.inited := by
  have e := congrArg State.inited h.same; exact e
theorem result (h : Polls s t) : t.result = s.result := by
  have e := congrArg State.result h.same; exact e
theorem ctrl (h : Polls s t) : t.ctrl = s.ctrl := by have e := congrArg State.ctrl h.same; exact e
theorem mier (h : Polls s t) : t.mier = s.mier := by have e := congrArg State.mier h.same; exact e
theorem cfg0 (h : Polls s t) : t.cfg0 = s.cfg0 := by have e := congrArg State.cfg0 h.same; exact e
theorem cfg1 (h : Polls s t) : t.cfg1 = s.cfg1 := by have e := congrArg State.cfg1 h.same; exact e
theorem clkcfg (h : Polls s t) : t.clkcfg = s.clkcfg := by
  have e := congrArg State.clkcfg h.same; exact e
theorem mem (h : Polls s t) : t.mem = s.mem := by have e := congrArg State.mem h.same; exact e
theorem bracket (h : Polls s t) : t.bracket = s.bracket := by
  have e := congrArg State.bracket h.same; exact e
theorem host (h : Polls s t) : t.host = s.host := by have e := congrArg State.host h.same; exact e

theorem refl (s : State) : Polls s s :=
  ⟨rfl, rfl, fun _ h => h, le_refl _, le_max_left _ _, fun h => h, rfl⟩

theorem trans (a : Polls s t) (b : Polls t u) : Polls s u where
  same := by
    have hb := b.same
    rw [a.same] at hb
    exact hb
  byte := b.byte.trans a.byte
  txSub := fun w h => a.txSub w (b.txSub w h)
  txLen := le_trans b.txLen a.txLen
  rxLen := by
    have h1 := a.rxLen
    have h2 := b.rxLen
    rw [a.cfg] at h2
    omega
  target := fun h => b.target (a.target h)
  words := b.words.trans a.words

theorem platform (h : Polls s t) (p : Platform s) : Platform t :=
  ⟨by rw [h.cfg]; exact p.clockOn, by rw [h.handle]; exact p.aligned⟩

theorem coreInv (h : Polls s t) (i : CoreInv s) : CoreInv t where
  cfgValid := by rw [h.cfg]; exact i.cfgValid
  txBound := by rw [h.cfg]; exact le_trans h.txLen i.txBound
  rxBound := by
    have := h.rxLen
    rw [h.cfg]
    exact le_trans this (max_le i.rxBound (le_refl _))
  txLegal := fun w hw => i.txLegal w (h.txSub w hw)
  noInterrupt := by rw [h.mier]; exact i.noInterrupt
  memWf := by rw [h.mem]; exact i.memWf
  targetMemWf := h.target i.targetMemWf

end Polls

theorem polls_of_contract {s t : State} (c : Contract s t)
    (ht : targetWf s.target → targetWf t.target) : Polls s t where
  same := by
    have := c.same
    have hw := c.work
    have htm := c.timer
    have htk := c.ticks
    have htr := c.trace
    rw [hw, htm, htk, htr]
    exact this
  byte := by rw [c.work]
  txSub := c.txSubset
  txLen := c.txLength
  rxLen := c.rxBound
  target := ht
  words := by rw [c.trace]

/-- The environment's turn is polling. -/
theorem polls_envSlot {s t : State} (e : envSlot s = .next t) (c : Contract s t) : Polls s t :=
  polls_of_contract c fun h => targetWf_envSlot h e

theorem polls_note {s : State} (f : Work → Work) (h : (f s.work).b = s.work.b) :
    Polls s (note f s) :=
  ⟨rfl, h, fun _ h => h, le_refl _, le_max_left _ _, fun h => h, rfl⟩

theorem polls_logged {s : State} (a : Access) (h : txcmdWord a = none) : Polls s (logged a s) :=
  ⟨rfl, rfl, fun _ h => h, le_refl _, le_max_left _ _, fun h => h, by
    simp [wordsOf_cons, h]⟩

theorem polls_draws (s : State) (n : Nat) : Polls s { s with draws := n } :=
  ⟨rfl, rfl, fun _ h => h, le_refl _, le_max_left _ _, fun h => h, rfl⟩

theorem polls_tickTimer (s : State) : Polls s (tickTimer s) := by
  unfold tickTimer
  split <;> exact ⟨rfl, rfl, fun _ h => h, le_refl _, le_max_left _ _, fun h => h, rfl⟩

theorem polls_rxTail {s : State} {b : Byte} {r : List Byte} (h : s.rxf = b :: r) (n : Nat) :
    Polls s { s with rxf := r, draws := n } :=
  ⟨rfl, rfl, fun _ h => h, le_refl _, by simp [h], fun h => h, rfl⟩

/-- What a read answers: for each readable register, the word in terms of the state left. -/
def readShows (r : Reg) (v : RdWord) (t : State) : Prop :=
  match r with
  | .ctrl => v = .exact (t.ctrl.setWidth 32)
  | .status => v.bits = t.flags.word ∧ v.named = statusNamed
  | .cfg0 => v = .exact t.cfg0
  | .cfg1 => v = .exact t.cfg1
  | .clkcfg => False
  | .fifostat => v = .exact (fifostatWord t)
  | .txcmd => False
  | .rxdata =>
    (v.named = rxEmptyNamed ∧ v.bits = flagBit true bitRXEMPTY ∧ t.rxf = []) ∨
    ∃ b : Byte, v.named = rxDataNamed ∧ v.bits = b.setWidth 32

/-- The registers an operation reads. -/
def readable (r : Reg) : Prop := r ≠ .clkcfg ∧ r ≠ .txcmd

/-- The timer, its schedule and the operation's own data are as before a register access. -/
structure SameTime (s t : State) : Prop where
  timer : t.timer = s.timer
  ticks : t.ticks = s.ticks

theorem SameTime.trans {s t u : State} (a : SameTime s t) (b : SameTime t u) : SameTime s u :=
  ⟨b.timer.trans a.timer, b.ticks.trans a.ticks⟩

theorem sameTime_of_contract {s t : State} (c : Contract s t) : SameTime s t := ⟨c.timer, c.ticks⟩

/-- Reading a register under any environment: polling, and the word shows the register. -/
theorem regRead_spec {s : State} (i : CoreInv s) (p : Platform s) {r : Reg} (hr : readable r) :
    Ends (regRead r s) fun v t => Polls s t ∧ SameTime s t ∧ readShows r v t := by
  obtain ⟨u, e, c, -⟩ := envSlot_inv i
  rw [regRead_eq r e (platform_of_contract p c)]
  have hu := polls_envSlot e c
  have ht : u.timer = s.timer ∧ u.ticks = s.ticks := ⟨c.timer, c.ticks⟩
  have lg : ∀ (w : State) (v : RdWord), Polls w (logged (.rd r v.shown) w) :=
    fun w v => polls_logged _ rfl
  cases r with
  | ctrl => exact ⟨_, _, rfl, hu.trans (lg _ _), ⟨ht.1, ht.2⟩, rfl⟩
  | status =>
    exact ⟨_, _, rfl, hu.trans ((polls_draws u _).trans (lg _ _)), ⟨ht.1, ht.2⟩, rfl, rfl⟩
  | cfg0 => exact ⟨_, _, rfl, hu.trans (lg _ _), ⟨ht.1, ht.2⟩, rfl⟩
  | cfg1 => exact ⟨_, _, rfl, hu.trans (lg _ _), ⟨ht.1, ht.2⟩, rfl⟩
  | clkcfg => exact absurd rfl hr.1
  | fifostat => exact ⟨_, _, rfl, hu.trans (lg _ _), ⟨ht.1, ht.2⟩, rfl⟩
  | txcmd => exact absurd rfl hr.2
  | rxdata =>
    unfold loadReg
    dsimp only
    split
    · rename_i h
      exact ⟨_, _, rfl, hu.trans ((polls_draws u _).trans (lg _ _)), ⟨ht.1, ht.2⟩, .inl ⟨rfl, rfl, h⟩⟩
    · rename_i b r h
      exact ⟨_, _, rfl, hu.trans ((polls_rxTail h _).trans (lg _ _)), ⟨ht.1, ht.2⟩, .inr ⟨b, rfl, rfl⟩⟩

/-- Reading the timer under any environment: polling, and the count is the new timer's. -/
theorem now_spec {s : State} (i : CoreInv s) :
    Ends (now s) fun n t => Polls s t ∧ n = timerCount t ∧
      t.timer = (tickTimer s).timer ∧ t.ticks = (tickTimer s).ticks := by
  obtain ⟨u, e, c, -⟩ := envSlot_inv i
  rw [now_eq e]
  refine ⟨_, _, rfl, (polls_envSlot e c).trans ((polls_tickTimer u).trans (polls_logged _ rfl)),
    rfl, ?_, ?_⟩
  · show (tickTimer u).timer = _
    unfold tickTimer
    rw [c.ticks]
    split <;> simp [c.timer]
  · show (tickTimer u).ticks = _
    unfold tickTimer
    rw [c.ticks]
    split <;> simp_all

end Sys2Proof.Machine
end

