-- ==== Sys2Proof/Laws/Polls.lean ====
section
/-! SUPPORT. What register writes and the polling loops can do under any environment. A loop ends
within its fuel, because every iteration reads the timer once (spec/43_poll_and_errors.md R216). -/

namespace Sys2Proof.Machine

/-- The conditions under which every primitive has its effect: the invariant, the platform's. -/
structure Good (s : State) : Prop where
  inv : CoreInv s
  plat : Platform s
  run : s.ctrl.getLsbD bitRST = false

theorem Good.of_inv {s : State} (i : Inv s) (p : Platform s) : Good s := ⟨i.core, p, i.notReset⟩

theorem Polls.good {s t : State} (h : Polls s t) (g : Good s) : Good t :=
  ⟨h.coreInv g.inv, h.platform g.plat, by rw [h.ctrl]; exact g.run⟩

theorem RdWord.exact_word (w : Word) : (RdWord.exact w).word = w := by
  have h : w &&& BitVec.allOnes 32 = w := BitVec.and_allOnes
  unfold RdWord.exact RdWord.word
  dsimp only
  rw [h]
  simp

theorem RdWord.exact_bit (w : Word) (n : Nat) (h : n < 32) :
    (RdWord.exact w).bit n = w.getLsbD n := by
  unfold RdWord.exact RdWord.bit
  dsimp only
  rw [BitVec.getLsbD_allOnes]
  simp [h]

/-! ### Register writes -/

/-- A register write under any environment: the environment's turn, then the store. -/
theorem regWrite_split {s : State} (i : CoreInv s) (p : Platform s) (r : Reg) (v : Word) :
    ∃ u, envSlot s = .next u ∧ Contract s u ∧ Polls s u ∧
      regWrite r v s = andThen (storeReg r v u) fun _ w => done () (logged (.wr r v) w) := by
  obtain ⟨u, e, c, -⟩ := envSlot_inv i
  exact ⟨u, e, c, polls_envSlot e c, regWrite_eq r v e (platform_of_contract p c)⟩

theorem regWrite_status_spec {s : State} (g : Good s) (v : Word) :
    Ends (regWrite .status v s) fun _ t =>
      Polls s t ∧ SameTime s t ∧ ∃ f, t.flags = Status.clearW1C f v := by
  obtain ⟨u, -, c, pl, e⟩ := regWrite_split g.inv g.plat .status v
  rw [e]
  refine ⟨_, _, rfl, pl.trans ?_, ⟨c.timer, c.ticks⟩, u.flags, rfl⟩
  exact ⟨rfl, rfl, fun _ h => h, le_refl _, le_max_left _ _, fun h => h, by
    simp [wordsOf_cons, txcmdWord]⟩

/-- A write that keeps the four stored bits of `CTRL` is polling: at most it empties the FIFOs. -/
theorem regWrite_ctrl_same {s : State} (g : Good s) (v : Word)
    (h : v.setWidth 4 = s.ctrl) :
    Ends (regWrite .ctrl v s) fun _ t => Polls s t ∧ SameTime s t ∧
      (v.getLsbD bitRTF = true → t.txf = []) ∧ (v.getLsbD bitRRF = true → t.rxf = []) := by
  obtain ⟨u, -, c, pl, e⟩ := regWrite_split g.inv g.plat .ctrl v
  rw [e]
  have hr : v.getLsbD bitRST = false := by
    have := g.run
    rw [← h] at this
    simpa [bitRST] using this
  have hc : v.setWidth 4 = u.ctrl := by rw [c.ctrl]; exact h
  have hw : writeCtrl v u =
      { u with
        txf := if v.getLsbD bitRTF then [] else u.txf
        rxf := if v.getLsbD bitRRF then [] else u.rxf } := by
    unfold writeCtrl
    simp only [hr, Bool.false_eq_true, if_false]
    rw [hc]
  refine ⟨_, _, rfl, pl.trans ?_, ⟨?_, ?_⟩, ?_, ?_⟩
  · show Polls u (logged (.wr .ctrl v) (writeCtrl v u))
    rw [hw]
    refine ⟨rfl, rfl, ?_, ?_, ?_, fun h => h, by simp [wordsOf_cons, txcmdWord]⟩
    · intro w; simp only [logged_txf]; split <;> simp
    · simp only [logged_txf]; split <;> simp
    · simp only [logged_rxf]; split <;> simp
  · show (writeCtrl v u).timer = _
    rw [hw]; exact c.timer
  · show (writeCtrl v u).ticks = _
    rw [hw]; exact c.ticks
  · intro h; show (writeCtrl v u).txf = _; rw [hw]; simp [h]
  · intro h; show (writeCtrl v u).rxf = _; rw [hw]; simp [h]

/-- The codes the error decode answers. -/
def decoded (c : Code) : Prop :=
  c = .ok ∨ c = .pinLowTimeout ∨ c = .arbLost ∨ c = .nack ∨ c = .fifo

theorem decoded_errorOf (v : RdWord) : decoded (errorOf v) := by
  unfold errorOf decoded
  split
  · simp
  · split
    · simp
    · split
      · simp
      · split <;> simp

/-- The clearing of R213 under any environment: polling. -/
theorem clearError_spec {s : State} (g : Good s) (e : Code) :
    Ends (clearError e s) fun c t => Polls s t ∧ SameTime s t ∧ c = e := by
  refine ends_andThen (regWrite_status_spec g clearAll) fun _ s1 h1 => ?_
  have g1 := h1.1.good g
  refine ends_andThen (regRead_spec (r := .ctrl) g1.inv g1.plat (by simp [readable])) fun v s2 h2 => ?_
  have g2 := h2.1.good g1
  have hv : v = .exact (s2.ctrl.setWidth 32) := h2.2.2
  have hk : (v.word ||| fifoReset).setWidth 4 = s2.ctrl := by
    rw [hv, RdWord.exact_word]
    simp only [fifoReset, BitVec.setWidth_or]
    rw [BitVec.setWidth_setWidth_of_le _ (by omega)]
    simp
  refine ends_andThen (regWrite_ctrl_same g2 _ hk) fun _ s3 h3 => ?_
  exact ends_done ⟨h1.1.trans (h2.1.trans h3.1), h1.2.1.trans (h2.2.1.trans h3.2.1), rfl⟩

/-- CHECK_CLEAR_ERROR under any environment: polling, without the timer. -/
theorem checkClearError_spec {s : State} (g : Good s) :
    Ends (checkClearError s) fun c t => Polls s t ∧ SameTime s t ∧ decoded c := by
  refine ends_andThen (regRead_spec (r := .status) g.inv g.plat (by simp [readable])) fun v s1 h1 => ?_
  have hn : Polls s1 (note (fun w => { w with s := some v.word }) s1) := polls_note _ rfl
  have hs := h1.1.trans hn
  dsimp only
  split
  · exact ends_done ⟨hs, ⟨h1.2.1.timer, h1.2.1.ticks⟩, .inl rfl⟩
  · refine ends_mono (clearError_spec (hs.good g) _) fun c t h => ⟨hs.trans h.1, ?_, ?_⟩
    · exact h1.2.1.trans ⟨h.2.1.timer, h.2.1.ticks⟩
    · rw [h.2.2]; exact decoded_errorOf v

/-! ### Time -/

/-- How many iterations a polling loop with this budget may still need. -/
def need (budget t0 : Nat) (s : State) : Nat :=
  s.ticks.length +
    (if s.ticks = [] ∧ elapsed s.cfg (timerCount s) t0 ≤ budget then
      budget + 1 - elapsed s.cfg (timerCount s) t0 else budget + 2)

theorem need_le_fuel (budget t0 : Nat) (s : State) : need budget t0 s ≤ pollFuel budget s := by
  unfold need pollFuel; split <;> omega

theorem need_pos (budget t0 : Nat) (s : State) : 1 ≤ need budget t0 s := by
  unfold need; split <;> omega

theorem need_congr {budget t0 : Nat} {s t : State} (h : SameTime s t) (hc : t.cfg = s.cfg) :
    need budget t0 t = need budget t0 s := by
  unfold need timerCount; rw [h.timer, h.ticks, hc]

theorem elapsed_step {cfg : Config} {n t0 budget : Nat} (hb : budget + 1 < 2 ^ cfg.timerBits)
    (ht : t0 < 2 ^ cfg.timerBits)
    (h : elapsed cfg (n % 2 ^ cfg.timerBits) t0 ≤ budget) :
    elapsed cfg ((n + 1) % 2 ^ cfg.timerBits) t0 =
      elapsed cfg (n % 2 ^ cfg.timerBits) t0 + 1 := by
  unfold elapsed at *
  generalize 2 ^ cfg.timerBits = M at *
  have hM : 0 < M := by omega
  have h1 : n % M < M := Nat.mod_lt _ hM
  have e1 : (n + 1) % M = if n % M + 1 = M then 0 else n % M + 1 := by
    split
    · rename_i hh
      rw [Nat.add_mod]
      by_cases hM1 : M = 1
      · subst hM1; simp [Nat.mod_one]
      · rw [Nat.mod_eq_of_lt (show 1 < M by omega), hh, Nat.mod_self]
    · rw [Nat.add_mod]
      by_cases hM1 : M = 1
      · omega
      · rw [Nat.mod_eq_of_lt (show 1 < M by omega), Nat.mod_eq_of_lt (by omega)]
  rw [e1]
  generalize n % M = a at *
  have key : ∀ x, x < M → (x + M - t0) % M = if t0 ≤ x then x - t0 else x + M - t0 := by
    intro x hx
    split
    · rename_i hle
      rw [show x + M - t0 = (x - t0) + M by omega, Nat.add_mod_right, Nat.mod_eq_of_lt (by omega)]
    · exact Nat.mod_eq_of_lt (by omega)
  rw [key a h1] at h ⊢
  split
  · rw [key 0 hM]
    split at h <;> split <;> omega
  · rw [key (a + 1) (by omega)]
    split at h <;> split <;> omega

theorem elapsed_lt {cfg : Config} {n t0 : Nat} : elapsed cfg n t0 < 2 ^ cfg.timerBits :=
  Nat.mod_lt _ (Nat.two_pow_pos _)

/-- One timer read that does not end the loop brings its end nearer. -/
theorem need_tick {budget t0 : Nat} {s t : State} (hb : budget + 1 < 2 ^ s.cfg.timerBits)
    (ht : t0 < 2 ^ s.cfg.timerBits) (hc : t.cfg = s.cfg)
    (e1 : t.timer = (tickTimer s).timer) (e2 : t.ticks = (tickTimer s).ticks)
    (h : elapsed t.cfg (timerCount t) t0 ≤ budget) :
    need budget t0 t + 1 ≤ need budget t0 s := by
  unfold need
  cases hs : s.ticks with
  | nil =>
    have e1' : t.timer = s.timer + 1 := by rw [e1]; unfold tickTimer; rw [hs]
    have e2' : t.ticks = [] := by rw [e2]; unfold tickTimer; rw [hs]
    rw [e2']
    simp only [List.length_nil, h, and_self, if_true, true_and]
    split
    · rename_i hle
      have hstep := elapsed_step (cfg := s.cfg) (n := s.timer) hb ht hle
      have h' := h
      unfold timerCount at h' ⊢
      rw [hc, e1'] at h' ⊢
      unfold timerCount at hle
      omega
    · omega
  | cons d r =>
    have e2' : t.ticks = r := by rw [e2]; unfold tickTimer; rw [hs]
    rw [e2']
    simp only [List.length_cons]
    split
    · simp
      omega
    · simp

/-! ### WAIT_TX_SPACE -/

theorem txCount_fifostat {s : State} (h : s.txf.length ≤ 7) :
    txCount (.exact (fifostatWord s)) = s.txf.length := by
  unfold txCount
  rw [RdWord.exact_word]
  unfold fifostatWord
  have : (((BitVec.ofNat 3 s.txf.length).setWidth 32 |||
      (BitVec.ofNat 3 s.rxf.length).setWidth 32 <<< 16) : Word).extractLsb' 0 3 =
      BitVec.ofNat 3 s.txf.length := by
    generalize BitVec.ofNat 3 s.txf.length = a
    generalize BitVec.ofNat 3 s.rxf.length = b
    revert a b
    decide
  rw [this, BitVec.toNat_ofNat, Nat.mod_eq_of_lt (by omega)]

/-- What polling for space answers: a decoded error, a timeout, or, with OK, space for a word. -/
def spaceResult (c : Code) (t : State) : Prop :=
  (c = .ok ∧ t.txf.length < t.cfg.fifoDepth) ∨ (c ≠ .ok ∧ (decoded c ∨ c = .timeout))

theorem txWaitLoop_spec (fuel t0 : Nat) {s : State} (g : Good s)
    (ht : t0 < 2 ^ s.cfg.timerBits) (hf : need s.cfg.tPoll t0 s ≤ fuel) :
    Ends (txWaitLoop fuel t0 s) fun c t => Polls s t ∧ spaceResult c t := by
  induction fuel generalizing s with
  | zero => have := need_pos s.cfg.tPoll t0 s; omega
  | succ fuel ih =>
    unfold txWaitLoop
    refine ends_andThen (regRead_spec (r := .fifostat) g.inv g.plat (by simp [readable]))
      fun f s1 h1 => ?_
    have g1 := h1.1.good g
    have hc1 := h1.1.cfg
    have hfv : f = .exact (fifostatWord s1) := h1.2.2
    have hlen : txCount f = s1.txf.length := by
      rw [hfv]
      exact txCount_fifostat (le_trans g1.inv.txBound g1.inv.cfgValid.2.1)
    rw [hlen, if_neg (by have := g1.inv.txBound; omega)]
    refine ends_andThen (checkClearError_spec (s := note _ s1) ((polls_note _ rfl).good g1))
      fun e s2 h2 => ?_
    have p2 : Polls s s2 := h1.1.trans ((polls_note _ rfl).trans h2.1)
    have t2 : SameTime s s2 := h1.2.1.trans ⟨h2.2.1.timer, h2.2.1.ticks⟩
    have g2 := p2.good g
    have hl2 : s2.txf.length ≤ s1.txf.length := h2.1.txLen
    split
    · rename_i he
      exact ends_done ⟨p2, .inr ⟨he, .inl h2.2.2⟩⟩
    · refine ends_andThen (now_spec g2.inv) fun n s3 h3 => ?_
      have p3 := p2.trans h3.1
      have g3 := p3.good g
      have hc3 := p3.cfg
      split
      · exact ends_done ⟨p3, .inr ⟨by simp, .inr rfl⟩⟩
      · rename_i hel
        split
        · rename_i hsp
          refine ends_done ⟨p3, .inl ⟨rfl, ?_⟩⟩
          have := h3.1.txLen
          rw [hc3] at hsp ⊢
          omega
        · have hcfg : s3.cfg = s.cfg := hc3
          have hn : need s.cfg.tPoll t0 s3 + 1 ≤ need s.cfg.tPoll t0 s := by
            rw [← need_congr t2 p2.cfg]
            refine need_tick (s := s2) ?_ ?_ h3.1.cfg h3.2.2.1 h3.2.2.2 ?_
            · rw [p2.cfg]; exact g.inv.cfgValid.2.2.1
            · rw [p2.cfg]; exact ht
            · rw [h3.2.1, hcfg] at hel
              rw [hcfg]
              omega
          refine ends_mono (ih (s := s3) g3 (by rw [hcfg]; exact ht) (by rw [hcfg]; omega))
            fun c t h => ⟨p3.trans h.1, h.2⟩

theorem timerCount_lt (s : State) : timerCount s < 2 ^ s.cfg.timerBits :=
  Nat.mod_lt _ (Nat.two_pow_pos _)

/-- WAIT_TX_SPACE under any environment ends; it only polls; with OK there is space for a word. -/
theorem waitTxSpace_spec {s : State} (g : Good s) :
    Ends (waitTxSpace s) fun c t => Polls s t ∧ spaceResult c t := by
  refine ends_andThen (now_spec g.inv) fun t0 s1 h1 => ?_
  have g1 := h1.1.good g
  have ht : t0 < 2 ^ s1.cfg.timerBits := by rw [h1.2.1]; exact timerCount_lt s1
  have pn : Polls s1 (note (fun w => { w with t0 := some t0 }) s1) := polls_note _ rfl
  refine ends_mono (txWaitLoop_spec _ t0 (s := note (fun w => { w with t0 := some t0 }) s1)
    (pn.good g1) ht ?_) fun c t h => ⟨h1.1.trans (pn.trans h.1), h.2⟩
  exact need_le_fuel _ _ _

end Sys2Proof.Machine
end

