-- ==== Sys2Proof/Laws/Control.lean ====
section
/-! SUPPORT. What the controller's configuration writes, SPEED_SET, INIT and CHECK_STUCK can do under any
environment (spec/40_init_and_divider.md, spec/41_start_stop.md R170 to R172). -/

namespace Sys2Proof.Machine

/-! ### What no operation changes -/

/-- The parameters, the chip descriptor, the host's queue, and of the handle the index and the base. -/
structure Keeps (s t : State) : Prop where
  cfg : t.cfg = s.cfg
  chip : t.chip = s.chip
  host : t.host = s.host
  base : t.handle.base = s.handle.base
  index : t.handle.index = s.handle.index

theorem Keeps.refl (s : State) : Keeps s s := ⟨rfl, rfl, rfl, rfl, rfl⟩

theorem Keeps.trans {s t u : State} (a : Keeps s t) (b : Keeps t u) : Keeps s u :=
  ⟨b.cfg.trans a.cfg, b.chip.trans a.chip, b.host.trans a.host,
    b.base.trans a.base, b.index.trans a.index⟩

theorem Polls.keeps {s t : State} (h : Polls s t) : Keeps s t :=
  ⟨h.cfg, h.chip, h.host, by rw [h.handle], by rw [h.handle]⟩

theorem Keeps.platform {s t : State} (k : Keeps s t) (p : Platform s) : Platform t :=
  ⟨by rw [k.cfg]; exact p.clockOn, by rw [k.base]; exact p.aligned⟩

/-- Control: what configuring the controller can do beside the registers it names. Nothing is queued. -/
structure Controls (s t : State) : Prop where
  keeps : Keeps s t
  mem : t.mem = s.mem
  byte : t.work.b = s.work.b
  mier : s.mier = 0#32 → t.mier = 0#32
  txSub : ∀ w ∈ t.txf, w ∈ s.txf
  txLen : t.txf.length ≤ s.txf.length
  rxLen : t.rxf.length ≤ max s.rxf.length s.cfg.fifoDepth
  target : targetWf s.target → targetWf t.target
  words : wordsOf t.trace = wordsOf s.trace

namespace Controls

variable {s t u : State}

theorem trans (a : Controls s t) (b : Controls t u) : Controls s u where
  keeps := a.keeps.trans b.keeps
  mem := b.mem.trans a.mem
  byte := b.byte.trans a.byte
  mier := fun h => b.mier (a.mier h)
  txSub := fun w h => a.txSub w (b.txSub w h)
  txLen := le_trans b.txLen a.txLen
  rxLen := by
    have h1 := a.rxLen
    have h2 := b.rxLen
    rw [a.keeps.cfg] at h2
    omega
  target := fun h => b.target (a.target h)
  words := b.words.trans a.words

theorem coreInv (h : Controls s t) (i : CoreInv s) : CoreInv t where
  cfgValid := by rw [h.keeps.cfg]; exact i.cfgValid
  txBound := by rw [h.keeps.cfg]; exact le_trans h.txLen i.txBound
  rxBound := by
    have := h.rxLen
    rw [h.keeps.cfg]
    exact le_trans this (max_le i.rxBound (le_refl _))
  txLegal := fun w hw => i.txLegal w (h.txSub w hw)
  noInterrupt := h.mier i.noInterrupt
  memWf := by rw [h.mem]; exact i.memWf
  targetMemWf := h.target i.targetMemWf

end Controls

theorem Polls.controls {s t : State} (h : Polls s t) : Controls s t :=
  ⟨h.keeps, h.mem, h.byte, fun e => by rw [h.mier]; exact e, h.txSub, h.txLen, h.rxLen, h.target,
    h.words⟩

/-! ### Configuration writes -/

theorem controls_logged {s : State} (a : Access) (h : txcmdWord a = none) :
    Controls s (logged a s) := (polls_logged a h).controls

theorem controls_writeCtrl (s : State) (v : Word) : Controls s (writeCtrl v s) := by
  unfold writeCtrl
  dsimp only
  split
  · exact ⟨⟨rfl, rfl, rfl, rfl, rfl⟩, rfl, rfl, fun _ => rfl, by simp [controllerReset],
      by simp [controllerReset], by simp [controllerReset], fun h => h, rfl⟩
  · refine ⟨⟨rfl, rfl, rfl, rfl, rfl⟩, rfl, rfl, fun h => h, ?_, ?_, ?_, fun h => h, rfl⟩
    · intro w; dsimp only; split <;> simp
    · dsimp only; split <;> simp
    · dsimp only; split <;> simp

/-- While the engine is off the environment leaves both FIFOs alone. -/
structure FifosKept (s t : State) : Prop where
  tx : t.txf = s.txf
  rx : t.rxf = s.rxf

/-- Writing `CTRL` under any environment. -/
theorem regWrite_ctrl_spec {s : State} (i : CoreInv s) (p : Platform s) (v : Word) :
    Ends (regWrite .ctrl v s) fun _ t =>
      Controls s t ∧ t.ctrl = v.setWidth 4 ∧ t.handle = s.handle ∧ t.phase = s.phase ∧
      t.inited = s.inited ∧ t.bracket = s.bracket ∧ t.work = s.work ∧
      (v.getLsbD bitRST = true → t.cfg0 = 0#32 ∧ t.cfg1 = 0#32 ∧ t.clkcfg = 0#32 ∧ t.txf = [] ∧
        t.rxf = [] ∧ t.mier = 0#32 ∧ t.engine = Engine.idle ∧
        ∃ f, t.flags = Status.afterReset f) ∧
      (v.getLsbD bitRST = false → t.cfg0 = s.cfg0 ∧ t.cfg1 = s.cfg1 ∧ t.clkcfg = s.clkcfg ∧
        t.mier = s.mier ∧ (engineOn s = false → s.txf = [] → t.txf = []) ∧
        (engineOn s = false → s.rxf = [] → t.rxf = [])) := by
  obtain ⟨u, -, c, pl, e⟩ := regWrite_split i p .ctrl v
  rw [e]
  refine ⟨_, _, rfl, pl.controls.trans ((controls_writeCtrl u v).trans (controls_logged _ rfl)),
    writeCtrl_ctrl v u, ?_, ?_, ?_, ?_, ?_, ?_, ?_⟩
  · simp [c.handle]
  · simp [c.phase]
  · simp [c.inited]
  · simp [c.bracket]
  · simp [c.work]
  · intro h
    simp only [logged_cfg0, logged_cfg1, logged_clkcfg, logged_txf, logged_rxf, logged_mier,
      logged_engine, logged_flags]
    unfold writeCtrl
    simp only [h, if_true]
    exact ⟨rfl, rfl, rfl, rfl, rfl, rfl, rfl, u.flags, rfl⟩
  · intro h
    simp only [logged_cfg0, logged_cfg1, logged_clkcfg, logged_txf, logged_rxf, logged_mier]
    unfold writeCtrl
    simp only [h, Bool.false_eq_true, if_false]
    refine ⟨c.cfg0, c.cfg1, c.clkcfg, c.mier, ?_, ?_⟩
    · intro off e; rw [(c.off off).1, e]; simp
    · intro off e; rw [(c.off off).2, e]; simp

/-- Writing one of the configuration registers under any environment. -/
theorem regWrite_config_spec {s : State} (g : Good s) (r : Reg) (v : Word)
    (hr : r = .cfg0 ∨ r = .cfg1 ∨ r = .clkcfg) :
    Ends (regWrite r v s) fun _ t =>
      Controls s t ∧ t.ctrl = s.ctrl ∧ t.handle = s.handle ∧ t.phase = s.phase ∧
      t.inited = s.inited ∧ t.bracket = s.bracket ∧ t.work = s.work ∧ t.mier = s.mier ∧
      t.cfg0 = (if r = .cfg0 then v else s.cfg0) ∧ t.cfg1 = (if r = .cfg1 then v else s.cfg1) ∧
      t.clkcfg = (if r = .clkcfg then v else s.clkcfg) ∧ (engineOn s = false → FifosKept s t) := by
  obtain ⟨u, -, c, pl, e⟩ := regWrite_split g.inv g.plat r v
  have hh : heldInReset u = false := by unfold heldInReset; rw [c.ctrl]; exact g.run
  rw [e]
  have key : ∀ w : State, w.cfg = u.cfg → w.chip = u.chip →
      w.host = u.host → w.handle = u.handle → w.mem = u.mem → w.work = u.work →
      w.mier = u.mier → w.txf = u.txf → w.rxf = u.rxf → w.target = u.target →
      w.trace = u.trace → Controls u (logged (.wr r v) w) := by
    intro w h1 h2 h4 h5 h6 h7 h8 h9 h10 h11 h12
    refine ⟨⟨h1, h2, h4, by simp [h5], by simp [h5]⟩, h6, by simp [h7], by simp [h8],
      by simp [h9], by simp [h9], by simp [h10], by simp [h11], ?_⟩
    have : txcmdWord (.wr r v) = none := by rcases hr with rfl | rfl | rfl <;> rfl
    simp [wordsOf_cons, this, h12]
  rcases hr with rfl | rfl | rfl
  · have e2 : storeReg .cfg0 v u = done () { u with cfg0 := v } := by simp [storeReg, hh]
    rw [e2]
    refine ⟨(), _, rfl, pl.controls.trans (key _ rfl rfl rfl rfl rfl rfl rfl rfl rfl rfl rfl), ?_⟩
    simp only [logged_ctrl, logged_handle, logged_phase, logged_inited, logged_bracket, logged_work,
      logged_mier, logged_cfg0, logged_cfg1, logged_clkcfg, c.ctrl, c.handle, c.phase, c.inited,
      c.bracket, c.work, c.mier, c.cfg1, c.clkcfg, reduceCtorEq, if_true, if_false,
      true_and]
    exact fun off => ⟨(c.off off).1, (c.off off).2⟩
  · have e2 : storeReg .cfg1 v u = done () { u with cfg1 := v } := by simp [storeReg, hh]
    rw [e2]
    refine ⟨(), _, rfl, pl.controls.trans (key _ rfl rfl rfl rfl rfl rfl rfl rfl rfl rfl rfl), ?_⟩
    simp only [logged_ctrl, logged_handle, logged_phase, logged_inited, logged_bracket, logged_work,
      logged_mier, logged_cfg0, logged_cfg1, logged_clkcfg, c.ctrl, c.handle, c.phase, c.inited,
      c.bracket, c.work, c.mier, c.cfg0, c.clkcfg, reduceCtorEq, if_true, if_false,
      true_and]
    exact fun off => ⟨(c.off off).1, (c.off off).2⟩
  · have e2 : storeReg .clkcfg v u = done () { u with clkcfg := v } := by simp [storeReg, hh]
    rw [e2]
    refine ⟨(), _, rfl, pl.controls.trans (key _ rfl rfl rfl rfl rfl rfl rfl rfl rfl rfl rfl), ?_⟩
    simp only [logged_ctrl, logged_handle, logged_phase, logged_inited, logged_bracket, logged_work,
      logged_mier, logged_cfg0, logged_cfg1, logged_clkcfg, c.ctrl, c.handle, c.phase, c.inited,
      c.bracket, c.work, c.mier, c.cfg0, c.cfg1, reduceCtorEq, if_true, if_false,
      true_and]
    exact fun off => ⟨(c.off off).1, (c.off off).2⟩

/-- Reading a configuration register with the engine off leaves the FIFOs alone. -/
theorem regRead_off {s : State} (i : CoreInv s) (p : Platform s) {r : Reg} (hr : readable r)
    (hx : r ≠ .rxdata) :
    Ends (regRead r s) fun v t => Polls s t ∧ readShows r v t ∧ t.work = s.work ∧
      (engineOn s = false → FifosKept s t) := by
  obtain ⟨u, e, c, -⟩ := envSlot_inv i
  have hsp := regRead_spec i p hr
  rw [regRead_eq r e (platform_of_contract p c)] at hsp ⊢
  have off : engineOn s = false → FifosKept s u := fun h => ⟨(c.off h).1, (c.off h).2⟩
  obtain ⟨v, t, e2, h1, -, h3⟩ := hsp
  refine ⟨v, t, e2, h1, h3, ?_⟩
  cases r with
  | ctrl => cases e2; exact ⟨c.work, fun h => ⟨(off h).1, (off h).2⟩⟩
  | status => cases e2; exact ⟨c.work, fun h => ⟨(off h).1, (off h).2⟩⟩
  | cfg0 => cases e2; exact ⟨c.work, fun h => ⟨(off h).1, (off h).2⟩⟩
  | cfg1 => cases e2; exact ⟨c.work, fun h => ⟨(off h).1, (off h).2⟩⟩
  | clkcfg => exact absurd rfl hr.1
  | fifostat => cases e2; exact ⟨c.work, fun h => ⟨(off h).1, (off h).2⟩⟩
  | txcmd => exact absurd rfl hr.2
  | rxdata => exact absurd rfl hx

end Sys2Proof.Machine
end

