-- ==== Sys2Proof/Laws/Search.lean ====
section
/-! SUPPORT. The divider search (spec/40_init_and_divider.md R143 to R147, R153): what it has found after
the pairs it has seen. -/

namespace Sys2Proof.Machine

/-- What the best-so-far registers hold when the pairs `seen` have been compared. -/
structure Found (clk speed : Nat) (d : DivRegs) (seen : List (Nat × Nat)) : Prop where
  least : ∀ q ∈ seen, d.bestErr ≤ pairErr clk speed q
  best : d.chosen = true → (d.bestP, d.bestC) ∈ seen ∧
    d.bestErr = pairErr clk speed (d.bestP, d.bestC) ∧
    ∀ q ∈ seen, before q (d.bestP, d.bestC) → d.bestErr < pairErr clk speed q
  none : d.chosen = false → d.bestErr = 0xFFFFFFFF

theorem found_start (clk speed : Nat) : Found clk speed DivRegs.start [] :=
  ⟨by simp, by simp [DivRegs.start], fun _ => rfl⟩

theorem before_asymm {q r : Nat × Nat} (h : before q r) : ¬ before r q := by
  unfold before at *; omega

theorem try_best (d : DivRegs) (clk speed p c : Nat) :
    ((d.try clk speed p c).err = pairErr clk speed (p, c)) ∧
    (pairErr clk speed (p, c) < d.bestErr →
      (d.try clk speed p c).bestErr = pairErr clk speed (p, c) ∧
      (d.try clk speed p c).bestP = p ∧ (d.try clk speed p c).bestC = c ∧
      (d.try clk speed p c).chosen = true) ∧
    (¬ pairErr clk speed (p, c) < d.bestErr →
      (d.try clk speed p c).bestErr = d.bestErr ∧ (d.try clk speed p c).bestP = d.bestP ∧
      (d.try clk speed p c).bestC = d.bestC ∧ (d.try clk speed p c).chosen = d.chosen) := by
  unfold DivRegs.try pairErr
  dsimp only
  split
  · rename_i h; exact ⟨rfl, fun _ => ⟨rfl, rfl, rfl, rfl⟩, fun h' => absurd h h'⟩
  · rename_i h; exact ⟨rfl, fun h' => absurd h' h, fun _ => ⟨rfl, rfl, rfl, rfl⟩⟩

/-- Comparing one more pair, later in the order than all seen. -/
theorem found_try {clk speed : Nat} {d : DivRegs} {seen : List (Nat × Nat)} (p c : Nat)
    (h : Found clk speed d seen) (hl : ∀ q ∈ seen, before q (p, c)) :
    Found clk speed (d.try clk speed p c) (seen ++ [(p, c)]) := by
  obtain ⟨-, hnew, hold⟩ := try_best d clk speed p c
  by_cases hlt : pairErr clk speed (p, c) < d.bestErr
  · obtain ⟨e1, e2, e3, e4⟩ := hnew hlt
    refine ⟨?_, fun _ => ⟨?_, ?_, ?_⟩, ?_⟩
    · intro q hq
      rw [e1]
      rcases List.mem_append.1 hq with hq | hq
      · have := h.least q hq; omega
      · simp only [List.mem_singleton] at hq; rw [hq]
    · rw [e2, e3]; simp
    · rw [e1, e2, e3]
    · intro q hq hb
      rw [e1]
      rw [e2, e3] at hb
      rcases List.mem_append.1 hq with hq | hq
      · have := h.least q hq; omega
      · simp only [List.mem_singleton] at hq
        rw [hq] at hb
        exact absurd hb (before_asymm hb)
    · rw [e4]; simp
  · obtain ⟨e1, e2, e3, e4⟩ := hold hlt
    refine ⟨?_, ?_, ?_⟩
    · intro q hq
      rw [e1]
      rcases List.mem_append.1 hq with hq | hq
      · exact h.least q hq
      · simp only [List.mem_singleton] at hq; rw [hq]; omega
    · rw [e1, e2, e3, e4]
      intro hc
      obtain ⟨m1, m2, m3⟩ := h.best hc
      refine ⟨List.mem_append_left _ m1, m2, ?_⟩
      intro q hq hb
      rcases List.mem_append.1 hq with hq | hq
      · exact m3 q hq hb
      · simp only [List.mem_singleton] at hq
        rw [hq] at hb
        exact absurd hb (before_asymm (hl _ m1))
    · rw [e1, e4]; exact h.none

/-- With an exact match in hand no later pair matters (R147). -/
theorem found_exact {clk speed : Nat} {d : DivRegs} {seen more : List (Nat × Nat)}
    (h : Found clk speed d seen) (h0 : d.bestErr = 0)
    (hl : ∀ q ∈ seen, ∀ r ∈ more, before q r) : Found clk speed d (seen ++ more) := by
  refine ⟨fun q _ => by omega, fun hc => ?_, h.none⟩
  obtain ⟨m1, m2, m3⟩ := h.best hc
  refine ⟨List.mem_append_left _ m1, m2, fun q hq hb => ?_⟩
  rcases List.mem_append.1 hq with hq | hq
  · exact m3 q hq hb
  · exact absurd hb (before_asymm (hl _ m1 _ hq))

theorem found_counts {clk speed p : Nat} (cs : List Nat) {d : DivRegs} {seen : List (Nat × Nat)}
    (h : Found clk speed d seen) (hl : ∀ q ∈ seen, ∀ c ∈ cs, before q (p, c))
    (hs : cs.Pairwise (· < ·)) :
    Found clk speed (searchCounts clk speed p cs d) (seen ++ cs.map fun c => (p, c)) := by
  induction cs generalizing d seen with
  | nil => simpa [searchCounts] using h
  | cons c r ih =>
    have hs' := List.pairwise_cons.1 hs
    have h1 : Found clk speed (d.try clk speed p c) (seen ++ [(p, c)]) :=
      found_try p c h fun q hq => hl q hq c (by simp)
    have hl1 : ∀ q ∈ seen ++ [(p, c)], ∀ c' ∈ r, before q (p, c') := by
      intro q hq c' hc'
      rcases List.mem_append.1 hq with hq | hq
      · exact hl q hq c' (by simp [hc'])
      · simp only [List.mem_singleton] at hq
        rw [hq]
        exact .inr ⟨rfl, hs'.1 c' hc'⟩
    have e : seen ++ (c :: r).map (fun c => (p, c)) =
        (seen ++ [(p, c)]) ++ r.map fun c => (p, c) := by simp
    rw [e]
    unfold searchCounts
    dsimp only
    split
    · rename_i hx
      obtain ⟨he, hnew, -⟩ := try_best d clk speed p c
      have h0 : (d.try clk speed p c).bestErr = 0 := by
        rw [he] at hx
        rw [(hnew hx.1).1, hx.2]
      refine found_exact h1 h0 ?_
      intro q hq x hx'
      obtain ⟨c', hc', rfl⟩ := List.mem_map.1 hx'
      exact hl1 q hq c' hc'
    · exact ih h1 hl1 hs'.2

theorem found_prescalers {clk speed : Nat} (ps : List Nat) {d : DivRegs}
    {seen : List (Nat × Nat)} (h : Found clk speed d seen)
    (hl : ∀ q ∈ seen, ∀ p ∈ ps, q.1 < p) (hs : ps.Pairwise (· < ·)) :
    Found clk speed (searchPrescalers clk speed ps d)
      (seen ++ ps.flatMap fun p => counts.map fun c => (p, c)) := by
  induction ps generalizing d seen with
  | nil => simpa [searchPrescalers] using h
  | cons p r ih =>
    have hs' := List.pairwise_cons.1 hs
    unfold searchPrescalers
    split
    · rename_i h0
      refine found_exact h h0 ?_
      intro q hq x hx
      obtain ⟨p', hp', hx⟩ := List.mem_flatMap.1 hx
      obtain ⟨c', hc', rfl⟩ := List.mem_map.1 hx
      exact .inl (hl q hq p' hp')
    · have h1 := found_counts (p := p) counts h
        (fun q hq c _ => .inl (hl q hq p (by simp))) (by decide)
      have := ih h1 (by
        intro q hq p' hp'
        rcases List.mem_append.1 hq with hq | hq
        · exact hl q hq p' (by simp [hp'])
        · obtain ⟨c', -, rfl⟩ := List.mem_map.1 hq
          exact hs'.1 p' hp') hs'.2
      simpa [List.append_assoc] using this

/-- What the whole search has found. -/
theorem found_search (clk speed : Nat) : Found clk speed (dividerSearch clk speed) allPairs := by
  have := found_prescalers (clk := clk) (speed := speed) prescalers (found_start clk speed)
    (by simp) (by decide)
  simpa [dividerSearch, allPairs] using this

/-- The search finds a pair unless every error is at least its start value (R146, R153). -/
theorem search_chosen {clk speed p c : Nat} (hp : p ∈ prescalers) (hc : c ∈ counts)
    (h : pairErr clk speed (p, c) < 0xFFFFFFFF) : (dividerSearch clk speed).chosen = true := by
  by_contra hn
  have f := found_search clk speed
  have h1 := f.none (by simpa using hn)
  have h2 := f.least (p, c) (List.mem_flatMap.2 ⟨p, hp, List.mem_map.2 ⟨c, hc, rfl⟩⟩)
  omega

/-- With a clock and any speed but the one excluded by R153 a pair is found. -/
theorem search_finds {clk speed : Word}
    (h : ¬ (clk.toNat < 8 ∧ speed = 0xFFFFFFFF#32)) :
    (dividerSearch clk.toNat speed.toNat).chosen = true := by
  refine search_chosen (p := 1) (c := 1) (by decide) (by decide) ?_
  have hs : speed.toNat < 4294967296 := speed.isLt
  have hk : clk.toNat < 4294967296 := clk.isLt
  unfold pairErr absDiff rateOf
  simp only [if_true, Nat.div_one]
  have hne : speed = 0xFFFFFFFF#32 ↔ speed.toNat = 4294967295 := by
    constructor
    · intro e; rw [e]; rfl
    · intro e; exact BitVec.eq_of_toNat_eq e
  rw [hne] at h
  split <;> omega

end Sys2Proof.Machine
end

