-- ==== Sys2Proof/Laws/Bringup.lean ====
section
/-! SUPPORT. SPEED_SET, INIT, CHECK_STUCK and the stuck-bus recovery under any environment
(spec/40_init_and_divider.md R140 to R151, spec/41_start_stop.md R170 to R172). -/

namespace Sys2Proof.Machine

theorem engineOn_false_of_men {s : State} (h : s.ctrl.getLsbD bitMEN = false) :
    engineOn s = false := by
  unfold engineOn; rw [h]; rfl

/-- Empty FIFOs stay empty while the engine is off. -/
structure FifosStayEmpty (s t : State) : Prop where
  tx : engineOn s = false → s.txf = [] → t.txf = []
  rx : engineOn s = false → s.rxf = [] → t.rxf = []

theorem FifosStayEmpty.trans {s t u : State} (a : FifosStayEmpty s t) (b : FifosStayEmpty t u)
    (h : engineOn s = false → engineOn t = false) : FifosStayEmpty s u :=
  ⟨fun x e => b.tx (h x) (a.tx x e), fun x e => b.rx (h x) (a.rx x e)⟩

theorem FifosStayEmpty.of_kept {s t : State} (h : engineOn s = false → FifosKept s t) :
    FifosStayEmpty s t :=
  ⟨fun x e => by rw [(h x).tx, e], fun x e => by rw [(h x).rx, e]⟩

theorem engineOn_congr {s t : State} (h : t.ctrl = s.ctrl) : engineOn t = engineOn s := by
  unfold engineOn; rw [h]

/-! ### The words written to `CTRL` -/

theorem ctrl_masterOff (c : BitVec 4) :
    (masterOff (.exact (c.setWidth 32))).setWidth 4 = c &&& 0xE#4 := by
  unfold masterOff; rw [RdWord.exact_word]; revert c; decide

theorem ctrl_masterOn (c : BitVec 4) :
    (masterOn (.exact (c.setWidth 32))).setWidth 4 = c ||| 1#4 := by
  unfold masterOn; rw [RdWord.exact_word]; revert c; decide

theorem rst_masterOff (c : BitVec 4) :
    (masterOff (.exact (c.setWidth 32))).getLsbD bitRST = c.getLsbD bitRST := by
  unfold masterOff; rw [RdWord.exact_word]; revert c; decide

theorem rst_masterOn (c : BitVec 4) :
    (masterOn (.exact (c.setWidth 32))).getLsbD bitRST = c.getLsbD bitRST := by
  unfold masterOn; rw [RdWord.exact_word]; revert c; decide

theorem bit_ctrl (c : BitVec 4) (n : Nat) (h : n < 4) :
    (RdWord.exact (c.setWidth 32)).bit n = c.getLsbD n := by
  rw [RdWord.exact_bit _ _ (by omega), BitVec.getLsbD_setWidth]
  simp [show n < 32 by omega]

theorem off_rst (c : BitVec 4) : (c &&& 0xE#4).getLsbD bitRST = c.getLsbD bitRST := by
  revert c; decide

theorem off_men (c : BitVec 4) : (c &&& 0xE#4).getLsbD bitMEN = false := by revert c; decide

theorem off_on (c : BitVec 4) : c.getLsbD bitMEN = true → c &&& 0xE#4 ||| 1#4 = c := by
  revert c; decide

theorem off_off (c : BitVec 4) : c.getLsbD bitMEN = false → c &&& 0xE#4 = c := by
  revert c; decide

/-! ### SPEED_SET -/

/-- What SPEED_SET leaves when it succeeds (R143, R148, R149, R151). -/
structure SpeedDone (speed : Word) (s t : State) : Prop where
  good : Good t
  controls : Controls s t
  ctrl : t.ctrl = s.ctrl
  handle : t.handle = { s.handle with rate := speed }
  phase : t.phase = s.phase
  inited : t.inited = s.inited
  bracket : t.bracket = s.bracket
  mier : t.mier = s.mier
  cfg0 : t.cfg0 = s.cfg0
  cfg1 : t.cfg1 = withPrescale s.cfg1 (dividerSearch s.cfg.clockSrc.toNat speed.toNat).bestP
  clkcfg : t.clkcfg = clkcfgWord (dividerSearch s.cfg.clockSrc.toNat speed.toNat).bestC
  fifos : FifosStayEmpty s t

/-- SPEED_SET with a source clock and a pair, under any environment. -/
theorem speedSet_spec {s : State} (g : Good s) (speed : Word) (hc : s.cfg.clockSrc ≠ 0#32)
    (hd : (dividerSearch s.cfg.clockSrc.toNat speed.toNat).chosen = true) :
    Ends (speedSet speed s) fun c t => c = .ok ∧ SpeedDone speed s t := by
  unfold speedSet
  rw [if_neg hc]
  refine ends_andThen (regRead_off g.inv g.plat (r := .ctrl) (by simp [readable]) (by simp))
    fun v s1 ⟨p1, hv, _, f1⟩ => ?_
  have g1 := p1.good g
  have hv' : v = .exact (s1.ctrl.setWidth 32) := hv
  dsimp only
  have pn : Polls s1 (note (fun w => { w with menSaved := some (v.bit bitMEN) }) s1) :=
    polls_note _ rfl
  have gn := pn.good g1
  refine ends_andThen (regWrite_ctrl_spec gn.inv gn.plat (masterOff v))
    fun _ s2 ⟨k2, c2, h2, ph2, in2, br2, _, _, r2⟩ => ?_
  have hrst : (masterOff v).getLsbD bitRST = false := by
    rw [hv', rst_masterOff]; exact g1.run
  obtain ⟨z2, o2, l2, m2, tx2, rx2⟩ := r2 hrst
  have c2' : s2.ctrl = s.ctrl &&& 0xE#4 := by rw [c2, hv', ctrl_masterOff, p1.ctrl]
  have g2 : Good s2 := by
    refine ⟨k2.coreInv gn.inv, k2.keeps.platform gn.plat, ?_⟩
    rw [c2', off_rst]
    exact g.run
  have off2 : engineOn s2 = false := by
    apply engineOn_false_of_men
    rw [c2', off_men]
  have pn2 : Polls s2 (note (fun w => { w with
      div := some (dividerSearch s2.cfg.clockSrc.toNat speed.toNat) }) s2) := polls_note _ rfl
  have hcfg2 : s2.cfg = s.cfg := k2.keeps.cfg.trans p1.cfg
  simp only [hcfg2, hd, Bool.not_true, Bool.false_eq_true, if_false]
  have gn2 := pn2.good g2
  rw [hcfg2] at gn2 pn2
  refine ends_andThen (regWrite_config_spec gn2 .clkcfg _ (by simp))
    fun _ s3 ⟨k3, c3, h3, ph3, in3, br3, _, m3, z3, o3, l3, f3⟩ => ?_
  have g3 : Good s3 := ⟨k3.coreInv gn2.inv, k3.keeps.platform gn2.plat, by
    rw [c3]; exact g2.run⟩
  refine ends_andThen (regRead_off g3.inv g3.plat (r := .cfg1) (by simp [readable]) (by simp))
    fun v4 s4 ⟨p4, hv4, _, f4⟩ => ?_
  have g4 := p4.good g3
  have hv4' : v4 = .exact s4.cfg1 := hv4
  refine ends_andThen (regWrite_config_spec g4 .cfg1 _ (by simp))
    fun _ s5 ⟨k5, c5, h5, ph5, in5, br5, _, m5, z5, o5, l5, f5⟩ => ?_
  have c5' : s5.ctrl = s.ctrl &&& 0xE#4 := by rw [c5, p4.ctrl, c3, note_ctrl, c2']
  have g5 : Good s5 := ⟨k5.coreInv g4.inv, k5.keeps.platform g4.plat, by
    rw [c5, p4.ctrl, c3]; exact g2.run⟩
  have off3 : engineOn s3 = false := by rw [engineOn_congr c3]; exact off2
  have off4 : engineOn s4 = false := by rw [engineOn_congr p4.ctrl]; exact off3
  have off5 : engineOn s5 = false := by rw [engineOn_congr c5]; exact off4
  -- everything up to the restore
  have K : Controls s s5 :=
    p1.controls.trans (pn.controls.trans (k2.trans (pn2.controls.trans
      (k3.trans (p4.controls.trans k5)))))
  have F : FifosStayEmpty s s5 := by
    have a1 : FifosStayEmpty s s1 := .of_kept f1
    have a2 : FifosStayEmpty s1 s2 := ⟨tx2, rx2⟩
    have a3 : FifosStayEmpty s2 s3 := .of_kept fun h => ⟨(f3 h).1, (f3 h).2⟩
    have a4 : FifosStayEmpty s3 s4 := .of_kept f4
    have a5 : FifosStayEmpty s4 s5 := .of_kept f5
    have e1 : engineOn s1 = engineOn s := engineOn_congr p1.ctrl
    exact a1.trans (a2.trans (a3.trans (a4.trans a5 fun _ => off4) fun _ => off3) fun _ => off2)
      fun h => by rw [e1]; exact h
  have finish : ∀ t : State, Good t → Controls s t → t.ctrl = s.ctrl → t.handle = s5.handle →
      t.phase = s5.phase → t.inited = s5.inited → t.bracket = s5.bracket → t.mier = s5.mier →
      t.cfg0 = s5.cfg0 → t.cfg1 = s5.cfg1 → t.clkcfg = s5.clkcfg → FifosStayEmpty s t →
      SpeedDone speed s { t with handle := { t.handle with rate := speed } } := by
    intro t gt kt ct ht pht int brt mt zt ot lt ft
    have hh : t.handle = s.handle := by
      rw [ht, h5, p4.handle, h3, note_handle, h2, note_handle, p1.handle]
    refine ⟨⟨⟨gt.inv.cfgValid, gt.inv.txBound, gt.inv.rxBound, gt.inv.txLegal, gt.inv.noInterrupt,
      gt.inv.memWf, gt.inv.targetMemWf⟩, ⟨gt.plat.clockOn, gt.plat.aligned⟩, gt.run⟩,
      ⟨⟨kt.keeps.cfg, kt.keeps.chip, kt.keeps.host, kt.keeps.base, kt.keeps.index⟩,
        kt.mem, kt.byte, kt.mier, kt.txSub, kt.txLen, kt.rxLen, kt.target, kt.words⟩, ct, ?_, ?_, ?_,
      ?_, ?_, ?_, ?_, ?_, ⟨ft.tx, ft.rx⟩⟩
    · show { t.handle with rate := speed } = _; rw [hh]
    · show t.phase = _; rw [pht, ph5, p4.phase, ph3, note_phase, ph2, note_phase, p1.phase]
    · show t.inited = _; rw [int, in5, p4.inited, in3, note_inited, in2, note_inited, p1.inited]
    · show t.bracket = _
      rw [brt, br5, p4.bracket, br3, note_bracket, br2, note_bracket, p1.bracket]
    · show t.mier = _; rw [mt, m5, p4.mier, m3, note_mier, m2, note_mier, p1.mier]
    · show t.cfg0 = _
      rw [zt, z5, if_neg (by simp), p4.cfg0, z3, if_neg (by simp), note_cfg0, z2, note_cfg0, p1.cfg0]
    · show t.cfg1 = _
      rw [ot, o5, if_pos rfl, hv4', RdWord.exact_word, p4.cfg1, o3, if_neg (by simp), note_cfg1, o2,
        note_cfg1, p1.cfg1]
    · show t.clkcfg = _
      rw [lt, l5, if_neg (by simp), p4.clkcfg, l3, if_pos rfl]
  have hmen : v.bit bitMEN = s.ctrl.getLsbD bitMEN := by
    rw [hv', bit_ctrl _ _ (by simp [bitMEN]), p1.ctrl]
  unfold restoreMaster
  rw [hmen]
  split
  · rename_i hm
    refine ends_andThen (P := fun _ t => Good t ∧ Controls s t ∧ t.ctrl = s.ctrl ∧
      t.handle = s5.handle ∧ t.phase = s5.phase ∧ t.inited = s5.inited ∧ t.bracket = s5.bracket ∧
      t.mier = s5.mier ∧ t.cfg0 = s5.cfg0 ∧ t.cfg1 = s5.cfg1 ∧ t.clkcfg = s5.clkcfg ∧
      FifosStayEmpty s t) ?_ ?_
    · refine ends_andThen (regRead_off g5.inv g5.plat (r := .ctrl) (by simp [readable]) (by simp))
        fun v6 s6 ⟨p6, hv6, _, f6⟩ => ?_
      have g6 := p6.good g5
      have hv6' : v6 = .exact (s6.ctrl.setWidth 32) := hv6
      refine ends_mono (regWrite_ctrl_spec g6.inv g6.plat (masterOn v6))
        fun _ s7 ⟨k7, c7, h7, ph7, in7, br7, _, _, r7⟩ => ?_
      have hrst7 : (masterOn v6).getLsbD bitRST = false := by
        rw [hv6', rst_masterOn]; exact g6.run
      obtain ⟨z7, o7, l7, m7, tx7, rx7⟩ := r7 hrst7
      have c7' : s7.ctrl = s.ctrl := by
        rw [c7, hv6', ctrl_masterOn, p6.ctrl, c5', off_on _ hm]
      have off6 : engineOn s6 = false := by rw [engineOn_congr p6.ctrl]; exact off5
      refine ⟨⟨k7.coreInv g6.inv, k7.keeps.platform g6.plat, by rw [c7']; exact g.run⟩,
        K.trans (p6.controls.trans k7), c7', ?_, ?_, ?_, ?_, ?_, ?_, ?_, ?_, ?_⟩
      · rw [h7, p6.handle]
      · rw [ph7, p6.phase]
      · rw [in7, p6.inited]
      · rw [br7, p6.bracket]
      · rw [m7, p6.mier]
      · rw [z7, p6.cfg0]
      · rw [o7, p6.cfg1]
      · rw [l7, p6.clkcfg]
      · have a6 : FifosStayEmpty s5 s6 := .of_kept f6
        have a7 : FifosStayEmpty s6 s7 := ⟨tx7, rx7⟩
        exact F.trans (a6.trans a7 fun _ => off6) fun _ => off5
    · intro _ t ⟨h1, h2, h3, h4, h5, h6, h7, h8, h9, h10, h11, h12⟩
      exact ends_done ⟨rfl, finish t h1 h2 h3 h4 h5 h6 h7 h8 h9 h10 h11 h12⟩
  · rename_i hm
    have c5s : s5.ctrl = s.ctrl := by
      rw [c5']
      exact off_off _ (by simpa using hm)
    exact ends_andThen (P := fun _ t => t = s5) (ends_done rfl) fun _ t e => by
      subst e
      exact ends_done ⟨rfl, finish _ g5 K c5s rfl rfl rfl rfl rfl rfl rfl rfl F⟩

/-- SPEED_SET without a source clock: the code, and nothing touched (R150). -/
theorem speedSet_noClock {s : State} (speed : Word) (hc : s.cfg.clockSrc = 0#32) :
    speedSet speed s = done .divider s := by
  unfold speedSet; rw [if_pos hc]

/-- A part that ends, then one that is refused in every state the first may leave. -/
theorem refused_andThen {α β : Type} {m : Run α} {k : α → State → Run β} {P : α → State → Prop}
    {r : Refusal} (h : Ends m P) (hk : ∀ a t, P a t → k a t = .refused r) :
    andThen m k = .refused r := by
  obtain ⟨a, t, e, p⟩ := h
  rw [e, andThen_next]
  exact hk a t p

/-- SPEED_SET for which no pair can be selected is refused, whatever the environment does (R153). -/
theorem speedSet_noPair {s : State} (i : CoreInv s) (p : Platform s) (speed : Word)
    (hz : s.cfg.clockSrc ≠ 0#32)
    (hn : (dividerSearch s.cfg.clockSrc.toNat speed.toNat).chosen = false) :
    speedSet speed s = .refused .noDividerPair := by
  unfold speedSet
  rw [if_neg hz]
  refine refused_andThen (regRead_spec i p (r := .ctrl) (by simp [readable])) fun v s1 ⟨p1, _⟩ => ?_
  have i1 : CoreInv (note (fun w => { w with menSaved := some (v.bit bitMEN) }) s1) := by
    have j := p1.coreInv i
    exact ⟨j.cfgValid, j.txBound, j.rxBound, j.txLegal, j.noInterrupt, j.memWf, j.targetMemWf⟩
  have q1 := p1.platform p
  refine refused_andThen (regWrite_ctrl_spec i1 ⟨q1.clockOn, q1.aligned⟩ (masterOff v))
    fun _ s2 h2 => ?_
  have hcfg : s2.cfg = s.cfg := h2.1.keeps.cfg.trans p1.cfg
  simp only [hcfg, hn, Bool.not_false, if_true]

/-! ### INIT -/

/-- What INIT leaves whatever SPEED_SET answered (R140, R141): the controller reset and enabled, the
FIFOs empty. -/
structure InitBase (s t : State) : Prop where
  good : Good t
  controls : Controls s t
  ctrl : t.ctrl = 5#4
  cfg0 : t.cfg0 = 0#32
  mier : t.mier = 0#32
  noTx : t.txf = []
  noRx : t.rxf = []
  bracket : t.bracket = false

/-- What INIT leaves when it succeeds. -/
structure InitDone (speed : Word) (s t : State) : Prop where
  base : InitBase s t
  phase : t.phase = .initialized
  inited : t.inited = true
  handle : t.handle = { s.handle with rate := speed }
  cfg1 : t.cfg1 = withPrescale 0#32 (dividerSearch s.cfg.clockSrc.toNat speed.toNat).bestP
  clkcfg : t.clkcfg = clkcfgWord (dividerSearch s.cfg.clockSrc.toNat speed.toNat).bestC

/-- What INIT leaves without a source clock. -/
structure InitFailed (s t : State) : Prop where
  base : InitBase s t
  phase : t.phase = .idle
  inited : t.inited = s.inited
  handle : t.handle = s.handle
  cfg1 : t.cfg1 = 0#32
  clkcfg : t.clkcfg = 0#32

theorem Controls.of_update {s t : State} (k : Controls s t) (b : Bool) (i : Bool) (p : Phase)
    (h : Handle) (h1 : h.base = t.handle.base) (h2 : h.index = t.handle.index) :
    Controls s { t with bracket := b, inited := i, phase := p, handle := h } :=
  ⟨⟨k.keeps.cfg, k.keeps.chip, k.keeps.host, h1.trans k.keeps.base,
    h2.trans k.keeps.index⟩, k.mem, k.byte, k.mier, k.txSub, k.txLen, k.rxLen, k.target, k.words⟩

theorem coreInv_update {t : State} (i : CoreInv t) (b : Bool) (n : Bool) (p : Phase) :
    CoreInv { t with bracket := b, inited := n, phase := p } :=
  ⟨i.cfgValid, i.txBound, i.rxBound, i.txLegal, i.noInterrupt, i.memWf, i.targetMemWf⟩

/-- INIT for which no pair can be selected is refused as a whole, whatever the environment does (R153). -/
theorem initBlock_noPair {s : State} (i : CoreInv s) (p : Platform s) (speed : Word)
    (hz : s.cfg.clockSrc ≠ 0#32)
    (hn : (dividerSearch s.cfg.clockSrc.toNat speed.toNat).chosen = false) :
    initBlock speed s = .refused .noDividerPair := by
  unfold initBlock
  refine refused_andThen (regWrite_ctrl_spec i p ctrlResetWord) fun _ s1 h1 => ?_
  have k1 : Controls s { s1 with bracket := false } := h1.1.of_update false _ _ _ rfl rfl
  refine refused_andThen (regWrite_ctrl_spec (k1.coreInv i) (k1.keeps.platform p) ctrlReleaseWord)
    fun _ s2 h2 => ?_
  have k2 := k1.trans h2.1
  refine refused_andThen (regWrite_ctrl_spec (k2.coreInv i) (k2.keeps.platform p) ctrlModeWord)
    fun _ s3 ⟨c3, m3, _⟩ => ?_
  have k3 := k2.trans c3
  have g3 : Good s3 := ⟨k3.coreInv i, k3.keeps.platform p, by rw [m3]; rfl⟩
  refine refused_andThen (regRead_spec g3.inv g3.plat (r := .cfg0) (by simp [readable]))
    fun v4 s4 ⟨p4, _⟩ => ?_
  have g4 := p4.good g3
  refine refused_andThen (regWrite_config_spec g4 .cfg0 _ (by simp)) fun _ s5 ⟨k5, c5, _⟩ => ?_
  have g5 : Good s5 := ⟨k5.coreInv g4.inv, k5.keeps.platform g4.plat, by rw [c5]; exact g4.run⟩
  refine refused_andThen (regRead_spec g5.inv g5.plat (r := .cfg1) (by simp [readable]))
    fun v6 s6 ⟨p6, _⟩ => ?_
  have g6 := p6.good g5
  refine refused_andThen (regWrite_config_spec g6 .cfg1 _ (by simp)) fun _ s7 ⟨k7, c7, _⟩ => ?_
  have k := k3.trans (p4.controls.trans (k5.trans (p6.controls.trans k7)))
  rw [speedSet_noPair (k.coreInv i) (k.keeps.platform p) speed (by rw [k.keeps.cfg]; exact hz)
    (by rw [k.keeps.cfg]; exact hn)]
  rfl

/-- INIT under any environment, from any state: its one failure is a missing source clock. -/
theorem initBlock_spec {s : State} (i : CoreInv s) (p : Platform s) (speed : Word)
    (hd : dividerAnswers s.cfg speed) :
    Ends (initBlock speed s) fun c t =>
      (s.cfg.clockSrc ≠ 0#32 ∧ c = .ok ∧ InitDone speed s t) ∨
      (s.cfg.clockSrc = 0#32 ∧ c = .divider ∧ InitFailed s t) := by
  unfold initBlock
  refine ends_andThen (regWrite_ctrl_spec i p ctrlResetWord)
    fun _ s1 ⟨k1, c1, h1, ph1, in1, br1, _, r1, _⟩ => ?_
  have i1 := k1.coreInv i
  have p1 := k1.keeps.platform p
  obtain ⟨z1, o1, l1, tx1, rx1, m1, _, _⟩ := r1 rfl
  have off1 : engineOn s1 = false := by
    apply engineOn_false_of_men; rw [c1]; rfl
  have k1' : Controls s { s1 with bracket := false } := k1.of_update false _ _ _ rfl rfl
  refine ends_andThen (regWrite_ctrl_spec (s := { s1 with bracket := false })
    (coreInv_update i1 _ _ _) ⟨p1.clockOn, p1.aligned⟩ ctrlReleaseWord)
    fun _ s2 ⟨k2, c2, h2, ph2, in2, br2, _, _, r2⟩ => ?_
  have i2 := k2.coreInv (k1'.coreInv i)
  have p2 := k2.keeps.platform (k1'.keeps.platform p)
  obtain ⟨z2, o2, l2, m2, tx2, rx2⟩ := r2 rfl
  have tx2' := tx2 off1 tx1
  have rx2' := rx2 off1 rx1
  have off2 : engineOn s2 = false := by
    apply engineOn_false_of_men; rw [c2]; rfl
  refine ends_andThen (regWrite_ctrl_spec i2 p2 ctrlModeWord)
    fun _ s3 ⟨k3, c3, h3, ph3, in3, br3, _, _, r3⟩ => ?_
  obtain ⟨z3, o3, l3, m3, tx3, rx3⟩ := r3 rfl
  have tx3' := tx3 off2 tx2'
  have rx3' := rx3 off2 rx2'
  have off3 : engineOn s3 = false := by
    apply engineOn_false_of_men; rw [c3]; rfl
  have g3 : Good s3 := ⟨k3.coreInv i2, k3.keeps.platform p2, by rw [c3]; rfl⟩
  refine ends_andThen (regRead_off g3.inv g3.plat (r := .cfg0) (by simp [readable]) (by simp))
    fun v4 s4 ⟨p4, hv4, _, f4⟩ => ?_
  have g4 := p4.good g3
  have hv4' : v4 = .exact s4.cfg0 := hv4
  have off4 : engineOn s4 = false := by rw [engineOn_congr p4.ctrl]; exact off3
  refine ends_andThen (regWrite_config_spec g4 .cfg0 _ (by simp))
    fun _ s5 ⟨k5, c5, h5, ph5, in5, br5, _, m5, z5, o5, l5, f5⟩ => ?_
  have g5 : Good s5 := ⟨k5.coreInv g4.inv, k5.keeps.platform g4.plat, by rw [c5]; exact g4.run⟩
  have off5 : engineOn s5 = false := by rw [engineOn_congr c5]; exact off4
  refine ends_andThen (regRead_off g5.inv g5.plat (r := .cfg1) (by simp [readable]) (by simp))
    fun v6 s6 ⟨p6, hv6, _, f6⟩ => ?_
  have g6 := p6.good g5
  have hv6' : v6 = .exact s6.cfg1 := hv6
  have off6 : engineOn s6 = false := by rw [engineOn_congr p6.ctrl]; exact off5
  refine ends_andThen (regWrite_config_spec g6 .cfg1 _ (by simp))
    fun _ s7 ⟨k7, c7, h7, ph7, in7, br7, _, m7, z7, o7, l7, f7⟩ => ?_
  have g7 : Good s7 := ⟨k7.coreInv g6.inv, k7.keeps.platform g6.plat, by rw [c7]; exact g6.run⟩
  have off7 : engineOn s7 = false := by rw [engineOn_congr c7]; exact off6
  -- the state before SPEED_SET
  have K7 : Controls s s7 :=
    k1'.trans (k2.trans (k3.trans (p4.controls.trans (k5.trans (p6.controls.trans k7)))))
  have cfg7 : s7.cfg = s.cfg := K7.keeps.cfg
  have C7 : s7.ctrl = 4#4 := by rw [c7, p6.ctrl, c5, p4.ctrl, c3]; rfl
  have H7 : s7.handle = s.handle := by rw [h7, p6.handle, h5, p4.handle, h3, h2, h1]
  have I7 : s7.inited = s.inited := by rw [in7, p6.inited, in5, p4.inited, in3, in2, in1]
  have B7 : s7.bracket = false := by rw [br7, p6.bracket, br5, p4.bracket, br3, br2]
  have T7 : s7.txf = [] := by rw [(f7 off6).1, (f6 off5).1, (f5 off4).1, (f4 off3).1, tx3']
  have R7 : s7.rxf = [] := by rw [(f7 off6).2, (f6 off5).2, (f5 off4).2, (f4 off3).2, rx3']
  have M7 : s7.mier = 0#32 := by rw [m7, p6.mier, m5, p4.mier, m3, m2, m1]
  have Z4 : s4.cfg0 = 0#32 := by rw [p4.cfg0, z3, z2, z1]
  have Z7 : s7.cfg0 = 0#32 := by
    rw [z7, if_neg (by simp), p6.cfg0, z5, if_pos rfl, hv4', RdWord.exact_word, Z4]; rfl
  have O6 : s6.cfg1 = 0#32 := by rw [p6.cfg1, o5, if_neg (by simp), p4.cfg1, o3, o2, o1]
  have O7 : s7.cfg1 = 0#32 := by
    rw [o7, if_pos rfl, hv6', RdWord.exact_word, O6]; rfl
  have L7 : s7.clkcfg = 0#32 := by
    rw [l7, if_neg (by simp), p6.clkcfg, l5, if_neg (by simp), p4.clkcfg, l3, l2, l1]
  -- SPEED_SET
  refine ends_andThen (P := fun c t =>
      (s.cfg.clockSrc ≠ 0#32 ∧ c = .ok ∧ SpeedDone speed s7 t) ∨
      (s.cfg.clockSrc = 0#32 ∧ c = .divider ∧ t = s7)) ?_ ?_
  · by_cases hz : s.cfg.clockSrc = 0#32
    · rw [speedSet_noClock speed (by rw [cfg7]; exact hz)]
      exact ends_done (.inr ⟨hz, rfl, rfl⟩)
    · refine ends_mono (speedSet_spec g7 speed (by rw [cfg7]; exact hz) ?_) fun c t h =>
        .inl ⟨hz, h.1, h.2⟩
      rw [cfg7]
      rcases hd with h | h
      · exact absurd h hz
      · exact h
  -- enabling the master, whatever it answered
  intro c s8 h8
  have B8 : Good s8 ∧ Controls s7 s8 ∧ s8.ctrl = 4#4 ∧ s8.cfg0 = 0#32 ∧ s8.mier = 0#32 ∧
      s8.txf = [] ∧ s8.rxf = [] ∧ s8.bracket = false ∧ s8.inited = s.inited := by
    rcases h8 with ⟨_, _, d⟩ | ⟨_, _, e⟩
    · exact ⟨d.good, d.controls, by rw [d.ctrl, C7], by rw [d.cfg0, Z7], by rw [d.mier, M7],
        d.fifos.tx off7 T7, d.fifos.rx off7 R7, by rw [d.bracket, B7], by rw [d.inited, I7]⟩
    · subst e
      exact ⟨g7, ⟨Keeps.refl _, rfl, rfl, fun h => h, fun _ h => h, le_refl _, le_max_left _ _,
        fun h => h, rfl⟩, C7, Z7, M7, T7, R7, B7, I7⟩
  obtain ⟨g8, k8, C8, Z8, M8, T8, R8, Br8, I8⟩ := B8
  have off8 : engineOn s8 = false := by apply engineOn_false_of_men; rw [C8]; rfl
  refine ends_andThen (regRead_off g8.inv g8.plat (r := .ctrl) (by simp [readable]) (by simp))
    fun v9 s9 ⟨p9, hv9, _, f9⟩ => ?_
  have g9 := p9.good g8
  have hv9' : v9 = .exact (s9.ctrl.setWidth 32) := hv9
  have off9 : engineOn s9 = false := by rw [engineOn_congr p9.ctrl]; exact off8
  refine ends_andThen (regWrite_ctrl_spec g9.inv g9.plat (masterOn v9))
    fun _ s10 ⟨k10, c10, h10, ph10, in10, br10, _, _, r10⟩ => ?_
  have hrst : (masterOn v9).getLsbD bitRST = false := by
    rw [hv9', rst_masterOn]; exact g9.run
  obtain ⟨z10, o10, l10, m10, tx10, rx10⟩ := r10 hrst
  have C10 : s10.ctrl = 5#4 := by rw [c10, hv9', ctrl_masterOn, p9.ctrl, C8]; rfl
  have T10 := tx10 off9 (by rw [(f9 off8).1, T8])
  have R10 := rx10 off9 (by rw [(f9 off8).2, R8])
  have K10 : Controls s s10 := K7.trans (k8.trans (p9.controls.trans k10))
  have I10 : s10.inited = s.inited := by rw [in10, p9.inited, I8]
  have H10 : s10.handle = s8.handle := by rw [h10, p9.handle]
  have O10 : s10.cfg1 = s8.cfg1 := by rw [o10, p9.cfg1]
  have L10 : s10.clkcfg = s8.clkcfg := by rw [l10, p9.clkcfg]
  have base : ∀ (n : Bool) (ph : Phase), InitBase s { s10 with inited := n, phase := ph } := by
    intro n ph
    have i10 := k10.coreInv g9.inv
    refine ⟨⟨coreInv_update i10 _ n ph, ?_, ?_⟩, K10.of_update _ n ph _ rfl rfl, C10, ?_, ?_, T10,
      R10, ?_⟩
    · have := k10.keeps.platform g9.plat; exact ⟨this.clockOn, this.aligned⟩
    · show s10.ctrl.getLsbD bitRST = false; rw [C10]; rfl
    · show s10.cfg0 = _; rw [z10, p9.cfg0, Z8]
    · show s10.mier = _; rw [m10, p9.mier, M8]
    · show s10.bracket = _; rw [br10, p9.bracket, Br8]
  unfold initOutcome
  rcases h8 with ⟨hz, hc, d⟩ | ⟨hz, hc, e⟩
  · rw [if_pos hc]
    refine ends_done (.inl ⟨hz, hc, base true .initialized, rfl, rfl, ?_, ?_, ?_⟩)
    · show s10.handle = _; rw [H10, d.handle, H7]
    · show s10.cfg1 = _; rw [O10, d.cfg1, O7, cfg7]
    · show s10.clkcfg = _; rw [L10, d.clkcfg, cfg7]
  · rw [if_neg (by rw [hc]; simp)]
    refine ends_done (.inr ⟨hz, hc, base s10.inited .idle, rfl, I10, ?_, ?_, ?_⟩)
    · show s10.handle = _; rw [H10, e, H7]
    · show s10.cfg1 = _; rw [O10, e, O7]
    · show s10.clkcfg = _; rw [L10, e, L7]

/-- Either way INIT goes through it reaches `InitBase`. -/
theorem initBlock_base {s : State} (i : CoreInv s) (p : Platform s) (speed : Word)
    (hd : dividerAnswers s.cfg speed) :
    Ends (initBlock speed s) fun _ t => InitBase s t ∧
      (t.inited = true ∨ t.inited = s.inited) ∧
      (t.handle = { s.handle with rate := speed } ∨ t.handle = s.handle) := by
  refine ends_mono (initBlock_spec i p speed hd) fun c t h => ?_
  rcases h with ⟨_, _, d⟩ | ⟨_, _, d⟩
  · exact ⟨d.base, .inl d.inited, .inl d.handle⟩
  · exact ⟨d.base, .inr d.inited, .inr d.handle⟩

/-! ### CHECK_STUCK and the recovery -/

/-- CHECK_STUCK under any environment: the environment's turn, then the test of one status word. -/
theorem checkStuck_eq {s u : State} (e : envSlot s = .next u) (p : Platform u) :
    ∃ t, checkStuck s = .next (u.flags.bbf && !u.flags.mbf, t) ∧ Polls u t ∧
      t = { u with work := t.work, draws := t.draws, trace := t.trace } ∧
      t.work.stuck = some (u.flags.bbf && !u.flags.mbf) := by
  unfold checkStuck
  rw [regRead_eq .status e p]
  have hb : stuckOf ⟨u.flags.word, statusNamed, Config.openBits u.draws⟩ =
      (u.flags.bbf && !u.flags.mbf) := by
    obtain ⟨a, b, c, d, e, f, g, h, i⟩ := u.flags
    unfold stuckOf RdWord.bit
    simp only [show statusNamed.getLsbD bitBBF = true from by decide,
      show statusNamed.getLsbD bitMBF = true from by decide, if_true]
    revert a b c d e f g h i
    decide
  let v : RdWord := ⟨u.flags.word, statusNamed, Config.openBits u.draws⟩
  refine ⟨note (fun w => { w with s := some v.word, stuck := some (u.flags.bbf && !u.flags.mbf) })
    (logged (.rd .status v.shown) { u with draws := u.draws + 1 }), ?_, ?_, ?_, ?_⟩
  · rw [← hb]; rfl
  · exact (polls_draws u _).trans ((polls_logged _ rfl).trans (polls_note _ rfl))
  · rfl
  · rfl

theorem checkStuck_spec {s : State} (g : Good s) :
    Ends (checkStuck s) fun _ t => Polls s t := by
  obtain ⟨u, e, c, -⟩ := envSlot_inv g.inv
  obtain ⟨t, e2, pl, -, -⟩ := checkStuck_eq e (platform_of_contract g.plat c)
  exact ⟨_, t, e2, (polls_envSlot e c).trans pl⟩

theorem reinitSpeed_congr {s t : State} (hc : t.cfg = s.cfg) (hr : t.handle.rate = s.handle.rate) :
    reinitSpeed t = reinitSpeed s := by
  unfold reinitSpeed; rw [hc, hr]

/-- The recovery under any environment: the answer, and at most one INIT behind it (R172). -/
theorem recoverBus_spec {s : State} (g : Good s) (hd : dividerAnswers s.cfg (reinitSpeed s)) :
    Ends (recoverBus s) fun _ t => Good t ∧ Controls s t ∧ reinitSpeed t = reinitSpeed s ∧
      (s.inited = true → t.inited = true) := by
  unfold recoverBus
  refine ends_andThen (checkStuck_spec g) fun stuck s1 p1 => ?_
  have g1 := p1.good g
  have hrs : reinitSpeed s1 = reinitSpeed s := reinitSpeed_congr p1.cfg (by rw [p1.handle])
  split
  · refine ends_andThen (initBlock_base g1.inv g1.plat _ (by rw [p1.cfg, hrs]; exact hd))
      fun _ s2 ⟨b2, i2, h2⟩ => ?_
    have hrs2 : reinitSpeed s2 = reinitSpeed s := by
      rw [← hrs]
      rcases h2 with h | h
      · unfold reinitSpeed
        rw [b2.controls.keeps.cfg, h]
        cases hh : s1.cfg.reinitSpeed <;> simp [reinitSpeed, hh]
      · exact reinitSpeed_congr b2.controls.keeps.cfg (by rw [h])
    refine ends_mono (checkStuck_spec b2.good) fun _ t p3 => ⟨p3.good b2.good,
      p1.controls.trans (b2.controls.trans p3.controls), ?_, ?_⟩
    · rw [reinitSpeed_congr p3.cfg (by rw [p3.handle]), hrs2]
    · intro hi
      rw [p3.inited]
      rcases i2 with h | h
      · exact h
      · rw [h, p1.inited, hi]
  · exact ends_done ⟨g1, p1.controls, hrs, fun hi => by rw [p1.inited, hi]⟩

end Sys2Proof.Machine
end

