-- ==== Sys2Proof/Laws/Transport.lean ====
section
/-! SUPPORT. START, STOP, SEND and RECEIVE under any environment: how they end, what they queue and what
they leave alone (spec/41_start_stop.md, spec/42_byte_transfer.md). -/

namespace Sys2Proof.Machine

/-- What every part of a bus operation leaves as it was, whatever it answers. -/
structure Runs (s t : State) : Prop where
  good : Good t
  keeps : Keeps s t
  reinit : reinitSpeed t = reinitSpeed s
  inited : s.inited = true → t.inited = true

theorem Runs.refl {s : State} (g : Good s) : Runs s s := ⟨g, Keeps.refl s, rfl, fun h => h⟩

theorem Runs.trans {s t u : State} (a : Runs s t) (b : Runs t u) : Runs s u :=
  ⟨b.good, a.keeps.trans b.keeps, b.reinit.trans a.reinit, fun h => b.inited (a.inited h)⟩

/-- The divider still answers for the re-init speed. -/
theorem Runs.answers {s t : State} (r : Runs s t) (h : dividerAnswers s.cfg (reinitSpeed s)) :
    dividerAnswers t.cfg (reinitSpeed t) := by rw [r.keeps.cfg, r.reinit]; exact h

theorem Polls.runs {s t : State} (h : Polls s t) (g : Good s) : Runs s t :=
  ⟨h.good g, h.keeps, reinitSpeed_congr h.cfg (by rw [h.handle]), fun e => by rw [h.inited]; exact e⟩

/-- Host memory and the byte register of CRC32_REGION are untouched. -/
structure Still (s t : State) : Prop where
  mem : t.mem = s.mem
  byte : t.work.b = s.work.b

theorem Still.refl (s : State) : Still s s := ⟨rfl, rfl⟩

theorem Still.trans {s t u : State} (a : Still s t) (b : Still t u) : Still s u :=
  ⟨b.mem.trans a.mem, b.byte.trans a.byte⟩

theorem Polls.still {s t : State} (h : Polls s t) : Still s t := ⟨h.mem, h.byte⟩

/-- Writing the phase, the bracket bit, the result or working registers. -/
theorem runs_update {s : State} (g : Good s) (p : Phase) (b : Bool) (r : Code) (w : Work) :
    Runs s { s with phase := p, bracket := b, result := r, work := w } :=
  ⟨⟨⟨g.inv.cfgValid, g.inv.txBound, g.inv.rxBound, g.inv.txLegal, g.inv.noInterrupt, g.inv.memWf,
    g.inv.targetMemWf⟩, ⟨g.plat.clockOn, g.plat.aligned⟩, g.run⟩, ⟨rfl, rfl, rfl, rfl, rfl⟩, rfl,
    fun h => h⟩

theorem runs_note {s : State} (g : Good s) (f : Work → Work) : Runs s (note f s) :=
  runs_update g s.phase s.bracket s.result _

/-- `raise` (R320, R337): the phase is Error, the code is answered and in `result`, nothing else. -/
theorem raise_spec {s : State} (g : Good s) (c : Code) :
    Ends (raiseError c s) fun d t => d = c ∧ Runs s t ∧ Still s t ∧ t.phase = .error ∧
      t.bracket = s.bracket ∧ wordsOf t.trace = wordsOf s.trace :=
  ends_done ⟨rfl, runs_update g .error s.bracket c s.work, ⟨rfl, rfl⟩, rfl, rfl, rfl⟩

/-! ### Queuing a command word -/

theorem entryLegal_of_cmd (c : Cmd) :
    entryLegal (((encodeCmd c).setWidth 32 : Word).setWidth 11) := by
  rw [BitVec.setWidth_setWidth_of_le _ (by omega), BitVec.setWidth_eq]
  unfold entryLegal
  cases c with
  | txdata d => revert d; decide
  | receive d => revert d; decide
  | stop => decide
  | start a d => cases d <;> (revert a; decide)

/-- Writing `TXCMD` with space in the FIFO, under any environment: one legal word is queued. -/
theorem regWrite_txcmd_spec {s : State} (g : Good s) {v : Word}
    (hs : s.txf.length < s.cfg.fifoDepth) (hl : entryLegal (v.setWidth 11)) :
    Ends (regWrite .txcmd v s) fun _ t => Runs s t ∧ Still s t ∧ t.phase = s.phase ∧
      t.bracket = s.bracket ∧ wordsOf t.trace = wordsOf s.trace ++ [v] := by
  obtain ⟨u, -, c, pl, e⟩ := regWrite_split g.inv g.plat .txcmd v
  have gu := pl.good g
  have hh : heldInReset u = false := gu.run
  have hsp : u.txf.length < u.cfg.fifoDepth := by
    rw [c.cfg]; exact lt_of_le_of_lt c.txLength hs
  have e2 : storeReg .txcmd v u = done () { u with txf := u.txf ++ [v.setWidth 11] } := by
    simp [storeReg, hh, hsp]
  rw [e, e2]
  refine ⟨_, _, rfl, ⟨⟨⟨gu.inv.cfgValid, ?_, gu.inv.rxBound, ?_, gu.inv.noInterrupt, gu.inv.memWf,
    gu.inv.targetMemWf⟩, ⟨gu.plat.clockOn, gu.plat.aligned⟩, gu.run⟩,
    ⟨c.cfg, c.chip, c.host, ?_, ?_⟩, ?_, ?_⟩, ⟨c.mem, ?_⟩, c.phase, c.bracket, ?_⟩
  · simp; omega
  · intro w hw
    simp only [logged_txf, List.mem_append, List.mem_singleton] at hw
    rcases hw with h | h
    · exact gu.inv.txLegal w h
    · rw [h]; exact hl
  · simp [c.handle]
  · simp [c.handle]
  · exact reinitSpeed_congr c.cfg (by simp [c.handle])
  · intro h; simp [c.inited, h]
  · simp [c.work]
  · simp [wordsOf_cons, txcmdWord, c.trace]

/-! ### START -/

/-- How a part of an operation ended: with OK and what `ok` says, or with an error, by `raise`, and what
`failed` says. -/
def Outcomes (c : Code) (t : State) (ok failed : Prop) : Prop :=
  (c = .ok ∧ ok) ∨ (c ≠ .ok ∧ t.phase = .error ∧ failed)

theorem raise_outcomes {s0 s : State} (g : Good s) (r : Runs s0 s) (m : Still s0 s) {c : Code}
    (hc : c ≠ .ok) {ok : State → Prop} {failed : State → Prop}
    (hf : ∀ t, t.bracket = s.bracket → wordsOf t.trace = wordsOf s.trace → t.mem = s.mem →
      failed t) :
    Ends (raiseError c s) fun d t => Runs s0 t ∧ Still s0 t ∧ Outcomes d t (ok t) (failed t) := by
  refine ends_mono (raise_spec g c) fun d t ⟨h1, h2, h3, h4, h5, h6⟩ => ?_
  exact ⟨r.trans h2, m.trans h3, .inr ⟨by rw [h1]; exact hc, h4, hf t h5 h6 h3.mem⟩⟩

theorem Runs.of_controls {s t : State} (g : Good t) (k : Controls s t)
    (h : reinitSpeed t = reinitSpeed s) (i : s.inited = true → t.inited = true) : Runs s t :=
  ⟨g, k.keeps, h, i⟩

theorem queueStart_spec {s : State} (g : Good s) (a : BitVec 7) (d : Dir) :
    Ends (queueStart a d s) fun c t => Runs s t ∧ Still s t ∧
      Outcomes c t (t.phase = .start ∧ t.bracket = true ∧
        wordsOf t.trace = wordsOf s.trace ++ [startWord a d])
        (wordsOf t.trace = wordsOf s.trace) := by
  unfold queueStart
  refine ends_andThen (regWrite_status_spec g clearAll) fun _ s1 ⟨p1, _, _⟩ => ?_
  have g1 := p1.good g
  refine ends_andThen (regRead_spec g1.inv g1.plat (r := .cfg1) (by simp [readable]))
    fun v s2 ⟨p2, _, _⟩ => ?_
  have g2 := p2.good g1
  refine ends_andThen (regWrite_config_spec g2 .cfg1 _ (by simp))
    fun _ s3 ⟨k3, c3, h3, ph3, in3, br3, _, _⟩ => ?_
  have g3 : Good s3 := ⟨k3.coreInv g2.inv, k3.keeps.platform g2.plat, by rw [c3]; exact g2.run⟩
  have r3 : Runs s s3 := (p1.runs g).trans ((p2.runs g1).trans
    (Runs.of_controls g3 k3 (reinitSpeed_congr k3.keeps.cfg (by rw [h3])) fun h => by rw [in3]; exact h))
  have m3 : Still s s3 := p1.still.trans (p2.still.trans ⟨k3.mem, k3.byte⟩)
  have w3 : wordsOf s3.trace = wordsOf s.trace := by rw [k3.words, p2.words, p1.words]
  refine ends_andThen (waitTxSpace_spec g3) fun e s4 ⟨p4, q4⟩ => ?_
  have g4 := p4.good g3
  split
  · rename_i he
    exact raise_outcomes g4 (r3.trans (p4.runs g3)) (m3.trans p4.still) he
      fun t _ hw _ => by rw [hw, p4.words, w3]
  · rename_i he
    have hsp : s4.txf.length < s4.cfg.fifoDepth := by
      rcases q4 with ⟨_, h⟩ | ⟨h, _⟩
      · exact h
      · exact absurd h he
    refine ends_andThen (regWrite_txcmd_spec g4 hsp (entryLegal_of_cmd _))
      fun _ s5 ⟨r5, m5, _, _, w5⟩ => ?_
    refine ends_done ⟨r3.trans ((p4.runs g3).trans (r5.trans (runs_update r5.good _ _ s5.result s5.work))),
      m3.trans (p4.still.trans ⟨m5.mem, m5.byte⟩), .inl ⟨rfl, rfl, rfl, ?_⟩⟩
    show wordsOf s5.trace = _
    rw [w5, p4.words, w3]

/-- START under any environment (R171): OK with one start word queued, or an error with none. -/
theorem start_spec {s : State} (g : Good s) (hd : dividerAnswers s.cfg (reinitSpeed s))
    (a : BitVec 7) (d : Dir) :
    Ends (start a d s) fun c t => Runs s t ∧ Still s t ∧
      Outcomes c t (t.phase = .start ∧ t.bracket = true ∧
        wordsOf t.trace = wordsOf s.trace ++ [startWord a d])
        (wordsOf t.trace = wordsOf s.trace) := by
  unfold start
  refine ends_andThen (recoverBus_spec g hd) fun stuck s1 ⟨g1, k1, h1, i1⟩ => ?_
  have r1 : Runs s s1 := .of_controls g1 k1 h1 i1
  have m1 : Still s s1 := ⟨k1.mem, k1.byte⟩
  split
  · exact raise_outcomes g1 r1 m1 (by simp) fun t _ hw _ => by rw [hw, k1.words]
  · refine ends_mono (queueStart_spec g1 a d) fun c t ⟨r2, m2, o2⟩ => ⟨r1.trans r2, m1.trans m2, ?_⟩
    rw [k1.words] at o2
    exact o2

/-! ### STOP -/

theorem stopSeen_spec {s : State} (g : Good s) (e : Code) :
    Ends (stopSeen e s) fun c t => Runs s t ∧ Still s t ∧ t.bracket = s.bracket ∧
      wordsOf t.trace = wordsOf s.trace ∧ Outcomes c t (t.phase = .idle) True := by
  unfold stopSeen
  refine ends_andThen (regWrite_status_spec g sdfMask) fun _ s1 ⟨p1, _, _⟩ => ?_
  have g1 := p1.good g
  split
  · exact ends_done ⟨(p1.runs g).trans (runs_update g1 .idle s1.bracket s1.result s1.work),
      ⟨p1.mem, p1.byte⟩, p1.bracket, p1.words, .inl ⟨rfl, rfl⟩⟩
  · rename_i he
    refine ends_mono (raise_spec g1 e) fun c t ⟨h1, h2, h3, h4, h5, h6⟩ => ?_
    exact ⟨(p1.runs g).trans h2, p1.still.trans h3, h5.trans p1.bracket, h6.trans p1.words,
      .inr ⟨by rw [h1]; exact he, h4, trivial⟩⟩

theorem stopDecode_spec {s : State} (g : Good s) :
    Ends (stopDecode s) fun c t => Polls s t ∧ SameTime s t ∧ decoded c := by
  unfold stopDecode
  split
  · exact checkClearError_spec g
  · exact ends_done ⟨Polls.refl s, ⟨rfl, rfl⟩, .inl rfl⟩

theorem stopWaitLoop_spec (fuel t0 : Nat) {s : State} (g : Good s)
    (ht : t0 < 2 ^ s.cfg.timerBits) (hf : need s.cfg.tStop t0 s ≤ fuel) :
    Ends (stopWaitLoop fuel t0 s) fun c t => Runs s t ∧ Still s t ∧ t.bracket = s.bracket ∧
      wordsOf t.trace = wordsOf s.trace ∧ Outcomes c t (t.phase = .idle) True := by
  induction fuel generalizing s with
  | zero => have := need_pos s.cfg.tStop t0 s; omega
  | succ fuel ih =>
    unfold stopWaitLoop
    refine ends_andThen (regRead_spec (r := .status) g.inv g.plat (by simp [readable]))
      fun v s1 ⟨p1, st1, _⟩ => ?_
    have g1 := p1.good g
    have pn : Polls s1 (note (fun w => { w with s := some v.word }) s1) := polls_note _ rfl
    refine ends_andThen (stopDecode_spec (pn.good g1)) fun e s2 ⟨p2, st2, _⟩ => ?_
    have p2' : Polls s s2 := p1.trans (pn.trans p2)
    have g2 := p2'.good g
    have st2' : SameTime s s2 := st1.trans ⟨st2.timer, st2.ticks⟩
    split
    · refine ends_mono (stopSeen_spec g2 e) fun c t ⟨h1, h2, h3, h4, h5⟩ =>
        ⟨(p2'.runs g).trans h1, p2'.still.trans h2, h3.trans p2'.bracket, h4.trans p2'.words, h5⟩
    · refine ends_andThen (now_spec g2.inv) fun n s3 ⟨p3, h3, h3a, h3b⟩ => ?_
      have p3' := p2'.trans p3
      have g3 := p3'.good g
      have hcfg : s3.cfg = s.cfg := p3'.cfg
      split
      · refine ends_mono (raise_spec g3 .timeout) fun c t ⟨h1, h2, h3, h4, h5, h6⟩ => ?_
        exact ⟨(p3'.runs g).trans h2, p3'.still.trans h3, h5.trans p3'.bracket,
          h6.trans p3'.words, .inr ⟨by rw [h1]; simp, h4, trivial⟩⟩
      · rename_i hel
        have hn : need s.cfg.tStop t0 s3 + 1 ≤ need s.cfg.tStop t0 s := by
          rw [← need_congr st2' p2'.cfg]
          refine need_tick (s := s2) ?_ ?_ p3.cfg h3a h3b ?_
          · rw [p2'.cfg]; exact g.inv.cfgValid.2.2.2
          · rw [p2'.cfg]; exact ht
          · rw [h3, hcfg] at hel
            rw [hcfg]
            omega
        refine ends_mono (ih (s := s3) g3 (by rw [hcfg]; exact ht) (by rw [hcfg]; omega))
          fun c t ⟨h1, h2, h3, h4, h5⟩ => ⟨(p3'.runs g).trans h1, p3'.still.trans h2,
            h3.trans p3'.bracket, h4.trans p3'.words, h5⟩

/-- STOP under any environment (R174): OK in phase Idle with one stop word queued, or an error with at
most one. The bracket is closed either way. -/
theorem stop_spec {s : State} (g : Good s) :
    Ends (stop s) fun c t => Runs s t ∧ Still s t ∧ t.bracket = false ∧
      Outcomes c t (t.phase = .idle ∧ wordsOf t.trace = wordsOf s.trace ++ [stopWord])
        (wordsOf t.trace = wordsOf s.trace ∨
          wordsOf t.trace = wordsOf s.trace ++ [stopWord]) := by
  unfold stop
  have r0 := runs_update g .stop false s.result s.work
  have m0 : Still s { s with phase := .stop, bracket := false } := ⟨rfl, rfl⟩
  refine ends_andThen (waitTxSpace_spec (s := { s with phase := .stop, bracket := false }) r0.good)
    fun e s1 ⟨p1, q1⟩ => ?_
  have g1 := p1.good r0.good
  have r1 : Runs s s1 := r0.trans (p1.runs r0.good)
  have m1 : Still s s1 := m0.trans p1.still
  have w1 : wordsOf s1.trace = wordsOf s.trace := p1.words
  have b1 : s1.bracket = false := p1.bracket
  split
  · rename_i he
    refine ends_mono (raise_spec g1 e) fun c t ⟨h1, h2, h3, h4, h5, h6⟩ => ?_
    exact ⟨r1.trans h2, m1.trans h3, h5.trans b1, .inr ⟨by rw [h1]; exact he, h4,
      .inl (h6.trans w1)⟩⟩
  · rename_i he
    have hsp : s1.txf.length < s1.cfg.fifoDepth := by
      rcases q1 with ⟨_, h⟩ | ⟨h, _⟩
      · exact h
      · exact absurd h he
    refine ends_andThen (regWrite_txcmd_spec g1 hsp (entryLegal_of_cmd _))
      fun _ s2 ⟨r2, m2, _, b2, w2⟩ => ?_
    refine ends_andThen (now_spec r2.good.inv) fun t0 s3 ⟨p3, h3, _, _⟩ => ?_
    have g3 := p3.good r2.good
    have ht : t0 < 2 ^ s3.cfg.timerBits := by rw [h3]; exact timerCount_lt s3
    have pn : Polls s3 (note (fun w => { w with t0 := some t0 }) s3) := polls_note _ rfl
    have w3 : wordsOf s3.trace = wordsOf s.trace ++ [stopWord] := by
      rw [p3.words, w2, w1]
    refine ends_mono (stopWaitLoop_spec _ t0 (s := note (fun w => { w with t0 := some t0 }) s3)
      (pn.good g3) ht (need_le_fuel _ _ _)) fun c t ⟨h1, h2, h3, h4, h5⟩ => ?_
    refine ⟨r1.trans (r2.trans ((p3.runs r2.good).trans ((pn.runs g3).trans h1))),
      m1.trans (m2.trans (p3.still.trans ⟨h2.mem, h2.byte⟩)), ?_, ?_⟩
    · rw [h3]; show s3.bracket = false; rw [p3.bracket, b2, b1]
    · have hw : wordsOf t.trace = wordsOf s.trace ++ [stopWord] := by rw [h4]; exact w3
      rcases h5 with ⟨a, b⟩ | ⟨a, b, _⟩
      · exact .inl ⟨a, b, hw⟩
      · exact .inr ⟨a, b, .inr hw⟩

/-! ### SEND -/

theorem srcByte_congr {s t : State} (src : ByteSrc) (i : Nat) (h : t.mem = s.mem) :
    srcByte src i t = srcByte src i s := by
  cases src <;> simp [srcByte, h]

theorem sendWords_succ (src : ByteSrc) (i n : Nat) (s : State) :
    sendWords src i (n + 1) s = dataWord (srcByte src i s) :: sendWords src (i + 1) n s := by
  unfold sendWords
  rw [List.range_succ_eq_map, List.map_cons, List.map_map]
  congr 1
  apply List.map_congr_left
  intro j _
  simp only [Function.comp_apply]
  rw [show i + (j + 1) = i + 1 + j by omega]

theorem sendWords_congr {s t : State} (src : ByteSrc) (i n : Nat) (h : t.mem = s.mem) :
    sendWords src i n t = sendWords src i n s := by
  unfold sendWords
  apply List.map_congr_left
  intro j _
  rw [srcByte_congr src _ h]

/-- The byte loop of SEND under any environment: every byte queued, or a proper part of them and an
error (R190, R191). -/
theorem sendLoop_spec (src : ByteSrc) (n : Nat) : ∀ (i : Nat) {s : State}, Good s →
    Ends (sendLoop src i n s) fun c t => Runs s t ∧ Still s t ∧ t.bracket = s.bracket ∧
      Outcomes c t (t.phase = s.phase ∧
        wordsOf t.trace = wordsOf s.trace ++ sendWords src i n s)
        (∃ k, k < n ∧ wordsOf t.trace = wordsOf s.trace ++ sendWords src i k s) := by
  induction n with
  | zero =>
    intro i s g
    exact ends_done ⟨Runs.refl g, Still.refl s, rfl, .inl ⟨rfl, rfl, by simp [sendWords]⟩⟩
  | succ n ih =>
    intro i s g
    unfold sendLoop
    have pn : Polls s (note (fun w => { w with i := some i }) s) := polls_note _ rfl
    refine ends_andThen (waitTxSpace_spec (pn.good g)) fun e s1 ⟨p1, q1⟩ => ?_
    have p1' := pn.trans p1
    have g1 := p1'.good g
    split
    · rename_i he
      refine ends_mono (raise_spec g1 e) fun c t ⟨h1, h2, h3, h4, h5, h6⟩ => ?_
      exact ⟨(p1'.runs g).trans h2, p1'.still.trans h3, h5.trans p1'.bracket,
        .inr ⟨by rw [h1]; exact he, h4, 0, by omega, by
          rw [h6, p1'.words]; simp [sendWords]⟩⟩
    · rename_i he
      have hsp : s1.txf.length < s1.cfg.fifoDepth := by
        rcases q1 with ⟨_, h⟩ | ⟨h, _⟩
        · exact h
        · exact absurd h he
      refine ends_andThen (regWrite_txcmd_spec g1 hsp (entryLegal_of_cmd _))
        fun _ s2 ⟨r2, m2, ph2, b2, w2⟩ => ?_
      have hmem : s2.mem = s.mem := m2.mem.trans p1'.mem
      have hw : wordsOf s2.trace = wordsOf s.trace ++ [dataWord (srcByte src i s)] := by
        rw [w2, p1'.words]
        have := srcByte_congr src i p1'.mem
        rw [this]
      refine ends_mono (ih (i + 1) r2.good) fun c t ⟨h1, h2, h3, h4⟩ => ?_
      refine ⟨(p1'.runs g).trans (r2.trans h1), p1'.still.trans (m2.trans h2), ?_, ?_⟩
      · rw [h3, b2, p1'.bracket]
      · rcases h4 with ⟨a, b, w⟩ | ⟨a, b, k, hk, w⟩
        · refine .inl ⟨a, by rw [b, ph2, p1'.phase], ?_⟩
          rw [w, hw, sendWords_congr src (i + 1) n hmem, sendWords_succ]
          simp
        · refine .inr ⟨a, b, k + 1, by omega, ?_⟩
          rw [w, hw, sendWords_congr src (i + 1) k hmem, sendWords_succ]
          simp

/-- SEND under any environment (R190). -/
theorem send_spec (src : ByteSrc) {s : State} (g : Good s) :
    Ends (send src s) fun c t => Runs s t ∧ Still s t ∧ t.bracket = s.bracket ∧
      Outcomes c t (t.phase = .transferring ∧
        wordsOf t.trace = wordsOf s.trace ++ sendWords src 0 (srcLen src) s)
        (∃ k, k < srcLen src ∧ wordsOf t.trace = wordsOf s.trace ++ sendWords src 0 k s) := by
  have r0 := runs_update g .transferring s.bracket s.result s.work
  refine ends_mono (sendLoop_spec src (srcLen src) 0 r0.good) fun c t ⟨h1, h2, h3, h4⟩ => ?_
  refine ⟨r0.trans h1, ⟨h2.mem, h2.byte⟩, h3, ?_⟩
  rcases h4 with ⟨a, b, w⟩ | ⟨a, b, k, hk, w⟩
  · exact .inl ⟨a, b, by rw [w]; exact congrArg _ (sendWords_congr src 0 _ rfl)⟩
  · exact .inr ⟨a, b, k, hk, by rw [w]; exact congrArg _ (sendWords_congr src 0 _ rfl)⟩

/-! ### RECEIVE -/

/-- The memory outside the buffer of a read message is untouched; a byte register is not memory. -/
def outsideKept (dst : ByteDst) (i n : Nat) (s t : State) : Prop :=
  match dst with
  | .host addr => (∀ a, (∀ j, i ≤ j → j < i + n → a ≠ hostAddr addr j) → t.mem.read a = s.mem.read a) ∧
      t.work.b = s.work.b
  | .reg => t.mem = s.mem

theorem outsideKept_refl (dst : ByteDst) (i n : Nat) (s : State) : outsideKept dst i n s s := by
  cases dst with
  | host addr => exact ⟨fun _ _ => rfl, rfl⟩
  | reg => rfl

theorem outsideKept_still {dst : ByteDst} {i n : Nat} {s t u : State} (h : outsideKept dst i n s t)
    (m : Still t u) : outsideKept dst i n s u := by
  cases dst with
  | host addr => exact ⟨fun a ha => by rw [m.mem]; exact h.1 a ha, m.byte.trans h.2⟩
  | reg => exact m.mem.trans h

theorem still_outsideKept {dst : ByteDst} {i n : Nat} {s t u : State} (m : Still s t)
    (h : outsideKept dst i n t u) : outsideKept dst i n s u := by
  cases dst with
  | host addr => exact ⟨fun a ha => by rw [h.1 a ha, m.mem], h.2.trans m.byte⟩
  | reg => exact Eq.trans h m.mem

/-- The polls for one byte under any environment: a byte, or an error. -/
theorem rxPoll_spec (fuel t0 : Nat) {s : State} (g : Good s)
    (ht : t0 < 2 ^ s.cfg.timerBits) (hf : need s.cfg.tPoll t0 s ≤ fuel) :
    Ends (rxPoll fuel t0 s) fun p t => Runs s t ∧ Still s t ∧ t.bracket = s.bracket ∧
      wordsOf t.trace = wordsOf s.trace ∧
      ((∃ b, p = .byte b ∧ t.phase = s.phase) ∨
        ∃ c, p = .failed c ∧ c ≠ .ok ∧ t.phase = .error) := by
  induction fuel generalizing s with
  | zero => have := need_pos s.cfg.tPoll t0 s; omega
  | succ fuel ih =>
    unfold rxPoll
    refine ends_andThen (checkClearError_spec g) fun e s1 ⟨p1, st1, _⟩ => ?_
    have g1 := p1.good g
    split
    · rename_i he
      refine ends_andThen (raise_spec g1 e) fun c t ⟨h1, h2, h3, h4, h5, h6⟩ => ?_
      exact ends_done ⟨(p1.runs g).trans h2, p1.still.trans h3, h5.trans p1.bracket,
        h6.trans p1.words, .inr ⟨c, rfl, by rw [h1]; exact he, h4⟩⟩
    · refine ends_andThen (now_spec g1.inv) fun n s2 ⟨p2, h2, h2a, h2b⟩ => ?_
      have p2' := p1.trans p2
      have g2 := p2'.good g
      split
      · refine ends_andThen (raise_spec g2 .timeout) fun c t ⟨h1, h2, h3, h4, h5, h6⟩ => ?_
        exact ends_done ⟨(p2'.runs g).trans h2, p2'.still.trans h3, h5.trans p2'.bracket,
          h6.trans p2'.words, .inr ⟨c, rfl, by rw [h1]; simp, h4⟩⟩
      · rename_i hel
        refine ends_andThen (regRead_spec (r := .rxdata) g2.inv g2.plat (by simp [readable]))
          fun v s3 ⟨p3, st3, _⟩ => ?_
        have pn : Polls s3 (note (fun w => { w with v := some v.word }) s3) := polls_note _ rfl
        have p3' := p2'.trans (p3.trans pn)
        have g3 := p3'.good g
        have hcfg : s3.cfg = s.cfg := p3'.cfg
        dsimp only
        split
        · have hn : need s.cfg.tPoll t0 (note (fun w => { w with v := some v.word }) s3) + 1 ≤
              need s.cfg.tPoll t0 s := by
            rw [← need_congr st1 p1.cfg]
            refine need_tick (s := s1) ?_ ?_ ?_ ?_ ?_ ?_
            · rw [p1.cfg]; exact g.inv.cfgValid.2.2.1
            · rw [p1.cfg]; exact ht
            · rw [note_cfg, hcfg, p1.cfg]
            · rw [note_timer, st3.timer, h2a]
            · rw [note_ticks, st3.ticks, h2b]
            · rw [h2, p2'.cfg] at hel
              have e3 : timerCount (note (fun w => { w with v := some v.word }) s3) =
                  timerCount s2 := by
                unfold timerCount
                rw [note_timer, note_cfg, st3.timer, hcfg, p2'.cfg]
              rw [e3, note_cfg, hcfg]
              omega
          refine ends_mono (ih (s := note (fun w => { w with v := some v.word }) s3) g3
            (by rw [note_cfg, hcfg]; exact ht) (by rw [note_cfg, hcfg]; omega))
            fun p t ⟨h1, h2, h3, h4, h5⟩ => ?_
          refine ⟨(p3'.runs g).trans h1, p3'.still.trans h2, h3.trans p3'.bracket,
            h4.trans p3'.words, ?_⟩
          rcases h5 with ⟨b, e, h⟩ | h
          · exact .inl ⟨b, e, h.trans p3'.phase⟩
          · exact .inr h
        · exact ends_done ⟨p3'.runs g, p3'.still, p3'.bracket, p3'.words,
            .inl ⟨_, rfl, p3'.phase⟩⟩

theorem runs_putReceived {s : State} (g : Good s) (dst : ByteDst) (i : Nat) (b : Byte) :
    Runs s (putReceived dst i b s) := by
  cases dst with
  | host addr =>
    exact ⟨⟨⟨g.inv.cfgValid, g.inv.txBound, g.inv.rxBound, g.inv.txLegal, g.inv.noInterrupt,
      Memory.wf_write _ _ _ g.inv.memWf, g.inv.targetMemWf⟩, ⟨g.plat.clockOn, g.plat.aligned⟩,
      g.run⟩, ⟨rfl, rfl, rfl, rfl, rfl⟩, rfl, fun h => h⟩
  | reg => exact runs_note g fun w => { w with b := some b }

/-- The byte loop of RECEIVE under any environment (R192, R197). -/
theorem rxLoop_spec (dst : ByteDst) (t0 n : Nat) : ∀ (i : Nat) {s : State}, Good s →
    t0 < 2 ^ s.cfg.timerBits →
    Ends (rxLoop dst t0 i n s) fun c t => Runs s t ∧ outsideKept dst i n s t ∧
      t.bracket = s.bracket ∧ wordsOf t.trace = wordsOf s.trace ∧
      Outcomes c t (t.phase = s.phase ∧ (dst = .reg →
        s.work.b.isSome = true ∨ n ≠ 0 → t.work.b.isSome = true)) True := by
  induction n with
  | zero =>
    intro i s g _
    exact ends_done ⟨Runs.refl g, outsideKept_refl _ _ _ _, rfl, rfl,
      .inl ⟨rfl, rfl, fun _ h => h.resolve_right fun h' => h' rfl⟩⟩
  | succ n ih =>
    intro i s g ht
    unfold rxLoop
    have pn : Polls s (note (fun w => { w with i := some i }) s) := polls_note _ rfl
    refine ends_andThen (rxPoll_spec _ t0 (pn.good g) ht ?_)
      fun p s1 ⟨r1, m1, b1, w1, o1⟩ => ?_
    · refine le_trans (need_le_fuel _ _ _) (le_of_eq rfl)
    · have m1' : Still s s1 := ⟨m1.mem, m1.byte⟩
      have b1' : s1.bracket = s.bracket := b1
      have w1' : wordsOf s1.trace = wordsOf s.trace := w1
      have r1' : Runs s s1 := (pn.runs g).trans r1
      rcases o1 with ⟨b, rfl, ph⟩ | ⟨c, rfl, hc, ph⟩
      · have rp := runs_putReceived r1.good dst i b
        refine ends_mono (ih (i + 1) rp.good (by rw [rp.keeps.cfg, r1'.keeps.cfg]; exact ht))
          fun c t ⟨h1, h2, h3, h4, h5⟩ => ?_
        refine ⟨r1'.trans (rp.trans h1), ?_, ?_, ?_, ?_⟩
        · cases dst with
          | host addr =>
            refine ⟨fun a ha => ?_, ?_⟩
            · rw [h2.1 a fun j h h' => ha j (by omega) (by omega)]
              show (s1.mem.write (hostAddr addr i) b).read a = _
              rw [Memory.read_write_other _ _ _ _ (ha i (le_refl i) (by omega)), m1'.mem]
            · rw [h2.2]; exact m1'.byte
          | reg => exact Eq.trans h2 m1'.mem
        · rw [h3]; cases dst <;> exact b1'
        · rw [h4]; cases dst <;> exact w1'
        · rcases h5 with ⟨e, hp, hb⟩ | h
          · refine .inl ⟨e, ?_, ?_⟩
            · rw [hp]; cases dst <;> exact ph
            · intro hd _
              refine hb hd (.inl ?_)
              subst hd
              rfl
          · exact .inr h
      · exact ends_done ⟨r1', outsideKept_still (outsideKept_refl _ _ _ _) m1', b1', w1',
          .inr ⟨hc, ph, trivial⟩⟩

/-- RECEIVE under any environment (R192, R193): length 0 does nothing; otherwise the one receive word is
queued and the bytes stored, or an error. -/
theorem receive_spec (dst : ByteDst) {len : Nat} (hl : len ≤ 256) {s : State} (g : Good s) :
    Ends (receive dst len s) fun c t => Runs s t ∧ outsideKept dst 0 len s t ∧
      t.bracket = s.bracket ∧ (len = 0 → c = .ok ∧ t = s) ∧
      (len ≠ 0 → Outcomes c t (t.phase = .transferring ∧
        wordsOf t.trace = wordsOf s.trace ++ [receiveWord len] ∧
        (dst = .reg → t.work.b.isSome = true))
        (wordsOf t.trace = wordsOf s.trace ∨
          wordsOf t.trace = wordsOf s.trace ++ [receiveWord len])) := by
  unfold receive
  by_cases h0 : len = 0
  · rw [if_pos h0]
    exact ends_done ⟨Runs.refl g, outsideKept_refl _ _ _ _, rfl, fun _ => ⟨rfl, rfl⟩,
      fun h => absurd h0 h⟩
  rw [if_neg h0, if_neg (by omega)]
  have r0 := runs_update g .transferring s.bracket s.result s.work
  refine ends_andThen (now_spec (s := { s with phase := .transferring }) r0.good.inv)
    fun t0 s1 ⟨p1, h1, _, _⟩ => ?_
  have g1 := p1.good r0.good
  have ht1 : t0 < 2 ^ s.cfg.timerBits := by
    have := timerCount_lt s1
    rw [p1.cfg] at this
    rw [h1]; exact this
  refine ends_andThen (waitTxSpace_spec g1) fun e s2 ⟨p2, q2⟩ => ?_
  have g2 := p2.good g1
  have r2 : Runs s s2 := r0.trans ((p1.runs r0.good).trans (p2.runs g1))
  have m2 : Still s s2 := ⟨p2.mem.trans p1.mem, p2.byte.trans p1.byte⟩
  have b2 : s2.bracket = s.bracket := p2.bracket.trans p1.bracket
  have w2 : wordsOf s2.trace = wordsOf s.trace := p2.words.trans p1.words
  have ph2 : s2.phase = .transferring := p2.phase.trans p1.phase
  split
  · rename_i he
    refine ends_mono (raise_spec g2 e) fun c t ⟨h1, h2, h3, h4, h5, h6⟩ => ?_
    exact ⟨r2.trans h2, outsideKept_still (outsideKept_refl _ _ _ _) (m2.trans h3), h5.trans b2,
      fun h => absurd h h0, fun _ => .inr ⟨by rw [h1]; exact he, h4, .inl (h6.trans w2)⟩⟩
  · rename_i he
    have hsp : s2.txf.length < s2.cfg.fifoDepth := by
      rcases q2 with ⟨_, h⟩ | ⟨h, _⟩
      · exact h
      · exact absurd h he
    have pn : Polls s2 (note (fun w => { w with t0 := some t0 }) s2) := polls_note _ rfl
    have gn := pn.good g2
    refine ends_andThen (P := fun _ t => Polls s2 t) ?_ fun _ s3 p3 => ?_
    · unfold rxClear
      split
      · exact ends_mono (regWrite_status_spec gn clearAll) fun _ t ⟨h, _, _⟩ => pn.trans h
      · exact ends_done pn
    · have g3 := p3.good g2
      have hsp3 : s3.txf.length < s3.cfg.fifoDepth := by
        rw [p3.cfg]; exact lt_of_le_of_lt p3.txLen hsp
      refine ends_andThen (regWrite_txcmd_spec g3 hsp3 (entryLegal_of_cmd _))
        fun _ s4 ⟨r4, m4, ph4, b4, w4⟩ => ?_
      have r4' : Runs s s4 := r2.trans ((p3.runs g2).trans r4)
      have m4' : Still s s4 := m2.trans (p3.still.trans m4)
      have w4' : wordsOf s4.trace = wordsOf s.trace ++ [receiveWord len] := by
        rw [w4, p3.words, w2]
      refine ends_mono (rxLoop_spec dst t0 len 0 r4.good (by rw [r4'.keeps.cfg]; exact ht1))
        fun c t ⟨h1, h2, h3, h4, h5⟩ => ?_
      refine ⟨r4'.trans h1, still_outsideKept m4' h2, ?_, fun h => absurd h h0, fun _ => ?_⟩
      · rw [h3, b4, p3.bracket, b2]
      · rcases h5 with ⟨a, b, w⟩ | ⟨a, b, _⟩
        · refine .inl ⟨a, ?_, h4.trans w4', fun hd => w hd (.inr h0)⟩
          rw [b, ph4, p3.phase, ph2]
        · exact .inr ⟨a, b, .inr (h4.trans w4')⟩

end Sys2Proof.Machine
end

