-- ==== Sys2Proof/Laws/Dispatch.lean ====
section
/-! SUPPORT. TRANSFER under any environment (spec/44_dispatcher.md): how the message loop ends, what it
queues, and the one STOP behind it. -/

namespace Sys2Proof.Machine

/-- Memory outside the buffers of the read messages is as before. -/
def memKept (ms : List BusMsg) (s t : State) : Prop :=
  ∀ a, (∀ m ∈ ms, outsideMsg m a) → t.mem.read a = s.mem.read a

theorem memKept_refl (ms : List BusMsg) (s : State) : memKept ms s s := fun _ _ => rfl

/-- What a message sends does not depend on bytes the read messages of the list may write. -/
def Stable (ms : List BusMsg) (s : State) : Prop :=
  ∀ t, memKept ms s t → ∀ m ∈ ms, bodyOf t m = bodyOf s m

/-- Reads into the byte register. -/
def readsReg (m : BusMsg) : Prop :=
  match m with
  | .write _ _ => False
  | .read _ len dst => dst = .reg ∧ len ≠ 0

theorem starts_append (a b : List Word) : starts (a ++ b) = starts a ++ starts b := by
  simp [starts]

theorem isStart_startOf (m : BusMsg) : isStart (startOf m) = true := by
  have h : ∀ (a : BitVec 7) (d : Dir), isStart (startWord a d) = true := by
    intro a d
    cases d <;> (revert a; decide)
  cases m <;> exact h _ _

theorem not_special_dataWord (b : Byte) : isStart (dataWord b) = false ∧ dataWord b ≠ stopWord := by
  revert b; decide

theorem not_special_receiveWord (n : Nat) :
    isStart (receiveWord n) = false ∧ receiveWord n ≠ stopWord := by
  unfold receiveWord
  generalize BitVec.ofNat 8 (n - 1) = b
  revert b
  decide

theorem startWord_ne_stop (a : BitVec 7) (d : Dir) : startWord a d ≠ stopWord := by
  cases d <;> (revert a; decide)

theorem startOf_ne_stop (m : BusMsg) : startOf m ≠ stopWord := by
  cases m <;> exact startWord_ne_stop _ _

theorem sendWords_plain (src : ByteSrc) (i n : Nat) (s : State) :
    starts (sendWords src i n s) = [] ∧ stopWord ∉ sendWords src i n s := by
  unfold sendWords
  constructor
  · simp only [starts, List.filter_eq_nil_iff, List.mem_map]
    rintro w ⟨j, -, rfl⟩
    simp [(not_special_dataWord _).1]
  · simp only [List.mem_map, not_exists, not_and]
    intro j _ e
    exact (not_special_dataWord _).2 e

/-- One message under any environment: all its words and OK, or an error with its start word or none. -/
theorem runMsg_spec (m : BusMsg) (hl : lenLegal m) {s : State} (g : Good s)
    (hd : dividerAnswers s.cfg (reinitSpeed s)) :
    Ends (runMsg m s) fun c t => Runs s t ∧ memKept [m] s t ∧
      (c = .ok → wordsOf t.trace = wordsOf s.trace ++ msgWords s m ∧
        (s.work.b.isSome = true ∨ readsReg m → t.work.b.isSome = true)) ∧
      (c ≠ .ok → t.phase = .error ∧ ∃ ws, wordsOf t.trace = wordsOf s.trace ++ ws ∧
        stopWord ∉ ws ∧ (starts ws = [] ∨ starts ws = [startOf m])) := by
  cases m with
  | write a src =>
    unfold runMsg
    refine ends_andThen (start_spec g hd a .write) fun r s1 ⟨r1, m1, o1⟩ => ?_
    rcases o1 with ⟨hr, ph1, b1, w1⟩ | ⟨hr, ph1, w1⟩
    · rw [if_pos hr]
      refine ends_mono (send_spec src r1.good) fun c t ⟨h1, h2, h3, h4⟩ => ?_
      have hm : ∀ n, sendWords src 0 n s1 = sendWords src 0 n s := fun n =>
        sendWords_congr src 0 n m1.mem
      refine ⟨r1.trans h1, fun a _ => by rw [h2.mem, m1.mem], ?_, ?_⟩
      · intro hc
        rcases h4 with ⟨_, _, w⟩ | ⟨h, _⟩
        · refine ⟨?_, ?_⟩
          · rw [w, w1, hm]; simp [msgWords, startOf, bodyOf]
          · rintro (h | h)
            · rw [h2.byte, m1.byte]; exact h
            · exact absurd h (by simp [readsReg])
        · exact absurd hc h
      · intro hc
        rcases h4 with ⟨h, _⟩ | ⟨_, ph, k, hk, w⟩
        · exact absurd h hc
        · refine ⟨ph, startWord a .write :: sendWords src 0 k s1, ?_, ?_, .inr ?_⟩
          · rw [w, w1]; simp
          · simp only [List.mem_cons, not_or]
            exact ⟨(startWord_ne_stop _ _).symm, (sendWords_plain src 0 k s1).2⟩
          · have := (sendWords_plain src 0 k s1).1
            have hst := isStart_startOf (.write a src)
            simp only [startOf] at hst
            simp only [starts, List.filter_cons, hst, if_true] at this ⊢
            rw [this]
            rfl
    · rw [if_neg hr]
      refine ends_done ⟨r1, fun a _ => by rw [m1.mem], fun hc => absurd hc hr, fun _ =>
        ⟨ph1, [], by simp [w1], by simp, .inl rfl⟩⟩
  | read a len dst =>
    unfold runMsg
    refine ends_andThen (start_spec g hd a .read) fun r s1 ⟨r1, m1, o1⟩ => ?_
    rcases o1 with ⟨hr, ph1, b1, w1⟩ | ⟨hr, ph1, w1⟩
    · rw [if_pos hr]
      refine ends_mono (receive_spec dst hl r1.good) fun c t ⟨h1, h2, h3, h0, h4⟩ => ?_
      have hst := isStart_startOf (.read a len dst)
      simp only [startOf] at hst
      refine ⟨r1.trans h1, ?_, ?_, ?_⟩
      · intro x hx
        have hx := hx (.read a len dst) (by simp)
        cases dst with
        | host addr =>
          rw [← m1.mem]
          exact h2.1 x fun j _ hj => hx j (by omega)
        | reg =>
          have : t.mem = s1.mem := h2
          rw [this, m1.mem]
      · intro hc
        by_cases hz : len = 0
        · obtain ⟨-, e⟩ := h0 hz
          refine ⟨?_, ?_⟩
          · rw [e, w1]; simp [msgWords, startOf, bodyOf, hz]
          · rintro (h | h)
            · rw [e, m1.byte]; exact h
            · exact absurd hz h.2
        · rcases h4 hz with ⟨_, _, w, hb⟩ | ⟨h, _⟩
          · refine ⟨?_, ?_⟩
            · rw [w, w1]; simp [msgWords, startOf, bodyOf, hz]
            · intro h
              cases dst with
              | host addr =>
                rcases h with h | h
                · rw [h2.2, m1.byte]; exact h
                · exact absurd h.1 (by simp)
              | reg => exact hb rfl
          · exact absurd hc h
      · intro hc
        by_cases hz : len = 0
        · exact absurd (h0 hz).1 hc
        · rcases h4 hz with ⟨h, _⟩ | ⟨_, ph, w⟩
          · exact absurd h hc
          · rcases w with w | w
            · refine ⟨ph, [startWord a .read], by rw [w, w1], ?_, .inr ?_⟩
              · simp only [List.mem_singleton]; exact (startWord_ne_stop _ _).symm
              · simp [starts, hst, startOf]
            · refine ⟨ph, [startWord a .read, receiveWord len], by rw [w, w1]; simp, ?_, .inr ?_⟩
              · simp only [List.mem_cons, List.not_mem_nil, or_false, not_or]
                exact ⟨(startWord_ne_stop _ _).symm, ((not_special_receiveWord len).2).symm⟩
              · simp [starts, hst, startOf, (not_special_receiveWord len).1]
    · rw [if_neg hr]
      refine ends_done ⟨r1, fun a _ => by rw [m1.mem], fun hc => absurd hc hr, fun _ =>
        ⟨ph1, [], by simp [w1], by simp, .inl rfl⟩⟩

theorem msgWords_plain (s : State) (m : BusMsg) :
    stopWord ∉ msgWords s m ∧ starts (msgWords s m) = [startOf m] := by
  have hst := isStart_startOf m
  unfold msgWords
  cases m with
  | write a src =>
    have h := sendWords_plain src 0 (srcLen src) s
    refine ⟨?_, ?_⟩
    · simp only [bodyOf, List.mem_cons, not_or]
      exact ⟨(startOf_ne_stop _).symm, h.2⟩
    · have h1 := h.1
      simp only [starts, bodyOf, List.filter_cons, hst, if_true] at h1 ⊢
      rw [h1]
  | read a len dst =>
    have h := not_special_receiveWord len
    unfold bodyOf
    dsimp only
    split
    · refine ⟨?_, by simp [starts, hst]⟩
      simp only [List.mem_singleton]
      exact (startOf_ne_stop _).symm
    · refine ⟨?_, by simp [starts, hst, h.1]⟩
      simp only [List.mem_cons, List.not_mem_nil, or_false, not_or]
      exact ⟨(startOf_ne_stop _).symm, h.2.symm⟩

/-- The message loop under any environment (R230 to R234). -/
theorem transferLoop_spec (ms : List BusMsg) : ∀ (k : Nat) (ret : Code) {s : State}, Good s →
    dividerAnswers s.cfg (reinitSpeed s) → (∀ m ∈ ms, lenLegal m) →
    Ends (transferLoop k ms ret s) fun c t => Runs s t ∧ memKept ms s t ∧
      (ret ≠ .ok → c = ret) ∧
      ∃ ws, wordsOf t.trace = wordsOf s.trace ++ ws ∧ stopWord ∉ ws ∧
        List.Sublist (starts ws) (ms.map startOf) ∧
        (c = .ok → starts ws = ms.map startOf ∧
          (Stable ms s → ws = ms.flatMap (msgWords s)) ∧
          (s.work.b.isSome = true ∨ (∃ m ∈ ms, readsReg m) → t.work.b.isSome = true)) := by
  induction ms with
  | nil =>
    intro k ret s g _ _
    exact ends_done ⟨Runs.refl g, memKept_refl _ _, fun _ => rfl, [], by simp, by simp,
      by simp [starts], fun _ => ⟨rfl, fun _ => rfl, by simp⟩⟩
  | cons m rest ih =>
    intro k ret s g hd hl
    unfold transferLoop
    have rn := runs_note g fun w => { w with k := some k }
    refine ends_andThen (runMsg_spec m (hl m (by simp)) rn.good (by
      rw [rn.keeps.cfg, rn.reinit]; exact hd)) fun r s1 ⟨r1, mk1, ok1, er1⟩ => ?_
    have r1' : Runs s s1 := rn.trans r1
    have mk1' : memKept [m] s s1 := fun a ha => mk1 a ha
    dsimp only
    have w1 : ∃ ws, wordsOf s1.trace = wordsOf s.trace ++ ws ∧ stopWord ∉ ws ∧
        List.Sublist (starts ws) [startOf m] ∧
        (r = .ok → ws = msgWords s m ∧
          (s.work.b.isSome = true ∨ readsReg m → s1.work.b.isSome = true)) := by
      by_cases hr : r = .ok
      · obtain ⟨w, hb⟩ := ok1 hr
        have e : msgWords (note (fun w => { w with k := some k }) s) m = msgWords s m := by
          unfold msgWords bodyOf
          cases m <;> simp [sendWords_congr _ _ _ (show (note _ s).mem = s.mem from rfl)]
        rw [e] at w
        exact ⟨msgWords s m, w, (msgWords_plain s m).1, by rw [(msgWords_plain s m).2],
          fun _ => ⟨rfl, hb⟩⟩
      · obtain ⟨_, ws, w, hs, hst⟩ := er1 hr
        refine ⟨ws, w, hs, ?_, fun h => absurd h hr⟩
        rcases hst with h | h
        · rw [h]; simp
        · rw [h]
    obtain ⟨ws1, w1, ns1, st1, fw1⟩ := w1
    have rn2 := runs_note r1.good fun w =>
      { w with r := some r, ret := some (firstError ret r) }
    split
    · rename_i hend
      have hr : r ≠ .ok := by
        cases m with
        | write a src => simpa [endsLoop] using hend
        | read a len dst => simp [endsLoop] at hend
      have hf : firstError ret r ≠ .ok := by
        unfold firstError; split
        · exact hr
        · assumption
      refine ends_done ⟨r1'.trans rn2, ?_, ?_, ws1, w1, ns1, ?_, fun h => absurd h hf⟩
      · intro a ha
        exact mk1' a fun m' hm' => ha m' (by
          simp only [List.mem_singleton] at hm'; rw [hm']; simp)
      · intro h; unfold firstError; rw [if_neg h]
      · exact st1.trans (by simp)
    · refine ends_mono (ih (k + 1) (firstError ret r) rn2.good (by
        rw [(r1'.trans rn2).keeps.cfg, (r1'.trans rn2).reinit]; exact hd)
        fun m' hm' => hl m' (by simp [hm'])) fun c t ⟨h1, h2, h3, ws2, w2, ns2, st2, ok2⟩ => ?_
      refine ⟨r1'.trans (rn2.trans h1), ?_, ?_, ws1 ++ ws2, ?_, ?_, ?_, ?_⟩
      · intro a ha
        have e1 := h2 a fun m' hm' => ha m' (by simp [hm'])
        have e2 := mk1' a fun m' hm' => ha m' (by
          simp only [List.mem_singleton] at hm'; rw [hm']; simp)
        rw [e1]; exact e2
      · intro h
        have : firstError ret r = ret := by unfold firstError; rw [if_neg h]
        rw [this] at h3
        exact h3 h
      · rw [w2]
        show wordsOf s1.trace ++ ws2 = _
        rw [w1, List.append_assoc]
      · simp only [List.mem_append, not_or]; exact ⟨ns1, ns2⟩
      · rw [starts_append, List.map_cons]
        exact List.Sublist.append st1 st2
      · intro hc
        have hf : firstError ret r = .ok := by
          by_contra hne
          exact hne (by rw [← h3 hne]; exact hc)
        have hr : r = .ok := by
          unfold firstError at hf
          split at hf
          · exact hf
          · rename_i hne; exact absurd hf hne
        obtain ⟨e1, b1⟩ := fw1 hr
        obtain ⟨e2, e3, b2⟩ := ok2 hc
        refine ⟨?_, ?_, ?_⟩
        · rw [starts_append, e1, (msgWords_plain s m).2, e2]; rfl
        · intro hst
          have hk : memKept (m :: rest) s s1 := fun a ha => mk1' a fun m' hm' => ha m' (by
            simp only [List.mem_singleton] at hm'; rw [hm']; simp)
          have hst' : Stable rest (note (fun w =>
              { w with r := some r, ret := some (firstError ret r) }) s1) := by
            intro t ht m' hm'
            have ht' : memKept (m :: rest) s t := fun a ha => by
              rw [ht a fun m'' hm'' => ha m'' (by simp [hm''])]; exact hk a ha
            rw [hst t ht' m' (by simp [hm'])]
            exact (hst _ hk m' (by simp [hm'])).symm
          rw [e1, e3 hst', List.flatMap_cons]
          congr 1
          apply List.flatMap_congr
          intro m' hm'
          have := hst _ hk m' (by simp [hm'])
          unfold msgWords
          rw [← this]
          congr 1
        · rintro (h | ⟨m', hm', h⟩)
          · exact b2 (.inl (b1 (.inl h)))
          · rcases List.mem_cons.1 hm' with rfl | hm'
            · exact b2 (.inl (b1 (.inr h)))
            · exact b2 (.inr ⟨m', hm', h⟩)

/-- TRANSFER under any environment (R230, R233, R234, R236): it ends; one STOP, behind everything; the
first error wins. -/
theorem transfer_spec (ms : List BusMsg) {s : State} (g : Good s)
    (hd : dividerAnswers s.cfg (reinitSpeed s)) (hl : ∀ m ∈ ms, lenLegal m) :
    Ends (transfer ms s) fun c t => Runs s t ∧ memKept ms s t ∧ t.bracket = false ∧
      ∃ ws, stopWord ∉ ws ∧ List.Sublist (starts ws) (ms.map startOf) ∧
        (wordsOf t.trace = wordsOf s.trace ++ ws ∨
          wordsOf t.trace = wordsOf s.trace ++ ws ++ [stopWord]) ∧
        (c = .ok → t.phase = .idle ∧ wordsOf t.trace = wordsOf s.trace ++ ws ++ [stopWord] ∧
          starts ws = ms.map startOf ∧ (Stable ms s → ws = ms.flatMap (msgWords s)) ∧
          (s.work.b.isSome = true ∨ (∃ m ∈ ms, readsReg m) → t.work.b.isSome = true)) ∧
        (t.phase = .idle ∨ t.phase = .error) := by
  unfold transfer
  have rn := runs_note g fun w => { w with ret := some .ok, msgs := some ms }
  refine ends_andThen (transferLoop_spec ms 0 .ok rn.good (by
    rw [rn.keeps.cfg, rn.reinit]; exact hd) hl) fun ret s1 ⟨r1, mk1, _, ws, w1, ns1, st1, ok1⟩ => ?_
  refine ends_andThen (stop_spec r1.good) fun rs s2 ⟨r2, m2, b2, o2⟩ => ?_
  have rn2 := runs_note r2.good fun w =>
    { w with rs := some rs, ret := some (firstError ret rs) }
  refine ends_done ⟨rn.trans (r1.trans (r2.trans rn2)), ?_, b2, ws, ns1, st1, ?_, ?_, ?_⟩
  · intro a ha
    show s2.mem.read a = _
    rw [m2.mem]; exact mk1 a ha
  · show wordsOf s2.trace = _ ∨ wordsOf s2.trace = _
    rcases o2 with ⟨_, _, w⟩ | ⟨_, _, w⟩
    · exact .inr (by rw [w, w1]; rfl)
    · rcases w with w | w
      · exact .inl (by rw [w, w1]; rfl)
      · exact .inr (by rw [w, w1]; rfl)
  · intro hc
    have hret : ret = .ok := by
      unfold firstError at hc
      split at hc
      · assumption
      · exact hc
    have hrs : rs = .ok := by
      unfold firstError at hc
      rw [if_pos hret] at hc
      exact hc
    obtain ⟨e1, e2, e3⟩ := ok1 hret
    rcases o2 with ⟨_, ph, w⟩ | ⟨h, _⟩
    · refine ⟨ph, ?_, e1, ?_, ?_⟩
      · show wordsOf s2.trace = _
        rw [w, w1]; rfl
      · intro hst
        have : Stable ms (note (fun w => { w with ret := some .ok, msgs := some ms }) s) := by
          intro t ht m hm
          rw [hst t ht m hm]
          exact (hst _ (memKept_refl ms s) m hm).symm
        rw [e2 this]
        apply List.flatMap_congr
        intro m _
        unfold msgWords
        congr 1
      · intro h
        show s2.work.b.isSome = true
        rw [m2.byte]
        exact e3 h
    · exact absurd hrs h
  · show s2.phase = _ ∨ s2.phase = _
    rcases o2 with ⟨_, ph, _⟩ | ⟨_, ph, _⟩
    · exact .inl ph
    · exact .inr ph

end Sys2Proof.Machine
end

