-- ==== Sys2Proof/Laws/ChipRuns.lean ====
section
/-! SUPPORT. CHIP_READ, CHIP_WRITE and CRC32_REGION under any environment
(spec/45_chip_addressing.md, spec/46_integrity.md). -/

namespace Sys2Proof.Machine

theorem sendWords_bytes (l : List Byte) (s : State) :
    sendWords (.bytes l) 0 (srcLen (.bytes l)) s = l.map dataWord := by
  unfold sendWords srcLen srcByte
  apply List.ext_getElem
  · simp
  · intro i h1 h2
    simp only [List.length_map, List.length_range] at h1
    simp [h1]

theorem stable_of_bytes {ms : List BusMsg} {s : State}
    (h : ∀ m ∈ ms, ∀ a src, m = .write a src → ∃ l, src = .bytes l) : Stable ms s := by
  intro t _ m hm
  cases m with
  | write a src =>
    obtain ⟨l, rfl⟩ := h _ hm a src rfl
    unfold bodyOf
    dsimp only
    rw [sendWords_bytes, sendWords_bytes]
  | read a len dst => rfl

theorem mem_readMsgs {c : Chip} {o : Word} {dst : ByteDst} {len : Nat} {m : BusMsg}
    (h : m ∈ readMsgs c o dst len) :
    m = offsetMsg c o ∨ (len ≠ 0 ∧ m = .read (foldedAddr c o) len dst) := by
  unfold readMsgs at h
  rcases List.mem_append.1 h with h | h
  · split at h
    · simp at h
    · simp only [List.mem_singleton] at h; exact .inl h
  · split at h
    · simp at h
    · rename_i hz
      simp only [List.mem_singleton] at h; exact .inr ⟨hz, h⟩

theorem readMsgs_words (c : Chip) (o : Word) (dst : ByteDst) (len : Nat) (s : State) :
    (readMsgs c o dst len).flatMap (msgWords s) ++ [stopWord] = readWords c o len := by
  unfold readMsgs readWords offsetWords
  by_cases hz : isZeroWidth c = true
  · by_cases hl : len = 0
    · simp [hz, hl]
    · simp [hz, hl, msgWords, bodyOf, startOf]
  · by_cases hl : len = 0
    · simp [hz, hl, msgWords, bodyOf, startOf, offsetMsg, sendWords_bytes]
    · simp [hz, hl, msgWords, bodyOf, startOf, offsetMsg, sendWords_bytes]

/-- The host memory a read may change. -/
def readKept (dst : ByteDst) (i n : Nat) (s t : State) : Prop :=
  ∀ a, (∀ addr, dst = .host addr → ∀ j, i ≤ j → j < i + n → a ≠ hostAddr addr j) →
    t.mem.read a = s.mem.read a

/-- A block read under any environment (R251). -/
theorem blockRead_spec (c : Chip) (o : Word) (dst : ByteDst) {len : Nat} (hl : len ≤ 256)
    {s : State} (g : Good s) (hd : dividerAnswers s.cfg (reinitSpeed s)) :
    Ends (transfer (readMsgs c o dst len) s) fun r t => Runs s t ∧ readKept dst 0 len s t ∧
      (r = .ok → t.phase = .idle ∧ wordsOf t.trace = wordsOf s.trace ++ readWords c o len ∧
        (s.work.b.isSome = true ∨ (dst = .reg ∧ len ≠ 0) → t.work.b.isSome = true)) := by
  refine ends_mono (transfer_spec (readMsgs c o dst len) g hd ?_)
    fun r t ⟨h1, h2, h3, ws, h4, h5, h6, h7, h8⟩ => ⟨h1, ?_, ?_⟩
  · intro m hm
    rcases mem_readMsgs hm with rfl | ⟨_, rfl⟩
    · trivial
    · exact hl
  · intro a ha
    refine h2 a fun m hm => ?_
    rcases mem_readMsgs hm with rfl | ⟨_, rfl⟩
    · trivial
    · cases dst with
      | host addr => exact fun j hj => ha addr rfl j (by omega) (by omega)
      | reg => trivial
  · intro hr
    obtain ⟨p1, p2, p3, p4, p5⟩ := h7 hr
    have hst : Stable (readMsgs c o dst len) s := stable_of_bytes fun m hm a src e => by
      rcases mem_readMsgs hm with rfl | ⟨_, rfl⟩
      · unfold offsetMsg at e
        cases e
        exact ⟨_, rfl⟩
      · cases e
    refine ⟨p1, ?_, ?_⟩
    · rw [p2, p4 hst, List.append_assoc, readMsgs_words]
    · rintro (h | ⟨h, hz⟩)
      · exact p5 (.inl h)
      · refine p5 (.inr ⟨.read (foldedAddr c o) len dst, ?_, h, hz⟩)
        unfold readMsgs
        simp [hz]

theorem runs_setupOffset {s : State} (g : Good s) (c : Chip) (o : Word) :
    Runs s (setupOffset c o s) := runs_note g _

theorem hostAddr_offset (addr : Word) (i : Nat) :
    hostAddr (addr + BitVec.ofNat 32 i) 0 = hostAddr addr i := by
  unfold hostAddr
  rw [BitVec.toNat_add, BitVec.toNat_ofNat]
  omega

/-- The bytewise read loop under any environment (R252, R259). -/
theorem readBytewise_spec (c : Chip) (o : Word) (dst : ByteDst) (n : Nat) : ∀ (i : Nat) {s : State},
    Good s → dividerAnswers s.cfg (reinitSpeed s) →
    Ends (readBytewise c o dst i n s) fun r t => Runs s t ∧ readKept dst i n s t ∧
      (n ≠ 0 → isZeroWidth c = true → r = .invalidOffsetCfg ∧ t.mem = s.mem ∧
        t.phase = s.phase ∧ wordsOf t.trace = wordsOf s.trace) ∧
      (r = .ok → (n ≠ 0 → isZeroWidth c = false) ∧
        (s.phase = .idle ∨ n ≠ 0 → t.phase = .idle) ∧
        wordsOf t.trace = wordsOf s.trace ++
          (List.range n).flatMap (fun j => readWords c (offsetPlus o (i + j)) 1) ∧
        (s.work.b.isSome = true ∨ (dst = .reg ∧ n ≠ 0) → t.work.b.isSome = true)) := by
  induction n with
  | zero =>
    intro i s g _
    exact ends_done ⟨Runs.refl g, fun _ _ => rfl, fun h => absurd rfl h,
      fun _ => ⟨fun h => absurd rfl h, by simp, by simp, by simp⟩⟩
  | succ n ih =>
    intro i s g hd
    unfold readBytewise
    dsimp only
    have rn := runs_note g fun w => { w with i := some i }
    have ro := runs_setupOffset rn.good c (offsetPlus o i)
    have r0 := rn.trans ro
    split
    · rename_i hz
      exact ends_done ⟨r0, fun _ _ => rfl, fun _ _ => ⟨rfl, rfl, rfl, rfl⟩, fun h => by simp at h⟩
    · rename_i hz
      have hz' : isZeroWidth c = false := by simpa using hz
      have hms : [offsetMsg c (offsetPlus o i),
          .read (foldedAddr c (offsetPlus o i)) 1 (dstAt dst i)] =
          readMsgs c (offsetPlus o i) (dstAt dst i) 1 := by
        unfold readMsgs; simp [hz']
      rw [hms]
      refine ends_andThen (blockRead_spec c (offsetPlus o i) (dstAt dst i) (by omega) r0.good
        (r0.answers hd)) fun r s1 ⟨r1, k1, ok1⟩ => ?_
      have k1' : readKept dst i 1 s s1 := by
        intro a ha
        refine k1 a fun addr e j _ hj => ?_
        cases dst with
        | host b =>
          simp only [dstAt, ByteDst.host.injEq] at e
          rw [← e, show j = 0 by omega, hostAddr_offset]
          exact ha b rfl i (by omega) (by omega)
        | reg => simp [dstAt] at e
      split
      · rename_i hr
        refine ends_done ⟨r0.trans r1, fun a ha => k1' a fun addr e j hj hj' =>
          ha addr e j hj (by omega), fun _ h => absurd h hz, fun h => absurd h hr⟩
      · rename_i hr
        have hr : r = .ok := by simpa using hr
        obtain ⟨p1, w1, b1⟩ := ok1 hr
        have r1' := r0.trans r1
        refine ends_mono (ih (i + 1) r1.good (by rw [r1'.keeps.cfg, r1'.reinit]; exact hd))
          fun q t ⟨h1, h2, h3, h4⟩ => ⟨r1'.trans h1, ?_, fun _ h => absurd h hz, ?_⟩
        · intro a ha
          rw [h2 a fun addr e j hj hj' => ha addr e j (by omega) (by omega)]
          exact k1' a fun addr e j hj hj' => ha addr e j hj (by omega)
        · intro hq
          obtain ⟨_, a1, a2, a3⟩ := h4 hq
          refine ⟨fun _ => hz', fun _ => a1 (.inl p1), ?_, ?_⟩
          · rw [a2, w1]
            show wordsOf s.trace ++ _ ++ _ = _
            rw [List.range_succ_eq_map, List.flatMap_cons, List.flatMap_map, List.append_assoc]
            simp only [Nat.add_zero]
            congr 2
            apply List.flatMap_congr
            intro j _
            rw [show i + (j + 1) = i + 1 + j by omega]
          · rintro (h | ⟨h, _⟩)
            · exact a3 (.inl (b1 (.inl h)))
            · subst h
              exact a3 (.inl (b1 (.inr ⟨rfl, by omega⟩)))

/-- CHIP_READ under any environment (R251, R252, R259). -/
theorem chipRead_spec (c : Chip) (o : Word) (dst : ByteDst) {len : Nat}
    (hl : rdBytewise c = true ∨ len ≤ 256) {s : State} (g : Good s)
    (hd : dividerAnswers s.cfg (reinitSpeed s)) :
    Ends (chipRead c o dst len s) fun r t => Runs s t ∧ readKept dst 0 len s t ∧
      (rdBytewise c = true → isZeroWidth c = true → len ≠ 0 → r = .invalidOffsetCfg ∧
        t.mem = s.mem ∧ t.phase = s.phase ∧ wordsOf t.trace = wordsOf s.trace) ∧
      (r = .ok → (s.phase = .idle ∨ rdBytewise c = false ∨ len ≠ 0 → t.phase = .idle) ∧
        wordsOf t.trace = wordsOf s.trace ++
          (if rdBytewise c then (List.range len).flatMap (fun j => readWords c (offsetPlus o j) 1)
            else readWords c o len) ∧
        (s.work.b.isSome = true ∨ (dst = .reg ∧ len ≠ 0) → t.work.b.isSome = true)) := by
  unfold chipRead
  split
  · rename_i hb
    refine ends_mono (readBytewise_spec c o dst len 0 g hd) fun r t ⟨h1, h2, h3, h4⟩ =>
      ⟨h1, h2, fun _ hz hn => h3 hn hz, fun hr => ?_⟩
    obtain ⟨_, a1, a2, a3⟩ := h4 hr
    refine ⟨fun h => a1 ?_, ?_, a3⟩
    · rcases h with h | h | h
      · exact .inl h
      · rw [hb] at h; simp at h
      · exact .inr h
    · rw [a2]
      simp
  · rename_i hb
    have hlen : len ≤ 256 := by
      rcases hl with h | h
      · exact absurd h hb
      · exact h
    rw [if_neg (by omega)]
    have ro := runs_setupOffset g c o
    refine ends_mono (blockRead_spec c o dst hlen ro.good (ro.answers hd)) fun r t ⟨h1, h2, h3⟩ =>
      ⟨ro.trans h1, h2, fun h => absurd h hb, fun hr => ?_⟩
    obtain ⟨p1, w1, b1⟩ := h3 hr
    refine ⟨fun _ => p1, ?_, b1⟩
    rw [w1]
    simp

/-- The host memory is read as before everywhere. -/
def memSame (s t : State) : Prop := ∀ a, t.mem.read a = s.mem.read a

theorem writeMsg_words (c : Chip) (o : Word) (payload : List Byte) (s : State) :
    [writeMsg c o payload].flatMap (msgWords s) ++ [stopWord] = writeWords c o payload := by
  unfold writeMsg writeWords
  simp [msgWords, bodyOf, startOf, sendWords_bytes]

/-- A block write under any environment (R253). -/
theorem blockWrite_spec (c : Chip) (o : Word) (payload : List Byte) {s : State} (g : Good s)
    (hd : dividerAnswers s.cfg (reinitSpeed s)) :
    Ends (transfer [writeMsg c o payload] s) fun r t => Runs s t ∧ memSame s t ∧
      (r = .ok → t.phase = .idle ∧
        wordsOf t.trace = wordsOf s.trace ++ writeWords c o payload) := by
  refine ends_mono (transfer_spec [writeMsg c o payload] g hd ?_)
    fun r t ⟨h1, h2, h3, ws, h4, h5, h6, h7, h8⟩ => ⟨h1, ?_, ?_⟩
  · intro m hm
    simp only [List.mem_singleton] at hm
    rw [hm]
    trivial
  · intro a
    refine h2 a fun m hm => ?_
    simp only [List.mem_singleton] at hm
    rw [hm]
    trivial
  · intro hr
    obtain ⟨p1, p2, p3, p4, p5⟩ := h7 hr
    have hst : Stable [writeMsg c o payload] s := stable_of_bytes fun m hm a src e => by
      simp only [List.mem_singleton] at hm
      rw [hm] at e
      unfold writeMsg at e
      cases e
      exact ⟨_, rfl⟩
    exact ⟨p1, by rw [p2, p4 hst, List.append_assoc, writeMsg_words]⟩

/-- The bytewise write loop under any environment (R254, R259). -/
theorem writeBytewise_spec (c : Chip) (o buf : Word) (n : Nat) : ∀ (i : Nat) {s : State},
    Good s → dividerAnswers s.cfg (reinitSpeed s) →
    Ends (writeBytewise c o buf i n s) fun r t => Runs s t ∧ memSame s t ∧
      (n ≠ 0 → isZeroWidth c = true → r = .invalidOffsetCfg ∧
        t.phase = s.phase ∧ wordsOf t.trace = wordsOf s.trace) ∧
      (r = .ok → (s.phase = .idle ∨ n ≠ 0 → t.phase = .idle) ∧
        wordsOf t.trace = wordsOf s.trace ++ (List.range n).flatMap (fun j =>
          writeWords c (offsetPlus o (i + j)) [s.mem.read (hostAddr buf (i + j))])) := by
  induction n with
  | zero =>
    intro i s g _
    exact ends_done ⟨Runs.refl g, fun _ => rfl, fun h => absurd rfl h, fun _ => ⟨by simp, by simp⟩⟩
  | succ n ih =>
    intro i s g hd
    unfold writeBytewise
    dsimp only
    have rn := runs_note g fun w => { w with i := some i }
    have r0 := rn.trans (runs_setupOffset rn.good c (offsetPlus o i))
    split
    · exact ends_done ⟨r0, fun _ => rfl, fun _ _ => ⟨rfl, rfl, rfl⟩, fun h => by simp at h⟩
    · rename_i hz
      generalize hb : (setupOffset c (offsetPlus o i)
        (note (fun w => { w with i := some i }) s)).mem.read (hostAddr buf i) = b
      have hb' : s.mem.read (hostAddr buf i) = b := hb
      have rf := runs_setupOffset r0.good c (offsetPlus o i)
      have rf2 := runs_note rf.good fun w => { w with
        stage := some (stageBytes c (offsetPlus o i) [b])
        msgs := some [writeMsg c (offsetPlus o i) [b]] }
      have r1 := r0.trans (rf.trans rf2)
      refine ends_andThen (blockWrite_spec c (offsetPlus o i) [b] rf2.good (r1.answers hd)) fun r s1 ⟨h1, k1, ok1⟩ => ?_
      have k1' : memSame s s1 := fun a => k1 a
      split
      · rename_i hr
        exact ends_done ⟨r1.trans h1, k1', fun _ h => absurd h hz, fun h => absurd h hr⟩
      · rename_i hr
        have hr : r = .ok := by simpa using hr
        obtain ⟨p1, w1⟩ := ok1 hr
        have r1' := r1.trans h1
        refine ends_mono (ih (i + 1) h1.good (by rw [r1'.keeps.cfg, r1'.reinit]; exact hd))
          fun q t ⟨h2, h3, h4, h5⟩ => ⟨r1'.trans h2, fun a => by rw [h3 a]; exact k1' a,
            fun _ h => absurd h hz, fun hq => ?_⟩
        obtain ⟨a1, a2⟩ := h5 hq
        refine ⟨fun _ => a1 (.inl p1), ?_⟩
        rw [a2, w1]
        show wordsOf s.trace ++ _ ++ _ = _
        rw [List.range_succ_eq_map, List.flatMap_cons, List.flatMap_map, List.append_assoc]
        simp only [Nat.add_zero, hb']
        congr 2
        apply List.flatMap_congr
        intro j _
        rw [show i + (j + 1) = i + 1 + j by omega, k1']

/-- CHIP_WRITE under any environment (R253, R254, R256, R259). -/
theorem chipWrite_spec (c : Chip) (o buf : Word) {len : Nat} {s : State}
    (hl : len ≤ s.cfg.maxXfer) (g : Good s) (hd : dividerAnswers s.cfg (reinitSpeed s)) :
    Ends (chipWrite c o buf len s) fun r t => Runs s t ∧ memSame s t ∧
      (wrBytewise c = true → isZeroWidth c = true → len ≠ 0 → r = .invalidOffsetCfg ∧
        t.phase = s.phase ∧ wordsOf t.trace = wordsOf s.trace) ∧
      (r = .ok → (s.phase = .idle ∨ wrBytewise c = false ∨ len ≠ 0 → t.phase = .idle) ∧
        wordsOf t.trace = wordsOf s.trace ++
          (if wrBytewise c then (List.range len).flatMap (fun j =>
              writeWords c (offsetPlus o j) [s.mem.read (hostAddr buf j)])
            else writeWords c o (payloadOf buf len s))) := by
  unfold chipWrite
  rw [if_neg (by omega)]
  split
  · rename_i hb
    refine ends_mono (writeBytewise_spec c o buf len 0 g hd) fun r t ⟨h1, h2, h3, h4⟩ =>
      ⟨h1, h2, fun _ hz hn => h3 hn hz, fun hr => ?_⟩
    obtain ⟨a1, a2⟩ := h4 hr
    refine ⟨fun h => a1 ?_, ?_⟩
    · rcases h with h | h | h
      · exact .inl h
      · rw [hb] at h; simp at h
      · exact .inr h
    · rw [a2]
      simp
  · rename_i hb
    dsimp only
    have ro := runs_setupOffset g c o
    have rf := runs_note ro.good fun w => { w with
      stage := some (stageBytes c o (payloadOf buf len s))
      msgs := some [writeMsg c o (payloadOf buf len s)] }
    have r1 := ro.trans rf
    refine ends_mono (blockWrite_spec c o (payloadOf buf len s) rf.good (r1.answers hd)) fun r t ⟨h1, h2, h3⟩ =>
      ⟨r1.trans h1, fun a => h2 a, fun h => absurd h hb, fun hr => ?_⟩
    obtain ⟨p1, w1⟩ := h3 hr
    refine ⟨fun _ => p1, ?_⟩
    rw [w1]
    simp

/-- The byte loop of CRC32_REGION under any environment (R281, R285): every byte has its own CHIP_READ,
and no host byte changes. -/
theorem crcLoop_spec (c : Chip) (start expected : Word) (n : Nat) : ∀ (j : Nat) (crc : Word)
    {s : State}, Good s → dividerAnswers s.cfg (reinitSpeed s) →
    Ends (crcLoop c start expected j n crc s) fun r t => Runs s t ∧ memSame s t ∧
      (r = .ok →
        ((rdBytewise c = true ∧ isZeroWidth c = true) → n = 0) ∧
        wordsOf t.trace = wordsOf s.trace ++
          (List.range n).flatMap (fun k => readWords c (offsetPlus start (j + k)) 1)) ∧
      (n = 0 → r = (if crc = expected then .ok else .crc)) := by
  induction n with
  | zero =>
    intro j crc s g _
    refine ends_done ⟨Runs.refl g, fun _ => rfl, fun _ => ⟨fun _ => rfl, by simp⟩, fun _ => rfl⟩
  | succ n ih =>
    intro j crc s g hd
    unfold crcLoop
    have rn := runs_note g fun w => { w with j := some j, crc := some crc }
    refine ends_andThen (chipRead_spec c (offsetPlus start j) .reg (len := 1) (.inr (by omega))
      rn.good (rn.answers hd)) fun r s1 ⟨r1, k1, z1, ok1⟩ => ?_
    have k1' : memSame s s1 := fun a => k1 a (by simp)
    split
    · rename_i hr
      refine ends_done ⟨rn.trans r1, k1', fun h => absurd h hr, fun h => absurd h (by omega)⟩
    · rename_i hr
      have hr : r = .ok := by simpa using hr
      obtain ⟨_, w1, b1⟩ := ok1 hr
      have hz : ¬ (rdBytewise c = true ∧ isZeroWidth c = true) := fun h => by
        have := (z1 h.1 h.2 (by omega)).1
        rw [hr] at this
        simp at this
      have hb := b1 (.inr ⟨rfl, by omega⟩)
      have w1' : wordsOf s1.trace = wordsOf s.trace ++ readWords c (offsetPlus start j) 1 := by
        rw [w1]
        show wordsOf s.trace ++ _ = _
        split
        · simp [offsetPlus]
        · rfl
      have r1' := rn.trans r1
      cases hbb : s1.work.b with
      | none => rw [hbb] at hb; simp at hb
      | some b =>
        dsimp only
        refine ends_mono (ih (j + 1) _ r1.good (by rw [r1'.keeps.cfg, r1'.reinit]; exact hd))
          fun q t ⟨h1, h2, h3, h4⟩ => ⟨r1'.trans h1, fun a => by rw [h2 a]; exact k1' a,
            fun hq => ⟨fun h => absurd h hz, ?_⟩, fun h => absurd h (by omega)⟩
        rw [(h3 hq).2, w1', List.range_succ_eq_map, List.flatMap_cons, List.flatMap_map,
          List.append_assoc]
        simp only [Nat.add_zero]
        congr 2
        apply List.flatMap_congr
        intro k _
        rw [show j + (k + 1) = j + 1 + k by omega]

end Sys2Proof.Machine
end

