-- ==== Sys2Proof/Laws/Calm.lean ====
section
/-! SUPPORT. The primitives and polls while the environment changes nothing, exactly: what they read,
what they leave. A lemma takes the environment's turn before the first primitive as an equation
`envSlot s = .next u` and asks for calm behind it. -/

namespace Sys2Proof.Machine

/-! ### Calm -/

/-- `t` comes from `s` by polling in calm: flags, FIFOs, engine, target and registers are as they were. -/
structure Passes (s t : State) : Prop where
  same : t =
    { s with
      work := t.work
      timer := t.timer
      sched := t.sched
      ticks := t.ticks
      draws := t.draws
      trace := t.trace }
  byte : t.work.b = s.work.b
  words : wordsOf t.trace = wordsOf s.trace

namespace Passes

variable {s t u : State}

theorem refl (s : State) : Passes s s := ⟨rfl, rfl, rfl⟩

theorem trans (a : Passes s t) (b : Passes t u) : Passes s u :=
  ⟨by have hb := b.same; rw [a.same] at hb; exact hb, b.byte.trans a.byte, b.words.trans a.words⟩

theorem cfg (h : Passes s t) : t.cfg = s.cfg := by have e := congrArg State.cfg h.same; exact e
theorem handle (h : Passes s t) : t.handle = s.handle := by
  have e := congrArg State.handle h.same; exact e
theorem chip (h : Passes s t) : t.chip = s.chip := by have e := congrArg State.chip h.same; exact e
theorem phase (h : Passes s t) : t.phase = s.phase := by
  have e := congrArg State.phase h.same; exact e
theorem inited (h : Passes s t) : t.inited = s.inited := by
  have e := congrArg State.inited h.same; exact e
theorem result (h : Passes s t) : t.result = s.result := by
  have e := congrArg State.result h.same; exact e
theorem ctrl (h : Passes s t) : t.ctrl = s.ctrl := by have e := congrArg State.ctrl h.same; exact e
theorem flags (h : Passes s t) : t.flags = s.flags := by
  have e := congrArg State.flags h.same; exact e
theorem mier (h : Passes s t) : t.mier = s.mier := by have e := congrArg State.mier h.same; exact e
theorem cfg0 (h : Passes s t) : t.cfg0 = s.cfg0 := by have e := congrArg State.cfg0 h.same; exact e
theorem cfg1 (h : Passes s t) : t.cfg1 = s.cfg1 := by have e := congrArg State.cfg1 h.same; exact e
theorem clkcfg (h : Passes s t) : t.clkcfg = s.clkcfg := by
  have e := congrArg State.clkcfg h.same; exact e
theorem txf (h : Passes s t) : t.txf = s.txf := by have e := congrArg State.txf h.same; exact e
theorem rxf (h : Passes s t) : t.rxf = s.rxf := by have e := congrArg State.rxf h.same; exact e
theorem engine (h : Passes s t) : t.engine = s.engine := by
  have e := congrArg State.engine h.same; exact e
theorem target (h : Passes s t) : t.target = s.target := by
  have e := congrArg State.target h.same; exact e
theorem mem (h : Passes s t) : t.mem = s.mem := by have e := congrArg State.mem h.same; exact e
theorem bracket (h : Passes s t) : t.bracket = s.bracket := by
  have e := congrArg State.bracket h.same; exact e
theorem host (h : Passes s t) : t.host = s.host := by have e := congrArg State.host h.same; exact e

theorem platform (h : Passes s t) (p : Platform s) : Platform t :=
  ⟨by rw [h.cfg]; exact p.clockOn, by rw [h.handle]; exact p.aligned⟩

theorem rests (h : Passes s t) (r : EngineRests s) : EngineRests t :=
  ⟨by rw [h.txf]; exact r.noWord, by rw [h.engine]; exact r.noStart,
    by rw [h.cfg1, h.flags]; exact r.noAutostop, by rw [h.engine, h.cfg, h.rxf]; exact r.noReceive⟩

theorem calm {n : Nat} (h : Passes s t) (hs : t.sched = s.sched) (c : Calm n s) : Calm n t := by
  rcases c with ⟨rest, e⟩ | ⟨e, r⟩
  · exact .inl ⟨rest, hs.trans e⟩
  · exact .inr ⟨hs.trans e, h.rests r⟩

end Passes

theorem Calm.weaken {n k : Nat} {s : State} (c : Calm (n + k) s) : Calm n s := by
  rcases c with ⟨rest, e⟩ | h
  · exact .inl ⟨List.replicate k [] ++ rest, by rw [e, List.replicate_add, List.append_assoc]⟩
  · exact .inr h

/-- The nominal engine with nothing to do does nothing. -/
theorem engineContinue_rests {s : State} (r : EngineRests s) : engineContinue s = s := by
  unfold engineContinue
  split
  · rfl
  · split
    · rename_i h
      obtain ⟨n, hn⟩ : ∃ n, s.engine.recvLeft = n + 1 := Nat.exists_eq_succ_of_ne_zero h
      have hf : ¬ s.rxf.length < s.cfg.fifoDepth := by
        rcases r.noReceive with h' | h'
        · exact absurd h' h
        · omega
      rw [hn, deliver, if_neg hf, ← hn]
    · rw [r.noStart]
      dsimp only
      have : (s.txf.isEmpty && s.cfg1.getLsbD bitAUTOSTOP && ownsBus s) = false := by
        unfold ownsBus
        rcases r.noAutostop with h' | h' <;> (rw [h']; simp)
      rw [this]
      rfl

theorem engineMove_rests {s : State} (r : EngineRests s) : engineMove s = .next s := by
  have hn : nextEntry s = none := by
    unfold nextEntry; split
    · rw [r.noWord]; rfl
    · rfl
  unfold engineMove
  rw [hn]
  dsimp only
  rw [engineContinue_rests r]

/-- The primitives done so far, newest first. -/
def kinds (s : State) : List Prim := s.trace.map Access.prim

/-- The environment's turn in calm. -/
theorem calm_slot {n : Nat} {s : State} (c : Calm (n + 1) s) :
    ∃ u, envSlot s = .next u ∧ Passes s u ∧ SameTime s u ∧ Calm n u ∧ kinds u = kinds s := by
  rcases c with ⟨rest, e⟩ | ⟨e, r⟩
  · have e' : s.sched = [] :: (List.replicate n [] ++ rest) := e
    exact ⟨_, envSlot_quiet e', ⟨rfl, rfl, rfl⟩, ⟨rfl, rfl⟩, .inl ⟨rest, rfl⟩, rfl⟩
  · refine ⟨s, ?_, Passes.refl s, ⟨rfl, rfl⟩, .inr ⟨e, r⟩, rfl⟩
    unfold envSlot
    rw [e]
    exact engineMove_rests r

/-- The environment's turn in calm uses up one entry of the schedule, if there is one. -/
theorem calm_tail {n : Nat} {s u : State} (c : Calm (n + 1) s) (e : envSlot s = .next u) :
    u.sched = s.sched.drop 1 := by
  rcases c with ⟨rest, h⟩ | ⟨h, r⟩
  · have h' : s.sched = [] :: (List.replicate n [] ++ rest) := h
    rw [envSlot_quiet h'] at e
    cases e
    rw [h']
    rfl
  · unfold envSlot at e
    rw [h, engineMove_rests r] at e
    cases e
    rw [h]
    rfl

/-! ### Primitives -/

theorem passes_note {s : State} (f : Work → Work) (h : (f s.work).b = s.work.b) :
    Passes s (note f s) := ⟨rfl, h, rfl⟩

theorem passes_logged {s : State} (a : Access) (h : txcmdWord a = none) : Passes s (logged a s) :=
  ⟨rfl, rfl, by simp [wordsOf_cons, h]⟩

/-- What a primitive that changes nothing but time leaves behind the environment's turn `u`. -/
structure Reads (u t : State) : Prop where
  passes : Passes u t
  sched : t.sched = u.sched

theorem Reads.refl (s : State) : Reads s s := ⟨Passes.refl s, rfl⟩

theorem Reads.trans {s t u : State} (a : Reads s t) (b : Reads t u) : Reads s u :=
  ⟨a.passes.trans b.passes, b.sched.trans a.sched⟩

theorem Reads.calm {s t : State} {n : Nat} (h : Reads s t) (c : Calm n s) : Calm n t :=
  h.passes.calm h.sched c

theorem reads_note {s : State} (f : Work → Work) (h : (f s.work).b = s.work.b) :
    Reads s (note f s) := ⟨passes_note f h, rfl⟩

/-- A register read behind the environment's turn `u`. -/
theorem regRead_slot {s u : State} (e : envSlot s = .next u) (p : Platform u) {r : Reg}
    (hr : readable r) (hx : r ≠ .rxdata) :
    Ends (regRead r s) fun v t => Reads u t ∧ SameTime u t ∧ readShows r v t ∧
      kinds t = .rd r :: kinds u := by
  rw [regRead_eq r e p]
  have lg : ∀ (w : State) (v : RdWord), Reads w (logged (.rd r v.shown) w) :=
    fun w v => ⟨passes_logged _ rfl, rfl⟩
  have dr : ∀ n, Reads u { u with draws := n } := fun n => ⟨⟨rfl, rfl, rfl⟩, rfl⟩
  cases r with
  | ctrl => exact ⟨_, _, rfl, lg _ _, ⟨rfl, rfl⟩, rfl, rfl⟩
  | status => exact ⟨_, _, rfl, (dr _).trans (lg _ _), ⟨rfl, rfl⟩, ⟨rfl, rfl⟩, rfl⟩
  | cfg0 => exact ⟨_, _, rfl, lg _ _, ⟨rfl, rfl⟩, rfl, rfl⟩
  | cfg1 => exact ⟨_, _, rfl, lg _ _, ⟨rfl, rfl⟩, rfl, rfl⟩
  | clkcfg => exact absurd rfl hr.1
  | fifostat => exact ⟨_, _, rfl, lg _ _, ⟨rfl, rfl⟩, rfl, rfl⟩
  | txcmd => exact absurd rfl hr.2
  | rxdata => exact absurd rfl hx

/-- The timer behind one more read. -/
def ticked (s t : State) : Prop :=
  t.timer = (tickTimer s).timer ∧ t.ticks = (tickTimer s).ticks

/-- A timer read behind the environment's turn `u`. -/
theorem now_slot {s u : State} (e : envSlot s = .next u) :
    Ends (now s) fun n t => Reads u t ∧ n = timerCount (tickTimer u) ∧ ticked u t ∧
      kinds t = .now :: kinds u := by
  rw [now_eq e]
  refine ⟨_, _, rfl, ⟨⟨?_, ?_, ?_⟩, ?_⟩, rfl, ⟨rfl, rfl⟩, ?_⟩
  · unfold tickTimer; split <;> rfl
  · unfold tickTimer; split <;> rfl
  · rw [logged_trace, wordsOf_cons]; unfold tickTimer; split <;> simp [txcmdWord]
  · show (tickTimer u).sched = _; unfold tickTimer; split <;> rfl
  · unfold kinds; rw [logged_trace]; unfold tickTimer; split <;> rfl

theorem tickTimer_congr {s t : State} (h1 : t.timer = s.timer) (h2 : t.ticks = s.ticks) :
    (tickTimer t).timer = (tickTimer s).timer ∧ (tickTimer t).ticks = (tickTimer s).ticks := by
  unfold tickTimer
  rw [h2]
  split <;> simp [h1]

theorem timerCount_congr {s t : State} (h : t.timer = s.timer) (hc : t.cfg = s.cfg) :
    timerCount t = timerCount s := by unfold timerCount; rw [h, hc]

/-! ### The error decode -/

theorem status_bits (f : Status) (w : Word) :
    (RdWord.mk f.word statusNamed w).bit bitPLTF = f.pltf ∧
    (RdWord.mk f.word statusNamed w).bit bitALF = f.alf ∧
    (RdWord.mk f.word statusNamed w).bit bitNDF = f.ndf ∧
    (RdWord.mk f.word statusNamed w).bit bitFEF = f.fef ∧
    (RdWord.mk f.word statusNamed w).bit bitSDF = f.sdf ∧
    (RdWord.mk f.word statusNamed w).bit bitMBF = f.mbf ∧
    (RdWord.mk f.word statusNamed w).bit bitBBF = f.bbf := by
  obtain ⟨a, b, c, d, e, f, g, h, i⟩ := f
  unfold RdWord.bit
  simp only [show statusNamed.getLsbD bitPLTF = true from by decide,
    show statusNamed.getLsbD bitALF = true from by decide,
    show statusNamed.getLsbD bitNDF = true from by decide,
    show statusNamed.getLsbD bitFEF = true from by decide,
    show statusNamed.getLsbD bitSDF = true from by decide,
    show statusNamed.getLsbD bitMBF = true from by decide,
    show statusNamed.getLsbD bitBBF = true from by decide, if_true]
  revert a b c d e f g h i
  decide

/-- A status word that shows these flags decodes to their code. -/
theorem errorOf_shows {v : RdWord} {f : Status} (h : v.bits = f.word ∧ v.named = statusNamed) :
    errorOf v = flagsCode f := by
  obtain ⟨b, n, o⟩ := v
  obtain ⟨h1, h2⟩ := h
  dsimp only at h1 h2
  subst h1 h2
  obtain ⟨e1, e2, e3, e4, -, -, -⟩ := status_bits f o
  unfold errorOf flagsCode
  rw [e1, e2, e3, e4]

theorem sdf_shows {v : RdWord} {f : Status} (h : v.bits = f.word ∧ v.named = statusNamed) :
    stopDetected v = f.sdf := by
  obtain ⟨b, n, o⟩ := v
  obtain ⟨h1, h2⟩ := h
  dsimp only at h1 h2
  subst h1 h2
  exact (status_bits f o).2.2.2.2.1

theorem stuck_shows {v : RdWord} {f : Status} (h : v.bits = f.word ∧ v.named = statusNamed) :
    stuckOf v = (f.bbf && !f.mbf) := by
  obtain ⟨b, n, o⟩ := v
  obtain ⟨h1, h2⟩ := h
  dsimp only at h1 h2
  subst h1 h2
  unfold stuckOf
  rw [(status_bits f o).2.2.2.2.2.1, (status_bits f o).2.2.2.2.2.2]

theorem flagsCode_ok {f : Status} : flagsCode f = .ok ↔ noErrorFlag f := by
  unfold flagsCode noErrorFlag
  cases f.pltf <;> cases f.alf <;> cases f.ndf <;> cases f.fef <;> simp

theorem clearAll_flags (f : Status) :
    f.clearW1C clearAll =
      { epf := false, sdf := false, ndf := false, alf := false, fef := false, pltf := false,
        dmf := false, mbf := f.mbf, bbf := f.bbf } := by
  obtain ⟨a, b, c, d, e, f, g, h, i⟩ := f
  unfold Status.clearW1C
  simp only [show clearAll.getLsbD bitEPF = true from by decide,
    show clearAll.getLsbD bitSDF = true from by decide,
    show clearAll.getLsbD bitNDF = true from by decide,
    show clearAll.getLsbD bitALF = true from by decide,
    show clearAll.getLsbD bitFEF = true from by decide,
    show clearAll.getLsbD bitPLTF = true from by decide,
    show clearAll.getLsbD bitDMF = true from by decide, Bool.not_true, Bool.and_false]

theorem clearSdf_flags (f : Status) : f.clearW1C sdfMask = { f with sdf := false } := by
  obtain ⟨a, b, c, d, e, f, g, h, i⟩ := f
  unfold Status.clearW1C
  simp only [show sdfMask.getLsbD bitEPF = false from by decide,
    show sdfMask.getLsbD bitSDF = true from by decide,
    show sdfMask.getLsbD bitNDF = false from by decide,
    show sdfMask.getLsbD bitALF = false from by decide,
    show sdfMask.getLsbD bitFEF = false from by decide,
    show sdfMask.getLsbD bitPLTF = false from by decide,
    show sdfMask.getLsbD bitDMF = false from by decide, Bool.not_true, Bool.not_false,
    Bool.and_false, Bool.and_true]

/-- A decode that finds no error: one status read (R211). -/
theorem checkClearError_slot_ok {s u : State} (e : envSlot s = .next u) (p : Platform u)
    (hf : noErrorFlag u.flags) :
    Ends (checkClearError s) fun c t => c = .ok ∧ Reads u t ∧ SameTime u t ∧
      kinds t = .rd .status :: kinds u := by
  unfold checkClearError
  refine ends_andThen (regRead_slot e p (r := .status) (by simp [readable]) (by simp))
    fun v t ⟨r, st, sh, tl⟩ => ?_
  have hc : errorOf v = .ok := by
    rw [errorOf_shows (f := t.flags) sh, flagsCode_ok, r.passes.flags]; exact hf
  dsimp only
  rw [if_pos hc]
  exact ends_done ⟨rfl, r.trans (reads_note _ rfl), ⟨st.timer, st.ticks⟩, tl⟩

/-! ### Writes -/

/-- A write of `STATUS` behind the environment's turn `u` (R33). -/
theorem regWrite_status_slot {s u : State} (e : envSlot s = .next u) (p : Platform u) (v : Word) :
    regWrite .status v s =
      done () (logged (.wr .status v) { u with flags := u.flags.clearW1C v }) := by
  rw [regWrite_eq .status v e p]; rfl

/-- A write of `CTRL` behind the environment's turn `u` (R32). -/
theorem regWrite_ctrl_slot {s u : State} (e : envSlot s = .next u) (p : Platform u) (v : Word) :
    regWrite .ctrl v s = done () (logged (.wr .ctrl v) (writeCtrl v u)) := by
  rw [regWrite_eq .ctrl v e p]; rfl

/-- A write of `CFG1` behind the environment's turn `u` (R36). -/
theorem regWrite_cfg1_slot {s u : State} (e : envSlot s = .next u) (p : Platform u)
    (h : u.ctrl.getLsbD bitRST = false) (v : Word) :
    regWrite .cfg1 v s = done () (logged (.wr .cfg1 v) { u with cfg1 := v }) := by
  rw [regWrite_eq .cfg1 v e p]
  have : heldInReset u = false := h
  simp [storeReg, this, andThen, done]

/-- A write of `TXCMD` behind the environment's turn `u` (R39). -/
theorem regWrite_txcmd_slot {s u : State} (e : envSlot s = .next u) (p : Platform u)
    (h : u.ctrl.getLsbD bitRST = false) (hs : u.txf.length < u.cfg.fifoDepth) (v : Word) :
    regWrite .txcmd v s =
      done () (logged (.wr .txcmd v) { u with txf := u.txf ++ [v.setWidth 11] }) := by
  rw [regWrite_eq .txcmd v e p]
  have : heldInReset u = false := h
  simp [storeReg, this, hs, andThen, done]

/-- What a decoded error leaves (R213). -/
structure Cleared (u t : State) : Prop where
  same : t =
    { u with
      work := t.work
      flags := u.flags.clearW1C clearAll
      txf := []
      rxf := []
      timer := t.timer
      sched := t.sched
      ticks := t.ticks
      draws := t.draws
      trace := t.trace }
  words : wordsOf t.trace = wordsOf u.trace

theorem calm_flags_cleared {n : Nat} {s : State} (f : Status) (tr : List Access)
    (hf : f.mbf = s.flags.mbf) (c : Calm n s) : Calm n { s with flags := f, trace := tr } := by
  rcases c with ⟨rest, e⟩ | ⟨e, r⟩
  · exact .inl ⟨rest, e⟩
  · exact .inr ⟨e, r.noWord, r.noStart, r.noAutostop.imp id fun h => by
      show f.mbf = false; rw [hf]; exact h, r.noReceive⟩

/-- A decode that finds an error: the status read, the clear, the FIFO reset (R211, R213). -/
theorem checkClearError_slot_err {s u : State} (e : envSlot s = .next u) (p : Platform u)
    (hr : u.ctrl.getLsbD bitRST = false) (c : Calm 3 u) (hf : ¬ noErrorFlag u.flags) :
    Ends (checkClearError s) fun k t => k = flagsCode u.flags ∧ Cleared u t ∧ SameTime u t ∧
      kinds t = .wr .ctrl :: .rd .ctrl :: .wr .status :: .rd .status :: kinds u ∧
      t.sched = u.sched.drop 3 := by
  unfold checkClearError
  refine ends_andThen (regRead_slot e p (r := .status) (by simp [readable]) (by simp))
    fun v t ⟨r, st, sh, tl⟩ => ?_
  have hv : errorOf v = flagsCode u.flags := by
    rw [errorOf_shows (f := t.flags) sh, r.passes.flags]
  have hc : ¬ errorOf v = .ok := by rw [hv, flagsCode_ok]; exact hf
  dsimp only
  rw [if_neg hc, hv]
  have rn := r.trans (reads_note (fun w => { w with s := some v.word }) rfl)
  obtain ⟨u1, e1, p1, st1, c1, k1⟩ := calm_slot (rn.calm c)
  have q1 := rn.passes.trans p1
  have pl1 := q1.platform p
  unfold clearError
  rw [regWrite_status_slot e1 pl1]
  have c1' := calm_flags_cleared (u1.flags.clearW1C clearAll)
    (.wr .status clearAll :: u1.trace) rfl c1
  obtain ⟨u2, e2, p2, st2, c2, k2⟩ := calm_slot c1'
  have pl2 : Platform u2 := p2.platform ⟨pl1.clockOn, pl1.aligned⟩
  have hrd := regRead_slot e2 pl2 (r := .ctrl) (by simp [readable]) (by simp)
  obtain ⟨v2, t2, e3', r2, st3, sh2, tl2⟩ := hrd
  obtain ⟨u3, e3, p3, st4, c3, k3⟩ := calm_slot (n := 0) (r2.calm c2)
  have pl3 := p3.platform (r2.passes.platform pl2)
  have hv2 : v2.word = t2.ctrl.setWidth 32 := by
    have h : v2 = .exact (t2.ctrl.setWidth 32) := sh2
    rw [h, RdWord.exact_word]
  have hctrl : t2.ctrl = u.ctrl := by
    rw [r2.passes.ctrl, p2.ctrl]
    exact q1.ctrl
  have h4 : (v2.word ||| fifoReset).setWidth 4 = u.ctrl := by
    rw [hv2, hctrl]; generalize u.ctrl = x; revert x; decide
  have hrst : (v2.word ||| fifoReset).getLsbD bitRST = false := by
    rw [hv2, hctrl]; revert hr; generalize u.ctrl = x; revert x; decide
  have htf : (v2.word ||| fifoReset).getLsbD bitRTF = true := by
    rw [hv2, hctrl]; generalize u.ctrl = x; revert x; decide
  have hrf : (v2.word ||| fifoReset).getLsbD bitRRF = true := by
    rw [hv2, hctrl]; generalize u.ctrl = x; revert x; decide
  have hw : writeCtrl (v2.word ||| fifoReset) u3 =
      { u3 with ctrl := u.ctrl, txf := [], rxf := [] } := by
    unfold writeCtrl
    simp only [hrst, htf, hrf, h4, if_true, Bool.false_eq_true, if_false]
  have q3 := p2.trans (r2.passes.trans p3)
  have hw3 : wordsOf u3.trace = wordsOf u.trace := by
    rw [q3.words, wordsOf_cons]
    simp [txcmdWord, q1.words]
  have hk3 : kinds u3 = .rd .ctrl :: .wr .status :: .rd .status :: kinds u := by
    rw [k3, tl2, k2]
    show _ :: _ :: kinds u1 = _
    rw [k1]
    show _ :: _ :: kinds t = _
    rw [tl]
    rfl
  refine ⟨flagsCode u.flags, logged (.wr .ctrl (v2.word ||| fifoReset))
    (writeCtrl (v2.word ||| fifoReset) u3), ?_, rfl, ?_, ?_, ?_, ?_⟩
  · have e3'' : regRead .ctrl (logged (.wr .status clearAll)
        { u1 with flags := u1.flags.clearW1C clearAll }) = .next (v2, t2) := e3'
    rw [andThen_done, e3'', andThen_next, regWrite_ctrl_slot e3 pl3, andThen_done]
    rfl
  · rw [hw]
    refine ⟨?_, ?_⟩
    · have a := q3.same
      have b := q1.same
      rw [a, b]
      rfl
    · simp [wordsOf_cons, txcmdWord, hw3]
  · rw [hw]
    constructor
    · exact st4.timer.trans (st3.timer.trans (st2.timer.trans (st1.timer.trans st.timer)))
    · exact st4.ticks.trans (st3.ticks.trans (st2.ticks.trans (st1.ticks.trans st.ticks)))
  · rw [hw]
    show Prim.wr .ctrl :: kinds u3 = _
    rw [hk3]
  · rw [logged_sched, writeCtrl_sched, calm_tail (r2.calm c2) e3, r2.sched, calm_tail c1' e2]
    show (u1.sched.drop 1).drop 1 = _
    rw [calm_tail (rn.calm c) e1, rn.sched, List.drop_drop, List.drop_drop]

/-! ### WAIT_TX_SPACE -/

theorem elapsed_one {u : State} (ht : u.ticks = []) (hb : 1 < 2 ^ u.cfg.timerBits) :
    firstElapsed u = 1 := by
  have e1 : tickTimer u = { u with timer := u.timer + 1 } := by unfold tickTimer; rw [ht]
  have e2 : tickTimer (tickTimer u) = { u with timer := u.timer + 1 + 1 } := by
    rw [e1]; unfold tickTimer; dsimp only; rw [ht]
  have := elapsed_step (cfg := u.cfg) (n := u.timer + 1) (t0 := (u.timer + 1) % 2 ^ u.cfg.timerBits)
    (budget := 0) (by omega) (Nat.mod_lt _ (Nat.two_pow_pos _)) (by
      unfold elapsed
      rw [Nat.add_sub_cancel_left, Nat.mod_self])
  unfold firstElapsed
  rw [e2, e1]
  unfold timerCount
  dsimp only
  rw [this]
  unfold elapsed
  rw [Nat.add_sub_cancel_left, Nat.mod_self]

/-- The timer behind two more reads. -/
def ticked2 (s t : State) : Prop :=
  t.timer = (tickTimer (tickTimer s)).timer ∧ t.ticks = (tickTimer (tickTimer s)).ticks

theorem ticked_trans {s t u : State} (h : ticked s t) (h' : ticked t u) : ticked2 s u := by
  have := tickTimer_congr (s := tickTimer s) (t := t) h.1 h.2
  exact ⟨h'.1.trans this.1, h'.2.trans this.2⟩

/-- WAIT_TX_SPACE with no error flag, in calm behind its first timer read: a timer beyond the budget
ends it with a timeout whatever the FIFO holds, else space ends it with OK (R210, R217). -/
theorem waitTxSpace_slot {s u : State} {n : Nat} (e : envSlot s = .next u) (p : Platform u)
    (c : Calm (n + 3) u) (hf : noErrorFlag u.flags) (hd : u.cfg.fifoDepth ≤ 7)
    (hs : u.txf.length < u.cfg.fifoDepth ∨
      u.txf.length = u.cfg.fifoDepth ∧ u.cfg.tPoll < firstElapsed u) :
    Ends (waitTxSpace s) fun k t =>
      k = (if u.cfg.tPoll < firstElapsed u then .timeout else .ok) ∧
      Passes u t ∧ ticked2 u t ∧ Calm n t ∧
      kinds t = .now :: .rd .status :: .rd .fifostat :: .now :: kinds u ∧
      t.sched = u.sched.drop 3 := by
  unfold waitTxSpace
  refine ends_andThen (now_slot e) fun t0 t1 ⟨r1, h1, k1, tr1⟩ => ?_
  have hfuel : ∃ m, pollFuel t1.cfg.tPoll t1 = m + 1 := ⟨_, rfl⟩
  obtain ⟨m, hm⟩ := hfuel
  rw [hm]
  unfold txWaitLoop
  have rn1 := r1.trans (reads_note (fun w => { w with t0 := some t0 }) rfl)
  obtain ⟨u1, e1, p1, st1, c1, q1⟩ := calm_slot (n := n + 2) (rn1.calm c)
  have P1 := rn1.passes.trans p1
  refine ends_andThen (regRead_slot e1 (P1.platform p) (r := .fifostat) (by simp [readable]) (by simp))
    fun f t2 ⟨r2, st2, sh2, tr2⟩ => ?_
  have P2 := P1.trans r2.passes
  have hfv : f = .exact (fifostatWord t2) := sh2
  have hlen : txCount f = u.txf.length := by
    rw [hfv, txCount_fifostat (by rw [P2.txf]; omega), P2.txf]
  have hcfg2 : t2.cfg = u.cfg := P2.cfg
  rw [hlen, hcfg2, if_neg (by omega)]
  have rn2 := r2.trans (reads_note (fun w => { w with space := some (u.cfg.fifoDepth - u.txf.length) }) rfl)
  obtain ⟨u2, e2, p2, st3, c2, q2⟩ := calm_slot (n := n + 1) (rn2.calm c1)
  have P3 := P1.trans (rn2.passes.trans p2)
  refine ends_andThen (checkClearError_slot_ok e2 (P3.platform p) (by rw [P3.flags]; exact hf))
    fun k t3 ⟨hk, r3, st4, tr3⟩ => ?_
  rw [if_neg (by simp [hk])]
  obtain ⟨u3, e3, p3, st5, c3, q3⟩ := calm_slot (n := n) (r3.calm c2)
  have P4 := P3.trans (r3.passes.trans p3)
  refine ends_andThen (now_slot e3) fun t t4 ⟨r4, h4, k4, tr4⟩ => ?_
  have P5 := P4.trans r4.passes
  have hcfg4 : t4.cfg = u.cfg := P5.cfg
  have S : SameTime t1 u3 := by
    constructor
    · rw [st5.timer, st4.timer, st3.timer]
      show t2.timer = _
      rw [st2.timer, st1.timer]; rfl
    · rw [st5.ticks, st4.ticks, st3.ticks]
      show t2.ticks = _
      rw [st2.ticks, st1.ticks]; rfl
  have T := tickTimer_congr S.timer S.ticks
  have k4' : ticked t1 t4 := ⟨k4.1.trans T.1, k4.2.trans T.2⟩
  have T2 := ticked_trans k1 k4'
  have hel : elapsed u.cfg t t0 = firstElapsed u := by
    unfold firstElapsed
    rw [h1, h4]
    congr 1
    refine timerCount_congr ?_ ?_
    · rw [T.1]
      exact (tickTimer_congr (s := tickTimer u) (t := t1) k1.1 k1.2).1
    · have a1 : ∀ x : State, (tickTimer x).cfg = x.cfg := fun x => tickTimer_cfg x
      rw [a1, a1, a1]; exact P4.cfg
  have K : kinds t4 = .now :: .rd .status :: .rd .fifostat :: .now :: kinds u := by
    rw [tr4, q3, tr3, q2]
    show _ :: _ :: kinds t2 = _
    rw [tr2, q1]
    show _ :: _ :: _ :: kinds t1 = _
    rw [tr1]
  have D : t4.sched = u.sched.drop 3 := by
    rw [r4.sched, calm_tail (r3.calm c2) e3, r3.sched, calm_tail (rn2.calm c1) e2, rn2.sched,
      calm_tail (rn1.calm c) e1, rn1.sched, List.drop_drop, List.drop_drop]
  rw [hcfg4, hel]
  by_cases ht : u.cfg.tPoll < firstElapsed u
  · rw [if_pos ht]
    exact ends_done ⟨by rw [if_pos ht], P5, T2, r4.calm c3, K, D⟩
  · rw [if_neg ht, if_pos (by omega)]
    exact ends_done ⟨by rw [if_neg ht], P5, T2, r4.calm c3, K, D⟩

end Sys2Proof.Machine
end

