-- ==== Sys2Proof/Laws/CalmStart.lean ====
section
/-! SUPPORT. START while the environment changes nothing, exactly (spec/41_start_stop.md R171 to R173),
and on a bus that stays stuck (R172). -/

namespace Sys2Proof.Machine

theorem ticked2_congr {s s' t : State} (h : ticked2 s' t) (a : SameTime s s') : ticked2 s t := by
  have e := tickTimer_congr a.timer a.ticks
  have e2 := tickTimer_congr e.1 e.2
  exact ⟨h.1.trans e2.1, h.2.trans e2.2⟩

theorem firstElapsed_congr {s t : State} (a : SameTime s t) (hc : t.cfg = s.cfg) :
    firstElapsed t = firstElapsed s := by
  have e := tickTimer_congr a.timer a.ticks
  have e2 := tickTimer_congr e.1 e.2
  unfold firstElapsed
  rw [hc]
  have c1 : ∀ x : State, (tickTimer x).cfg = x.cfg := fun x => tickTimer_cfg x
  rw [timerCount_congr e.1 (by rw [c1, c1, hc]), timerCount_congr e2.1 (by rw [c1, c1, c1, c1, hc])]

theorem startCfg1_autostop (w : Word) : (startCfg1 w).getLsbD bitAUTOSTOP = false := by
  unfold startCfg1
  rw [BitVec.getLsbD_and, BitVec.getLsbD_not]
  simp [autostopMask, bitAUTOSTOP]

/-- What START leaves when it succeeds behind the environment's turn `u` (R171). -/
structure Started (a : BitVec 7) (d : Dir) (u t : State) : Prop where
  same : t =
    { u with
      work := t.work
      timer := t.timer
      sched := t.sched
      ticks := t.ticks
      draws := t.draws
      trace := t.trace
      flags := u.flags.clearW1C clearAll
      cfg1 := startCfg1 u.cfg1
      txf := u.txf ++ [(startWord a d).setWidth 11]
      phase := .start
      bracket := true }
  byte : t.work.b = u.work.b
  words : wordsOf t.trace = wordsOf u.trace ++ [startWord a d]

theorem calm_update {n : Nat} {s : State} (f : Status) (c1 : Word) (tr : List Access)
    (hf : f.mbf = s.flags.mbf) (hc : c1.getLsbD bitAUTOSTOP = false ∨ c1 = s.cfg1) (c : Calm n s) :
    Calm n { s with flags := f, cfg1 := c1, trace := tr } := by
  rcases c with ⟨rest, e⟩ | ⟨e, r⟩
  · exact .inl ⟨rest, e⟩
  · refine .inr ⟨e, r.noWord, r.noStart, ?_, r.noReceive⟩
    show c1.getLsbD bitAUTOSTOP = false ∨ f.mbf = false
    rcases hc with hc | hc
    · exact .inl hc
    · rw [hc, hf]; exact r.noAutostop

theorem noErrorFlag_cleared (f : Status) : noErrorFlag (f.clearW1C clearAll) := by
  rw [clearAll_flags]
  exact ⟨rfl, rfl, rfl, rfl⟩

/-- The part of START behind the stuck test, in calm. -/
theorem queueStart_calm {u : State} {n : Nat} (p : Platform u)
    (hr : u.ctrl.getLsbD bitRST = false) (c : Calm (n + 8) u) (hd : u.cfg.fifoDepth ≤ 7)
    (hs : u.txf.length < u.cfg.fifoDepth ∨
      u.txf.length = u.cfg.fifoDepth ∧ u.cfg.tPoll < firstElapsed u) (a : BitVec 7) (d : Dir) :
    Ends (queueStart a d u) fun k t =>
      (firstElapsed u ≤ u.cfg.tPoll → k = .ok ∧ Started a d u t ∧ ticked2 u t ∧
        ((∃ rest, t.sched = List.replicate n [] ++ rest) ∨ t.sched = [] )) ∧
      (u.cfg.tPoll < firstElapsed u → k = .timeout ∧ t.phase = .error ∧
        wordsOf t.trace = wordsOf u.trace ∧
        kinds t = [Prim.now, .rd .status, .rd .fifostat, .now, .wr .cfg1, .rd .cfg1, .wr .status]
          ++ kinds u) := by
  unfold queueStart
  obtain ⟨u1, e1, p1, st1, c1, k1⟩ := calm_slot (n := n + 7) c
  have pl1 := p1.platform p
  rw [regWrite_status_slot e1 pl1, andThen_done]
  obtain ⟨u2, e2, p2, st2, c2, k2⟩ := calm_slot (n := n + 6) (calm_flags_cleared
    (u1.flags.clearW1C clearAll) (.wr .status clearAll :: u1.trace) rfl c1)
  have pl2 : Platform u2 := p2.platform ⟨pl1.clockOn, pl1.aligned⟩
  obtain ⟨v, t2, e2', r2, st2', sh2, tr2⟩ :=
    regRead_slot e2 pl2 (r := .cfg1) (by simp [readable]) (by simp)
  have e2'' : regRead .cfg1 (logged (.wr .status clearAll)
      { u1 with flags := u1.flags.clearW1C clearAll }) = .next (v, t2) := e2'
  rw [e2'', andThen_next]
  obtain ⟨u3, e3, p3, st3, c3, k3⟩ := calm_slot (n := n + 5) (r2.calm c2)
  have pl3 := p3.platform (r2.passes.platform pl2)
  have q3 := p2.trans (r2.passes.trans p3)
  have hr3 : u3.ctrl.getLsbD bitRST = false := by
    rw [q3.ctrl]; show u1.ctrl.getLsbD bitRST = false; rw [p1.ctrl]; exact hr
  rw [regWrite_cfg1_slot e3 pl3 hr3, andThen_done]
  have hv : v.word &&& ~~~autostopMask = startCfg1 u.cfg1 := by
    have h : v = .exact t2.cfg1 := sh2
    rw [h, RdWord.exact_word, r2.passes.cfg1, p2.cfg1]
    show startCfg1 u1.cfg1 = _
    rw [p1.cfg1]
  rw [hv]
  have f3 : u3.flags = u.flags.clearW1C clearAll := by
    rw [q3.flags]
    show u1.flags.clearW1C clearAll = _
    rw [p1.flags]
  have K3 : kinds (logged (.wr .cfg1 (startCfg1 u.cfg1)) { u3 with cfg1 := startCfg1 u.cfg1 }) =
      .wr .cfg1 :: .rd .cfg1 :: .wr .status :: kinds u := by
    show Prim.wr .cfg1 :: kinds u3 = _
    rw [k3, tr2, k2]
    show _ :: _ :: Prim.wr .status :: kinds u1 = _
    rw [k1]
  have W3 : wordsOf (logged (.wr .cfg1 (startCfg1 u.cfg1))
      { u3 with cfg1 := startCfg1 u.cfg1 }).trace = wordsOf u.trace := by
    rw [logged_trace, wordsOf_cons]
    show wordsOf u3.trace ++ _ = _
    rw [q3.words, wordsOf_cons]
    simp [txcmdWord, p1.words]
  have S3 : SameTime u u3 := by
    constructor
    · rw [st3.timer, st2'.timer, st2.timer]; exact st1.timer
    · rw [st3.ticks, st2'.ticks, st2.ticks]; exact st1.ticks
  obtain ⟨u4, e4, p4, st4, c4, k4⟩ := calm_slot (n := n + 4)
    (calm_update (s := u3) u3.flags (startCfg1 u.cfg1) (.wr .cfg1 (startCfg1 u.cfg1) :: u3.trace) rfl
      (.inl (startCfg1_autostop _)) c3)
  have pl4 : Platform u4 := p4.platform ⟨pl3.clockOn, pl3.aligned⟩
  have cfg3 : u3.cfg = u.cfg := q3.cfg.trans p1.cfg
  have cfg4 : u4.cfg = u.cfg := p4.cfg.trans cfg3
  have tx3 : u3.txf = u.txf := q3.txf.trans p1.txf
  have tx4 : u4.txf = u.txf := p4.txf.trans tx3
  have nf4 : noErrorFlag u4.flags := by
    rw [p4.flags]
    show noErrorFlag u3.flags
    rw [f3]
    exact noErrorFlag_cleared _
  have S4 : SameTime u u4 := S3.trans ⟨st4.timer, st4.ticks⟩
  have hfe : firstElapsed u4 = firstElapsed u := firstElapsed_congr S4 cfg4
  obtain ⟨k5, t5, e5, hk5, P5, T5, C5, K5, -⟩ :=
    waitTxSpace_slot (n := n + 1) e4 pl4 c4 nf4 (by rw [cfg4]; exact hd) (by
      rw [tx4, cfg4, hfe]; exact hs)
  rw [show waitTxSpace (logged (.wr .cfg1 (startCfg1 u.cfg1))
    { u3 with cfg1 := startCfg1 u.cfg1 }) = .next (k5, t5) from e5, andThen_next]
  rw [cfg4, hfe] at hk5
  have q5 := p4.trans P5
  have W5 : wordsOf t5.trace = wordsOf u.trace := q5.words.trans W3
  by_cases hl : u.cfg.tPoll < firstElapsed u
  · rw [if_pos hl] at hk5
    rw [if_pos (by rw [hk5]; simp)]
    refine ends_done ⟨fun h => by omega, fun _ => ⟨hk5, rfl, W5, ?_⟩⟩
    show kinds t5 = _
    rw [K5, k4]
    exact congrArg (fun x => [Prim.now, .rd .status, .rd .fifostat, .now] ++ x) K3
  · rw [if_neg hl] at hk5
    rw [if_neg (by rw [hk5]; simp)]
    obtain ⟨u6, e6, p6, st6, c6, k6⟩ := calm_slot (n := n) C5
    have q6 := q5.trans p6
    have pl6 : Platform u6 := q6.platform ⟨pl3.clockOn, pl3.aligned⟩
    have hr6 : u6.ctrl.getLsbD bitRST = false := by rw [q6.ctrl]; exact hr3
    have tx6 : u6.txf = u.txf := q6.txf.trans tx3
    have cfg6 : u6.cfg = u.cfg := q6.cfg.trans cfg3
    rw [regWrite_txcmd_slot e6 pl6 hr6 (by rw [tx6, cfg6]; omega), andThen_done]
    refine ends_done ⟨fun _ => ⟨rfl, ⟨?_, ?_, ?_⟩, ?_, ?_⟩, fun h => by omega⟩
    · have a6 := q6.same
      have a3 := q3.same
      have a1 := p1.same
      rw [a6, a3, a1]
      rfl
    · show u6.work.b = _
      rw [q6.byte]
      show u3.work.b = _
      rw [q3.byte]
      exact p1.byte
    · show wordsOf (Access.wr .txcmd (startWord a d) :: u6.trace) = _
      rw [wordsOf_cons, p6.words, W5]
      simp [txcmdWord]
    · have h := ticked2_congr T5 S4
      exact ⟨st6.timer.trans h.1, st6.ticks.trans h.2⟩
    · rcases c6 with ⟨rest, h⟩ | ⟨h, _⟩
      · exact .inl ⟨rest, h⟩
      · exact .inr h

/-- START on a bus that is not stuck, in calm behind its status read (R171, R217). -/
theorem start_calm {s u : State} {n : Nat} (e : envSlot s = .next u) (p : Platform u)
    (hr : u.ctrl.getLsbD bitRST = false) (c : Calm (n + 8) u) (hd : u.cfg.fifoDepth ≤ 7)
    (hs : u.txf.length < u.cfg.fifoDepth ∨
      u.txf.length = u.cfg.fifoDepth ∧ u.cfg.tPoll < firstElapsed u) (hb : ¬ busStuck u) (a : BitVec 7) (d : Dir) :
    Ends (start a d s) fun k t =>
      (firstElapsed u ≤ u.cfg.tPoll → k = .ok ∧ Started a d u t ∧ ticked2 u t ∧
        ((∃ rest, t.sched = List.replicate n [] ++ rest) ∨ t.sched = [] )) ∧
      (u.cfg.tPoll < firstElapsed u → k = .timeout ∧ t.phase = .error ∧
        wordsOf t.trace = wordsOf u.trace ∧
        kinds t = [Prim.now, .rd .status, .rd .fifostat, .now, .wr .cfg1, .rd .cfg1, .wr .status,
          .rd .status] ++ kinds u) := by
  obtain ⟨v, t1, e1, r1, st1, sh1, k1⟩ :=
    regRead_slot e p (r := .status) (by simp [readable]) (by simp)
  have hst : stuckOf v = false := by
    rw [stuck_shows (f := t1.flags) sh1, r1.passes.flags]
    unfold busStuck at hb
    cases h1 : u.flags.bbf <;> cases h2 : u.flags.mbf <;> simp_all
  let w : Work → Work := fun w => { w with s := some v.word, stuck := some (stuckOf v) }
  have rn : Reads u (note w t1) := r1.trans (reads_note w rfl)
  have e2 : start a d s = queueStart a d (note w t1) := by
    unfold start recoverBus checkStuck
    rw [e1, andThen_next, andThen_done, if_neg (by rw [hst]; simp), andThen_done,
      if_neg (by simp)]
  rw [e2]
  have S : SameTime u (note w t1) := ⟨st1.timer, st1.ticks⟩
  have cfg1 : (note w t1).cfg = u.cfg := rn.passes.cfg
  have hfe := firstElapsed_congr S cfg1
  refine ends_mono (queueStart_calm (n := n) (rn.passes.platform p) (by
    rw [rn.passes.ctrl]; exact hr) (rn.calm c) (by rw [cfg1]; exact hd) (by
    rw [rn.passes.txf, cfg1, hfe]; exact hs) a d) fun k t ⟨h1, h2⟩ => ?_
  rw [hfe, cfg1] at h1 h2
  refine ⟨fun h => ?_, fun h => ?_⟩
  · obtain ⟨x1, x2, x3, x4⟩ := h1 h
    refine ⟨x1, ⟨?_, x2.byte.trans rn.passes.byte, by rw [x2.words, rn.passes.words]⟩,
      ticked2_congr x3 S, x4⟩
    have a1 := x2.same
    have a2 := rn.passes.same
    rw [a1, a2]
  · obtain ⟨x1, x2, x3, x4⟩ := h2 h
    refine ⟨x1, x2, x3.trans rn.passes.words, ?_⟩
    rw [x4]
    show _ ++ kinds t1 = _
    rw [k1]
    rfl

/-! ### A bus that stays stuck -/

/-- Calm on a stuck bus: another agent holds it, and this master does not own it (R306). -/
structure StuckCalm (n : Nat) (s : State) : Prop where
  plat : Platform s
  calm : Calm n s
  stuck : busStuck s

theorem Reads.stuckCalm {n : Nat} {s t : State} (h : Reads s t) (c : StuckCalm n s) :
    StuckCalm n t :=
  ⟨h.passes.platform c.plat, h.calm c.calm, by
    unfold busStuck; rw [h.passes.flags]; exact c.stuck⟩

theorem stuckCalm_slot {n : Nat} {s : State} (c : StuckCalm (n + 1) s) :
    ∃ u, envSlot s = .next u ∧ StuckCalm n u := by
  obtain ⟨u, e, p, -, c', -⟩ := calm_slot c.calm
  exact ⟨u, e, p.platform c.plat, c', by unfold busStuck; rw [p.flags]; exact c.stuck⟩

theorem stuckCalm_read {n : Nat} {s : State} (c : StuckCalm (n + 1) s) {r : Reg}
    (hr : readable r) (hx : r ≠ .rxdata) :
    Ends (regRead r s) fun v t => StuckCalm n t ∧ readShows r v t := by
  obtain ⟨u, e, c'⟩ := stuckCalm_slot c
  exact ends_mono (regRead_slot e c'.plat hr hx) fun _ t h => ⟨h.1.stuckCalm c', h.2.2.1⟩

theorem stuckCalm_note {n : Nat} {s : State} (c : StuckCalm n s) (f : Work → Work) :
    StuckCalm n (note f s) := by
  refine ⟨⟨c.plat.clockOn, c.plat.aligned⟩, ?_, c.stuck⟩
  rcases c.calm with ⟨rest, e⟩ | ⟨e, r⟩
  · exact .inl ⟨rest, e⟩
  · exact .inr ⟨e, r.noWord, r.noStart, r.noAutostop, r.noReceive⟩

/-- No configuration write frees a stuck bus, the reset of INIT included (R363). -/
theorem stuckCalm_write {n : Nat} {s : State} (c : StuckCalm (n + 1) s) {r : Reg}
    (hr : r = .ctrl ∨ r = .cfg0 ∨ r = .cfg1 ∨ r = .clkcfg) (v : Word)
    (hv : r = .ctrl → v.getLsbD bitRST = true ∨ v.getLsbD bitRRF = false) :
    Ends (regWrite r v s) fun _ t => StuckCalm n t := by
  obtain ⟨u, e, c'⟩ := stuckCalm_slot c
  rw [regWrite_eq r v e c'.plat]
  have key : ∀ w : State, w.cfg = u.cfg → w.handle = u.handle → w.sched = u.sched →
      (EngineRests u → w.txf = [] ∧ w.engine.pendingStart = none ∧
        (w.engine.recvLeft = 0 ∨ w.cfg.fifoDepth ≤ w.rxf.length)) →
      w.flags.bbf = true → w.flags.mbf = false → StuckCalm n (logged (.wr r v) w) := by
    intro w h1 h2 h3 h4 h5 h6
    refine ⟨⟨?_, ?_⟩, ?_, h5, h6⟩
    · show w.cfg.busClock = true; rw [h1]; exact c'.plat.clockOn
    · show w.handle.base &&& 3#32 = 0#32; rw [h2]; exact c'.plat.aligned
    · rcases c'.calm with ⟨rest, e⟩ | ⟨e, q⟩
      · exact .inl ⟨rest, h3.trans e⟩
      · obtain ⟨a, b, d⟩ := h4 q
        exact .inr ⟨h3.trans e, a, b, .inr h6, d⟩
  have same : EngineRests u → u.txf = [] ∧ u.engine.pendingStart = none ∧
      (u.engine.recvLeft = 0 ∨ u.cfg.fifoDepth ≤ u.rxf.length) :=
    fun q => ⟨q.noWord, q.noStart, q.noReceive⟩
  rcases hr with rfl | rfl | rfl | rfl
  · refine ends_andThen (P := fun _ w => w = writeCtrl v u) (ends_done rfl) fun _ w hw => ?_
    subst hw
    refine ends_done ?_
    by_cases hrst : v.getLsbD bitRST = true
    · have e2 : writeCtrl v u = controllerReset { u with ctrl := v.setWidth 4 } := by
        unfold writeCtrl; rw [if_pos hrst]
      rw [e2]
      refine key _ rfl rfl rfl (fun _ => ⟨rfl, rfl, .inl rfl⟩) ?_ rfl
      show (u.flags.bbf && !u.flags.mbf) = true
      rw [c'.stuck.1, c'.stuck.2]
      rfl
    · have e2 : writeCtrl v u = { u with
          ctrl := v.setWidth 4
          txf := if v.getLsbD bitRTF then [] else u.txf
          rxf := if v.getLsbD bitRRF then [] else u.rxf } := by
        unfold writeCtrl; rw [if_neg hrst]
      rw [e2]
      have hrrf := (hv rfl).resolve_left hrst
      refine key _ rfl rfl rfl (fun q => ⟨?_, q.noStart, ?_⟩) c'.stuck.1 c'.stuck.2
      · dsimp only; split
        · rfl
        · exact q.noWord
      · dsimp only; rw [hrrf]; exact q.noReceive
  · refine ends_andThen (P := fun _ w => w = u ∨ w = { u with cfg0 := v }) ?_ fun _ w hw => ?_
    · unfold storeReg; dsimp only; split
      · exact ends_done (.inl rfl)
      · exact ends_done (.inr rfl)
    · refine ends_done ?_
      rcases hw with rfl | rfl <;> exact key _ rfl rfl rfl same c'.stuck.1 c'.stuck.2
  · refine ends_andThen (P := fun _ w => w = u ∨ w = { u with cfg1 := v }) ?_ fun _ w hw => ?_
    · unfold storeReg; dsimp only; split
      · exact ends_done (.inl rfl)
      · exact ends_done (.inr rfl)
    · refine ends_done ?_
      rcases hw with rfl | rfl <;> exact key _ rfl rfl rfl same c'.stuck.1 c'.stuck.2
  · refine ends_andThen (P := fun _ w => w = u ∨ w = { u with clkcfg := v }) ?_ fun _ w hw => ?_
    · unfold storeReg; dsimp only; split
      · exact ends_done (.inl rfl)
      · exact ends_done (.inr rfl)
    · refine ends_done ?_
      rcases hw with rfl | rfl <;> exact key _ rfl rfl rfl same c'.stuck.1 c'.stuck.2

theorem rrf_masterOn (c : BitVec 4) :
    (masterOn (.exact (c.setWidth 32))).getLsbD bitRRF = false := by
  unfold masterOn; rw [RdWord.exact_word]; revert c; decide

theorem rrf_masterOff (c : BitVec 4) :
    (masterOff (.exact (c.setWidth 32))).getLsbD bitRRF = false := by
  unfold masterOff; rw [RdWord.exact_word]; revert c; decide

theorem stuckCalm_update {n : Nat} {s : State} (c : StuckCalm n s) (b i : Bool) (p : Phase)
    (r : Word) :
    StuckCalm n { s with bracket := b, inited := i, phase := p, handle := { s.handle with rate := r } } := by
  refine ⟨⟨c.plat.clockOn, c.plat.aligned⟩, ?_, c.stuck⟩
  rcases c.calm with ⟨rest, e⟩ | ⟨e, q⟩
  · exact .inl ⟨rest, e⟩
  · exact .inr ⟨e, q.noWord, q.noStart, q.noAutostop, q.noReceive⟩

theorem StuckCalm.weaken {n k : Nat} {s : State} (c : StuckCalm (n + k) s) : StuckCalm n s :=
  ⟨c.plat, c.calm.weaken, c.stuck⟩

/-- SPEED_SET on a stuck bus. -/
theorem stuckCalm_speedSet {n : Nat} {s : State} (c : StuckCalm (n + 7) s) (speed : Word)
    (hd : dividerAnswers s.cfg speed) :
    Ends (speedSet speed s) fun _ t => StuckCalm n t := by
  unfold speedSet
  split
  · exact ends_done (StuckCalm.weaken c)
  · rename_i hz
    refine ends_andThen (P := fun v t => StuckCalm (n + 6) t ∧ readShows .ctrl v t ∧ t.cfg = s.cfg)
      ?_ fun v s1 ⟨c1, sh1, cf1⟩ => ?_
    · obtain ⟨u, e, p, _, _, _⟩ := calm_slot (n := n + 6) c.calm
      obtain ⟨v, t, et, r, _, sh, _⟩ := regRead_slot e (p.platform c.plat) (r := .ctrl)
        (by simp [readable]) (by simp)
      obtain ⟨v', t', et', h⟩ := stuckCalm_read (n := n + 6) c (r := .ctrl) (by simp [readable]) (by simp)
      rw [et] at et'
      cases et'
      exact ⟨v, t, et, h.1, sh, by rw [r.passes.cfg, p.cfg]⟩
    · dsimp only
      have hv : v = .exact (s1.ctrl.setWidth 32) := sh1
      have cn := stuckCalm_note c1 fun w => { w with menSaved := some (v.bit bitMEN) }
      refine ends_andThen (P := fun _ t => StuckCalm (n + 5) t ∧ t.cfg = s.cfg) ?_
        fun _ s2 ⟨c2, cf2⟩ => ?_
      · obtain ⟨u, e, p, _, _, _⟩ := calm_slot (n := n + 5) cn.calm
        obtain ⟨x, t', et', h⟩ := stuckCalm_write (n := n + 5) cn (r := .ctrl) (by simp) (masterOff v)
          (fun _ => .inr (by rw [hv]; exact rrf_masterOff _))
        refine ⟨x, t', et', h, ?_⟩
        rw [regWrite_ctrl_slot e (p.platform cn.plat)] at et'
        cases et'
        show (writeCtrl _ u).cfg = _
        rw [writeCtrl_cfg, p.cfg]
        exact cf1
      · have hch : (dividerSearch s.cfg.clockSrc.toNat speed.toNat).chosen = true := by
          rcases hd with h | h
          · exact absurd h hz
          · exact h
        simp only [cf2, hch, Bool.not_true, Bool.false_eq_true, if_false]
        refine ends_andThen (stuckCalm_write (n := n + 4) (stuckCalm_note c2 _) (r := .clkcfg)
          (by simp) _ (fun h => by simp at h)) fun _ s3 c3 => ?_
        refine ends_andThen (stuckCalm_read (n := n + 3) c3 (r := .cfg1) (by simp [readable])
          (by simp)) fun v4 s4 ⟨c4, _⟩ => ?_
        refine ends_andThen (stuckCalm_write (n := n + 2) c4 (r := .cfg1) (by simp) _
          (fun h => by simp at h)) fun _ s5 c5 => ?_
        refine ends_andThen (P := fun _ t => StuckCalm n t) ?_ fun _ s6 c6 => ?_
        · unfold restoreMaster
          split
          · refine ends_andThen (stuckCalm_read (n := n + 1) c5 (r := .ctrl) (by simp [readable])
              (by simp)) fun v6 s6 ⟨c6, sh6⟩ => ?_
            have hv6 : v6 = .exact (s6.ctrl.setWidth 32) := sh6
            exact stuckCalm_write (n := n) c6 (r := .ctrl) (by simp) _
              (fun _ => .inr (by rw [hv6]; exact rrf_masterOn _))
          · exact ends_done (StuckCalm.weaken c5)
        · exact ends_done (stuckCalm_update c6 s6.bracket s6.inited s6.phase speed)

/-- INIT on a stuck bus leaves it stuck (R363). -/
theorem stuckCalm_init {n : Nat} {s : State} (c : StuckCalm (n + 16) s) (speed : Word)
    (i : CoreInv s) (hd : dividerAnswers s.cfg speed) :
    Ends (initBlock speed s) fun _ t => StuckCalm n t ∧ InitBase s t := by
  have key : Ends (initBlock speed s) fun _ t => StuckCalm n t := by
    unfold initBlock
    have cfgOf : ∀ {m : Run Unit} {P : State → Prop} {x : State},
        Ends m (fun _ t => P t) → Ends m (fun _ t => Controls x t) →
        Ends m fun _ t => P t ∧ Controls x t := by
      intro m P x h1 h2
      obtain ⟨a, t, e1, p1⟩ := h1
      obtain ⟨a', t', e2, p2⟩ := h2
      rw [e1] at e2
      cases e2
      exact ⟨a, t, e1, p1, p2⟩
    refine ends_andThen (cfgOf (stuckCalm_write (n := n + 15) c (r := .ctrl) (by simp) ctrlResetWord
      (fun _ => .inl rfl)) (ends_mono (regWrite_ctrl_spec i c.plat _) fun _ _ h => h.1))
      fun _ s1 ⟨c1, k1⟩ => ?_
    have i1 := coreInv_update (k1.coreInv i) false s1.inited s1.phase
    have c1' := stuckCalm_update c1 false s1.inited s1.phase s1.handle.rate
    refine ends_andThen (cfgOf (stuckCalm_write (n := n + 14) c1' (r := .ctrl) (by simp)
      ctrlReleaseWord (fun _ => .inr rfl)) (ends_mono (regWrite_ctrl_spec i1 c1'.plat _)
      fun _ _ h => h.1)) fun _ s2 ⟨c2, k2⟩ => ?_
    have i2 := k2.coreInv i1
    have cf2 : s2.cfg = s.cfg := k2.keeps.cfg.trans k1.keeps.cfg
    obtain ⟨_, s3, e3, c3, h3⟩ : Ends (regWrite .ctrl ctrlModeWord s2) fun _ t =>
        StuckCalm (n + 13) t ∧ (Controls s2 t ∧ t.ctrl = ctrlModeWord.setWidth 4) := by
      obtain ⟨a, t, e1, p1⟩ := stuckCalm_write (n := n + 13) c2 (r := .ctrl) (by simp)
        ctrlModeWord (fun _ => .inr rfl)
      obtain ⟨a', t', e2, p2⟩ := regWrite_ctrl_spec i2 c2.plat ctrlModeWord
      rw [e1] at e2
      cases e2
      exact ⟨a, t, e1, p1, p2.1, p2.2.1⟩
    rw [e3, andThen_next]
    obtain ⟨k3, ct3⟩ := h3
    have g3 : Good s3 := ⟨k3.coreInv i2, c3.plat, by rw [ct3]; rfl⟩
    obtain ⟨v4, s4, e4, c4, p4⟩ : Ends (regRead .cfg0 s3) fun _ t =>
        StuckCalm (n + 12) t ∧ Polls s3 t := by
      obtain ⟨a, t, e1, p1, _⟩ := stuckCalm_read (n := n + 12) c3 (r := .cfg0) (by simp [readable]) (by simp)
      obtain ⟨a', t', e2, p2, _⟩ := regRead_spec g3.inv g3.plat (r := .cfg0) (by simp [readable])
      rw [e1] at e2
      cases e2
      exact ⟨a, t, e1, p1, p2⟩
    rw [e4, andThen_next]
    have g4 := p4.good g3
    refine ends_andThen (cfgOf (stuckCalm_write (n := n + 11) c4 (r := .cfg0) (by simp) _
      (fun h => by simp at h)) (ends_mono (regWrite_config_spec g4 .cfg0 _ (by simp))
      fun _ _ h => h.1)) fun _ s5 ⟨c5, k5⟩ => ?_
    have i5 := k5.coreInv g4.inv
    obtain ⟨v6, s6, e6, c6, p6⟩ : Ends (regRead .cfg1 s5) fun _ t =>
        StuckCalm (n + 10) t ∧ Polls s5 t := by
      obtain ⟨a, t, e1, p1, _⟩ := stuckCalm_read (n := n + 10) c5 (r := .cfg1) (by simp [readable]) (by simp)
      obtain ⟨a', t', e2, p2, _⟩ := regRead_spec i5 c5.plat (r := .cfg1) (by simp [readable])
      rw [e1] at e2
      cases e2
      exact ⟨a, t, e1, p1, p2⟩
    rw [e6, andThen_next]
    obtain ⟨_, s7, e7, c7⟩ := stuckCalm_write (n := n + 9) c6 (r := .cfg1) (by simp)
      (v6.word &&& ~~~pinDefaultsMask) (fun h => by simp at h)
    have cf7 : s7.cfg = s.cfg := by
      obtain ⟨u, e, p, _, _, _⟩ := calm_slot (n := n + 9) c6.calm
      have h6 : u.cfg = s.cfg := by
        rw [p.cfg, p6.cfg, k5.keeps.cfg, p4.cfg, k3.keeps.cfg, cf2]
      rw [regWrite_eq .cfg1 _ e (p.platform c6.plat)] at e7
      unfold storeReg at e7
      dsimp only at e7
      split at e7 <;> (cases e7; exact h6)
    rw [e7, andThen_next]
    refine ends_andThen (stuckCalm_speedSet (n := n + 2) c7 speed (by rw [cf7]; exact hd))
      fun r s8 c8 => ?_
    refine ends_andThen (stuckCalm_read (n := n + 1) c8 (r := .ctrl) (by simp [readable]) (by simp))
      fun v9 s9 ⟨c9, sh9⟩ => ?_
    have hv9 : v9 = .exact (s9.ctrl.setWidth 32) := sh9
    refine ends_andThen (stuckCalm_write (n := n) c9 (r := .ctrl) (by simp) _
      (fun _ => .inr (by rw [hv9]; exact rrf_masterOn _))) fun _ s10 c10 => ?_
    refine ends_done ?_
    unfold initOutcome
    split
    · exact stuckCalm_update c10 s10.bracket true .initialized s10.handle.rate
    · exact stuckCalm_update c10 s10.bracket s10.inited .idle s10.handle.rate
  obtain ⟨a, t, e1, p1⟩ := key
  obtain ⟨a', t', e2, p2, _⟩ := initBlock_base i c.plat speed hd
  rw [e1] at e2
  cases e2
  exact ⟨a, t, e1, p1, p2⟩

theorem stuckCalm_check {n : Nat} {s : State} (c : StuckCalm (n + 1) s) :
    Ends (checkStuck s) fun b t => b = true ∧ StuckCalm n t ∧ Polls s t ∧ t.rxf = s.rxf := by
  obtain ⟨u, e, p, _, cc, _⟩ := calm_slot c.calm
  obtain ⟨t, e2, pl, same, -⟩ := checkStuck_eq e (p.platform c.plat)
  have hst : busStuck u := by unfold busStuck; rw [p.flags]; exact c.stuck
  have pu : Polls s u := by
    have := p.same
    refine ⟨?_, p.byte, fun w h => by rw [← p.txf]; exact h, le_of_eq (by rw [p.txf]),
      by rw [p.rxf]; exact le_max_left _ _, fun h => by rw [p.target]; exact h, p.words⟩
    rw [p.flags, p.txf, p.rxf, p.engine, p.target]
    exact this
  refine ⟨_, t, e2, ?_, ?_, pu.trans pl, ?_⟩
  · rw [hst.1, hst.2]; rfl
  · refine ⟨pl.platform (p.platform c.plat), ?_, ?_⟩
    · rcases cc with ⟨rest, h⟩ | ⟨h, q⟩
      · exact .inl ⟨rest, by rw [same]; exact h⟩
      · refine .inr ⟨by rw [same]; exact h, ?_⟩
        rw [same]
        exact ⟨q.noWord, q.noStart, q.noAutostop, q.noReceive⟩
    · rw [same]; exact hst
  · rw [same]; exact p.rxf

/-- START on a bus that stays stuck through the re-init: `ERR_BUS_BUSY`, and no command word (R172). -/
theorem start_stuck {s : State} (g : Good s) (c : StuckCalm 18 s)
    (hd : dividerAnswers s.cfg (reinitSpeed s)) (a : BitVec 7) (d : Dir) :
    Ends (start a d s) fun k t => k = .busBusy ∧ t.phase = .error ∧ t.result = .busBusy ∧
      t.txf = [] ∧ t.rxf = [] ∧ t.ctrl = 5#4 ∧ t.mem = s.mem ∧
      wordsOf t.trace = wordsOf s.trace ∧ busStuck t := by
  unfold start recoverBus
  obtain ⟨b1, s1, e1, h1, c1, p1, _⟩ := stuckCalm_check (n := 17) c
  rw [e1, andThen_next, if_pos h1]
  have g1 := p1.good g
  have hd1 : dividerAnswers s1.cfg (reinitSpeed s1) := by
    rw [p1.cfg, reinitSpeed_congr p1.cfg (by rw [p1.handle])]; exact hd
  obtain ⟨_, s2, e2, c2, b2⟩ := stuckCalm_init (n := 1) c1 (reinitSpeed s1) g1.inv hd1
  rw [e2, andThen_next]
  obtain ⟨b3, s3, e3, h3, c3, p3, r3⟩ := stuckCalm_check (n := 0) c2
  rw [e3, andThen_next, if_pos h3]
  refine ends_done ⟨rfl, rfl, rfl, ?_, ?_, ?_, ?_, ?_, c3.stuck⟩
  · have := p3.txLen
    rw [b2.noTx] at this
    exact List.length_eq_zero_iff.1 (Nat.le_zero.1 this)
  · show s3.rxf = _; rw [r3, b2.noRx]
  · show s3.ctrl = _; rw [p3.ctrl, b2.ctrl]
  · show s3.mem = _; rw [p3.mem, b2.controls.mem, p1.mem]
  · show wordsOf s3.trace = _; rw [p3.words, b2.controls.words, p1.words]

end Sys2Proof.Machine
end

