-- ==== Sys2Proof/Laws/Nominal.lean ====
section
/-! SUPPORT. The nominal engine and target (spec/47_command_words.md R301 to R304, R307, R308) end to end:
WAIT_TX_SPACE, START, SEND and STOP on a bus whose target answers. -/

namespace Sys2Proof.Machine

/-! ### Ending, twice -/

theorem ends_both {α : Type} {m : Run α} {P Q : α → State → Prop} (h1 : Ends m P)
    (h2 : Ends m Q) : Ends m fun a t => P a t ∧ Q a t := by
  obtain ⟨a, t, e, p⟩ := h1
  obtain ⟨a', t', e', q⟩ := h2
  rw [e] at e'
  cases e'
  exact ⟨a, t, e, p, q⟩

theorem sched_nil {l : List (List EnvMove)} {X : Prop}
    (h : ∀ n, (∃ rest, l = List.replicate n [] ++ rest) ∨ X) : X := by
  rcases h (l.length + 1) with ⟨rest, e⟩ | h
  · have := congrArg List.length e
    simp at this
    omega
  · exact h

/-- What holds for every length of calm holds under the nominal engine at rest. -/
theorem ends_quiet {α : Type} {m : Run α} {Q : α → State → Prop}
    (h : ∀ n, Ends m fun a t => ((∃ rest, t.sched = List.replicate n [] ++ rest) ∨ t.sched = []) ∧
      Q a t) : Ends m fun a t => t.sched = [] ∧ Q a t := by
  obtain ⟨a, t, e, _, q⟩ := h 0
  refine ⟨a, t, e, sched_nil (l := t.sched) (X := t.sched = []) fun n => ?_, q⟩
  obtain ⟨a', t', e', c, _⟩ := h n
  rw [e] at e'
  cases e'
  exact c

/-! ### What the nominal bus looks at -/

/-- The part of a state the engine, the target and the platform conditions look at. -/
structure Wires where
  sched : List (List EnvMove)
  ticks : List Nat
  cfg : Config
  base : Word
  ctrl : BitVec 4
  flags : Status
  cfg1 : Word
  txf : List CmdEntry
  rxf : List Byte
  engine : Engine
  target : Option Target

/-- See `Wires`. -/
def wires (s : State) : Wires :=
  ⟨s.sched, s.ticks, s.cfg, s.handle.base, s.ctrl, s.flags, s.cfg1, s.txf, s.rxf, s.engine, s.target⟩

/-- The nominal engine runs and rests, `tg` is attached, and a start will go out at once. -/
structure Free (tg : Target) (w : Wires) : Prop where
  quiet : w.sched = []
  even : w.ticks = []
  valid : configValid w.cfg
  budget : 1 ≤ w.cfg.tPoll
  clock : w.cfg.busClock = true
  aligned : w.base &&& 3#32 = 0#32
  on : (w.ctrl.getLsbD bitMEN && !w.ctrl.getLsbD bitRST) = true
  noWord : w.txf = []
  noStart : w.engine.pendingStart = none
  noReceive : w.engine.recvLeft = 0
  noByte : w.rxf = []
  attached : w.target = some tg
  notStuck : ¬ (w.flags.bbf = true ∧ w.flags.mbf = false)
  noAutostop : w.cfg1.getLsbD bitAUTOSTOP = false ∨ w.flags.mbf = false

/-- This master owns the bus and `tg` acknowledged its address. -/
structure Held (read : Bool) (tg : Target) (w : Wires) : Prop extends Free tg w where
  dir : w.engine.dirRead = read
  owned : w.flags.mbf = true
  clean : noErrorFlag w.flags
  addressed : tg.addressed = true

theorem Free.plat {tg : Target} {s : State} (h : Free tg (wires s)) : Platform s :=
  ⟨h.clock, h.aligned⟩

theorem Free.run {tg : Target} {s : State} (h : Free tg (wires s)) :
    s.ctrl.getLsbD bitRST = false := by
  have := h.on
  simp only [Bool.and_eq_true, Bool.not_eq_true'] at this
  exact this.2

theorem Free.engineOn {tg : Target} {s : State} (h : Free tg (wires s)) : engineOn s = true := h.on

theorem Free.rests {tg : Target} {s : State} (h : Free tg (wires s)) : EngineRests s :=
  ⟨h.noWord, h.noStart, h.noAutostop, .inl h.noReceive⟩

theorem Free.slot {tg : Target} {s : State} (h : Free tg (wires s)) : envSlot s = .next s := by
  unfold envSlot
  rw [show s.sched = [] from h.quiet]
  exact engineMove_rests h.rests

theorem Free.calm {tg : Target} {s : State} (h : Free tg (wires s)) (n : Nat) : Calm n s :=
  .inr ⟨h.quiet, h.rests⟩

theorem Free.space {tg : Target} {s : State} (h : Free tg (wires s)) :
    s.txf.length < s.cfg.fifoDepth := by
  rw [show s.txf = [] from h.noWord]; exact h.valid.1

theorem Passes.wires {s t : State} (p : Passes s t) (hs : t.sched = s.sched)
    (ht : t.ticks = s.ticks) : wires t = wires s := by
  unfold Machine.wires
  rw [hs, ht, p.cfg, p.handle, p.ctrl, p.flags, p.cfg1, p.txf, p.rxf, p.engine, p.target]

theorem firstElapsed_free {tg : Target} {s : State} (h : Free tg (wires s)) :
    firstElapsed s ≤ s.cfg.tPoll := by
  have hb := h.budget
  have hv := h.valid.2.2.1
  have h1 : 1 ≤ s.cfg.tPoll := hb
  have h2 : s.cfg.tPoll + 1 < 2 ^ s.cfg.timerBits := hv
  rw [elapsed_one h.even (by omega)]
  exact h1

theorem tick_even {s : State} (h : s.ticks = []) :
    (tickTimer s).timer = s.timer + 1 ∧ (tickTimer s).ticks = [] := by
  unfold tickTimer; rw [h]; exact ⟨rfl, rfl⟩

theorem ticked2_even {s t : State} (h : s.ticks = []) (k : ticked2 s t) :
    t.timer = s.timer + 2 ∧ t.ticks = [] := by
  obtain ⟨a, b⟩ := tick_even h
  obtain ⟨c, d⟩ := tick_even b
  exact ⟨by rw [k.1, c, a], by rw [k.2, d]⟩

theorem ticked_even {s t : State} (h : s.ticks = []) (k : ticked s t) :
    t.timer = s.timer + 1 ∧ t.ticks = [] := by
  obtain ⟨a, b⟩ := tick_even h
  exact ⟨by rw [k.1, a], by rw [k.2, b]⟩

/-! ### The word the engine takes next -/

theorem decode_dataWord (b : Byte) : decodeCmd ((dataWord b).setWidth 11) = some (.txdata b) := by
  revert b; decide

theorem decode_receiveWord (n : Nat) :
    decodeCmd ((receiveWord n).setWidth 11) = some (.receive (BitVec.ofNat 8 (n - 1))) := by
  unfold receiveWord
  generalize BitVec.ofNat 8 (n - 1) = b
  revert b; decide

theorem decode_stopWord : decodeCmd (stopWord.setWidth 11) = some .stop := by decide

theorem decode_startWord (a : BitVec 7) (d : Dir) :
    decodeCmd ((startWord a d).setWidth 11) = some (.start a d) := by
  cases d <;> (revert a; decide)

theorem addrByte_parts (a : BitVec 7) (d : Dir) :
    (addrByte a d).extractLsb' 1 7 = a ∧ (addrByte a d).getLsbD 0 = decide (d = .read) := by
  cases d <;> (revert a; decide)

/-- The target behind a start it acknowledged (R308). -/
def Target.begun (t : Target) (a : BitVec 7) (d : Dir) : Target :=
  match d with
  | .write => t.startWrite a
  | .read => t.startRead

theorem begun_addressed (t : Target) (a : BitVec 7) (d : Dir) : (t.begun a d).addressed = true := by
  cases d <;> rfl

/-- The environment's turn with one word queued and the engine ready for it. -/
theorem slot_word {tg : Target} {s : State} {w : CmdEntry} {c : Cmd} (hw : s.txf = [w])
    (hc : decodeCmd w = some c) (h : Free tg (wires { s with txf := [] })) :
    envSlot s = runCmd c s ∧ engineReady s = true ∧ popTx s = { s with txf := [] } := by
  have hr : engineReady s = true := by
    have h1 : engineOn s = true := h.on
    have h2 : s.engine.recvLeft = 0 := h.noReceive
    have h3 : s.engine.pendingStart = none := h.noStart
    unfold engineReady
    rw [h1, h2, h3]
    rfl
  refine ⟨?_, hr, by unfold popTx; rw [hw]; rfl⟩
  unfold envSlot
  rw [show s.sched = [] from h.quiet]
  dsimp only
  unfold engineMove nextEntry
  rw [if_pos hr, hw]
  dsimp only [List.head?]
  rw [hc]

/-- A bus this master holds, with what may still be queued on it: nothing, a data byte, or a start. -/
def Ready (read : Bool) (tg : Target) (s : State) : Prop :=
  Held read tg (wires s) ∨
  (∃ b tg0, read = false ∧ tg = tg0.putByte b ∧ s.txf = [(dataWord b).setWidth 11] ∧
    Held false tg0 (wires { s with txf := [] })) ∨
  ∃ a d tg0, read = decide (d = Dir.read) ∧ tg0.answers a = true ∧ tg = tg0.begun a d ∧
    s.txf = [(startWord a d).setWidth 11] ∧ noErrorFlag s.flags ∧
    s.cfg1.getLsbD bitAUTOSTOP = false ∧ Free tg0 (wires { s with txf := [] })

/-- What the environment's turn leaves as it was. -/
structure Turn (s u : State) : Prop where
  same : u = { s with flags := u.flags, txf := u.txf, rxf := u.rxf, engine := u.engine,
                      target := u.target }

theorem Turn.mem {s u : State} (h : Turn s u) : u.mem = s.mem := by rw [h.same]
theorem Turn.timer {s u : State} (h : Turn s u) : u.timer = s.timer := by rw [h.same]
theorem Turn.cfg {s u : State} (h : Turn s u) : u.cfg = s.cfg := by rw [h.same]
theorem Turn.ticks {s u : State} (h : Turn s u) : u.ticks = s.ticks := by rw [h.same]
theorem Turn.byte {s u : State} (h : Turn s u) : u.work.b = s.work.b := by rw [h.same]

theorem putByte_addressed (t : Target) (b : Byte) : (t.putByte b).addressed = t.addressed := by
  unfold Target.putByte; split <;> rfl

theorem ready_slot {r : Bool} {tg : Target} {s : State} (h : Ready r tg s) :
    ∃ u, envSlot s = .next u ∧ Held r tg (wires u) ∧ Turn s u := by
  rcases h with h | ⟨b, tg0, rfl, rfl, hw, h⟩ | ⟨a, d, tg0, rfl, ha, rfl, hw, hc, hx, h⟩
  · exact ⟨s, h.slot, h, ⟨rfl⟩⟩
  · obtain ⟨e, hr, hp⟩ := slot_word hw (decode_dataWord b) h.toFree
    refine ⟨{ s with txf := [], target := some (tg0.putByte b) }, ?_, ?_, ⟨rfl⟩⟩
    · rw [e]
      unfold runCmd execCmdTxdata
      dsimp only
      rw [if_pos hr, hp]
      have h1 : ownsBus s = true := h.owned
      have h2 : s.engine.dirRead = false := h.dir
      have h3 : s.target = some tg0 := h.attached
      rw [h1, h2, if_pos (show (true && !false) = true from rfl)]
      unfold sendByte
      dsimp only
      rw [h3]
      dsimp only
      rw [if_pos h.addressed]
    · exact ⟨⟨h.quiet, h.even, h.valid, h.budget, h.clock, h.aligned, h.on, rfl, h.noStart,
        h.noReceive, h.noByte, rfl, h.notStuck, h.noAutostop⟩, h.dir, h.owned, h.clean,
        by rw [putByte_addressed]; exact h.addressed⟩
  · obtain ⟨e, hr, hp⟩ := slot_word hw (decode_startWord a d) h
    obtain ⟨p1, p2⟩ := addrByte_parts a d
    refine ⟨{ s with
      txf := []
      flags := { s.flags with mbf := true, bbf := true }
      engine := { s.engine with dirRead := decide (d = .read), pendingStart := none }
      target := some (tg0.begun a d) }, ?_, ?_, ⟨rfl⟩⟩
    · rw [e]
      unfold runCmd execCmdStart
      dsimp only
      rw [if_pos hr, hp]
      have hb : busTaken { s with txf := [] } = false := by
        have hn : ¬ (s.flags.bbf = true ∧ s.flags.mbf = false) := h.notStuck
        unfold busTaken
        cases h1 : s.flags.bbf <;> cases h2 : s.flags.mbf <;> simp_all
      have h3 : s.target = some tg0 := h.attached
      unfold beginStart
      rw [hb]
      unfold sendAddress
      dsimp only
      rw [h3, p1, p2]
      simp only [Bool.false_eq_true, if_false, ha, if_true]
      cases d <;> rfl
    · exact ⟨⟨h.quiet, h.even, h.valid, h.budget, h.clock, h.aligned, h.on, rfl, rfl,
        h.noReceive, h.noByte, rfl, fun hh => by simp [wires] at hh, .inl hx⟩, rfl, rfl, hc,
        begun_addressed _ _ _⟩

/-! ### WAIT_TX_SPACE -/

theorem wait_held {r : Bool} {tg : Target} {s u : State} (e : envSlot s = .next u)
    (h : Held r tg (wires u)) :
    Ends (waitTxSpace s) fun k t => k = .ok ∧ Held r tg (wires t) ∧ Passes u t ∧
      t.timer = u.timer + 2 := by
  refine ends_mono (ends_quiet (m := waitTxSpace s) (Q := fun k t => k = .ok ∧ Passes u t ∧
    ticked2 u t) fun n => ?_) fun k t ⟨hs, hk, p, tk⟩ => ?_
  · refine ends_mono (waitTxSpace_slot (n := n) e h.plat (h.calm _) h.clean h.valid.2.1
      (.inl h.space)) fun k t ⟨hk, p, tk, c, _⟩ => ⟨?_, ?_, p, tk⟩
    · exact c.imp id And.left
    · rw [hk, if_neg (by have := firstElapsed_free h.toFree; omega)]
  · obtain ⟨t1, t2⟩ := ticked2_even h.even tk
    refine ⟨hk, ?_, p, t1⟩
    rw [p.wires (by rw [hs]; exact h.quiet.symm) (by rw [t2]; exact h.even.symm)]
    exact h

/-- One command word onto a held bus. -/
theorem txcmd_held {r : Bool} {tg : Target} {t : State} (h : Held r tg (wires t)) (v : Word) :
    regWrite .txcmd v t =
      done () (logged (.wr .txcmd v) { t with txf := [v.setWidth 11] }) := by
  rw [regWrite_txcmd_slot h.slot h.plat h.run h.space]
  have : t.txf = [] := h.noWord
  rw [this]
  rfl

/-! ### START -/

theorem start_free {tg : Target} {s u : State} (e : envSlot s = .next u) (h : Free tg (wires u))
    {a : BitVec 7} (ha : tg.answers a = true) (d : Dir) :
    Ends (start a d s) fun k t => k = .ok ∧ Ready (decide (d = .read)) (tg.begun a d) t ∧
      t.mem = u.mem ∧ t.timer = u.timer + 2 ∧ t.cfg = u.cfg ∧
      t.txf = [(startWord a d).setWidth 11] := by
  refine ends_mono (ends_quiet (m := start a d s) (Q := fun k t => k = .ok ∧ Started a d u t ∧
    ticked2 u t) fun n => ?_) fun k t ⟨hs, hk, st, tk⟩ => ?_
  · refine ends_mono (start_calm (n := n) e h.plat h.run (h.calm _) h.valid.2.1 (.inl h.space) h.notStuck
      a d) fun k t ⟨hok, _⟩ => ?_
    obtain ⟨x1, x2, x3, x4⟩ := hok (firstElapsed_free h)
    exact ⟨x4, x1, x2, x3⟩
  · obtain ⟨t1, t2⟩ := ticked2_even h.even tk
    have hu : u.txf = [] := h.noWord
    have same := st.same
    rw [hu] at same
    have hf : t.flags = u.flags.clearW1C clearAll := by rw [same]
    have htx : t.txf = [(startWord a d).setWidth 11] := by rw [same]; rfl
    refine ⟨hk, .inr (.inr ⟨a, d, tg, rfl, ha, rfl, htx, ?_, ?_, ?_⟩), by rw [same], t1,
      by rw [same], htx⟩
    · rw [hf]; exact noErrorFlag_cleared _
    · rw [same]; exact startCfg1_autostop _
    · have hw : wires { t with txf := [] } =
          { wires u with flags := u.flags.clearW1C clearAll, cfg1 := startCfg1 u.cfg1 } := by
        unfold wires
        rw [hs, t2]
        rw [same]
        dsimp only
        rw [show u.sched = [] from h.quiet, show u.ticks = [] from h.even, hu]
      rw [hw]
      exact ⟨h.quiet, h.even, h.valid, h.budget, h.clock, h.aligned, h.on, h.noWord, h.noStart,
        h.noReceive, h.noByte, h.attached, h.notStuck, .inl (startCfg1_autostop _)⟩

/-! ### SEND -/

/-- Bytes `i` to `i + n - 1` of a source. -/
def srcBytes (src : ByteSrc) (i n : Nat) (s : State) : List Byte :=
  (List.range n).map fun j => srcByte src (i + j) s

theorem srcBytes_succ (src : ByteSrc) (i n : Nat) (s : State) :
    srcBytes src i (n + 1) s = srcByte src i s :: srcBytes src (i + 1) n s := by
  unfold srcBytes
  rw [List.range_succ_eq_map, List.map_cons, List.map_map]
  congr 1
  apply List.map_congr_left
  intro j _
  simp only [Function.comp_apply]
  rw [show i + (j + 1) = i + 1 + j by omega]

theorem srcBytes_congr {s t : State} (src : ByteSrc) (i n : Nat) (h : t.mem = s.mem) :
    srcBytes src i n t = srcBytes src i n s := by
  unfold srcBytes
  apply List.map_congr_left
  intro j _
  rw [srcByte_congr src _ h]

theorem sentBytes_eq (src : ByteSrc) (s : State) :
    sentBytes src s.mem = srcBytes src 0 (srcLen src) s := by
  cases src with
  | host addr len => simp [sentBytes, srcBytes, srcLen, srcByte]
  | bytes l =>
    unfold sentBytes srcBytes srcLen srcByte
    apply List.ext_getElem
    · simp
    · intro i h1 h2; simp [h1]

theorem sendLoop_ready (src : ByteSrc) (n : Nat) : ∀ (i : Nat) {tg : Target} {s : State},
    Ready false tg s →
    Ends (sendLoop src i n s) fun k t => k = .ok ∧
      Ready false (tg.putBytes (srcBytes src i n s)) t ∧ t.mem = s.mem ∧ t.cfg = s.cfg := by
  induction n with
  | zero =>
    intro i tg s h
    exact ends_done ⟨rfl, by simpa [srcBytes, Target.putBytes] using h, rfl, rfl⟩
  | succ n ih =>
    intro i tg s h
    unfold sendLoop
    have hn : Ready false tg (note (fun w => { w with i := some i }) s) := h
    obtain ⟨u, e, hu, tu⟩ := ready_slot hn
    refine ends_andThen (wait_held e hu) fun k t ⟨hk, ht, p, _⟩ => ?_
    rw [if_neg (by simp [hk]), txcmd_held ht, andThen_done]
    have hm : t.mem = s.mem := p.mem.trans tu.mem
    have hc : t.cfg = s.cfg := p.cfg.trans tu.cfg
    rw [srcByte_congr src i hm]
    have hr : Ready false (tg.putByte (srcByte src i s))
        (logged (.wr .txcmd (dataWord (srcByte src i s)))
          { t with txf := [(dataWord (srcByte src i s)).setWidth 11] }) := by
      refine .inr (.inl ⟨_, tg, rfl, rfl, rfl, ?_⟩)
      have : wires { t with txf := [] } = wires t := by
        unfold wires; rw [show t.txf = [] from ht.noWord]
      show Held false tg (wires { t with txf := [] })
      rw [this]
      exact ht
    generalize hq : logged (.wr .txcmd (dataWord (srcByte src i s)))
      { t with txf := [(dataWord (srcByte src i s)).setWidth 11] } = q at hr ⊢
    have hqm : q.mem = s.mem := by rw [← hq]; exact hm
    have hqc : q.cfg = s.cfg := by rw [← hq]; exact hc
    refine ends_mono (ih (i + 1) hr) fun k t' ⟨h1, h2, h3, h4⟩ => ⟨h1, ?_, h3.trans hqm, h4.trans hqc⟩
    rw [srcBytes_congr src _ _ hqm] at h2
    rw [srcBytes_succ]
    exact h2

theorem send_ready (src : ByteSrc) {tg : Target} {s : State} (h : Ready false tg s) :
    Ends (send src s) fun k t => k = .ok ∧
      Ready false (tg.putBytes (sentBytes src s.mem)) t ∧ t.mem = s.mem ∧ t.cfg = s.cfg := by
  have h' : Ready false tg { s with phase := .transferring } := h
  refine ends_mono (sendLoop_ready src (srcLen src) 0 h') fun k t ⟨h1, h2, h3, h4⟩ => ?_
  refine ⟨h1, ?_, h3, h4⟩
  rw [sentBytes_eq]
  exact h2

/-! ### STOP -/

/-- STOP on a bus this master owns (R174, R303). -/
theorem stop_held {tg : Target} {s u : State} (e : envSlot { s with phase := .stop, bracket := false } = .next u)
    (h : Free tg (wires u)) (ho : u.flags.mbf = true) (hc : noErrorFlag u.flags) :
    Ends (stop s) fun k t => k = .ok ∧ Free tg.release (wires t) ∧ t.mem = u.mem ∧
      t.flags.mbf = false ∧ t.flags.bbf = false ∧ t.flags.sdf = false ∧ noErrorFlag t.flags ∧
      t.work.b = u.work.b ∧ t.cfg = u.cfg ∧ t.phase = .idle := by
  unfold stop
  refine ends_andThen (ends_quiet (m := waitTxSpace _) (Q := fun k t => k = .ok ∧ Passes u t ∧
    ticked2 u t) fun n => ?_) fun k t1 ⟨hs, hk, p1, tk⟩ => ?_
  · refine ends_mono (waitTxSpace_slot (n := n) e h.plat (h.calm _) hc h.valid.2.1
      (.inl h.space)) fun k t ⟨hk, p, tk, c, _⟩ => ⟨c.imp id And.left, ?_, p, tk⟩
    rw [hk, if_neg (by have := firstElapsed_free h; omega)]
  obtain ⟨_, tk2⟩ := ticked2_even h.even tk
  have w1 : wires t1 = wires u := p1.wires (by rw [hs]; exact h.quiet.symm) (by rw [tk2]; exact h.even.symm)
  have h1 : Free tg (wires t1) := by rw [w1]; exact h
  rw [if_neg (by simp [hk]), regWrite_txcmd_slot h1.slot h1.plat h1.run h1.space, andThen_done]
  have hx1 : t1.txf = [] := h1.noWord
  rw [hx1]
  -- the word is taken before the timer read
  let s2 : State := logged (.wr .txcmd stopWord) { t1 with txf := [] ++ [stopWord.setWidth 11] }
  have hf2 : Free tg (wires { s2 with txf := [] }) := by
    have : wires { s2 with txf := [] } = wires t1 := by
      show wires { t1 with txf := [] } = _; unfold wires; rw [hx1]
    rw [this]; exact h1
  obtain ⟨e2, hr2, hp2⟩ := slot_word (s := s2) (w := stopWord.setWidth 11) rfl decode_stopWord hf2
  have ho2 : ownsBus s2 = true := by
    show t1.flags.mbf = true; rw [p1.flags]; exact ho
  let u2 : State := { s2 with
    txf := []
    flags := { s2.flags with sdf := true, mbf := false, bbf := false }
    target := some tg.release }
  have e2' : envSlot s2 = .next u2 := by
    rw [e2]
    unfold runCmd execCmdStop
    dsimp only
    rw [if_pos hr2, if_pos ho2, hp2]
    unfold busStop
    have h3 : s2.target = some tg := hf2.attached
    dsimp only
    rw [h3]
    rfl
  have hf3 : Free tg.release (wires u2) :=
    ⟨hf2.quiet, hf2.even, hf2.valid, hf2.budget, hf2.clock, hf2.aligned, hf2.on, rfl, hf2.noStart,
      hf2.noReceive, hf2.noByte, rfl, fun hh => by simp [wires, u2] at hh, .inr rfl⟩
  have hc2 : noErrorFlag u2.flags := by
    have : noErrorFlag t1.flags := by rw [p1.flags]; exact hc
    exact this
  refine ends_andThen (now_slot e2') fun t0 s3 ⟨r3, _, tk3, _⟩ => ?_
  have free_of : ∀ x : State, Passes u2 x → x.sched = [] → x.ticks = [] → Free tg.release (wires x) := by
    intro x px hx hx2
    rw [px.wires (by rw [hx]; exact hf3.quiet.symm) (by rw [hx2]; exact hf3.even.symm)]
    exact hf3
  obtain ⟨_, tk3'⟩ := ticked_even (s := u2) hf3.even tk3
  have q3 : s3.sched = [] := r3.sched.trans hf3.quiet
  have hfuel : ∃ m, pollFuel s3.cfg.tStop s3 = m + 1 := ⟨_, rfl⟩
  obtain ⟨m, hm⟩ := hfuel
  rw [hm]
  unfold stopWaitLoop
  have rn := r3.trans (reads_note (s := s3) (fun w => { w with t0 := some t0 }) rfl)
  have f3 := free_of _ rn.passes q3 tk3'
  refine ends_andThen (regRead_slot f3.slot f3.plat (r := .status) (by simp [readable]) (by simp))
    fun v s4 ⟨r4, st4, sh4, _⟩ => ?_
  have P4 := rn.passes.trans r4.passes
  have hv : stopDetected v = true := by
    rw [sdf_shows (f := s4.flags) sh4, P4.flags]
  have rn4 := r4.trans (reads_note (s := s4) (fun w => { w with s := some v.word }) rfl)
  have P4n := rn.passes.trans rn4.passes
  have q4 : s4.sched = [] := r4.sched.trans q3
  have k4 : s4.ticks = [] := st4.ticks.trans tk3'
  have f4 : Free tg.release (wires (note (fun w => { w with s := some v.word }) s4)) :=
    free_of _ P4n q4 k4
  refine ends_andThen (P := fun c x => c = .ok ∧ Passes u2 x ∧ x.sched = [] ∧ x.ticks = []) ?_
    fun c s5 ⟨hc5, P5, q5, k5⟩ => ?_
  · unfold stopDecode
    split
    · refine ends_mono (checkClearError_slot_ok f4.slot f4.plat (by rw [P4n.flags]; exact hc2))
        fun c x ⟨x1, x2, x3, _⟩ => ⟨x1, P4n.trans x2.passes, x2.sched.trans q4, x3.ticks.trans k4⟩
    · exact ends_done ⟨rfl, P4n, q4, k4⟩
  · rw [if_pos hv]
    unfold stopSeen
    have f5 := free_of s5 P5 q5 k5
    rw [regWrite_status_slot f5.slot f5.plat, andThen_done, if_pos hc5]
    have hfl : s5.flags.clearW1C sdfMask = { u2.flags with sdf := false } := by
      rw [clearSdf_flags, P5.flags]
    refine ends_done ⟨rfl, ?_, ?_, ?_, ?_, ?_, ?_, ?_, ?_, rfl⟩
    · refine ⟨f5.quiet, f5.even, f5.valid, f5.budget, f5.clock, f5.aligned, f5.on, f5.noWord,
        f5.noStart, f5.noReceive, f5.noByte, f5.attached, ?_, .inr ?_⟩
      · show ¬ ((s5.flags.clearW1C sdfMask).bbf = true ∧ _)
        rw [hfl]; simp [u2]
      · show (s5.flags.clearW1C sdfMask).mbf = false
        rw [hfl]
    · show s5.mem = _
      rw [P5.mem]; exact p1.mem
    · show (s5.flags.clearW1C sdfMask).mbf = false; rw [hfl]
    · show (s5.flags.clearW1C sdfMask).bbf = false; rw [hfl]
    · show (s5.flags.clearW1C sdfMask).sdf = false; rw [hfl]
    · show noErrorFlag (s5.flags.clearW1C sdfMask)
      rw [hfl]; exact hc2
    · show s5.work.b = _
      rw [P5.byte]; exact p1.byte
    · show s5.cfg = _
      rw [P5.cfg]; exact p1.cfg

end Sys2Proof.Machine
end

