-- ==== Sys2Proof/Laws/NominalRead.lean ====
section
/-! SUPPORT. RECEIVE under the nominal engine and target (spec/42_byte_transfer.md R192, R196;
spec/47_command_words.md R302, R308): the bytes delivered are the target's, whatever the depth of the
receive FIFO. -/

namespace Sys2Proof.Machine

/-! ### The target's stream -/

theorem getBytes_length (n : Nat) : ∀ t : Target, (t.getBytes n).1.length = n := by
  induction n with
  | zero => intro t; rfl
  | succ n ih => intro t; simp [Target.getBytes, ih]

theorem getBytes_add (m n : Nat) : ∀ t : Target,
    (t.getBytes (m + n)).1 = (t.getBytes m).1 ++ ((t.getBytes m).2.getBytes n).1 ∧
    (t.getBytes (m + n)).2 = ((t.getBytes m).2.getBytes n).2 := by
  induction m with
  | zero => intro t; simp [Target.getBytes]
  | succ m ih =>
    intro t
    obtain ⟨a, b⟩ := ih t.getByte.2
    rw [show m + 1 + n = m + n + 1 by omega]
    simp only [Target.getBytes]
    rw [a, b]
    exact ⟨rfl, rfl⟩

theorem getBytes_addressed (n : Nat) : ∀ t : Target, (t.getBytes n).2.addressed = t.addressed := by
  induction n with
  | zero => intro t; rfl
  | succ n ih => intro t; exact ih t.getByte.2

/-- A receive in progress with no target addressed delivers free values, as many as there are bytes left and
places in the FIFO (R302; assumption 6). -/
theorem deliver_free (n : Nat) {s : State} (h : ∀ e, s.target = some e → e.addressed = false) :
    ∃ l : List Byte, l.length = min n (s.cfg.fifoDepth - s.rxf.length) ∧ deliver n s = { s with
      rxf := s.rxf ++ l
      draws := s.draws + l.length
      engine := { s.engine with recvLeft := n - (s.cfg.fifoDepth - s.rxf.length) } } := by
  induction n generalizing s with
  | zero => exact ⟨[], by simp, by simp [deliver]⟩
  | succ n ih =>
    unfold deliver
    split
    · have hb : readBus s = (Config.floatByte s.draws, { s with draws := s.draws + 1 }) := by
        unfold readBus
        split
        · rename_i t ht
          rw [if_neg (by simp [h t ht])]
        · rfl
      rw [hb]
      obtain ⟨l, h1, h2⟩ := ih (s := { s with
        draws := s.draws + 1, rxf := s.rxf ++ [Config.floatByte s.draws] }) h
      simp only [List.length_append, List.length_cons, List.length_nil] at h1 h2
      refine ⟨Config.floatByte s.draws :: l, by simp only [List.length_cons]; omega, ?_⟩
      rw [h2]
      have e1 : n - (s.cfg.fifoDepth - (s.rxf.length + (0 + 1))) =
          n + 1 - (s.cfg.fifoDepth - s.rxf.length) := by omega
      have e2 : s.draws + 1 + l.length = s.draws + (l.length + 1) := by omega
      simp only [e1, e2, List.append_assoc, List.cons_append, List.nil_append, List.length_cons]
    · have hz : s.cfg.fifoDepth - s.rxf.length = 0 := by omega
      exact ⟨[], by simp [hz], by simp [hz]⟩

/-- A receive in progress delivers until its bytes or the FIFO's places are used up (R302). -/
theorem deliver_eq (n : Nat) : ∀ (s : State) (tg : Target), s.target = some tg →
    tg.addressed = true →
    ∃ k m, k + m = n ∧
      deliver n s = { s with
        rxf := s.rxf ++ (tg.getBytes k).1
        target := some (tg.getBytes k).2
        engine := { s.engine with recvLeft := m } } ∧
      (m = 0 ∨ s.cfg.fifoDepth ≤ (s.rxf ++ (tg.getBytes k).1).length) ∧
      (n ≠ 0 → s.rxf.length < s.cfg.fifoDepth → k ≠ 0) ∧
      (s.rxf ++ (tg.getBytes k).1).length ≤ max s.rxf.length s.cfg.fifoDepth := by
  induction n with
  | zero =>
    intro s tg ht ha
    refine ⟨0, 0, rfl, ?_, .inl rfl, fun h => absurd rfl h, by simp [Target.getBytes]⟩
    unfold deliver
    simp only [Target.getBytes, List.append_nil]
    rw [← ht]
  | succ n ih =>
    intro s tg ht ha
    by_cases hl : s.rxf.length < s.cfg.fifoDepth
    · have hr : readBus s = (tg.getByte.1, { s with target := some tg.getByte.2 }) := by
        unfold readBus; rw [ht]; dsimp only; rw [if_pos ha]
      obtain ⟨k, m, e1, e2, e3, e4, e5⟩ := ih
        { s with target := some tg.getByte.2, rxf := s.rxf ++ [tg.getByte.1] } tg.getByte.2 rfl ha
      refine ⟨k + 1, m, by omega, ?_, ?_, by simp, ?_⟩
      · unfold deliver
        rw [if_pos hl, hr]
        rw [e2]
        simp [Target.getBytes]
      · refine e3.imp id fun h => ?_
        simpa [Target.getBytes] using h
      · simp only [Target.getBytes, List.length_append, List.length_cons, List.length_nil] at e5 ⊢
        omega
    · refine ⟨0, n + 1, by omega, ?_, .inr ?_, fun _ h => absurd h hl, by simp [Target.getBytes]⟩
      · unfold deliver
        rw [if_neg hl]
        simp only [Target.getBytes, List.append_nil]
        rw [← ht]
      · simp [Target.getBytes]; omega

/-! ### Bytes under way -/

/-- On a held read bracket the bytes `bs` are still to be read from `RXDATA`, in the FIFO or still with
the engine; behind them the target is `tf`. -/
def Flowing (bs : List Byte) (tf : Target) (w : Wires) : Prop :=
  ∃ tg, Held true tg { w with rxf := [], engine := { w.engine with recvLeft := 0 } } ∧
    w.rxf ++ (tg.getBytes w.engine.recvLeft).1 = bs ∧
    (tg.getBytes w.engine.recvLeft).2 = tf ∧ w.rxf.length ≤ w.cfg.fifoDepth

/-- `Flowing`, or the receive command still queued. -/
def Stream (bs : List Byte) (tf : Target) (s : State) : Prop :=
  Flowing bs tf (wires s) ∨
  ∃ tg n, n ≠ 0 ∧ n ≤ 256 ∧ s.txf = [(receiveWord n).setWidth 11] ∧
    bs = (tg.getBytes n).1 ∧ tf = (tg.getBytes n).2 ∧ Held true tg (wires { s with txf := [] })

theorem count_of_len {n : Nat} (h0 : n ≠ 0) (h : n ≤ 256) :
    (BitVec.ofNat 8 (n - 1)).toNat + 1 = n := by
  rw [BitVec.toNat_ofNat, Nat.mod_eq_of_lt (by omega)]; omega

/-- A receive of `n` bytes goes on from this state: what the engine's move leaves. -/
theorem flow_deliver {tg : Target} {s : State} (n : Nat)
    (h : Held true tg { wires s with rxf := [], engine := { s.engine with recvLeft := 0 } })
    (hl : s.rxf.length ≤ s.cfg.fifoDepth) :
    ∃ u, deliver n s = u ∧ Turn s u ∧ EngineRests u ∧
      Flowing (s.rxf ++ (tg.getBytes n).1) (tg.getBytes n).2 (wires u) ∧
      (s.rxf ++ (tg.getBytes n).1 ≠ [] → u.rxf ≠ []) := by
  have ht : s.target = some tg := h.attached
  obtain ⟨k, m, e1, e2, e3, e4, e5⟩ := deliver_eq n s tg ht h.addressed
  have hx : s.cfg1.getLsbD bitAUTOSTOP = false := by
    rcases h.noAutostop with h' | h'
    · exact h'
    · have := h.owned; rw [h'] at this; simp at this
  refine ⟨_, e2, ⟨rfl⟩, ⟨h.noWord, h.noStart, .inl hx, e3⟩, ?_, ?_⟩
  · refine ⟨(tg.getBytes k).2, ?_, ?_, ?_, ?_⟩
    · exact ⟨⟨h.quiet, h.even, h.valid, h.budget, h.clock, h.aligned, h.on, h.noWord, h.noStart,
        rfl, rfl, rfl, h.notStuck, h.noAutostop⟩, h.dir, h.owned, h.clean, by
          rw [getBytes_addressed]; exact h.addressed⟩
    · obtain ⟨a, -⟩ := getBytes_add k m tg
      show s.rxf ++ (tg.getBytes k).1 ++ ((tg.getBytes k).2.getBytes m).1 = _
      rw [← e1, a, List.append_assoc]
    · obtain ⟨-, b⟩ := getBytes_add k m tg
      show ((tg.getBytes k).2.getBytes m).2 = _
      rw [← e1, b]
    · show (s.rxf ++ (tg.getBytes k).1).length ≤ s.cfg.fifoDepth
      rw [max_eq_right hl] at e5
      exact e5
  · intro hne hnil
    have hnil : s.rxf ++ (tg.getBytes k).1 = [] := hnil
    obtain ⟨h1, h2⟩ := List.append_eq_nil_iff.1 hnil
    have hk : k = 0 := by rw [← getBytes_length k tg, h2]; rfl
    rw [h1, List.nil_append] at hne
    have hn : n ≠ 0 := fun hz => hne (by rw [hz]; rfl)
    have hd : 1 ≤ s.cfg.fifoDepth := h.valid.1
    exact e4 hn (by rw [h1]; exact hd) hk

theorem Flowing.plat {bs : List Byte} {tf : Target} {s : State} (h : Flowing bs tf (wires s)) :
    Platform s := by
  obtain ⟨tg, h, -⟩ := h; exact ⟨h.clock, h.aligned⟩

theorem Flowing.clean {bs : List Byte} {tf : Target} {s : State} (h : Flowing bs tf (wires s)) :
    noErrorFlag s.flags := by
  obtain ⟨tg, h, -⟩ := h; exact h.clean

theorem Flowing.quiet {bs : List Byte} {tf : Target} {s : State} (h : Flowing bs tf (wires s)) :
    s.sched = [] := by
  obtain ⟨tg, h, -⟩ := h; exact h.quiet

theorem Flowing.even {bs : List Byte} {tf : Target} {s : State} (h : Flowing bs tf (wires s)) :
    s.ticks = [] := by
  obtain ⟨tg, h, -⟩ := h; exact h.even

theorem Flowing.valid {bs : List Byte} {tf : Target} {s : State} (h : Flowing bs tf (wires s)) :
    configValid s.cfg := by
  obtain ⟨tg, h, -⟩ := h; exact h.valid

theorem rests_slot {s : State} (hs : s.sched = []) (r : EngineRests s) : envSlot s = .next s := by
  unfold envSlot; rw [hs]; exact engineMove_rests r

theorem stream_slot {bs : List Byte} {tf : Target} {s : State} (h : Stream bs tf s) :
    ∃ u, envSlot s = .next u ∧ Turn s u ∧ EngineRests u ∧ Flowing bs tf (wires u) ∧
      (bs ≠ [] → u.rxf ≠ []) := by
  rcases h with ⟨tg, h, hb, hf, hl⟩ | ⟨tg, n, h0, h256, hw, rfl, rfl, h⟩
  · have hx : s.txf = [] := h.noWord
    have hp : s.engine.pendingStart = none := h.noStart
    have ho : engineOn s = true := h.on
    have ha : s.cfg1.getLsbD bitAUTOSTOP = false := by
      rcases h.noAutostop with h' | h'
      · exact h'
      · have := h.owned; rw [h'] at this; simp at this
    have hn : nextEntry s = none := by
      unfold nextEntry; rw [hx]; split <;> rfl
    have hm : envSlot s = .next (engineContinue s) := by
      unfold envSlot
      rw [show s.sched = [] from h.quiet]
      dsimp only
      unfold engineMove
      rw [hn]
    have hc : engineContinue s = if s.engine.recvLeft = 0 then s else deliver s.engine.recvLeft s := by
      unfold engineContinue
      rw [ho]
      simp only [Bool.not_true, Bool.false_eq_true, if_false]
      by_cases hz : s.engine.recvLeft = 0
      · rw [if_neg (by simp [hz]), if_pos hz, hp]
        simp [ha]
      · rw [if_pos hz, if_neg hz]
    by_cases hz : s.engine.recvLeft = 0
    · rw [hc, if_pos hz] at hm
      refine ⟨s, hm, ⟨rfl⟩, ⟨hx, hp, .inl ha, .inl hz⟩, ⟨tg, h, hb, hf, hl⟩, ?_⟩
      intro hne
      have hb : s.rxf ++ (tg.getBytes s.engine.recvLeft).1 = bs := hb
      rw [hz] at hb
      simp only [Target.getBytes, List.append_nil] at hb
      rw [hb]; exact hne
    · rw [hc, if_neg hz] at hm
      obtain ⟨u, e, tu, r, fl, ne⟩ := flow_deliver s.engine.recvLeft h hl
      have hb : s.rxf ++ (tg.getBytes s.engine.recvLeft).1 = bs := hb
      have hf : (tg.getBytes s.engine.recvLeft).2 = tf := hf
      rw [hb, hf] at fl
      rw [hb] at ne
      exact ⟨u, by rw [hm, e], tu, r, fl, ne⟩
  · obtain ⟨e, hr, hp⟩ := slot_word hw (decode_receiveWord n) h.toFree
    have hx : s.rxf = [] := h.noByte
    have h1 : ownsBus s = true := h.owned
    have h2 : s.engine.dirRead = true := h.dir
    have hh : Held true tg { wires { s with txf := [] } with
        rxf := [], engine := { s.engine with recvLeft := 0 } } :=
      ⟨⟨h.quiet, h.even, h.valid, h.budget, h.clock, h.aligned, h.on, rfl, h.noStart,
        rfl, rfl, h.attached, h.notStuck, h.noAutostop⟩, h.dir, h.owned, h.clean, h.addressed⟩
    obtain ⟨u, e2, tu, r, fl, ne⟩ := flow_deliver (s := { s with txf := [] }) n hh (by
      show s.rxf.length ≤ _; rw [hx]; exact Nat.zero_le _)
    have hb : ({ s with txf := [] } : State).rxf ++ (tg.getBytes n).1 = (tg.getBytes n).1 := by
      show s.rxf ++ _ = _; rw [hx]; rfl
    rw [hb] at fl ne
    refine ⟨u, ?_, ?_, r, fl, ne⟩
    · rw [e]
      unfold runCmd execCmdReceive
      dsimp only
      rw [if_pos hr, hp, h1, h2, if_pos (show (true && true) = true from rfl), count_of_len h0 h256,
        e2]
    · exact ⟨by rw [tu.same]⟩

/-! ### One byte -/

theorem elapsed_add {cfg : Config} (T j : Nat) (h : j < 2 ^ cfg.timerBits) :
    elapsed cfg ((T + j) % 2 ^ cfg.timerBits) (T % 2 ^ cfg.timerBits) = j := by
  induction j with
  | zero =>
    unfold elapsed
    rw [Nat.add_zero, Nat.add_sub_cancel_left, Nat.mod_self]
  | succ j ih =>
    have hj := ih (by omega)
    rw [← Nat.add_assoc, elapsed_step (budget := j) h (Nat.mod_lt _ (Nat.two_pow_pos _)) (le_of_eq hj),
      hj]

theorem rxdata_word (b : Byte) (w : Word) :
    (RdWord.mk (b.setWidth 32) rxDataNamed w).bit bitRXEMPTY = false ∧
    (RdWord.mk (b.setWidth 32) rxDataNamed w).low8 = b := by
  constructor
  · unfold RdWord.bit
    simp only [show rxDataNamed.getLsbD bitRXEMPTY = true from by decide, if_true]
    rw [BitVec.getLsbD_setWidth]
    simp [bitRXEMPTY]
  · unfold RdWord.low8
    simp only [show rxDataNamed &&& 0xFF#32 = 0xFF#32 from by decide, if_true]
    rw [BitVec.setWidth_setWidth_of_le _ (by omega)]
    simp

theorem Flowing.pop {b : Byte} {bs r : List Byte} {tf : Target} {s t : State}
    (h : Flowing (b :: bs) tf (wires s)) (hr : s.rxf = b :: r)
    (hw : wires t = { wires s with rxf := r }) : Flowing bs tf (wires t) := by
  obtain ⟨tg, h, hb, hf, hl⟩ := h
  rw [hw]
  have hb' : s.rxf ++ (tg.getBytes s.engine.recvLeft).1 = b :: bs := hb
  have hl' : s.rxf.length ≤ s.cfg.fifoDepth := hl
  rw [hr] at hb' hl'
  simp only [List.cons_append, List.cons.injEq, true_and, List.length_cons] at hb' hl'
  exact ⟨tg, h, hb', hf, by show r.length ≤ s.cfg.fifoDepth; omega⟩

theorem Flowing.head {b : Byte} {bs : List Byte} {tf : Target} {s : State}
    (h : Flowing (b :: bs) tf (wires s)) (hr : s.rxf ≠ []) : ∃ r, s.rxf = b :: r := by
  obtain ⟨tg, h, hb, hf, hl⟩ := h
  have hb' : s.rxf ++ (tg.getBytes s.engine.recvLeft).1 = b :: bs := hb
  cases hx : s.rxf with
  | nil => exact absurd hx hr
  | cons c r =>
    rw [hx] at hb'
    simp only [List.cons_append, List.cons.injEq] at hb'
    exact ⟨r, by rw [hb'.1]⟩

/-- The polls for one byte that is under way: the first finds it. -/
theorem rxPoll_stream {b : Byte} {bs : List Byte} {tf : Target} {s : State} (f T j : Nat)
    (h : Stream (b :: bs) tf s) (ht : s.timer = T + j) (hj : j + 1 ≤ s.cfg.tPoll) :
    Ends (rxPoll (f + 1) (T % 2 ^ s.cfg.timerBits) s) fun p t => p = .byte b ∧ Stream bs tf t ∧
      t.timer = T + (j + 1) ∧ t.mem = s.mem ∧ t.cfg = s.cfg ∧ t.work.b = s.work.b := by
  obtain ⟨u, e, tu, ru, fl, ne⟩ := stream_slot h
  have cfgu : u.cfg = s.cfg := tu.cfg
  unfold rxPoll
  refine ends_andThen (checkClearError_slot_ok e fl.plat fl.clean) fun k t1 ⟨hk, r1, st1, _⟩ => ?_
  rw [if_neg (by simp [hk])]
  have e1 : envSlot t1 = .next t1 := rests_slot (r1.sched.trans fl.quiet) (r1.passes.rests ru)
  refine ends_andThen (now_slot e1) fun n t2 ⟨r2, hn, tk, _⟩ => ?_
  have ev1 : t1.ticks = [] := st1.ticks.trans fl.even
  obtain ⟨tm2, ev2⟩ := ticked_even ev1 tk
  have P2 := r1.passes.trans r2.passes
  have q2 : t2.sched = [] := r2.sched.trans (r1.sched.trans fl.quiet)
  have c2 : t2.cfg = s.cfg := P2.cfg.trans cfgu
  have tm1 : t1.timer = T + j := by rw [st1.timer, tu.timer, ht]
  have hel : elapsed s.cfg n (T % 2 ^ s.cfg.timerBits) = j + 1 := by
    have c1 : t1.cfg = s.cfg := r1.passes.cfg.trans cfgu
    rw [hn]
    unfold timerCount
    rw [tickTimer_cfg, c1, (tick_even ev1).1, tm1, Nat.add_assoc]
    refine elapsed_add T (j + 1) ?_
    have := fl.valid.2.2.1
    rw [cfgu] at this
    omega
  rw [c2, hel, if_neg (by omega)]
  have w2 : wires t2 = wires u := P2.wires (by rw [q2]; exact fl.quiet.symm)
    (by rw [ev2]; exact fl.even.symm)
  have fl2 : Flowing (b :: bs) tf (wires t2) := by rw [w2]; exact fl
  have r2' := P2.rests ru
  obtain ⟨r, hr⟩ := fl2.head (by rw [P2.rxf]; exact ne (by simp))
  have e2 : envSlot t2 = .next t2 := rests_slot q2 r2'
  have e3 : regRead .rxdata t2 = done ⟨b.setWidth 32, rxDataNamed, Config.openBits t2.draws⟩
      (logged (.rd .rxdata (RdWord.mk (b.setWidth 32) rxDataNamed
        (Config.openBits t2.draws)).shown) { t2 with rxf := r, draws := t2.draws + 1 }) := by
    rw [regRead_eq .rxdata e2 fl2.plat]
    unfold loadReg
    dsimp only
    rw [hr]
    rfl
  rw [e3, andThen_done]
  obtain ⟨x1, x2⟩ := rxdata_word b (Config.openBits t2.draws)
  dsimp only
  rw [x1, x2]
  refine ends_done ⟨rfl, .inl (fl2.pop hr rfl), ?_, ?_, ?_, ?_⟩
  · show t2.timer = _; rw [tm2, tm1]; omega
  · show t2.mem = _; rw [P2.mem, tu.mem]
  · exact c2
  · show t2.work.b = _; rw [P2.byte, tu.byte]

/-! ### RECEIVE -/

/-- Where received bytes go: the host memory, or the byte register (R89, R28). -/
def received (dst : ByteDst) (i : Nat) (bs : List Byte) (x : Memory × Option Byte) :
    Memory × Option Byte :=
  match bs with
  | [] => x
  | b :: r =>
    match dst with
    | .host addr => received dst (i + 1) r (x.1.write (hostAddr addr i) b, x.2)
    | .reg => received dst (i + 1) r (x.1, some b)

theorem received_host (addr : Word) (bs : List Byte) : ∀ (i : Nat) (m : Memory) (b : Option Byte),
    received (.host addr) i bs (m, b) = (m.writeBytes addr i bs, b) := by
  induction bs with
  | nil => intro i m b; rfl
  | cons x r ih => intro i m b; exact ih _ _ _

theorem rxLoop_stream (dst : ByteDst) (T : Nat) (tf : Target) (bs : List Byte) :
    ∀ (i j : Nat) {s : State}, Stream bs tf s → s.timer = T + j → j + bs.length ≤ s.cfg.tPoll →
    Ends (rxLoop dst (T % 2 ^ s.cfg.timerBits) i bs.length s) fun k t => k = .ok ∧
      Stream [] tf t ∧ (t.mem, t.work.b) = received dst i bs (s.mem, s.work.b) ∧ t.cfg = s.cfg := by
  induction bs with
  | nil =>
    intro i j s h _ _
    exact ends_done ⟨rfl, h, rfl, rfl⟩
  | cons b bs ih =>
    intro i j s h ht hj
    simp only [List.length_cons] at hj ⊢
    unfold rxLoop
    have hfuel : ∃ m, pollFuel s.cfg.tPoll s = m + 1 := ⟨_, rfl⟩
    obtain ⟨m, hm⟩ := hfuel
    rw [hm]
    have hn : Stream (b :: bs) tf (note (fun w => { w with i := some i }) s) := h
    refine ends_andThen (rxPoll_stream m T j hn ht (by show j + 1 ≤ s.cfg.tPoll; omega))
      fun p t ⟨hp, h1, h2, h3, h4, h5⟩ => ?_
    subst hp
    dsimp only
    have h4' : t.cfg = s.cfg := h4
    have h3' : t.mem = s.mem := h3
    have h5' : t.work.b = s.work.b := h5
    have hs : Stream bs tf (putReceived dst i b t) := by cases dst <;> exact h1
    have hc : (putReceived dst i b t).cfg = s.cfg := by cases dst <;> exact h4'
    have htm : (putReceived dst i b t).timer = T + (j + 1) := by cases dst <;> exact h2
    have := ih (i + 1) (j + 1) hs htm (by rw [hc]; omega)
    rw [hc] at this
    refine ends_mono this fun k v ⟨a1, a2, a3, a4⟩ => ⟨a1, a2, ?_, a4⟩
    rw [a3]
    cases dst with
    | host addr =>
      show received _ _ _ (t.mem.write (hostAddr addr i) b, t.work.b) = _
      rw [h3', h5']
      rfl
    | reg =>
      show received _ _ _ (t.mem, some b) = _
      rw [h3']
      rfl

theorem stream_done {tf : Target} {s : State} (h : Stream [] tf s) : Held true tf (wires s) := by
  rcases h with ⟨tg, h, hb, hf, hl⟩ | ⟨tg, n, h0, _, _, hb, _, _⟩
  · obtain ⟨h1, h2⟩ := List.append_eq_nil_iff.1 hb
    have h2' : (tg.getBytes s.engine.recvLeft).1 = [] := h2
    have hz : s.engine.recvLeft = 0 := by rw [← getBytes_length s.engine.recvLeft tg, h2']; rfl
    have hf' : (tg.getBytes s.engine.recvLeft).2 = tf := hf
    rw [hz] at hf'
    have : tg = tf := hf'
    subst this
    exact ⟨⟨h.quiet, h.even, h.valid, h.budget, h.clock, h.aligned, h.on, h.noWord, h.noStart,
      hz, h1, h.attached, h.notStuck, h.noAutostop⟩, h.dir, h.owned, h.clean, h.addressed⟩
  · have := getBytes_length n tg
    rw [← hb] at this
    exact absurd this.symm h0

theorem receive_ready (dst : ByteDst) {len : Nat} (hl : len ≤ 256) {tg : Target} {s : State}
    (h : Ready true tg s) (hb : len + 2 ≤ s.cfg.tPoll) :
    Ends (receive dst len s) fun k t => k = .ok ∧ Ready true (tg.getBytes len).2 t ∧
      (t.mem, t.work.b) = received dst 0 (tg.getBytes len).1 (s.mem, s.work.b) ∧
      t.cfg = s.cfg ∧ (len ≠ 0 → Held true (tg.getBytes len).2 (wires t)) := by
  unfold receive
  by_cases h0 : len = 0
  · subst h0
    rw [if_pos rfl]
    exact ends_done ⟨rfl, h, rfl, rfl, fun h => absurd rfl h⟩
  rw [if_neg h0, if_neg (by omega)]
  have h' : Ready true tg { s with phase := .transferring } := h
  obtain ⟨u, e, hu, tu⟩ := ready_slot h'
  refine ends_andThen (now_slot e) fun t0 t1 ⟨r1, ht0, tk1, _⟩ => ?_
  obtain ⟨tm1, ev1⟩ := ticked_even hu.even tk1
  have w1 : wires t1 = wires u := r1.passes.wires r1.sched (by rw [ev1]; exact hu.even.symm)
  have h1 : Held true tg (wires t1) := by rw [w1]; exact hu
  have c1 : t1.cfg = s.cfg := r1.passes.cfg.trans tu.cfg
  refine ends_andThen (wait_held h1.slot h1) fun k t2 ⟨hk, h2, p2, tm2⟩ => ?_
  rw [if_neg (by simp [hk])]
  have c2 : t2.cfg = s.cfg := p2.cfg.trans c1
  have m2 : t2.mem = s.mem := by rw [p2.mem, r1.passes.mem]; exact tu.mem
  have b2 : t2.work.b = s.work.b := by rw [p2.byte, r1.passes.byte]; exact tu.byte
  have hn : Held true tg (wires (note (fun w => { w with t0 := some t0 }) t2)) := h2
  refine ends_andThen (P := fun _ x => Held true tg (wires x) ∧ x.timer = t2.timer ∧
    x.cfg = s.cfg ∧ x.mem = s.mem ∧ x.work.b = s.work.b) ?_ fun _ t3 ⟨h3, tm3, c3, m3, b3⟩ => ?_
  · unfold rxClear
    split
    · rw [regWrite_status_slot hn.slot hn.plat]
      have hf : t2.flags.clearW1C clearAll = _ := clearAll_flags t2.flags
      refine ends_done ⟨⟨⟨hn.quiet, hn.even, hn.valid, hn.budget, hn.clock, hn.aligned, hn.on,
        hn.noWord, hn.noStart, hn.noReceive, hn.noByte, hn.attached, hn.notStuck, hn.noAutostop⟩,
        hn.dir, hn.owned, noErrorFlag_cleared _, hn.addressed⟩, rfl, c2, m2, b2⟩
    · exact ends_done ⟨hn, rfl, c2, m2, b2⟩
  · rw [txcmd_held h3, andThen_done]
    have hT : t0 = (s.timer + 1) % 2 ^ s.cfg.timerBits := by
      rw [ht0]
      unfold timerCount
      rw [tickTimer_cfg, (tick_even (s := u) hu.even).1, tu.timer, tu.cfg]
    have hs4 : Stream (tg.getBytes len).1 (tg.getBytes len).2
        (logged (.wr .txcmd (receiveWord len)) { t3 with txf := [(receiveWord len).setWidth 11] }) := by
      refine .inr ⟨tg, len, h0, hl, rfl, rfl, rfl, ?_⟩
      have : wires { t3 with txf := [] } = wires t3 := by
        unfold wires; rw [show t3.txf = [] from h3.noWord]
      show Held true tg (wires { t3 with txf := [] })
      rw [this]
      exact h3
    generalize hq : logged (.wr .txcmd (receiveWord len))
      { t3 with txf := [(receiveWord len).setWidth 11] } = q at hs4 ⊢
    have qc : q.cfg = s.cfg := by rw [← hq]; exact c3
    have qm : q.mem = s.mem := by rw [← hq]; exact m3
    have qb : q.work.b = s.work.b := by rw [← hq]; exact b3
    have qt : q.timer = s.timer + 1 + 2 := by
      rw [← hq]
      show t3.timer = _
      have : u.timer = s.timer := tu.timer
      rw [tm3, tm2, tm1, this]
    have := rxLoop_stream dst (s.timer + 1) (tg.getBytes len).2 (tg.getBytes len).1 0 2 hs4 qt
      (by rw [getBytes_length, qc]; omega)
    rw [qc, ← hT, getBytes_length, qm, qb] at this
    exact ends_mono this fun k t ⟨a1, a2, a3, a4⟩ =>
      ⟨a1, .inl (stream_done a2), a3, a4, fun _ => stream_done a2⟩

end Sys2Proof.Machine
end

