-- ==== Sys2Proof/Laws/NominalChips.lean ====
section
/-! SUPPORT. TRANSFER, CHIP_READ, CHIP_WRITE and CRC32_REGION under the nominal engine and target, end to
end (spec/44_dispatcher.md, spec/45_chip_addressing.md, spec/46_integrity.md, spec/47_command_words.md
R308). -/

namespace Sys2Proof.Machine

/-! ### What a message does -/

/-- Host memory, the target, and the byte register of CRC32_REGION. -/
abbrev BusView := Memory × Target × Option Byte

/-- One acknowledged message. -/
def msgRun (x : BusView) (m : BusMsg) : BusView :=
  match m with
  | .write a src => (x.1, (x.2.1.startWrite a).putBytes (sentBytes src x.1), x.2.2)
  | .read _ len dst =>
    ((received dst 0 (x.2.1.startRead.getBytes len).1 (x.1, x.2.2)).1,
      (x.2.1.startRead.getBytes len).2,
      (received dst 0 (x.2.1.startRead.getBytes len).1 (x.1, x.2.2)).2)

theorem received_reg (bs : List Byte) : ∀ (i : Nat) (m : Memory) (b : Option Byte),
    (received .reg i bs (m, b)).1 = m := by
  induction bs with
  | nil => intro i m b; rfl
  | cons x r ih => intro i m b; exact ih _ _ _

theorem msgRun_effect (x : BusView) (m : BusMsg) :
    ((msgRun x m).1, (msgRun x m).2.1) = busEffect m (x.1, x.2.1) := by
  cases m with
  | write a src => rfl
  | read a len dst =>
    cases dst with
    | host addr => simp [msgRun, busEffect, received_host]
    | reg => simp [msgRun, busEffect, received_reg]

theorem msgRuns_effect (ms : List BusMsg) : ∀ x : BusView,
    ((ms.foldl msgRun x).1, (ms.foldl msgRun x).2.1) =
      ms.foldl (fun y m => busEffect m y) (x.1, x.2.1) := by
  induction ms with
  | nil => intro x; rfl
  | cons m r ih =>
    intro x
    simp only [List.foldl_cons]
    rw [ih, ← msgRun_effect]

/-- Which addresses a target answers to is fixed. -/
structure Same (t u : Target) : Prop where
  addr : u.addr = t.addr
  mask : u.mask = t.mask

theorem Same.trans {t u v : Target} (a : Same t u) (b : Same u v) : Same t v :=
  ⟨b.addr.trans a.addr, b.mask.trans a.mask⟩

theorem Same.answers {t u : Target} (h : Same t u) (a : BitVec 7) : u.answers a = t.answers a := by
  unfold Target.answers; rw [h.addr, h.mask]

theorem same_putBytes (bs : List Byte) : ∀ t : Target, Same t (t.putBytes bs) := by
  induction bs with
  | nil => intro t; exact ⟨rfl, rfl⟩
  | cons b r ih =>
    intro t
    refine Same.trans ?_ (ih _)
    unfold Target.putByte
    split <;> exact ⟨rfl, rfl⟩

theorem same_getBytes (n : Nat) : ∀ t : Target, Same t (t.getBytes n).2 := by
  induction n with
  | zero => intro t; exact ⟨rfl, rfl⟩
  | succ n ih =>
    intro t
    have h : Same t t.getByte.2 := ⟨rfl, rfl⟩
    exact h.trans (ih t.getByte.2)

theorem same_msgRun (x : BusView) (m : BusMsg) : Same x.2.1 (msgRun x m).2.1 := by
  cases m with
  | write a src =>
    have h : Same x.2.1 (x.2.1.startWrite a) := ⟨rfl, rfl⟩
    exact h.trans (same_putBytes _ _)
  | read a len dst =>
    have h : Same x.2.1 x.2.1.startRead := ⟨rfl, rfl⟩
    exact h.trans (same_getBytes _ _)

theorem same_msgRuns (ms : List BusMsg) : ∀ x : BusView, Same x.2.1 (ms.foldl msgRun x).2.1 := by
  induction ms with
  | nil => intro x; exact ⟨rfl, rfl⟩
  | cons m r ih => intro x; exact (same_msgRun x m).trans (ih _)

/-- A start goes out at once: nothing is queued, or what is queued leaves a held bus. -/
def Avail (tg : Target) (s : State) : Prop := Free tg (wires s) ∨ ∃ r, Ready r tg s

theorem avail_slot {tg : Target} {s : State} (h : Avail tg s) :
    ∃ u, envSlot s = .next u ∧ Free tg (wires u) ∧ Turn s u := by
  rcases h with h | ⟨r, h⟩
  · exact ⟨s, h.slot, h, ⟨rfl⟩⟩
  · obtain ⟨u, e, hu, tu⟩ := ready_slot h
    exact ⟨u, e, hu.toFree, tu⟩

theorem start_avail {tg : Target} {s : State} (h : Avail tg s) {a : BitVec 7}
    (ha : tg.answers a = true) (d : Dir) :
    Ends (start a d s) fun k t => k = .ok ∧ Ready (decide (d = .read)) (tg.begun a d) t ∧
      t.mem = s.mem ∧ t.cfg = s.cfg := by
  obtain ⟨u, e, hu, tu⟩ := avail_slot h
  exact ends_mono (start_free e hu ha d) fun k t ⟨h1, h2, h3, _, h5, _⟩ =>
    ⟨h1, h2, h3.trans tu.mem, h5.trans tu.cfg⟩

/-- START leaves the byte register. -/
theorem start_byte {tg : Target} {s : State} (h : Avail tg s) {a : BitVec 7}
    (ha : tg.answers a = true) (d : Dir) :
    Ends (start a d s) fun k t => k = .ok ∧ Ready (decide (d = .read)) (tg.begun a d) t ∧
      t.mem = s.mem ∧ t.cfg = s.cfg ∧ t.work.b = s.work.b := by
  obtain ⟨u, e, hu, tu⟩ := avail_slot h
  refine ends_mono (ends_both (start_avail h ha d) (start_calm (n := 0) e hu.plat hu.run (hu.calm _)
    hu.valid.2.1 (.inl hu.space) hu.notStuck a d)) fun k t ⟨⟨h1, h2, h3, h4⟩, hok, _⟩ => ?_
  obtain ⟨_, st, _⟩ := hok (firstElapsed_free hu)
  exact ⟨h1, h2, h3, h4, st.byte.trans tu.byte⟩

theorem sendLoop_byte (src : ByteSrc) (n : Nat) : ∀ (i : Nat) {tg : Target} {s : State},
    Ready false tg s → Ends (sendLoop src i n s) fun _ t => t.work.b = s.work.b := by
  induction n with
  | zero => intro i tg s h; exact ends_done rfl
  | succ n ih =>
    intro i tg s h
    unfold sendLoop
    have hn : Ready false tg (note (fun w => { w with i := some i }) s) := h
    obtain ⟨u, e, hu, tu⟩ := ready_slot hn
    refine ends_andThen (wait_held e hu) fun k t ⟨hk, ht, p, _⟩ => ?_
    rw [if_neg (by simp [hk]), txcmd_held ht, andThen_done]
    have hr : Ready false (tg.putByte (srcByte src i t))
        (logged (.wr .txcmd (dataWord (srcByte src i t)))
          { t with txf := [(dataWord (srcByte src i t)).setWidth 11] }) := by
      refine .inr (.inl ⟨_, tg, rfl, rfl, rfl, ?_⟩)
      have : wires { t with txf := [] } = wires t := by
        unfold wires; rw [show t.txf = [] from ht.noWord]
      show Held false tg (wires { t with txf := [] })
      rw [this]
      exact ht
    have hb : t.work.b = s.work.b := p.byte.trans tu.byte
    exact ends_mono (ih (i + 1) hr) fun k t' h' => h'.trans hb

theorem runMsg_avail {tg : Target} {s : State} {m : BusMsg} (h : Avail tg s)
    (hm : msgFits tg s.cfg m) :
    Ends (runMsg m s) fun k t => k = .ok ∧ (∃ r, Ready r (msgRun (s.mem, tg, s.work.b) m).2.1 t) ∧
      (t.mem, t.work.b) = ((msgRun (s.mem, tg, s.work.b) m).1, (msgRun (s.mem, tg, s.work.b) m).2.2) ∧
      t.cfg = s.cfg := by
  cases m with
  | write a src =>
    unfold runMsg
    refine ends_andThen (start_byte h hm.1 .write) fun k t ⟨hk, hr, h1, h2, h3⟩ => ?_
    rw [if_pos hk]
    have hr' : Ready false (tg.startWrite a) t := hr
    have hr'' : Ready false (tg.startWrite a) { t with phase := .transferring } := hr
    refine ends_mono (ends_both (send_ready src hr') (sendLoop_byte src (srcLen src) 0 hr''))
      fun k t' ⟨⟨a1, a2, a3, a4⟩, a5⟩ => ?_
    have a5' : t'.work.b = t.work.b := a5
    refine ⟨a1, ⟨false, ?_⟩, ?_, a4.trans h2⟩
    · rw [h1] at a2; exact a2
    · rw [a3, h1, a5', h3]; rfl
  | read a len dst =>
    unfold runMsg
    refine ends_andThen (start_byte h hm.1 .read) fun k t ⟨hk, hr, h1, h2, h3⟩ => ?_
    rw [if_pos hk]
    have hr' : Ready true tg.startRead t := hr
    have hb : len + 2 ≤ t.cfg.tPoll := by rw [h2]; exact hm.2.2
    refine ends_mono (receive_ready dst hm.2.1 hr' hb) fun k t' ⟨a1, a2, a3, a4, _⟩ => ?_
    refine ⟨a1, ⟨true, a2⟩, ?_, a4.trans h2⟩
    rw [a3, h1, h3]
    rfl

theorem transferLoop_avail (ms : List BusMsg) : ∀ (k : Nat) {tg : Target} {s : State},
    Avail tg s → (ms = [] → ∃ r, Ready r tg s) → (∀ m ∈ ms, msgFits tg s.cfg m) →
    Ends (transferLoop k ms .ok s) fun c t => c = .ok ∧
      (∃ r, Ready r (ms.foldl msgRun (s.mem, tg, s.work.b)).2.1 t) ∧
      (t.mem, t.work.b) = ((ms.foldl msgRun (s.mem, tg, s.work.b)).1,
        (ms.foldl msgRun (s.mem, tg, s.work.b)).2.2) ∧ t.cfg = s.cfg := by
  induction ms with
  | nil =>
    intro k tg s _ hr _
    exact ends_done ⟨rfl, hr rfl, rfl, rfl⟩
  | cons m rest ih =>
    intro k tg s ha _ hf
    unfold transferLoop
    have ha' : Avail tg (note (fun w => { w with k := some k }) s) := ha
    refine ends_andThen (runMsg_avail ha' (hf m (by simp))) fun c t ⟨hc, ⟨r, hr⟩, hm, hcf⟩ => ?_
    subst hc
    have he : endsLoop m .ok = false := by cases m <;> rfl
    dsimp only
    rw [he]
    simp only [Bool.false_eq_true, if_false]
    have hcf' : t.cfg = s.cfg := hcf
    obtain ⟨hm1, hm2⟩ := Prod.mk.inj hm
    rw [show firstError .ok .ok = Code.ok from rfl]
    generalize hq : note (fun w => { w with r := some .ok, ret := some Code.ok }) t = q
    have qr : Ready r (msgRun (s.mem, tg, s.work.b) m).2.1 q := by rw [← hq]; exact hr
    have qc : q.cfg = s.cfg := by rw [← hq]; exact hcf'
    have qm : q.mem = (msgRun (s.mem, tg, s.work.b) m).1 := by rw [← hq]; exact hm1
    have qb : q.work.b = (msgRun (s.mem, tg, s.work.b) m).2.2 := by rw [← hq]; exact hm2
    have hs : Same tg (msgRun (s.mem, tg, s.work.b) m).2.1 := same_msgRun (s.mem, tg, s.work.b) m
    refine ends_mono (ih (k + 1) (.inr ⟨r, qr⟩) (fun _ => ⟨r, qr⟩) fun m' hm' => ?_)
      fun c t' ⟨a1, a2, a3, a4⟩ => ?_
    · obtain ⟨x1, x2, x3⟩ := hf m' (by simp [hm'])
      exact ⟨by rw [hs.answers]; exact x1, x2, by rw [qc]; exact x3⟩
    · rw [qm, qb] at a2 a3
      exact ⟨a1, a2, a3, a4.trans qc⟩

/-- The bus behind a TRANSFER: messages, then the STOP. -/
def xfer (ms : List BusMsg) (x : BusView) : BusView :=
  ((ms.foldl msgRun x).1, (ms.foldl msgRun x).2.1.release, (ms.foldl msgRun x).2.2)

/-- Between transfers: the bus is free, every flag an operation looks at is clear, the phase is Idle. -/
structure Parked (tg : Target) (t : State) : Prop where
  free : Free tg (wires t)
  notOwned : t.flags.mbf = false
  notBusy : t.flags.bbf = false
  noStop : t.flags.sdf = false
  noError : noErrorFlag t.flags
  idle : t.phase = .idle

/-- How an operation leaves the bus view `y`. -/
structure Leaves (s : State) (y : BusView) (t : State) : Prop where
  parked : Parked y.2.1 t
  mem : t.mem = y.1
  byte : t.work.b = y.2.2
  cfg : t.cfg = s.cfg

/-- The bus as a state shows it. -/
def viewOf (tg : Target) (s : State) : BusView := (s.mem, tg, s.work.b)

theorem transfer_avail {ms : List BusMsg} (hne : ms ≠ []) {tg : Target} {s : State}
    (ha : Avail tg s) (hf : ∀ m ∈ ms, msgFits tg s.cfg m) :
    Ends (transfer ms s) fun c t => c = .ok ∧ Leaves s (xfer ms (viewOf tg s)) t := by
  unfold transfer
  have ha' : Avail tg (note (fun w => { w with ret := some .ok, msgs := some ms }) s) := ha
  refine ends_andThen (transferLoop_avail ms 0 ha' (fun h => absurd h hne) hf)
    fun c t ⟨hc, ⟨r, hr⟩, hm, hcf⟩ => ?_
  have hr' : Ready r (ms.foldl msgRun (viewOf tg s)).2.1
    { t with phase := .stop, bracket := false } := hr
  obtain ⟨hm1, hm2⟩ := Prod.mk.inj hm
  obtain ⟨u, e, hu, tu⟩ := ready_slot hr'
  refine ends_andThen (stop_held e hu.toFree hu.owned hu.clean)
    fun k v ⟨k1, k2, k3, k4, k5, k6, k7, k8, k9, k10⟩ => ?_
  refine ends_done ⟨?_, ⟨k2, k4, k5, k6, k7, k10⟩, ?_, ?_, ?_⟩
  · rw [hc, k1]; rfl
  · show v.mem = _; rw [k3, tu.mem]; exact hm1
  · show v.work.b = _; rw [k8, tu.byte]; exact hm2
  · show v.cfg = _; rw [k9, tu.cfg]; exact hcf

/-! ### CHIP_READ and CHIP_WRITE -/

/-- The bus behind the message lists `f i`, …, `f (i + n - 1)`, each a TRANSFER of its own. -/
def xfers (f : Nat → List BusMsg) (i n : Nat) (x : BusView) : BusView :=
  match n with
  | 0 => x
  | n + 1 => xfers f (i + 1) n (xfer (f i) x)

theorem same_xfer (ms : List BusMsg) (x : BusView) : Same x.2.1 (xfer ms x).2.1 := by
  have h := same_msgRuns ms x
  exact ⟨h.addr, h.mask⟩

theorem same_xfers (f : Nat → List BusMsg) (n : Nat) : ∀ (i : Nat) (x : BusView),
    Same x.2.1 (xfers f i n x).2.1 := by
  induction n with
  | zero => intro i x; exact ⟨rfl, rfl⟩
  | succ n ih => intro i x; exact (same_xfer (f i) x).trans (ih _ _)

theorem fits_readMsgs {tg : Target} {c : Chip} {o : Word} {dst : ByteDst} {len : Nat} {cfg : Config}
    (ha : tg.answers (foldedAddr c o) = true) (hl : len ≤ 256) (hb : len + 2 ≤ cfg.tPoll) :
    ∀ m ∈ readMsgs c o dst len, msgFits tg cfg m := by
  intro m hm
  rcases mem_readMsgs hm with rfl | ⟨_, rfl⟩
  · exact ⟨ha, Nat.zero_le _, by show 0 + 2 ≤ _; omega⟩
  · exact ⟨ha, hl, hb⟩

/-- A block read (R251). -/
theorem blockRead_avail {c : Chip} {o : Word} {dst : ByteDst} {len : Nat} (hl : len ≤ 256)
    (hz : isZeroWidth c = false ∨ len ≠ 0) {tg : Target} {s : State} (ha : Avail tg s)
    (hx : tg.answers (foldedAddr c o) = true) (hb : len + 2 ≤ s.cfg.tPoll) :
    Ends (transfer (readMsgs c o dst len) s) fun k t => k = .ok ∧
      Leaves s (xfer (readMsgs c o dst len) (viewOf tg s)) t := by
  refine transfer_avail ?_ ha (fits_readMsgs hx hl hb)
  unfold readMsgs
  rcases hz with h | h
  · simp [h]
  · simp [h]

/-- Two operations in a row on a parked bus. -/
theorem Leaves.then {s t v : State} {y z : BusView} (a : Leaves s y t)
    (b : Leaves t z v) : Leaves s z v := ⟨b.parked, b.mem, b.byte, b.cfg.trans a.cfg⟩

theorem Leaves.view {s t : State} {y : BusView} (a : Leaves s y t) : viewOf y.2.1 t = y := by
  unfold viewOf; rw [a.mem, a.byte]

/-- The reads of READ_BYTEWISE (R252). -/
def byteReads (c : Chip) (o : Word) (dst : ByteDst) (j : Nat) : List BusMsg :=
  readMsgs c (offsetPlus o j) (dstAt dst j) 1

theorem readBytewise_avail (c : Chip) (o : Word) (dst : ByteDst) (hz : isZeroWidth c = false)
    (n : Nat) : ∀ (i : Nat) {tg : Target} {s : State}, Avail tg s →
    (n = 0 → Parked tg s) →
    (∀ j, i ≤ j → j < i + n → tg.answers (foldedAddr c (offsetPlus o j)) = true) →
    3 ≤ s.cfg.tPoll →
    Ends (readBytewise c o dst i n s) fun k t => k = .ok ∧
      Leaves s (xfers (byteReads c o dst) i n (viewOf tg s)) t := by
  induction n with
  | zero =>
    intro i tg s _ hf _ _
    exact ends_done ⟨rfl, hf rfl, rfl, rfl, rfl⟩
  | succ n ih =>
    intro i tg s ha _ hx hb
    unfold readBytewise
    dsimp only
    rw [if_neg (by simp [hz])]
    have hms : [offsetMsg c (offsetPlus o i),
        .read (foldedAddr c (offsetPlus o i)) 1 (dstAt dst i)] = byteReads c o dst i := by
      unfold byteReads readMsgs; simp [hz]
    rw [hms]
    have ha' : Avail tg (setupOffset c (offsetPlus o i) (note (fun w => { w with i := some i }) s)) := ha
    refine ends_andThen (blockRead_avail (len := 1) (by omega) (.inr (by omega)) ha'
      (hx i (le_refl i) (by omega)) hb) fun k t ⟨k1, lv⟩ => ?_
    have lv : Leaves s (xfer (byteReads c o dst i) (viewOf tg s)) t :=
      ⟨lv.parked, lv.mem, lv.byte, lv.cfg⟩
    rw [if_neg (by simp [k1])]
    have hs := same_xfer (byteReads c o dst i) (viewOf tg s)
    refine ends_mono (ih (i + 1) (.inl lv.parked.free) (fun _ => lv.parked) (fun j h1 h2 => by
      rw [hs.answers]; exact hx j (by omega) (by omega)) (by rw [lv.cfg]; exact hb))
      fun q v ⟨a1, a2⟩ => ⟨a1, ?_⟩
    rw [lv.view] at a2
    exact lv.then a2

/-- What CHIP_READ does to the bus (R251, R252). -/
def readView (c : Chip) (o : Word) (dst : ByteDst) (len : Nat) (x : BusView) : BusView :=
  if rdBytewise c then xfers (byteReads c o dst) 0 len x else xfer (readMsgs c o dst len) x

/-- The addresses a read or write uses are answered: one in block mode, one a byte in bytewise mode. -/
def chipAnswered (tg : Target) (c : Chip) (o : Word) (len : Nat) (bytewise : Bool) : Prop :=
  if bytewise then ∀ j, j < len → tg.answers (foldedAddr c (offsetPlus o j)) = true
  else tg.answers (foldedAddr c o) = true

theorem chipRead_avail {c : Chip} {o : Word} {dst : ByteDst} {len : Nat} {tg : Target} {s : State}
    (ha : Avail tg s) (hl : rdBytewise c = true ∨ len ≤ 256)
    (hz : isZeroWidth c = false ∨ rdBytewise c = false) (h0 : len ≠ 0 ∨ rdBytewise c = false)
    (hz0 : isZeroWidth c = false ∨ len ≠ 0)
    (hx : chipAnswered tg c o len (rdBytewise c))
    (hb : (if rdBytewise c then 1 else len) + 2 ≤ s.cfg.tPoll) :
    Ends (chipRead c o dst len s) fun k t => k = .ok ∧
      Leaves s (readView c o dst len (viewOf tg s)) t := by
  unfold chipRead readView
  unfold chipAnswered at hx
  by_cases hw : rdBytewise c = true
  · rw [if_pos hw]
    rw [if_pos hw] at hx hb
    rw [if_pos hw]
    have hz' : isZeroWidth c = false := hz.resolve_right (by simp [hw])
    have h0' : len ≠ 0 := h0.resolve_right (by simp [hw])
    exact readBytewise_avail c o dst hz' len 0 ha (fun h => absurd h h0')
      (fun j _ h => hx j (by omega)) hb
  · rw [if_neg hw]
    rw [if_neg hw] at hx hb
    rw [if_neg hw, if_neg (by have := hl.resolve_left hw; omega)]
    have ha' : Avail tg (setupOffset c o s) := ha
    exact ends_mono (blockRead_avail (hl.resolve_left hw) hz0 ha' hx hb) fun k t ⟨k1, lv⟩ =>
      ⟨k1, lv.parked, lv.mem, lv.byte, lv.cfg⟩

/-- The write of one payload (R253). -/
theorem blockWrite_avail {c : Chip} {o : Word} {payload : List Byte} {tg : Target} {s : State}
    (ha : Avail tg s) (hx : tg.answers (foldedAddr c o) = true) (hb : 2 ≤ s.cfg.tPoll) :
    Ends (transfer [writeMsg c o payload] s) fun k t => k = .ok ∧
      Leaves s (xfer [writeMsg c o payload] (viewOf tg s)) t := by
  refine transfer_avail (by simp) ha fun m hm => ?_
  simp only [List.mem_singleton] at hm
  subst hm
  exact ⟨hx, Nat.zero_le _, by show 0 + 2 ≤ _; omega⟩

/-- The writes of WRITE_BYTEWISE (R254), their payloads read from this memory. -/
def byteWrites (c : Chip) (o buf : Word) (m : Memory) (j : Nat) : List BusMsg :=
  [writeMsg c (offsetPlus o j) [m.read (hostAddr buf j)]]

theorem xfer_write_mem (c : Chip) (o : Word) (payload : List Byte) (x : BusView) :
    (xfer [writeMsg c o payload] x).1 = x.1 := rfl

theorem avail_note {tg : Target} {s : State} (f : Work → Work) (h : Avail tg s) :
    Avail tg (note f s) := h

theorem avail_offset {tg : Target} {s : State} (c : Chip) (o : Word) (h : Avail tg s) :
    Avail tg (setupOffset c o s) := avail_note _ h

theorem avail_fill {tg : Target} {s : State} (c : Chip) (o : Word) (p : List Byte)
    (h : Avail tg s) : Avail tg (fillStage c o p s) := avail_note _ (avail_offset c o h)

theorem view_offset (tg : Target) (s : State) (c : Chip) (o : Word) :
    viewOf tg (setupOffset c o s) = viewOf tg s := rfl

theorem view_fill (tg : Target) (s : State) (c : Chip) (o : Word) (p : List Byte) :
    viewOf tg (fillStage c o p s) = viewOf tg s := rfl

theorem cfg_fill (s : State) (c : Chip) (o : Word) (p : List Byte) :
    (fillStage c o p s).cfg = s.cfg := rfl

theorem writeBytewise_avail (c : Chip) (o buf : Word) (m : Memory) (hz : isZeroWidth c = false)
    (n : Nat) : ∀ (i : Nat) {tg : Target} {s : State}, Avail tg s → s.mem = m →
    (n = 0 → Parked tg s) →
    (∀ j, i ≤ j → j < i + n → tg.answers (foldedAddr c (offsetPlus o j)) = true) →
    2 ≤ s.cfg.tPoll →
    Ends (writeBytewise c o buf i n s) fun k t => k = .ok ∧
      Leaves s (xfers (byteWrites c o buf m) i n (viewOf tg s)) t := by
  induction n with
  | zero =>
    intro i tg s _ _ hf _ _
    exact ends_done ⟨rfl, hf rfl, rfl, rfl, rfl⟩
  | succ n ih =>
    intro i tg s ha hm _ hx hb
    unfold writeBytewise
    dsimp only
    rw [if_neg (by simp [hz])]
    have hbyte : (setupOffset c (offsetPlus o i)
        (note (fun w => { w with i := some i }) s)).mem.read (hostAddr buf i) =
        m.read (hostAddr buf i) := by
      show s.mem.read _ = _; rw [hm]
    rw [hbyte]
    generalize hq : fillStage c (offsetPlus o i) [m.read (hostAddr buf i)]
      (setupOffset c (offsetPlus o i) (note (fun w => { w with i := some i }) s)) = q
    have ha' : Avail tg q := by
      rw [← hq]; exact avail_fill _ _ _ (avail_offset _ _ (avail_note _ ha))
    have qv : viewOf tg q = viewOf tg s := by rw [← hq, view_fill, view_offset]; rfl
    have qc : q.cfg = s.cfg := by rw [← hq, cfg_fill]; rfl
    refine ends_andThen (blockWrite_avail (c := c) (o := offsetPlus o i)
      (payload := [m.read (hostAddr buf i)]) ha' (hx i (le_refl i) (by omega)) (by
      rw [qc]; exact hb)) fun k t ⟨k1, lv⟩ => ?_
    rw [qv] at lv
    have lv : Leaves s (xfer (byteWrites c o buf m i) (viewOf tg s)) t :=
      ⟨lv.parked, lv.mem, lv.byte, lv.cfg.trans qc⟩
    rw [if_neg (by simp [k1])]
    have hs := same_xfer (byteWrites c o buf m i) (viewOf tg s)
    refine ends_mono (ih (i + 1) (.inl lv.parked.free) ?_ (fun _ => lv.parked) (fun j h1 h2 => by
      rw [hs.answers]; exact hx j (by omega) (by omega)) (by rw [lv.cfg]; exact hb))
      fun q v ⟨a1, a2⟩ => ⟨a1, ?_⟩
    · rw [lv.mem]; exact (xfer_write_mem _ _ _ _).trans hm
    · rw [lv.view] at a2
      exact lv.then a2

/-- What CHIP_WRITE does to the bus (R253, R254). -/
def writeView (c : Chip) (o buf : Word) (len : Nat) (x : BusView) : BusView :=
  if wrBytewise c then xfers (byteWrites c o buf x.1) 0 len x
  else xfer [writeMsg c o ((List.range len).map fun i => x.1.read (hostAddr buf i))] x

theorem chipWrite_avail {c : Chip} {o buf : Word} {len : Nat} {tg : Target} {s : State}
    (ha : Avail tg s) (hl : len ≤ s.cfg.maxXfer)
    (hz : isZeroWidth c = false ∨ wrBytewise c = false) (h0 : len ≠ 0 ∨ wrBytewise c = false)
    (hx : chipAnswered tg c o len (wrBytewise c)) (hb : 2 ≤ s.cfg.tPoll) :
    Ends (chipWrite c o buf len s) fun k t => k = .ok ∧
      Leaves s (writeView c o buf len (viewOf tg s)) t := by
  unfold chipWrite writeView
  unfold chipAnswered at hx
  rw [if_neg (by omega)]
  by_cases hw : wrBytewise c = true
  · rw [if_pos hw]
    rw [if_pos hw] at hx
    rw [if_pos hw]
    have hz' : isZeroWidth c = false := hz.resolve_right (by simp [hw])
    have h0' : len ≠ 0 := h0.resolve_right (by simp [hw])
    exact writeBytewise_avail c o buf s.mem hz' len 0 ha rfl (fun h => absurd h h0')
      (fun j _ h => hx j (by omega)) hb
  · rw [if_neg hw]
    rw [if_neg hw] at hx
    rw [if_neg hw]
    dsimp only
    have hpay : (List.range len).map (fun i => (viewOf tg s).1.read (hostAddr buf i)) =
        payloadOf buf len s := rfl
    rw [hpay]
    generalize payloadOf buf len s = payload
    generalize hq : fillStage c o payload s = q
    have ha' : Avail tg q := by rw [← hq]; exact avail_fill _ _ _ ha
    have qv : viewOf tg q = viewOf tg s := by rw [← hq, view_fill]
    have qc : q.cfg = s.cfg := by rw [← hq, cfg_fill]
    refine ends_mono (blockWrite_avail (payload := payload) ha' hx (by rw [qc]; exact hb))
      fun k t ⟨k1, lv⟩ => ?_
    rw [qv] at lv
    exact ⟨k1, lv.parked, lv.mem, lv.byte, lv.cfg.trans qc⟩

/-! ### CRC32_REGION -/

/-- The one-byte read of CRC32_REGION at offset `o`: the same messages in both modes (R281, R252). -/
theorem readView_one {c : Chip} (o : Word) (x : BusView) :
    readView c o .reg 1 x = xfer (readMsgs c o .reg 1) x := by
  unfold readView
  split
  · unfold xfers xfers byteReads offsetPlus dstAt
    simp
  · rfl

/-- The accumulator and the bus behind `n` bytes of CRC32_REGION from byte `j` on (R281). -/
def crcRun (v : CrcVariant) (c : Chip) (start : Word) (j n : Nat) (crc : Word) (x : BusView) :
    Word × BusView :=
  match n with
  | 0 => (crc, x)
  | n + 1 =>
    let y := xfer (readMsgs c (offsetPlus start j) .reg 1) x
    crcRun v c start (j + 1) n (crcUpdate v crc (y.2.2.getD 0#8)) y

theorem getBytes_one (t : Target) : t.getBytes 1 = ([t.getByte.1], t.getByte.2) := rfl

theorem xfer_byte (c : Chip) (o : Word) (x : BusView) :
    ∃ b, (xfer (readMsgs c o .reg 1) x).2.2 = some b := by
  unfold xfer readMsgs
  simp only [show (1 : Nat) ≠ 0 from by omega, if_false, List.foldl_append, List.foldl_cons,
    List.foldl_nil]
  unfold msgRun
  dsimp only
  rw [getBytes_one]
  exact ⟨_, rfl⟩

theorem crcLoop_avail (c : Chip) (start expected : Word)
    (hz : isZeroWidth c = false ∨ rdBytewise c = false) (n : Nat) :
    ∀ (j : Nat) (crc : Word) {tg : Target} {s : State}, Avail tg s → (n = 0 → Parked tg s) →
    (∀ i, j ≤ i → i < j + n → tg.answers (foldedAddr c (offsetPlus start i)) = true) →
    3 ≤ s.cfg.tPoll →
    Ends (crcLoop c start expected j n crc s) fun k t =>
      k = (if (crcRun s.cfg.crcVariant c start j n crc (viewOf tg s)).1 = expected then .ok
        else .crc) ∧
      Leaves s (crcRun s.cfg.crcVariant c start j n crc (viewOf tg s)).2 t := by
  induction n with
  | zero =>
    intro j crc tg s _ hp _ _
    exact ends_done ⟨rfl, hp rfl, rfl, rfl, rfl⟩
  | succ n ih =>
    intro j crc tg s ha _ hx hb
    unfold crcLoop
    have ha' : Avail tg (note (fun w => { w with j := some j, crc := some crc }) s) := ha
    have hx1 : tg.answers (foldedAddr c (offsetPlus start j)) = true := hx j (le_refl j) (by omega)
    refine ends_andThen (chipRead_avail (o := offsetPlus start j) (dst := .reg) (len := 1) ha'
      (.inr (by omega)) hz (.inl (by omega)) (.inr (by omega)) ?_ ?_) fun k t ⟨k1, lv⟩ => ?_
    · unfold chipAnswered
      split
      · intro i hi
        have : i = 0 := by omega
        subst this
        simpa [offsetPlus] using hx1
      · exact hx1
    · show _ ≤ s.cfg.tPoll
      split <;> omega
    · rw [if_neg (by simp [k1])]
      have lv : Leaves s (xfer (readMsgs c (offsetPlus start j) .reg 1) (viewOf tg s)) t := by
        rw [readView_one] at lv
        exact ⟨lv.parked, lv.mem, lv.byte, lv.cfg⟩
      obtain ⟨b, hbb⟩ := xfer_byte c (offsetPlus start j) (viewOf tg s)
      have hb2 : t.work.b = some b := lv.byte.trans hbb
      rw [hb2]
      dsimp only
      have hs := same_xfer (readMsgs c (offsetPlus start j) .reg 1) (viewOf tg s)
      refine ends_mono (ih (j + 1) (crcUpdate t.cfg.crcVariant crc b) (.inl lv.parked.free)
        (fun _ => lv.parked) (fun i h1 h2 => by
          rw [hs.answers]; exact hx i (by omega) (by omega)) (by rw [lv.cfg]; exact hb))
        fun q v ⟨a1, a2⟩ => ?_
      rw [lv.view] at a1 a2
      have step : crcRun s.cfg.crcVariant c start j (n + 1) crc (viewOf tg s) =
          crcRun t.cfg.crcVariant c start (j + 1) n (crcUpdate t.cfg.crcVariant crc b)
            (xfer (readMsgs c (offsetPlus start j) .reg 1) (viewOf tg s)) := by
        rw [crcRun, hbb, lv.cfg]
        rfl
      rw [step]
      exact ⟨a1, lv.then a2⟩

end Sys2Proof.Machine
end

