-- ==== Sys2Proof/Laws/Eeprom.lean ====
section
/-! SUPPORT. What the nominal EEPROM (spec/47_command_words.md R308) holds and answers for the message
lists of the chip-addressing layer: the offset reaches its pointer, reads and writes go on from there. -/

namespace Sys2Proof.Machine

/-! ### Offsets -/

theorem offset_fold (w : Nat) (o : Word) : ∀ f : Nat,
    (offsetBytes w o).foldl (fun acc b => acc * 256 + b.toNat) f =
      f * 256 ^ w + o.toNat % 256 ^ w := by
  induction w with
  | zero => intro f; simp [offsetBytes, Nat.mod_one]
  | succ w ih =>
    intro f
    have e : offsetBytes (w + 1) o =
        BitVec.ofNat 8 (o.toNat >>> (8 * w)) :: offsetBytes w o := by
      unfold offsetBytes
      rw [List.range_succ_eq_map, List.map_cons, List.map_map]
      congr 1
      apply List.map_congr_left
      intro t _
      simp only [Function.comp_apply]
      rw [show w + 1 - 1 - (t + 1) = w - 1 - t by omega]
    rw [e, List.foldl_cons, ih]
    have h : (BitVec.ofNat 8 (o.toNat >>> (8 * w))).toNat = o.toNat / 256 ^ w % 256 := by
      rw [BitVec.toNat_ofNat, Nat.shiftRight_eq_div_pow, Nat.pow_mul]
    rw [h, Nat.pow_succ, Nat.mod_mul]
    ring

theorem offsetBytes_length (w : Nat) (o : Word) : (offsetBytes w o).length = w := by
  simp [offsetBytes]

/-- The first bytes behind a start in write direction load the pointer. -/
theorem putBytes_load (l : List Byte) : ∀ t : Target, l ≠ [] → t.loaded + l.length = t.width →
    t.putBytes l = { t with
      acc := l.foldl (fun acc b => acc * 256 + b.toNat) t.acc
      loaded := t.width
      ptr := l.foldl (fun acc b => acc * 256 + b.toNat) t.acc % t.size } := by
  induction l with
  | nil => intro t h; exact absurd rfl h
  | cons b r ih =>
    intro t _ hl
    simp only [List.length_cons] at hl
    have hlt : t.loaded < t.width := by omega
    have e : t.putByte b = { t with
        acc := t.acc * 256 + b.toNat
        loaded := t.loaded + 1
        ptr := if t.loaded + 1 = t.width then (t.acc * 256 + b.toNat) % t.size else t.ptr } := by
      unfold Target.putByte; rw [if_pos hlt]
    show (t.putByte b).putBytes r = _
    cases r with
    | nil =>
      simp only [List.length_nil] at hl
      have hw : t.loaded + 1 = t.width := by omega
      rw [e]
      simp [Target.putBytes, hw]
    | cons b2 r2 =>
      rw [ih (t.putByte b) (by simp) (by rw [e]; simp only; omega), e]
      simp

theorem putBytes_append (a b : List Byte) : ∀ t : Target,
    t.putBytes (a ++ b) = (t.putBytes a).putBytes b := by
  induction a with
  | nil => intro t; rfl
  | cons x r ih => intro t; exact ih _

theorem folded_mask {c : Chip} (h : c.addr &&& c.offsetMask = 0#7) (o : Word) :
    foldedAddr c o &&& c.offsetMask =
      BitVec.ofNat 7 (o.toNat >>> (8 * offsetWidth c)) &&& c.offsetMask := by
  unfold foldedAddr
  generalize BitVec.ofNat 7 (o.toNat >>> (8 * offsetWidth c)) = x
  revert h
  generalize c.addr = a
  generalize c.offsetMask = m
  intro h
  rw [BitVec.and_or_distrib_right, h, BitVec.zero_or, BitVec.and_assoc, BitVec.and_self]

theorem wired_answers {c : Chip} {t : Target} (w : Wired c t) (o : Word) :
    t.answers (foldedAddr c o) = true := by
  unfold Target.answers
  rw [w.addr, w.mask, folded_mask w.apart]
  unfold foldedAddr
  simp

theorem seen_fold {c : Chip} {o : Word} (h : offsetSeen c o) :
    (BitVec.ofNat 7 (o.toNat >>> (8 * offsetWidth c)) &&& c.offsetMask).toNat =
      o.toNat >>> (8 * offsetWidth c) := by
  unfold offsetSeen at h
  have hlt : o.toNat >>> (8 * offsetWidth c) < 128 := by
    rw [← h]
    exact lt_of_le_of_lt Nat.and_le_right (by have := c.offsetMask.isLt; omega)
  rw [BitVec.toNat_and, BitVec.toNat_ofNat, Nat.mod_eq_of_lt (by omega), h]

/-- The offset message sets the pointer to the whole offset (R109, R250, R308). -/
theorem offset_pointer {c : Chip} {t : Target} (w : Wired c t) (h0 : offsetWidth c ≠ 0) {o : Word}
    (h : offsetSeen c o) :
    (t.startWrite (foldedAddr c o)).putBytes (offsetBytes (offsetWidth c) o) =
      { t with addressed := true, loaded := t.width, acc := o.toNat, ptr := o.toNat % t.size } := by
  have hacc : (t.startWrite (foldedAddr c o)).acc = o.toNat >>> (8 * offsetWidth c) := by
    show (foldedAddr c o &&& t.mask).toNat = _
    rw [w.mask, folded_mask w.apart, seen_fold h]
  rw [putBytes_load]
  · rw [offset_fold, hacc]
    have : o.toNat >>> (8 * offsetWidth c) * 256 ^ offsetWidth c +
        o.toNat % 256 ^ offsetWidth c = o.toNat := by
      rw [Nat.shiftRight_eq_div_pow, Nat.pow_mul]
      exact Nat.div_add_mod' _ _
    rw [this]
    rfl
  · intro hn
    have := offsetBytes_length (offsetWidth c) o
    rw [hn] at this
    exact h0 this.symm
  · show 0 + _ = t.width
    rw [offsetBytes_length, w.width]
    omega

/-! ### Reading -/

theorem getBytes_eq (n : Nat) : ∀ t : Target, t.ptr < t.size →
    (t.getBytes n).1 = eepromBytes t.mem t.size t.ptr n ∧
    (t.getBytes n).2 = { t with ptr := (t.ptr + n) % t.size } := by
  induction n with
  | zero =>
    intro t h
    refine ⟨rfl, ?_⟩
    show t = _
    rw [Nat.add_zero, Nat.mod_eq_of_lt h]
  | succ n ih =>
    intro t h
    have h' : t.getByte.2.ptr < t.getByte.2.size := Nat.mod_lt _ (by
      show 0 < t.size; omega)
    obtain ⟨a, b⟩ := ih t.getByte.2 h'
    have hp : t.getByte.2.ptr = (t.ptr + 1) % t.size := rfl
    simp only [Target.getBytes]
    rw [a, b]
    constructor
    · unfold eepromBytes
      rw [List.range_succ_eq_map, List.map_cons, List.map_map]
      congr 1
      · show t.mem.read t.ptr = _; rw [Nat.add_zero, Nat.mod_eq_of_lt h]
      · apply List.map_congr_left
        intro j _
        simp only [Function.comp_apply]
        show t.mem.read (((t.ptr + 1) % t.size + j) % t.size) = _
        rw [Nat.mod_add_mod, show t.ptr + 1 + j = t.ptr + (j + 1) by omega]
    · show { t with ptr := ((t.ptr + 1) % t.size + n) % t.size } = _
      rw [Nat.mod_add_mod, show t.ptr + 1 + n = t.ptr + (n + 1) by omega]

theorem eepromBytes_mod (m : Memory) (size o n : Nat) :
    eepromBytes m size (o % size) n = eepromBytes m size o n := by
  unfold eepromBytes
  apply List.map_congr_left
  intro j _
  rw [Nat.mod_add_mod]

/-- What a target keeps when only read: everything but its pointer and bus state. -/
structure Kept (t u : Target) : Prop where
  addr : u.addr = t.addr
  mask : u.mask = t.mask
  width : u.width = t.width
  size : u.size = t.size
  mem : u.mem = t.mem

theorem Kept.wired {c : Chip} {t u : Target} (k : Kept t u) (w : Wired c t) : Wired c u :=
  ⟨k.addr.trans w.addr, k.mask.trans w.mask, k.width.trans w.width, by rw [k.size]; exact w.size,
    w.apart⟩

theorem Kept.trans {t u v : Target} (a : Kept t u) (b : Kept u v) : Kept t v :=
  ⟨b.addr.trans a.addr, b.mask.trans a.mask, b.width.trans a.width, b.size.trans a.size,
    b.mem.trans a.mem⟩

theorem width_zero {c : Chip} (h : offsetWidth c ≠ 0) : isZeroWidth c = false := by
  unfold isZeroWidth; simp [h]

/-- A block read of an EEPROM: its bytes from the offset on, and nothing in it changed (R251, R308). -/
theorem xfer_read {c : Chip} {x : BusView} (w : Wired c x.2.1) (h0 : offsetWidth c ≠ 0) {o : Word}
    (h : offsetSeen c o) (dst : ByteDst) (len : Nat) :
    (xfer (readMsgs c o dst len) x).1 =
        (received dst 0 (eepromBytes x.2.1.mem x.2.1.size o.toNat len) (x.1, x.2.2)).1 ∧
      (xfer (readMsgs c o dst len) x).2.2 =
        (received dst 0 (eepromBytes x.2.1.mem x.2.1.size o.toNat len) (x.1, x.2.2)).2 ∧
      Kept x.2.1 (xfer (readMsgs c o dst len) x).2.1 := by
  have hz := width_zero h0
  have hp := offset_pointer w h0 h
  have e0 : msgRun x (offsetMsg c o) = (x.1, { x.2.1 with
      addressed := true, loaded := x.2.1.width, acc := o.toNat, ptr := o.toNat % x.2.1.size },
      x.2.2) := by
    unfold offsetMsg msgRun sentBytes
    dsimp only
    rw [hp]
  unfold xfer readMsgs
  rw [hz]
  by_cases hl : len = 0
  · subst hl
    simp only [Bool.false_eq_true, if_false, if_true, List.append_nil, List.foldl_cons,
      List.foldl_nil]
    rw [e0]
    exact ⟨rfl, rfl, rfl, rfl, rfl, rfl, rfl⟩
  · simp only [Bool.false_eq_true, if_false, hl, List.singleton_append, List.foldl_cons,
      List.foldl_nil]
    rw [e0]
    obtain ⟨a, b⟩ := getBytes_eq len { x.2.1 with
      addressed := true, loaded := x.2.1.width, acc := o.toNat, ptr := o.toNat % x.2.1.size }
      (Nat.mod_lt _ w.size)
    have e1 : eepromBytes x.2.1.mem x.2.1.size (o.toNat % x.2.1.size) len =
      eepromBytes x.2.1.mem x.2.1.size o.toNat len := eepromBytes_mod _ _ _ _
    unfold msgRun
    dsimp only [Target.startRead] at a b ⊢
    rw [a, b, e1]
    exact ⟨rfl, rfl, rfl, rfl, rfl, rfl, rfl⟩

theorem eepromBytes_succ (m : Memory) (size o n : Nat) :
    eepromBytes m size o (n + 1) = m.read (o % size) :: eepromBytes m size (o + 1) n := by
  unfold eepromBytes
  rw [List.range_succ_eq_map, List.map_cons, List.map_map]
  congr 1
  apply List.map_congr_left
  intro j _
  simp only [Function.comp_apply]
  rw [show o + (j + 1) = o + 1 + j by omega]

theorem offsetPlus_toNat {o : Word} {j n : Nat} (h : o.toNat + n ≤ 2 ^ 32) (hj : j < n) :
    (offsetPlus o j).toNat = o.toNat + j := by
  unfold offsetPlus
  rw [BitVec.toNat_add, BitVec.toNat_ofNat]
  omega

/-- A bytewise read of an EEPROM reads the same bytes (R252, R308). -/
theorem xfers_read {c : Chip} (h0 : offsetWidth c ≠ 0) {o : Word} (buf : Word) {total : Nat}
    (hs : offsetsSeen c o total) (n : Nat) : ∀ (i : Nat) (x : BusView), Wired c x.2.1 →
    i + n ≤ total →
    (xfers (byteReads c o (.host buf)) i n x).1 =
        x.1.writeBytes buf i (eepromBytes x.2.1.mem x.2.1.size (o.toNat + i) n) ∧
      Kept x.2.1 (xfers (byteReads c o (.host buf)) i n x).2.1 := by
  induction n with
  | zero => intro i x w _; exact ⟨rfl, rfl, rfl, rfl, rfl, rfl⟩
  | succ n ih =>
    intro i x w hi
    obtain ⟨a, -, k⟩ := xfer_read w h0 (hs.2.2 i (by omega)) (dstAt (.host buf) i) 1
    obtain ⟨a2, k2⟩ := ih (i + 1) (xfer (byteReads c o (.host buf) i) x) (k.wired w) (by omega)
    unfold xfers
    refine ⟨?_, k.trans k2⟩
    rw [a2]
    have a' : (xfer (byteReads c o (.host buf) i) x).1 =
        x.1.write (hostAddr buf i) (x.2.1.mem.read ((o.toNat + i) % x.2.1.size)) := by
      unfold byteReads
      rw [a, eepromBytes_succ, offsetPlus_toNat hs.2.1 (by omega)]
      show (received (.host (buf + BitVec.ofNat 32 i)) 0 (_ :: _) _).1 = _
      rw [received_host]
      show (x.1.write (hostAddr (buf + BitVec.ofNat 32 i) 0) _) = _
      rw [hostAddr_offset]
    have k' : Kept x.2.1 (xfer (byteReads c o (.host buf) i) x).2.1 := k
    rw [a', k'.mem, k'.size, eepromBytes_succ, show o.toNat + (i + 1) = o.toNat + i + 1 by omega]
    rfl

/-- CHIP_READ of an EEPROM, in both modes (R251, R252). -/
theorem readView_eeprom {c : Chip} {x : BusView} (w : Wired c x.2.1) (h0 : offsetWidth c ≠ 0)
    {o : Word} (buf : Word) {len : Nat} (hs : offsetsSeen c o len) :
    (readView c o (.host buf) len x).1 =
        x.1.writeBytes buf 0 (eepromBytes x.2.1.mem x.2.1.size o.toNat len) ∧
      Kept x.2.1 (readView c o (.host buf) len x).2.1 := by
  unfold readView
  split
  · have := xfers_read h0 buf hs len 0 x w (by omega)
    rwa [Nat.add_zero] at this
  · obtain ⟨a, -, k⟩ := xfer_read w h0 hs.1 (.host buf) len
    rw [received_host] at a
    exact ⟨a, k⟩

/-! ### Writing -/

theorem putBytes_store (bs : List Byte) : ∀ t : Target, t.loaded = t.width → t.ptr < t.size →
    t.putBytes bs = { t with
      mem := storeAll t.mem t.size t.ptr bs, ptr := (t.ptr + bs.length) % t.size } := by
  induction bs with
  | nil =>
    intro t _ hp
    show t = _
    simp [storeAll, Nat.mod_eq_of_lt hp]
  | cons b r ih =>
    intro t hl hp
    have e : t.putByte b = { t with mem := t.mem.write t.ptr b, ptr := (t.ptr + 1) % t.size } := by
      unfold Target.putByte; rw [if_neg (by omega)]
    show (t.putByte b).putBytes r = _
    rw [ih (t.putByte b) (by rw [e]; exact hl) (by
      rw [e]; exact Nat.mod_lt _ (by show 0 < t.size; omega)), e]
    simp only [List.length_cons]
    rw [Nat.mod_add_mod, show t.ptr + 1 + r.length = t.ptr + (r.length + 1) by omega]
    rfl

theorem mod_inj {size p i j : Nat} (hi : i < size) (hj : j < size)
    (h : (p + i) % size = (p + j) % size) : i = j := by
  have h1 : (p + i) % size = (p + j) % size := h
  have : i % size = j % size := Nat.ModEq.add_left_cancel' p h1
  rwa [Nat.mod_eq_of_lt hi, Nat.mod_eq_of_lt hj] at this

theorem storeAll_other (bs : List Byte) : ∀ (m : Memory) (size ptr a : Nat), ptr < size →
    (∀ j, j < bs.length → a ≠ (ptr + j) % size) → (storeAll m size ptr bs).read a = m.read a := by
  induction bs with
  | nil => intro m size ptr a _ _; rfl
  | cons b r ih =>
    intro m size ptr a hp ha
    unfold storeAll
    rw [ih _ _ _ _ (Nat.mod_lt _ (by omega)) fun j hj => ?_]
    · refine Memory.read_write_other _ _ _ _ ?_
      have := ha 0 (by simp)
      rwa [Nat.add_zero, Nat.mod_eq_of_lt hp] at this
    · rw [Nat.mod_add_mod, show ptr + 1 + j = ptr + (j + 1) by omega]
      exact ha (j + 1) (by simp; omega)

theorem storeAll_wf (bs : List Byte) : ∀ (m : Memory) (size ptr : Nat), m.wf = true →
    (storeAll m size ptr bs).wf = true := by
  induction bs with
  | nil => intro m size ptr h; exact h
  | cons b r ih => intro m size ptr h; exact ih _ _ _ (Memory.wf_write _ _ _ h)

/-- No more bytes than the array has: each is where it was stored. -/
theorem storeAll_read (bs : List Byte) : ∀ (m : Memory) (size ptr : Nat), m.wf = true → ptr < size →
    bs.length ≤ size → ∀ (i : Nat) (h : i < bs.length),
    (storeAll m size ptr bs).read ((ptr + i) % size) = bs[i] := by
  induction bs with
  | nil => intro m size ptr _ _ _ i h; exact absurd h (by simp)
  | cons b r ih =>
    intro m size ptr hw hp hl i hi
    simp only [List.length_cons] at hl hi
    unfold storeAll
    cases i with
    | zero =>
      rw [storeAll_other _ _ _ _ _ (Nat.mod_lt _ (by omega)) fun j hj => ?_]
      · rw [Nat.add_zero, Nat.mod_eq_of_lt hp, Memory.read_write_same _ _ _ hw]; rfl
      · rw [Nat.mod_add_mod]
        intro he
        have := mod_inj (size := size) (p := ptr) (i := 0) (j := 1 + j) (by omega) (by omega) (by
          rw [he, Nat.add_assoc])
        omega
    | succ i =>
      have := ih (m.write ptr b) size ((ptr + 1) % size) (Memory.wf_write _ _ _ hw)
        (Nat.mod_lt _ (by omega)) (by omega) i (by omega)
      rw [Nat.mod_add_mod, show ptr + 1 + i = ptr + (i + 1) by omega] at this
      exact this

/-- Filling a buffer puts each byte at its address. -/
theorem Memory.read_writeBytes (bs : List Byte) : ∀ (m : Memory) (addr : Word) (i : Nat),
    m.wf = true → i + bs.length ≤ 2 ^ 32 → ∀ (j : Nat) (h : j < bs.length),
    (m.writeBytes addr i bs).read (hostAddr addr (i + j)) = bs[j] := by
  induction bs with
  | nil => intro m addr i _ _ j h; exact absurd h (by simp)
  | cons b r ih =>
    intro m addr i hw hl j hj
    simp only [List.length_cons] at hl hj
    simp only [Memory.writeBytes]
    cases j with
    | zero =>
      rw [Memory.read_writeBytes_other]
      · exact Memory.read_write_same _ _ _ hw
      · intro k h1 h2 he
        have := hostAddr_inj addr (i + 0) k (by omega) (by omega) he
        omega
    | succ j =>
      have := ih (m.write (hostAddr addr i) b) addr (i + 1) (Memory.wf_write _ _ _ hw) (by omega) j
        (by omega)
      rw [show i + (j + 1) = i + 1 + j by omega]
      exact this

/-- A block write of an EEPROM (R253, R308). -/
theorem xfer_write {c : Chip} {x : BusView} (w : Wired c x.2.1) (h0 : offsetWidth c ≠ 0) {o : Word}
    (h : offsetSeen c o) (payload : List Byte) :
    (xfer [writeMsg c o payload] x).2.1 =
      { x.2.1 with
        addressed := false, loaded := x.2.1.width, acc := o.toNat
        mem := storeAll x.2.1.mem x.2.1.size (o.toNat % x.2.1.size) payload
        ptr := (o.toNat % x.2.1.size + payload.length) % x.2.1.size } := by
  unfold xfer writeMsg msgRun sentBytes stageBytes
  simp only [List.foldl_cons, List.foldl_nil]
  rw [putBytes_append, offset_pointer w h0 h, putBytes_store]
  · rfl
  · rfl
  · exact Nat.mod_lt _ w.size

/-- A bytewise write of an EEPROM stores the same bytes (R254, R308). -/
theorem xfers_write {c : Chip} (h0 : offsetWidth c ≠ 0) {o : Word} (buf : Word) (m : Memory)
    {total : Nat} (hs : offsetsSeen c o total) (n : Nat) : ∀ (i : Nat) (x : BusView),
    Wired c x.2.1 → i + n ≤ total →
    (xfers (byteWrites c o buf m) i n x).2.1.mem =
      storeAll x.2.1.mem x.2.1.size ((o.toNat + i) % x.2.1.size)
        ((List.range n).map fun j => m.read (hostAddr buf (i + j))) ∧
    (xfers (byteWrites c o buf m) i n x).1 = x.1 ∧
    (xfers (byteWrites c o buf m) i n x).2.1.size = x.2.1.size := by
  induction n with
  | zero => intro i x w _; exact ⟨rfl, rfl, rfl⟩
  | succ n ih =>
    intro i x w hi
    have e := xfer_write w h0 (hs.2.2 i (by omega)) [m.read (hostAddr buf i)]
    have e' : (xfer (byteWrites c o buf m i) x).2.1 = _ := e
    rw [offsetPlus_toNat hs.2.1 (by omega)] at e'
    have w' : Wired c (xfer (byteWrites c o buf m i) x).2.1 := by
      rw [e']; exact ⟨w.addr, w.mask, w.width, w.size, w.apart⟩
    obtain ⟨a, b, d⟩ := ih (i + 1) (xfer (byteWrites c o buf m i) x) w' (by omega)
    unfold xfers
    refine ⟨?_, b.trans (xfer_write_mem _ _ _ _), ?_⟩
    · rw [a, e']
      dsimp only
      rw [List.range_succ_eq_map, List.map_cons, List.map_map]
      simp only [storeAll, Nat.mod_add_mod]
      rw [show o.toNat + (i + 1) = o.toNat + i + 1 by omega, Nat.add_zero]
      congr 1
      apply List.map_congr_left
      intro j _
      simp only [Function.comp_apply]
      rw [show i + 1 + j = i + (j + 1) by omega]
    · rw [d, e']

/-- CHIP_WRITE of an EEPROM, in both modes (R253, R254). -/
theorem writeView_eeprom {c : Chip} {x : BusView} (w : Wired c x.2.1) (h0 : offsetWidth c ≠ 0)
    {o : Word} (buf : Word) {len : Nat} (hs : offsetsSeen c o len) :
    (writeView c o buf len x).2.1.mem =
      storeAll x.2.1.mem x.2.1.size (o.toNat % x.2.1.size)
        ((List.range len).map fun j => x.1.read (hostAddr buf j)) ∧
    (writeView c o buf len x).1 = x.1 ∧ (writeView c o buf len x).2.1.size = x.2.1.size := by
  unfold writeView
  split
  · have := xfers_write h0 buf x.1 hs len 0 x w (by omega)
    simpa using this
  · refine ⟨?_, rfl, ?_⟩
    · rw [xfer_write w h0 hs.1]
    · rw [xfer_write w h0 hs.1]

/-- CRC32_REGION of an EEPROM: the running CRC of its bytes (R280, R281). -/
theorem crcRun_eeprom {c : Chip} (h0 : offsetWidth c ≠ 0) (v : CrcVariant) {start : Word}
    {total : Nat} (hs : offsetsSeen c start total) (n : Nat) : ∀ (j : Nat) (crc : Word)
    (x : BusView), Wired c x.2.1 → j + n ≤ total →
    (crcRun v c start j n crc x).1 =
      (eepromBytes x.2.1.mem x.2.1.size (start.toNat + j) n).foldl (crcUpdate v) crc ∧
    (crcRun v c start j n crc x).2.1 = x.1 ∧ Kept x.2.1 (crcRun v c start j n crc x).2.2.1 := by
  induction n with
  | zero => intro j crc x w _; exact ⟨rfl, rfl, rfl, rfl, rfl, rfl, rfl⟩
  | succ n ih =>
    intro j crc x w hj
    obtain ⟨a, b, k⟩ := xfer_read w h0 (hs.2.2 j (by omega)) .reg 1
    rw [eepromBytes_succ, offsetPlus_toNat hs.2.1 (by omega)] at b
    have b' : (xfer (readMsgs c (offsetPlus start j) .reg 1) x).2.2 =
        some (x.2.1.mem.read ((start.toNat + j) % x.2.1.size)) := b
    rw [received_reg] at a
    obtain ⟨a2, b2, k2⟩ := ih (j + 1)
      (crcUpdate v crc ((xfer (readMsgs c (offsetPlus start j) .reg 1) x).2.2.getD 0#8))
      (xfer (readMsgs c (offsetPlus start j) .reg 1) x) (k.wired w) (by omega)
    unfold crcRun
    dsimp only
    refine ⟨?_, b2.trans a, k.trans k2⟩
    rw [a2, b', k.mem, k.size, eepromBytes_succ, List.foldl_cons,
      show start.toNat + (j + 1) = start.toNat + j + 1 by omega]
    rfl

end Sys2Proof.Machine
end

