-- ==== Sys2Proof/Laws/Keep.lean ====
section
/-! SUPPORT. What every operation leaves alone whenever it answers at all, with no premise on the
platform, the operands or the environment: the parameters, the handle's base, the host's memory outside
the buffers it was given, and the invariant. -/

namespace Sys2Proof.Machine

/-- If a part of an operation answers, `Q` holds of what it answers. -/
def Safe {α : Type} (m : Run α) (Q : α → State → Prop) : Prop := ∀ a t, m = .next (a, t) → Q a t

section Combinators

variable {α β : Type}

theorem safe_done {a : α} {s : State} {Q : α → State → Prop} (h : Q a s) : Safe (done a s) Q := by
  intro b t e
  cases e
  exact h

theorem safe_refused {r : Refusal} {Q : α → State → Prop} : Safe (.refused r) Q := by
  intro b t e; cases e

theorem safe_fault {f : Fault} {Q : α → State → Prop} : Safe (.fault f) Q := by
  intro b t e; cases e

theorem safe_mono {m : Run α} {P Q : α → State → Prop} (h : Safe m P) (k : ∀ a t, P a t → Q a t) :
    Safe m Q := fun a t e => k a t (h a t e)

theorem safe_andThen {m : Run α} {k : α → State → Run β} {P : α → State → Prop}
    {Q : β → State → Prop} (h : Safe m P) (hk : ∀ a t, P a t → Safe (k a t) Q) :
    Safe (andThen m k) Q := by
  intro b u e
  cases m with
  | next p => exact hk p.1 p.2 (h p.1 p.2 rfl) b u e
  | fault f => cases e
  | refused r => cases e

end Combinators

/-! ### What is left alone -/

/-- What no operation changes; `O` holds of the host addresses outside the buffers it may fill. -/
structure Sound (O : Nat → Prop) (s t : State) : Prop where
  cfg : t.cfg = s.cfg
  chip : t.chip = s.chip
  host : t.host = s.host
  base : t.handle.base = s.handle.base
  index : t.handle.index = s.handle.index
  inited : s.inited = true → t.inited = true
  mem : ∀ a, O a → t.mem.read a = s.mem.read a
  grows : ∃ l, t.trace = l ++ s.trace
  core : CoreInv s → CoreInv t

/-- What no operation below START changes. -/
structure Plain (O : Nat → Prop) (s t : State) : Prop extends Sound O s t where
  ctrl : t.ctrl = s.ctrl
  handle : t.handle = s.handle
  initedSame : t.inited = s.inited
  cfg0 : t.cfg0 = s.cfg0
  cfg1 : t.cfg1 = s.cfg1
  clkcfg : t.clkcfg = s.clkcfg
  mier : t.mier = s.mier

/-- Every host address. -/
def everywhere (_ : Nat) : Prop := True

/-- The controller is not held in reset. -/
def runs (s : State) : Prop := s.ctrl.getLsbD bitRST = false

section Relations

variable {O P : Nat → Prop} {s t u : State}

theorem grows_trans (a : ∃ l, t.trace = l ++ s.trace) (b : ∃ l, u.trace = l ++ t.trace) :
    ∃ l, u.trace = l ++ s.trace := by
  obtain ⟨l, h⟩ := a
  obtain ⟨m, k⟩ := b
  exact ⟨m ++ l, by rw [k, h, List.append_assoc]⟩

theorem Sound.refl : Sound O s s :=
  ⟨rfl, rfl, rfl, rfl, rfl, id, fun _ _ => rfl, ⟨[], rfl⟩, id⟩

theorem Sound.trans (a : Sound O s t) (b : Sound O t u) : Sound O s u :=
  ⟨b.cfg.trans a.cfg, b.chip.trans a.chip, b.host.trans a.host, b.base.trans a.base,
    b.index.trans a.index, fun h => b.inited (a.inited h),
    fun x h => (b.mem x h).trans (a.mem x h), grows_trans a.grows b.grows,
    fun h => b.core (a.core h)⟩

theorem Sound.mono (h : ∀ a, P a → O a) (k : Sound O s t) : Sound P s t :=
  ⟨k.cfg, k.chip, k.host, k.base, k.index, k.inited, fun a ha => k.mem a (h a ha), k.grows, k.core⟩

theorem Plain.refl : Plain O s s := ⟨Sound.refl, rfl, rfl, rfl, rfl, rfl, rfl, rfl⟩

theorem Plain.trans (a : Plain O s t) (b : Plain O t u) : Plain O s u :=
  ⟨a.toSound.trans b.toSound, b.ctrl.trans a.ctrl, b.handle.trans a.handle,
    b.initedSame.trans a.initedSame, b.cfg0.trans a.cfg0, b.cfg1.trans a.cfg1,
    b.clkcfg.trans a.clkcfg, b.mier.trans a.mier⟩

theorem Plain.mono (h : ∀ a, P a → O a) (k : Plain O s t) : Plain P s t :=
  ⟨k.toSound.mono h, k.ctrl, k.handle, k.initedSame, k.cfg0, k.cfg1, k.clkcfg, k.mier⟩

theorem Plain.any (k : Plain everywhere s t) : Plain O s t := k.mono fun _ _ => trivial

theorem Sound.any (k : Sound everywhere s t) : Sound O s t := k.mono fun _ _ => trivial

theorem Plain.runs (k : Plain O s t) (h : runs s) : runs t := by
  unfold Machine.runs; rw [k.ctrl]; exact h

end Relations

theorem Contract.plain {O : Nat → Prop} {s t : State} (c : Contract s t)
    (ht : targetWf s.target → targetWf t.target) : Plain O s t where
  cfg := c.cfg
  chip := c.chip
  host := c.host
  base := by rw [c.handle]
  index := by rw [c.handle]
  inited := fun h => by rw [c.inited]; exact h
  mem := fun _ _ => by rw [c.mem]
  grows := ⟨[], by simp [c.trace]⟩
  core := fun i => coreInv_of_contract i c (ht i.targetMemWf)
  ctrl := c.ctrl
  handle := c.handle
  initedSame := c.inited
  cfg0 := c.cfg0
  cfg1 := c.cfg1
  clkcfg := c.clkcfg
  mier := c.mier

theorem plain_envSlot {O : Nat → Prop} {s t : State} (e : envSlot s = .next t) : Plain O s t := by
  rcases envSlot_spec s with ⟨u, hu, c⟩ | ⟨hr, -⟩
  · rw [e] at hu
    cases hu
    exact c.plain fun h => targetWf_envSlot h e
  · rw [e] at hr; cases hr

/-- An update of fields no frame speaks of. -/
theorem plain_update {O : Nat → Prop} {s : State} (w : Work) (p : Phase) (r : Code) (b : Bool)
    (n tm : Nat) (tk : List Nat) :
    Plain O s { s with work := w, phase := p, result := r, bracket := b, draws := n,
                       timer := tm, ticks := tk } :=
  ⟨⟨rfl, rfl, rfl, rfl, rfl, id, fun _ _ => rfl, ⟨[], rfl⟩, fun i =>
    ⟨i.cfgValid, i.txBound, i.rxBound, i.txLegal, i.noInterrupt, i.memWf, i.targetMemWf⟩⟩,
    rfl, rfl, rfl, rfl, rfl, rfl, rfl⟩

theorem plain_note {O : Nat → Prop} {s : State} (f : Work → Work) : Plain O s (note f s) :=
  plain_update _ _ _ _ _ _ _

theorem plain_logged {O : Nat → Prop} {s : State} (a : Access) : Plain O s (logged a s) :=
  ⟨⟨rfl, rfl, rfl, rfl, rfl, id, fun _ _ => rfl, ⟨[a], rfl⟩, fun i =>
    ⟨i.cfgValid, i.txBound, i.rxBound, i.txLegal, i.noInterrupt, i.memWf, i.targetMemWf⟩⟩,
    rfl, rfl, rfl, rfl, rfl, rfl, rfl⟩

theorem plain_raise {O : Nat → Prop} {s : State} (c : Code) :
    Safe (raiseError c s) fun d t => d = c ∧ Plain O s t :=
  safe_done ⟨rfl, plain_update _ _ _ _ _ _ _⟩

/-! ### Primitives -/

/-- Where an access reaches a register at all, it is the register named. -/
theorem regAccess_reaches {s : State} {r q : Reg}
    (h : regAccess (s.handle.base + r.off) 4 s = .ok q) : q = r := by
  have hsub : s.handle.base + r.off - s.handle.base = r.off := by
    rw [BitVec.add_comm, BitVec.add_sub_cancel]
  have hat : regAtOff r.off = some r := by cases r <;> rfl
  unfold regAccess at h
  rw [hsub, hat] at h
  split at h
  · cases h
  · split at h
    · cases h
    · split at h
      · cases h
      · cases h; rfl

theorem safe_afterGap {α : Type} {k : State → Run α} {s : State} {Q : α → State → Prop}
    (h : ∀ u, Plain everywhere s u → Safe (k u) Q) : Safe (afterGap k s) Q := by
  unfold afterGap
  cases e : envSlot s with
  | next u => exact h u (plain_envSlot e)
  | fault f => exact safe_fault
  | refused r => exact safe_refused

theorem safe_regRead (r : Reg) (s : State) :
    Safe (regRead r s) fun v t => Plain everywhere s t ∧ readShows r v t := by
  refine safe_afterGap fun u pu => ?_
  unfold memRead
  split
  · rename_i q hq
    cases regAccess_reaches hq
    have lg : ∀ (w : State) (n : Nat) (a : Access), Plain everywhere u w →
        Plain everywhere s (logged a { w with draws := n }) := fun w n a h =>
      ((pu.trans h).trans (plain_update w.work w.phase w.result w.bracket n w.timer w.ticks)).trans
        (plain_logged a)
    cases r with
    | ctrl => exact safe_done ⟨pu.trans (plain_logged _), rfl⟩
    | status => exact safe_done ⟨lg u _ _ Plain.refl, rfl, rfl⟩
    | cfg0 => exact safe_done ⟨pu.trans (plain_logged _), rfl⟩
    | cfg1 => exact safe_done ⟨pu.trans (plain_logged _), rfl⟩
    | clkcfg => exact safe_refused
    | fifostat => exact safe_done ⟨pu.trans (plain_logged _), rfl⟩
    | txcmd => exact safe_refused
    | rxdata =>
      unfold loadReg
      dsimp only
      split
      · rename_i h
        exact safe_done ⟨lg u _ _ Plain.refl, .inl ⟨rfl, rfl, h⟩⟩
      · rename_i b r h
        refine safe_done ⟨lg { u with rxf := r } _ _ ?_, .inr ⟨b, rfl, rfl⟩⟩
        refine ⟨⟨rfl, rfl, rfl, rfl, rfl, id, fun _ _ => rfl, ⟨[], rfl⟩, fun i => ?_⟩, rfl, rfl, rfl,
          rfl, rfl, rfl, rfl⟩
        have hb := i.rxBound
        rw [h] at hb
        exact ⟨i.cfgValid, i.txBound, Nat.le_of_succ_le hb, i.txLegal, i.noInterrupt, i.memWf,
          i.targetMemWf⟩
  · exact safe_refused

theorem safe_now (s : State) : Safe (now s) fun _ t => Plain everywhere s t := by
  refine safe_afterGap fun u pu => safe_done (pu.trans (Plain.trans ?_ (plain_logged _)))
  unfold tickTimer
  split <;> exact plain_update _ _ _ _ _ _ _

theorem coreInv_writeCtrl {s : State} (v : Word) (i : CoreInv s) : CoreInv (writeCtrl v s) :=
  (controls_writeCtrl s v).coreInv i

/-- Any register write: the parameters, the handle, memory and the invariant stay. -/
theorem safe_regWrite (r : Reg) (v : Word) (s : State)
    (hl : r = .txcmd → entryLegal (v.setWidth 11)) :
    Safe (regWrite r v s) fun _ t => Sound everywhere s t ∧ t.inited = s.inited ∧
      t.handle = s.handle ∧ (r = .ctrl → t.ctrl = v.setWidth 4) ∧
      (r = .status ∨ r = .txcmd → Plain everywhere s t) ∧ (r ≠ .ctrl → t.ctrl = s.ctrl) ∧
      (r ≠ .ctrl → r ≠ .cfg1 → t.cfg1 = s.cfg1) ∧ .wr r v ∈ t.trace := by
  refine safe_afterGap fun u pu => ?_
  unfold memWrite
  split
  · rename_i q hq
    cases regAccess_reaches hq
    have cfgWrite : ∀ w : State, w.cfg = u.cfg → w.chip = u.chip → w.host = u.host →
        w.handle = u.handle → w.inited = u.inited → w.mem = u.mem → w.mier = u.mier →
        w.txf = u.txf → w.rxf = u.rxf → w.target = u.target → w.trace = u.trace →
        Sound everywhere s w := by
      intro w h1 h2 h3 h4 h5 h6 h7 h8 h9 h10 h11
      refine pu.toSound.trans ⟨h1, h2, h3, by rw [h4], by rw [h4], by rw [h5]; exact id,
        fun _ _ => by rw [h6], ⟨[], h11⟩, fun i => ?_⟩
      exact ⟨by rw [h1]; exact i.cfgValid, by rw [h8, h1]; exact i.txBound,
        by rw [h9, h1]; exact i.rxBound, by rw [h8]; exact i.txLegal,
        by rw [h7]; exact i.noInterrupt, by rw [h6]; exact i.memWf,
        by rw [h10]; exact i.targetMemWf⟩
    have lg : ∀ w : State, Plain everywhere w (logged (.wr r v) w) := fun w => plain_logged _
    cases r with
    | ctrl =>
      refine safe_done ⟨?_, ?_, ?_, fun _ => writeCtrl_ctrl v u, by simp, by simp, by simp, by simp⟩
      · refine (pu.toSound.trans ?_).trans (lg _).toSound
        have k := (controls_writeCtrl u v)
        exact ⟨k.keeps.cfg, k.keeps.chip, k.keeps.host, k.keeps.base, k.keeps.index,
          by simp, fun _ _ => by rw [k.mem], ⟨[], by simp⟩, k.coreInv⟩
      · simp [pu.initedSame]
      · simp [pu.handle]
    | status =>
      have hp : Plain everywhere u { u with flags := u.flags.clearW1C v } :=
        ⟨⟨rfl, rfl, rfl, rfl, rfl, id, fun _ _ => rfl, ⟨[], rfl⟩, fun i => ⟨i.cfgValid, i.txBound,
          i.rxBound, i.txLegal, i.noInterrupt, i.memWf, i.targetMemWf⟩⟩, rfl, rfl, rfl, rfl, rfl, rfl, rfl⟩
      have hp := (pu.trans hp).trans (lg _)
      exact safe_done ⟨hp.toSound, hp.initedSame, hp.handle, by simp, fun _ => hp,
        fun _ => hp.ctrl, fun _ _ => hp.cfg1, by simp⟩
    | cfg0 =>
      unfold storeReg
      dsimp only
      split
      · exact safe_done ⟨(pu.trans (lg _)).toSound, pu.initedSame, pu.handle, by simp, by simp,
          fun _ => pu.ctrl, fun _ _ => pu.cfg1, by simp⟩
      · exact safe_done ⟨(cfgWrite { u with cfg0 := v } rfl rfl rfl rfl rfl rfl rfl rfl rfl
          rfl rfl).trans (lg _).toSound, pu.initedSame, pu.handle, by simp, by simp, fun _ => pu.ctrl,
          fun _ _ => pu.cfg1, by simp⟩
    | cfg1 =>
      unfold storeReg
      dsimp only
      split
      · exact safe_done ⟨(pu.trans (lg _)).toSound, pu.initedSame, pu.handle, by simp, by simp,
          fun _ => pu.ctrl, by simp, by simp⟩
      · exact safe_done ⟨(cfgWrite { u with cfg1 := v } rfl rfl rfl rfl rfl rfl rfl rfl rfl
          rfl rfl).trans (lg _).toSound, pu.initedSame, pu.handle, by simp, by simp, fun _ => pu.ctrl,
          by simp, by simp⟩
    | clkcfg =>
      unfold storeReg
      dsimp only
      split
      · exact safe_done ⟨(pu.trans (lg _)).toSound, pu.initedSame, pu.handle, by simp, by simp,
          fun _ => pu.ctrl, fun _ _ => pu.cfg1, by simp⟩
      · exact safe_done ⟨(cfgWrite { u with clkcfg := v } rfl rfl rfl rfl rfl rfl rfl rfl rfl
          rfl rfl).trans (lg _).toSound, pu.initedSame, pu.handle, by simp, by simp, fun _ => pu.ctrl,
          fun _ _ => pu.cfg1, by simp⟩
    | fifostat => exact safe_refused
    | txcmd =>
      unfold storeReg
      dsimp only
      split
      · have hp := pu.trans (lg u)
        exact safe_done ⟨hp.toSound, hp.initedSame, hp.handle, by simp, fun _ => hp,
          fun _ => hp.ctrl, fun _ _ => hp.cfg1, by simp⟩
      · split
        · rename_i hs
          have hp : Plain everywhere u { u with txf := u.txf ++ [v.setWidth 11] } := by
            refine ⟨⟨rfl, rfl, rfl, rfl, rfl, id, fun _ _ => rfl, ⟨[], rfl⟩, fun i => ⟨i.cfgValid, ?_,
              i.rxBound, ?_, i.noInterrupt, i.memWf, i.targetMemWf⟩⟩, rfl, rfl, rfl, rfl, rfl,
              rfl, rfl⟩
            · simpa using hs
            · intro w hw
              rcases List.mem_append.1 hw with h | h
              · exact i.txLegal w h
              · rw [List.mem_singleton.1 h]; exact hl rfl
          have hp := (pu.trans hp).trans (lg _)
          exact safe_done ⟨hp.toSound, hp.initedSame, hp.handle, by simp, fun _ => hp,
            fun _ => hp.ctrl, fun _ _ => hp.cfg1, by simp⟩
        · exact safe_refused
    | rxdata => exact safe_refused
  · exact safe_refused

/-- A write that keeps the four stored bits of `CTRL`, the controller running. -/
theorem safe_regWrite_ctrl_same {s : State} (hr : runs s) (v : Word) (h : v.setWidth 4 = s.ctrl) :
    Safe (regWrite .ctrl v s) fun _ t => Plain everywhere s t := by
  have hv : v.getLsbD bitRST = false := by
    unfold runs at hr
    rw [← h] at hr
    simpa [bitRST] using hr
  refine safe_afterGap fun u pu => ?_
  unfold memWrite
  split
  · rename_i q hq
    cases regAccess_reaches hq
    refine safe_done ((pu.trans ?_).trans (plain_logged _))
    have hc : v.setWidth 4 = u.ctrl := by rw [h, pu.ctrl]
    have k := controls_writeCtrl u v
    have hw : writeCtrl v u = { u with
        txf := if v.getLsbD bitRTF then [] else u.txf
        rxf := if v.getLsbD bitRRF then [] else u.rxf } := by
      unfold writeCtrl
      simp only [hv, Bool.false_eq_true, if_false]
      rw [hc]
    refine ⟨⟨k.keeps.cfg, k.keeps.chip, k.keeps.host, k.keeps.base, k.keeps.index, by simp,
      fun _ _ => by rw [k.mem], ⟨[], by simp⟩, k.coreInv⟩, ?_, ?_, ?_, ?_, ?_, ?_, ?_⟩ <;> rw [hw]
  · exact safe_refused

/-! ### Polling -/

theorem safe_clearError (e : Code) {s : State} (hr : runs s) :
    Safe (clearError e s) fun _ t => Plain everywhere s t := by
  refine safe_andThen (safe_regWrite .status clearAll s (by simp)) fun _ s1 h1 => ?_
  have p1 : Plain everywhere s s1 := h1.2.2.2.2.1 (.inl rfl)
  refine safe_andThen (safe_regRead .ctrl s1) fun v s2 ⟨p2, hv⟩ => ?_
  have hk : (v.word ||| fifoReset).setWidth 4 = s2.ctrl := by
    rw [hv, RdWord.exact_word]
    simp only [fifoReset, BitVec.setWidth_or]
    rw [BitVec.setWidth_setWidth_of_le _ (by omega)]
    simp
  refine safe_andThen (safe_regWrite_ctrl_same ((p1.trans p2).runs hr) _ hk) fun _ s3 p3 => ?_
  exact safe_done ((p1.trans p2).trans p3)

theorem safe_checkClearError {s : State} (hr : runs s) :
    Safe (checkClearError s) fun _ t => Plain everywhere s t := by
  refine safe_andThen (safe_regRead .status s) fun v s1 ⟨p1, _⟩ => ?_
  dsimp only
  have p2 : Plain everywhere s (note (fun w => { w with s := some v.word }) s1) :=
    p1.trans (plain_note _)
  split
  · exact safe_done p2
  · exact safe_mono (safe_clearError _ (p2.runs hr)) fun _ t p3 => p2.trans p3

theorem safe_txWaitLoop (fuel : Nat) : ∀ (t0 : Nat) {s : State}, runs s →
    Safe (txWaitLoop fuel t0 s) fun _ t => Plain everywhere s t := by
  induction fuel with
  | zero => intro t0 s _; exact safe_fault
  | succ n ih =>
    intro t0 s hr
    unfold txWaitLoop
    refine safe_andThen (safe_regRead .fifostat s) fun f s1 ⟨p1, _⟩ => ?_
    split
    · exact safe_refused
    · refine safe_andThen (safe_checkClearError ((p1.trans (plain_note _)).runs hr))
        fun e s2 p2 => ?_
      have p2 := (p1.trans (plain_note _)).trans p2
      split
      · exact safe_done p2
      · refine safe_andThen (safe_now s2) fun t s3 p3 => ?_
        have p3 := p2.trans p3
        split
        · exact safe_done p3
        · split
          · exact safe_done p3
          · exact safe_mono (ih t0 (p3.runs hr)) fun _ t p4 => p3.trans p4

theorem safe_waitTxSpace {s : State} (hr : runs s) :
    Safe (waitTxSpace s) fun _ t => Plain everywhere s t := by
  refine safe_andThen (safe_now s) fun t0 s1 p1 => ?_
  have p2 : Plain everywhere s (note (fun w => { w with t0 := some t0 }) s1) :=
    p1.trans (plain_note _)
  exact safe_mono (safe_txWaitLoop _ _ (p2.runs hr)) fun _ t p3 => p2.trans p3

/-! ### Bring-up -/

/-- What a bring-up step keeps: no plain field, but the reset bit. -/
structure Brings (s t : State) : Prop where
  sound : Sound everywhere s t
  runs : runs s → runs t

theorem Brings.refl {s : State} : Brings s s := ⟨Sound.refl, id⟩

theorem Brings.trans {s t u : State} (a : Brings s t) (b : Brings t u) : Brings s u :=
  ⟨a.sound.trans b.sound, fun h => b.runs (a.runs h)⟩

theorem Plain.brings {s t : State} (p : Plain everywhere s t) : Brings s t := ⟨p.toSound, p.runs⟩

theorem safe_regWrite_brings (r : Reg) (v : Word) (s : State) (hl : r ≠ .txcmd)
    (hv : r = .ctrl → v.getLsbD bitRST = false ∨ ¬ runs s) :
    Safe (regWrite r v s) fun _ t => Brings s t ∧ (v.getLsbD bitRST = false → r = .ctrl → runs t) ∧
      (r ≠ .ctrl → t.ctrl = s.ctrl) := by
  refine safe_mono (safe_regWrite r v s (fun h => absurd h hl)) fun _ t h => ?_
  have hc : v.getLsbD bitRST = false → r = .ctrl → runs t := by
    intro h0 hr
    unfold runs
    rw [h.2.2.2.1 hr]
    simpa [bitRST] using h0
  refine ⟨⟨h.1, ?_⟩, hc, h.2.2.2.2.2.1⟩
  intro hs
  by_cases hr : r = .ctrl
  · rcases hv hr with h0 | h0
    · exact hc h0 hr
    · exact absurd hs h0
  · unfold runs; rw [h.2.2.2.2.2.1 hr]; exact hs

theorem safe_restoreMaster (men : Bool) (s : State) :
    Safe (restoreMaster men s) fun _ t => Brings s t := by
  unfold restoreMaster
  split
  · refine safe_andThen (safe_regRead .ctrl s) fun v s1 ⟨p1, hv⟩ => ?_
    refine safe_mono (safe_regWrite_brings .ctrl (masterOn v) s1 (by simp) fun _ => ?_)
      fun _ t h => p1.brings.trans h.1
    have : v = .exact (s1.ctrl.setWidth 32) := hv
    rw [this, rst_masterOn]
    unfold runs
    cases s1.ctrl.getLsbD bitRST <;> simp
  · exact safe_done Brings.refl

theorem brings_update {s : State} (w : Work) (p : Phase) (b i : Bool) (rate : Word)
    (hi : s.inited = true → i = true) :
    Brings s { s with work := w, phase := p, bracket := b, inited := i,
                      handle := { s.handle with rate := rate } } :=
  ⟨⟨rfl, rfl, rfl, rfl, rfl, hi, fun _ _ => rfl, ⟨[], rfl⟩, fun i =>
    ⟨i.cfgValid, i.txBound, i.rxBound, i.txLegal, i.noInterrupt, i.memWf, i.targetMemWf⟩⟩, id⟩

theorem brings_note {s : State} (f : Work → Work) : Brings s (note f s) := (plain_note f).brings

theorem safe_speedSet (speed : Word) (s : State) :
    Safe (speedSet speed s) fun _ t => Brings s t := by
  unfold speedSet
  split
  · exact safe_done Brings.refl
  · refine safe_andThen (safe_regRead .ctrl s) fun v s1 ⟨p1, hv⟩ => ?_
    dsimp only
    have hrst : (masterOff v).getLsbD bitRST = false ∨
        ¬ runs (note (fun w => { w with menSaved := some (v.bit bitMEN) }) s1) := by
      have : v = .exact (s1.ctrl.setWidth 32) := hv
      rw [this, rst_masterOff]
      unfold runs
      simp only [note_ctrl]
      cases s1.ctrl.getLsbD bitRST <;> simp
    refine safe_andThen (safe_regWrite_brings .ctrl (masterOff v) _ (by simp) fun _ => hrst)
      fun _ s2 ⟨p2, _⟩ => ?_
    have p2 : Brings s s2 := (p1.brings.trans (brings_note _)).trans p2
    split
    · exact safe_refused
    · have p2 : Brings s (note (fun w => { w with
          div := some (dividerSearch s2.cfg.clockSrc.toNat speed.toNat) }) s2) :=
        p2.trans (brings_note _)
      refine safe_andThen (safe_regWrite_brings .clkcfg _ _ (by simp) (by simp))
        fun _ s3 ⟨p3, _⟩ => ?_
      refine safe_andThen (safe_regRead .cfg1 s3) fun v2 s4 ⟨p4, _⟩ => ?_
      refine safe_andThen (safe_regWrite_brings .cfg1 _ _ (by simp) (by simp))
        fun _ s5 ⟨p5, _⟩ => ?_
      refine safe_andThen (safe_restoreMaster _ s5) fun _ s6 p6 => ?_
      refine safe_done (((((p2.trans p3).trans p4.brings).trans p5).trans p6).trans ?_)
      exact brings_update s6.work s6.phase s6.bracket s6.inited speed id

theorem reinited_grows {s t : State} (h : reinited s) (g : ∃ l, t.trace = l ++ s.trace) :
    reinited t := by
  obtain ⟨l, e⟩ := g
  unfold reinited
  rw [e]
  exact List.mem_append_right _ h

/-- INIT ends with the controller out of reset. -/
theorem safe_initBlock (speed : Word) (s : State) :
    Safe (initBlock speed s) fun _ t => Sound everywhere s t ∧ runs t ∧ reinited t := by
  unfold initBlock
  refine safe_andThen (safe_regWrite .ctrl ctrlResetWord s (by simp)) fun _ s1 p1 => ?_
  refine safe_andThen (safe_regWrite .ctrl ctrlReleaseWord { s1 with bracket := false } (by simp))
    fun _ s2 p2 => ?_
  have p2' : Sound everywhere s s2 :=
    (p1.1.trans (brings_update s1.work s1.phase false s1.inited s1.handle.rate id).sound).trans p2.1
  have r2 : runs s2 := by unfold runs; rw [p2.2.2.2.1 rfl]; decide
  have m2 : reinited s2 := reinited_grows p1.2.2.2.2.2.2.2 p2.1.grows
  refine safe_andThen (safe_regWrite_brings .ctrl ctrlModeWord s2 (by simp)
    (fun _ => .inl (by decide))) fun _ s3 ⟨p3, _⟩ => ?_
  refine safe_andThen (safe_regRead .cfg0 s3) fun v4 s4 ⟨p4, _⟩ => ?_
  refine safe_andThen (safe_regWrite_brings .cfg0 _ s4 (by simp) (by simp)) fun _ s5 ⟨p5, _⟩ => ?_
  refine safe_andThen (safe_regRead .cfg1 s5) fun v6 s6 ⟨p6, _⟩ => ?_
  refine safe_andThen (safe_regWrite_brings .cfg1 _ s6 (by simp) (by simp)) fun _ s7 ⟨p7, _⟩ => ?_
  refine safe_andThen (safe_speedSet speed s7) fun r s8 p8 => ?_
  refine safe_andThen (safe_regRead .ctrl s8) fun v9 s9 ⟨p9, hv⟩ => ?_
  have b9 : Brings s2 s9 :=
    (((((p3.trans p4.brings).trans p5).trans p6.brings).trans p7).trans p8).trans p9.brings
  refine safe_andThen (safe_regWrite_brings .ctrl (masterOn v9) s9 (by simp) fun _ => .inl ?_)
    fun _ s10 ⟨p10, _⟩ => ?_
  · have : v9 = .exact (s9.ctrl.setWidth 32) := hv
    rw [this, rst_masterOn]
    exact b9.runs r2
  · have b10 := b9.trans p10
    refine safe_done ?_
    unfold initOutcome
    have b11 : ∀ (p : Phase) (i : Bool), (s10.inited = true → i = true) →
        Brings s2 { s10 with phase := p, inited := i } := fun p i hi =>
      b10.trans (brings_update s10.work p s10.bracket i s10.handle.rate hi)
    split
    · have b := b11 .initialized true (fun _ => rfl)
      exact ⟨p2'.trans b.sound, b.runs r2, reinited_grows m2 b.sound.grows⟩
    · have b := b11 .idle s10.inited id
      exact ⟨p2'.trans b.sound, b.runs r2, reinited_grows m2 b.sound.grows⟩

/-! ### START and STOP -/

/-- The configuration, but for `CFG1.AUTOSTOP`. -/
structure Quiet (s t : State) : Prop where
  ctrl : t.ctrl = s.ctrl
  handle : t.handle = s.handle
  inited : t.inited = s.inited
  cfg0 : t.cfg0 = s.cfg0
  cfg1 : startCfg1 t.cfg1 = startCfg1 s.cfg1
  clkcfg : t.clkcfg = s.clkcfg
  mier : t.mier = s.mier

theorem Quiet.trans {s t u : State} (a : Quiet s t) (b : Quiet t u) : Quiet s u :=
  ⟨b.ctrl.trans a.ctrl, b.handle.trans a.handle, b.inited.trans a.inited, b.cfg0.trans a.cfg0,
    b.cfg1.trans a.cfg1, b.clkcfg.trans a.clkcfg, b.mier.trans a.mier⟩

/-- What START and everything built on it keeps. -/
structure Kindly (O : Nat → Prop) (s t : State) : Prop where
  sound : Sound O s t
  runs : runs s → runs t
  quiet : ¬ reinited t → Quiet s t

theorem Kindly.refl {O : Nat → Prop} {s : State} : Kindly O s s :=
  ⟨Sound.refl, id, fun _ => ⟨rfl, rfl, rfl, rfl, rfl, rfl, rfl⟩⟩

theorem not_reinited {s t : State} (h : ¬ reinited t) (g : ∃ l, t.trace = l ++ s.trace) :
    ¬ reinited s := by
  obtain ⟨l, e⟩ := g
  intro k
  apply h
  unfold reinited
  rw [e]
  exact List.mem_append_right _ k

theorem Kindly.trans {O : Nat → Prop} {s t u : State} (a : Kindly O s t) (b : Kindly O t u) :
    Kindly O s u := ⟨a.sound.trans b.sound, fun h => b.runs (a.runs h),
      fun h => (a.quiet (not_reinited h b.sound.grows)).trans (b.quiet h)⟩

theorem Kindly.mono {O P : Nat → Prop} {s t : State} (h : ∀ a, P a → O a) (k : Kindly O s t) :
    Kindly P s t := ⟨k.sound.mono h, k.runs, k.quiet⟩

theorem Kindly.any {O : Nat → Prop} {s t : State} (k : Kindly everywhere s t) : Kindly O s t :=
  k.mono fun _ _ => trivial

theorem Plain.kindly {O : Nat → Prop} {s t : State} (p : Plain O s t) : Kindly O s t :=
  ⟨p.toSound, p.runs,
    fun _ => ⟨p.ctrl, p.handle, p.initedSame, p.cfg0, by rw [p.cfg1], p.clkcfg, p.mier⟩⟩

theorem kindly_note {O : Nat → Prop} {s : State} (f : Work → Work) : Kindly O s (note f s) :=
  (plain_note f).kindly

/-- The write of `CFG1` in START. -/
theorem safe_regWrite_autostop (w : Word) {s : State} (h : w = s.cfg1) :
    Safe (regWrite .cfg1 (w &&& ~~~autostopMask) s) fun _ t => Kindly everywhere s t := by
  have hs : startCfg1 (startCfg1 w) = startCfg1 s.cfg1 := by
    rw [h]; unfold startCfg1; rw [BitVec.and_assoc, BitVec.and_self]
  refine safe_afterGap fun u pu => ?_
  unfold memWrite
  split
  · rename_i q hq
    cases regAccess_reaches hq
    unfold storeReg
    dsimp only
    split
    · exact safe_done ((pu.trans (plain_logged _)).kindly)
    · refine safe_done (Kindly.trans ⟨?_, ?_, fun _ => ?_⟩ (plain_logged _).kindly)
      · exact pu.toSound.trans ⟨rfl, rfl, rfl, rfl, rfl, id, fun _ _ => rfl, ⟨[], rfl⟩, fun i =>
          ⟨i.cfgValid, i.txBound, i.rxBound, i.txLegal, i.noInterrupt, i.memWf, i.targetMemWf⟩⟩
      · exact pu.runs
      · exact ⟨pu.ctrl, pu.handle, pu.initedSame, pu.cfg0, hs, pu.clkcfg, pu.mier⟩
  · exact safe_refused

theorem safe_checkStuck (s : State) : Safe (checkStuck s) fun _ t => Plain everywhere s t := by
  refine safe_andThen (safe_regRead .status s) fun v s1 ⟨p1, _⟩ => ?_
  exact safe_done (p1.trans (plain_note _))

theorem safe_recoverBus (s : State) : Safe (recoverBus s) fun _ t => Kindly everywhere s t := by
  refine safe_andThen (safe_checkStuck s) fun b s1 p1 => ?_
  split
  · refine safe_andThen (safe_initBlock _ s1) fun _ s2 ⟨p2, r2, m2⟩ => ?_
    exact safe_mono (safe_checkStuck s2) fun _ t p3 =>
      ⟨(p1.toSound.trans p2).trans p3.toSound, fun _ => p3.runs r2,
        fun h => absurd (reinited_grows m2 p3.grows) h⟩
  · exact safe_done p1.kindly

theorem safe_raise_plain {s : State} (c : Code) {O : State → Prop}
    (h : ∀ t, Plain everywhere s t → O t) : Safe (raiseError c s) fun _ t => O t :=
  safe_mono (plain_raise (O := everywhere) c) fun _ t k => h t k.2

theorem safe_queueStart (a : BitVec 7) (d : Dir) {s : State} (hr : runs s) :
    Safe (queueStart a d s) fun _ t => Kindly everywhere s t := by
  refine safe_andThen (safe_regWrite .status clearAll s (by simp)) fun _ s1 h1 => ?_
  have p1 : Plain everywhere s s1 := h1.2.2.2.2.1 (.inl rfl)
  refine safe_andThen (safe_regRead .cfg1 s1) fun v s2 ⟨p2, hv⟩ => ?_
  have hw : v.word = s2.cfg1 := by
    have : v = .exact s2.cfg1 := hv
    rw [this, RdWord.exact_word]
  refine safe_andThen (safe_regWrite_autostop v.word hw) fun _ s3 p3 => ?_
  have b3 : Kindly everywhere s s3 := (p1.trans p2).kindly.trans p3
  refine safe_andThen (safe_waitTxSpace (b3.runs hr)) fun e s4 p4 => ?_
  have b4 := b3.trans p4.kindly
  split
  · exact safe_raise_plain e fun t p => b4.trans p.kindly
  · refine safe_andThen (safe_regWrite .txcmd (startWord a d) s4
      (fun _ => entryLegal_of_cmd (.start a d))) fun _ s5 h5 => ?_
    have p5 : Plain everywhere s4 s5 := h5.2.2.2.2.1 (.inr rfl)
    exact safe_done ((b4.trans p5.kindly).trans
      (plain_update s5.work .start s5.result true s5.draws s5.timer s5.ticks).kindly)

theorem safe_start (a : BitVec 7) (d : Dir) {s : State} (hr : runs s) :
    Safe (start a d s) fun _ t => Kindly everywhere s t := by
  refine safe_andThen (safe_recoverBus s) fun b s1 p1 => ?_
  split
  · exact safe_raise_plain _ fun t p => p1.trans p.kindly
  · exact safe_mono (safe_queueStart a d (p1.runs hr)) fun _ t p => p1.trans p

theorem safe_stopSeen (e : Code) (s : State) :
    Safe (stopSeen e s) fun _ t => Plain everywhere s t := by
  refine safe_andThen (safe_regWrite .status sdfMask s (by simp)) fun _ s1 h1 => ?_
  have p1 : Plain everywhere s s1 := h1.2.2.2.2.1 (.inl rfl)
  split
  · exact safe_done (p1.trans
      (plain_update s1.work .idle s1.result s1.bracket s1.draws s1.timer s1.ticks))
  · exact safe_raise_plain e fun t p => p1.trans p

theorem safe_stopDecode {s : State} (hr : runs s) :
    Safe (stopDecode s) fun _ t => Plain everywhere s t := by
  unfold stopDecode
  split
  · exact safe_checkClearError hr
  · exact safe_done Plain.refl

theorem safe_stopWaitLoop (fuel : Nat) : ∀ (t0 : Nat) {s : State}, runs s →
    Safe (stopWaitLoop fuel t0 s) fun _ t => Plain everywhere s t := by
  induction fuel with
  | zero => intro t0 s _; exact safe_fault
  | succ n ih =>
    intro t0 s hr
    unfold stopWaitLoop
    refine safe_andThen (safe_regRead .status s) fun f s1 ⟨p1, _⟩ => ?_
    have p1 := p1.trans (plain_note fun w => { w with s := some f.word })
    refine safe_andThen (safe_stopDecode (p1.runs hr)) fun e s2 p2 => ?_
    have p2 := p1.trans p2
    split
    · exact safe_mono (safe_stopSeen e s2) fun _ t p => p2.trans p
    · refine safe_andThen (safe_now s2) fun t s3 p3 => ?_
      have p3 := p2.trans p3
      split
      · exact safe_raise_plain _ fun t p => p3.trans p
      · exact safe_mono (ih t0 (p3.runs hr)) fun _ t p4 => p3.trans p4

theorem safe_stop {s : State} (hr : runs s) : Safe (stop s) fun _ t => Plain everywhere s t := by
  have p0 : Plain everywhere s { s with phase := .stop, bracket := false } :=
    plain_update s.work .stop s.result false s.draws s.timer s.ticks
  refine safe_andThen (safe_waitTxSpace (p0.runs hr)) fun e s1 p1 => ?_
  have p1 := p0.trans p1
  split
  · exact safe_raise_plain _ fun t p => p1.trans p
  · refine safe_andThen (safe_regWrite .txcmd stopWord s1 (fun _ => entryLegal_of_cmd .stop))
      fun _ s2 h2 => ?_
    have p2 : Plain everywhere s s2 := p1.trans (h2.2.2.2.2.1 (.inr rfl))
    refine safe_andThen (safe_now s2) fun t0 s3 p3 => ?_
    have p3 := (p2.trans p3).trans (plain_note fun w => { w with t0 := some t0 })
    exact safe_mono (safe_stopWaitLoop _ _ (p3.runs hr)) fun _ t p => p3.trans p

/-! ### SEND and RECEIVE -/

theorem safe_sendLoop (src : ByteSrc) (n : Nat) : ∀ (i : Nat) {s : State}, runs s →
    Safe (sendLoop src i n s) fun _ t => Plain everywhere s t := by
  induction n with
  | zero => intro i s _; exact safe_done Plain.refl
  | succ n ih =>
    intro i s hr
    have p0 : Plain everywhere s (note (fun w => { w with i := some i }) s) := plain_note _
    refine safe_andThen (safe_waitTxSpace (p0.runs hr)) fun e s1 p1 => ?_
    have p1 := p0.trans p1
    split
    · exact safe_raise_plain _ fun t p => p1.trans p
    · refine safe_andThen (safe_regWrite .txcmd (dataWord (srcByte src i s1)) s1
        (fun _ => entryLegal_of_cmd (.txdata _))) fun _ s2 h2 => ?_
      have p2 : Plain everywhere s s2 := p1.trans (h2.2.2.2.2.1 (.inr rfl))
      exact safe_mono (ih (i + 1) (p2.runs hr)) fun _ t p => p2.trans p

theorem safe_send (src : ByteSrc) {s : State} (hr : runs s) :
    Safe (send src s) fun _ t => Plain everywhere s t := by
  have p0 : Plain everywhere s { s with phase := .transferring } :=
    plain_update s.work .transferring s.result s.bracket s.draws s.timer s.ticks
  exact safe_mono (safe_sendLoop src _ 0 (p0.runs hr)) fun _ t p => p0.trans p

theorem safe_rxPoll (fuel : Nat) : ∀ (t0 : Nat) {s : State}, runs s →
    Safe (rxPoll fuel t0 s) fun _ t => Plain everywhere s t := by
  induction fuel with
  | zero => intro t0 s _; exact safe_fault
  | succ n ih =>
    intro t0 s hr
    unfold rxPoll
    refine safe_andThen (safe_checkClearError hr) fun e s1 p1 => ?_
    dsimp only
    split
    · exact safe_andThen (safe_raise_plain _ fun t p => p1.trans p) fun _ t p => safe_done p
    · refine safe_andThen (safe_now s1) fun t s2 p2 => ?_
      have p2 := p1.trans p2
      split
      · exact safe_andThen (safe_raise_plain _ fun t p => p2.trans p) fun _ t p => safe_done p
      · refine safe_andThen (safe_regRead .rxdata s2) fun v s3 ⟨p3, _⟩ => ?_
        have p3 := (p2.trans p3).trans (plain_note fun w => { w with v := some v.word })
        split
        · exact safe_mono (ih t0 (p3.runs hr)) fun _ t p4 => p3.trans p4
        · exact safe_done p3

/-- The host addresses outside bytes `i` to `i + n - 1` of where a read message's bytes go. -/
def beyond (dst : ByteDst) (i n : Nat) (a : Nat) : Prop :=
  match dst with
  | .host addr => ∀ j, i ≤ j → j < i + n → a ≠ hostAddr addr j
  | .reg => True

theorem plain_putReceived (dst : ByteDst) (i n : Nat) (b : Byte) (s : State) (h : n ≠ 0) :
    Plain (beyond dst i n) s (putReceived dst i b s) := by
  cases dst with
  | host addr =>
    refine ⟨⟨rfl, rfl, rfl, rfl, rfl, id, fun a ha => ?_, ⟨[], rfl⟩, fun k => ⟨k.cfgValid, k.txBound, k.rxBound,
      k.txLegal, k.noInterrupt, Memory.wf_write _ _ _ k.memWf, k.targetMemWf⟩⟩, rfl, rfl, rfl, rfl,
      rfl, rfl, rfl⟩
    exact Memory.read_write_other _ _ _ _ (ha i (le_refl i) (by omega))
  | reg => exact plain_note fun w => { w with b := some b }

theorem safe_rxLoop (dst : ByteDst) (t0 n : Nat) : ∀ (i : Nat) {s : State}, runs s →
    Safe (rxLoop dst t0 i n s) fun _ t => Plain (beyond dst i n) s t := by
  induction n with
  | zero => intro i s _; exact safe_done Plain.refl
  | succ n ih =>
    intro i s hr
    have p0 : Plain everywhere s (note (fun w => { w with i := some i }) s) := plain_note _
    refine safe_andThen (safe_rxPoll _ _ (p0.runs hr)) fun p s1 p1 => ?_
    have p1 := p0.trans p1
    split
    · exact safe_done p1.any
    · rename_i b
      have p2 : Plain (beyond dst i (n + 1)) s (putReceived dst i b s1) :=
        p1.any.trans (plain_putReceived dst i (n + 1) b s1 (by omega))
      refine safe_mono (ih (i + 1) (p2.runs hr)) fun _ t p3 => p2.trans (p3.mono fun a ha => ?_)
      cases dst with
      | host addr => exact fun j h1 h2 => ha j (by omega) (by omega)
      | reg => trivial

theorem safe_receive (dst : ByteDst) (len : Nat) {s : State} (hr : runs s) :
    Safe (receive dst len s) fun _ t => Plain (beyond dst 0 len) s t := by
  unfold receive
  split
  · exact safe_done Plain.refl
  · split
    · exact safe_refused
    · have p0 : Plain everywhere s { s with phase := .transferring } :=
        plain_update s.work .transferring s.result s.bracket s.draws s.timer s.ticks
      refine safe_andThen (safe_now _) fun t0 s1 p1 => ?_
      have p1 := p0.trans p1
      refine safe_andThen (safe_waitTxSpace (p1.runs hr)) fun e s2 p2 => ?_
      have p2 := p1.trans p2
      split
      · exact safe_raise_plain _ fun t p => (p2.trans p).any
      · have p2 := p2.trans (plain_note fun w => { w with t0 := some t0 })
        have hclear : Safe (rxClear (note (fun w => { w with t0 := some t0 }) s2)) fun _ t =>
            Plain everywhere s t := by
          unfold rxClear
          split
          · exact safe_mono (safe_regWrite .status clearAll _ (by simp)) fun _ t h =>
              p2.trans (h.2.2.2.2.1 (.inl rfl))
          · exact safe_done p2
        refine safe_andThen hclear fun _ s3 p3 => ?_
        refine safe_andThen (safe_regWrite .txcmd (receiveWord len) s3
          (fun _ => entryLegal_of_cmd (.receive _))) fun _ s4 h4 => ?_
        have p4 : Plain everywhere s s4 := p3.trans (h4.2.2.2.2.1 (.inr rfl))
        exact safe_mono (safe_rxLoop dst t0 len 0 (p4.runs hr)) fun _ t p => p4.any.trans p

/-! ### The layers above -/

theorem safe_runMsg (m : BusMsg) {s : State} (hr : runs s) :
    Safe (runMsg m s) fun _ t => Kindly (outsideMsg m) s t := by
  cases m with
  | write a src =>
    unfold runMsg
    refine safe_andThen (safe_start a .write hr) fun r s1 b1 => ?_
    split
    · exact safe_mono (safe_send src (b1.runs hr)) fun _ t p => (b1.trans p.kindly).any
    · exact safe_done b1.any
  | read a len dst =>
    unfold runMsg
    refine safe_andThen (safe_start a .read hr) fun r s1 b1 => ?_
    split
    · refine safe_mono (safe_receive dst len (b1.runs hr)) fun _ t p =>
        b1.any.trans (p.mono fun x hx => ?_).kindly
      cases dst with
      | host addr => exact fun j _ h => hx j (by omega)
      | reg => trivial
    · exact safe_done b1.any

theorem safe_transferLoop (ms : List BusMsg) : ∀ (k : Nat) (ret : Code) {s : State}, runs s →
    Safe (transferLoop k ms ret s) fun _ t => Kindly (fun a => ∀ m ∈ ms, outsideMsg m a) s t := by
  induction ms with
  | nil => intro k ret s _; exact safe_done Kindly.refl
  | cons m rest ih =>
    intro k ret s hr
    have p0 : Plain everywhere s (note (fun w => { w with k := some k }) s) := plain_note _
    refine safe_andThen (safe_runMsg m (p0.runs hr)) fun r s1 b1 => ?_
    have b1 : Kindly (fun a => ∀ n ∈ m :: rest, outsideMsg n a) s s1 :=
      p0.any.kindly.trans (b1.mono fun a h => h m (by simp))
    dsimp only
    have b2 := b1.trans (kindly_note
      (fun w => { w with r := some r, ret := some (firstError ret r) }))
    split
    · exact safe_done b2
    · exact safe_mono (ih (k + 1) _ (b2.runs hr)) fun _ t p =>
        b2.trans (p.mono fun a h n hn => h n (List.mem_cons_of_mem _ hn))

theorem safe_transfer (ms : List BusMsg) {s : State} (hr : runs s) :
    Safe (transfer ms s) fun _ t => Kindly (fun a => ∀ m ∈ ms, outsideMsg m a) s t := by
  have p0 : Plain everywhere s (note (fun w => { w with ret := some .ok, msgs := some ms }) s) :=
    plain_note _
  refine safe_andThen (safe_transferLoop ms 0 .ok (p0.runs hr)) fun ret s1 b1 => ?_
  have b1 := p0.any.kindly.trans b1
  refine safe_andThen (safe_stop (b1.runs hr)) fun rs s2 p2 => ?_
  exact safe_done ((b1.trans p2.any.kindly).trans (kindly_note _))

theorem plain_setupOffset {O : Nat → Prop} (c : Chip) (o : Word) (s : State) :
    Plain O s (setupOffset c o s) := plain_note _

theorem plain_fillStage {O : Nat → Prop} (c : Chip) (o : Word) (p : List Byte) (s : State) :
    Plain O s (fillStage c o p s) := (plain_setupOffset c o s).trans (plain_note _)

theorem outside_readMsgs {c : Chip} {o : Word} {dst : ByteDst} {len : Nat} {a : Nat}
    (h : beyond dst 0 len a) : ∀ m ∈ readMsgs c o dst len, outsideMsg m a := by
  intro m hm
  rcases mem_readMsgs hm with rfl | ⟨-, rfl⟩
  · trivial
  · cases dst with
    | host addr => exact fun j hj => h j (by omega) (by omega)
    | reg => trivial

theorem safe_readBytewise (c : Chip) (o : Word) (dst : ByteDst) (n : Nat) :
    ∀ (i : Nat) {s : State}, runs s →
    Safe (readBytewise c o dst i n s) fun _ t => Kindly (beyond dst i n) s t := by
  induction n with
  | zero => intro i s _; exact safe_done Kindly.refl
  | succ n ih =>
    intro i s hr
    have p0 : Plain everywhere s
        (setupOffset c (offsetPlus o i) (note (fun w => { w with i := some i }) s)) :=
      (plain_note _).trans (plain_note _)
    unfold readBytewise
    dsimp only
    split
    · exact safe_done p0.any.kindly
    · refine safe_andThen (safe_transfer _ (p0.runs hr)) fun r s1 b1 => ?_
      have b1 : Kindly (beyond dst i (n + 1)) s s1 := by
        refine p0.any.kindly.trans (b1.mono fun a ha m hm => ?_)
        rcases List.mem_cons.1 hm with rfl | hm
        · trivial
        · rw [List.mem_singleton.1 hm]
          cases dst with
          | host addr =>
            intro j hj
            have : j = 0 := by omega
            subst this
            rw [hostAddr_offset]
            exact ha i (le_refl i) (by omega)
          | reg => trivial
      split
      · exact safe_done b1
      · refine safe_mono (ih (i + 1) (b1.runs hr)) fun _ t p => b1.trans (p.mono fun a ha => ?_)
        cases dst with
        | host addr => exact fun j h1 h2 => ha j (by omega) (by omega)
        | reg => trivial

theorem safe_chipRead (c : Chip) (o : Word) (dst : ByteDst) (len : Nat) {s : State} (hr : runs s) :
    Safe (chipRead c o dst len s) fun _ t => Kindly (beyond dst 0 len) s t := by
  unfold chipRead
  split
  · exact safe_readBytewise c o dst len 0 hr
  · split
    · exact safe_refused
    · have p0 : Plain everywhere s (setupOffset c o s) := plain_note _
      exact safe_mono (safe_transfer _ (p0.runs hr)) fun _ t b =>
        p0.any.kindly.trans (b.mono fun a ha => outside_readMsgs ha)

theorem outside_write {c : Chip} {o : Word} {p : List Byte} {a : Nat} :
    ∀ m ∈ [writeMsg c o p], outsideMsg m a := by
  intro m hm; rw [List.mem_singleton.1 hm]; trivial

theorem safe_writeBytewise (c : Chip) (o buf : Word) (n : Nat) : ∀ (i : Nat) {s : State}, runs s →
    Safe (writeBytewise c o buf i n s) fun _ t => Kindly everywhere s t := by
  induction n with
  | zero => intro i s _; exact safe_done Kindly.refl
  | succ n ih =>
    intro i s hr
    have p0 : Plain everywhere s
        (setupOffset c (offsetPlus o i) (note (fun w => { w with i := some i }) s)) :=
      (plain_note _).trans (plain_note _)
    unfold writeBytewise
    dsimp only
    split
    · exact safe_done p0.kindly
    · have p1 := p0.trans (plain_fillStage c (offsetPlus o i)
        [s.mem.read (hostAddr buf i)] _)
      refine safe_andThen (safe_transfer _ (p1.runs hr)) fun r s1 b1 => ?_
      have b1 : Kindly everywhere s s1 := p1.kindly.trans (b1.mono fun a _ => outside_write)
      split
      · exact safe_done b1
      · exact safe_mono (ih (i + 1) (b1.runs hr)) fun _ t p => b1.trans p

theorem safe_chipWrite (c : Chip) (o buf : Word) (len : Nat) {s : State} (hr : runs s) :
    Safe (chipWrite c o buf len s) fun _ t => Kindly everywhere s t := by
  unfold chipWrite
  split
  · exact safe_refused
  · split
    · exact safe_writeBytewise c o buf len 0 hr
    · have p0 : Plain everywhere s (fillStage c o (payloadOf buf len s) s) :=
        plain_fillStage c o _ s
      exact safe_mono (safe_transfer _ (p0.runs hr)) fun _ t b =>
        p0.kindly.trans (b.mono fun a _ => outside_write)

theorem safe_crcLoop (c : Chip) (start expected : Word) (n : Nat) : ∀ (j : Nat) (crc : Word)
    {s : State}, runs s →
    Safe (crcLoop c start expected j n crc s) fun _ t => Kindly everywhere s t := by
  induction n with
  | zero => intro j crc s _; exact safe_done Kindly.refl
  | succ n ih =>
    intro j crc s hr
    have p0 : Plain everywhere s (note (fun w => { w with j := some j, crc := some crc }) s) :=
      plain_note _
    unfold crcLoop
    refine safe_andThen (safe_chipRead c _ .reg 1 (p0.runs hr)) fun r s1 b1 => ?_
    have b1 : Kindly everywhere s s1 := p0.kindly.trans (b1.mono fun _ _ => trivial)
    split
    · exact safe_done b1
    · split
      · exact safe_mono (ih (j + 1) _ (b1.runs hr)) fun _ t p => b1.trans p
      · exact safe_fault

end Sys2Proof.Machine
end

