-- ==== Sys2Proof/Laws/PerInstr.lean ====
section
/-! SUPPORT. Statements made for every instruction, one lemma per constructor. The family `TableRow`: the
first word of an instruction's encoding carries the fixed bits its row of spec/opcode_table.json gives
it (R104, R116). -/

namespace Sys2Proof.Laws

/-- The table bits of an encoding: its first byte for a request, its two bytes for a command word. -/
def tableBitsOf (i : Instr) : Nat :=
  match i.space, encode i with
  | .request, b :: _ => b.toNat
  | .command, b0 :: b1 :: _ => (b1 ++ b0).toNat
  | _, _ => 0

/-- The fixed bits of an instruction's row: mask and value (the columns `mask` and `match`). -/
def tableRow (i : Instr) : Nat × Nat :=
  match i with
  | .init _ => (0x1F, 0x00)
  | .speedSet _ => (0x1F, 0x01)
  | .start _ _ => (0x1F, 0x02)
  | .stop => (0x1F, 0x03)
  | .send _ _ => (0x1F, 0x04)
  | .receive _ _ => (0x1F, 0x05)
  | .transfer _ => (0x1F, 0x06)
  | .chipRead _ _ _ _ => (0x1F, 0x07)
  | .chipWrite _ _ _ _ => (0x1F, 0x08)
  | .crc32Region _ _ _ _ => (0x1F, 0x09)
  | .validateMagic _ _ => (0x1F, 0x0A)
  | .waitTxSpace => (0x1F, 0x10)
  | .checkClearError => (0x1F, 0x11)
  | .checkStuck => (0x1F, 0x12)
  | .setupOffset _ _ => (0x1F, 0x13)
  | .crc32Update _ _ => (0x1F, 0x14)
  | .cmdTxdata _ => (0x700, 0x000)
  | .cmdReceive _ => (0x700, 0x100)
  | .cmdStop => (0x7FF, 0x200)
  | .cmdStart _ _ => (0x700, 0x400)

/-- The encoding carries the fixed bits of its row, and no bit above the row's width. -/
def TableRow.Statement (i : Instr) : Prop :=
  tableBitsOf i &&& (tableRow i).1 = (tableRow i).2 ∧
    tableBitsOf i < (match i.space with | .request => 2 ^ 5 | .command => 2 ^ 11)

/-- A request's row is that of its opcode byte. -/
theorem tableRow_request {i : Instr} {b : Byte} {r : List Byte} {v : Nat} (hs : i.space = .request)
    (he : encode i = b :: r) (hr : tableRow i = (0x1F, v))
    (h : b.toNat &&& 0x1F = v ∧ b.toNat < 2 ^ 5) : TableRow.Statement i := by
  unfold TableRow.Statement tableBitsOf
  rw [hs, he, hr]
  exact h

theorem TableRow.init (speed : Word) : TableRow.Statement (.init speed) :=
  tableRow_request rfl rfl rfl (by decide)
theorem TableRow.speedSet (speed : Word) : TableRow.Statement (.speedSet speed) :=
  tableRow_request rfl rfl rfl (by decide)
theorem TableRow.start (addr : BitVec 7) (dir : Dir) : TableRow.Statement (.start addr dir) :=
  tableRow_request rfl rfl rfl (by decide)
theorem TableRow.stop : TableRow.Statement .stop :=
  tableRow_request rfl rfl rfl (by decide)
theorem TableRow.send (buf len : Word) : TableRow.Statement (.send buf len) :=
  tableRow_request rfl rfl rfl (by decide)
theorem TableRow.receive (buf len : Word) : TableRow.Statement (.receive buf len) :=
  tableRow_request rfl rfl rfl (by decide)
theorem TableRow.transfer (msgs : List Msg) : TableRow.Statement (.transfer msgs) :=
  tableRow_request rfl rfl rfl (by decide)
theorem TableRow.chipRead (chip : Chip) (offset buf len : Word) :
    TableRow.Statement (.chipRead chip offset buf len) :=
  tableRow_request rfl rfl rfl (by decide)
theorem TableRow.chipWrite (chip : Chip) (offset buf len : Word) :
    TableRow.Statement (.chipWrite chip offset buf len) :=
  tableRow_request rfl rfl rfl (by decide)
theorem TableRow.crc32Region (chip : Chip) (start length expected : Word) :
    TableRow.Statement (.crc32Region chip start length expected) :=
  tableRow_request rfl rfl rfl (by decide)
theorem TableRow.validateMagic (m0 m1 : Byte) : TableRow.Statement (.validateMagic m0 m1) :=
  tableRow_request rfl rfl rfl (by decide)
theorem TableRow.waitTxSpace : TableRow.Statement .waitTxSpace :=
  tableRow_request rfl rfl rfl (by decide)
theorem TableRow.checkClearError : TableRow.Statement .checkClearError :=
  tableRow_request rfl rfl rfl (by decide)
theorem TableRow.checkStuck : TableRow.Statement .checkStuck :=
  tableRow_request rfl rfl rfl (by decide)
theorem TableRow.setupOffset (chip : Chip) (offset : Word) :
    TableRow.Statement (.setupOffset chip offset) :=
  tableRow_request rfl rfl rfl (by decide)
theorem TableRow.crc32Update (crc : Word) (b : Byte) : TableRow.Statement (.crc32Update crc b) :=
  tableRow_request rfl rfl rfl (by decide)
theorem TableRow.cmdTxdata (data : Byte) : TableRow.Statement (.cmdTxdata data) := by
  unfold TableRow.Statement; revert data; decide +kernel
theorem TableRow.cmdReceive (count : Byte) : TableRow.Statement (.cmdReceive count) := by
  unfold TableRow.Statement; revert count; decide +kernel
theorem TableRow.cmdStop : TableRow.Statement .cmdStop := by
  unfold TableRow.Statement; decide +kernel
theorem TableRow.cmdStart (addr : BitVec 7) (dir : Dir) : TableRow.Statement (.cmdStart addr dir) := by
  unfold TableRow.Statement; cases dir <;> (revert addr; decide +kernel)

end Sys2Proof.Laws
end

