-- ==== Sys2Proof/Laws/Prims.lean ====
section
/-! SUPPORT. Which primitives the bring-up operations make, in order, whatever the environment does:
one access per register operation, with its word for SPEED_SET; INIT's sequence, and the recovery of
START on a bus that stays stuck. -/

namespace Sys2Proof.Machine

/-- The primitives done between two states, in order; the parameters stay. -/
structure Ran (ps : List Prim) (s t : State) : Prop where
  prims : kinds t = ps.reverse ++ kinds s
  cfg : t.cfg = s.cfg

theorem Ran.refl {s : State} : Ran [] s s := ⟨rfl, rfl⟩

theorem Ran.trans {ps qs : List Prim} {s t u : State} (a : Ran ps s t) (b : Ran qs t u) :
    Ran (ps ++ qs) s u :=
  ⟨by rw [b.prims, a.prims, List.reverse_append, List.append_assoc], b.cfg.trans a.cfg⟩

/-- An update that is no primitive. -/
theorem Ran.silent {s t : State} (h : t.trace = s.trace) (c : t.cfg = s.cfg) : Ran [] s t :=
  ⟨by unfold kinds; rw [h]; rfl, c⟩

theorem ran_note {s : State} (f : Work → Work) : Ran [] s (note f s) := .silent rfl rfl

theorem Safe.and {α : Type} {m : Run α} {P Q : α → State → Prop} (p : Safe m P) (q : Safe m Q) :
    Safe m fun a t => P a t ∧ Q a t := fun a t e => ⟨p a t e, q a t e⟩

/-! ### Register accesses -/

theorem safe_loadReg_trace (r : Reg) (s : State) :
    Safe (loadReg r s) fun _ t => t.trace = s.trace := by
  cases r with
  | clkcfg => exact safe_refused
  | txcmd => exact safe_refused
  | rxdata => unfold loadReg; dsimp only; split <;> exact safe_done rfl
  | ctrl => exact safe_done rfl
  | status => exact safe_done rfl
  | cfg0 => exact safe_done rfl
  | cfg1 => exact safe_done rfl
  | fifostat => exact safe_done rfl

theorem safe_storeReg_trace (r : Reg) (v : Word) (s : State) :
    Safe (storeReg r v s) fun _ t => t.trace = s.trace := by
  cases r with
  | ctrl => exact safe_done (writeCtrl_trace v s)
  | status => exact safe_done rfl
  | cfg0 => unfold storeReg; dsimp only; split <;> exact safe_done rfl
  | cfg1 => unfold storeReg; dsimp only; split <;> exact safe_done rfl
  | clkcfg => unfold storeReg; dsimp only; split <;> exact safe_done rfl
  | fifostat => exact safe_refused
  | rxdata => exact safe_refused
  | txcmd =>
    unfold storeReg
    dsimp only
    split
    · exact safe_done rfl
    · split
      · exact safe_done rfl
      · exact safe_refused

/-- The environment's turn is no primitive. -/
theorem trace_slot {s u : State} (e : envSlot s = .next u) : u.trace = s.trace := by
  rcases envSlot_spec s with ⟨w, hw, c⟩ | ⟨hr, -⟩
  · rw [e] at hw
    cases hw
    exact c.trace
  · rw [e] at hr; cases hr

/-- A register read records one access: the register and the word it showed. -/
theorem trace_regRead (r : Reg) (s : State) :
    Safe (regRead r s) fun v t => t.trace = .rd r v.shown :: s.trace := by
  unfold regRead afterGap
  cases e : envSlot s with
  | fault f => exact safe_fault
  | refused x => exact safe_refused
  | next u =>
    dsimp only
    unfold memRead
    split
    · rename_i q hq
      cases regAccess_reaches hq
      refine safe_andThen (safe_loadReg_trace r u) fun v t ht => safe_done ?_
      rw [logged_trace, ht, trace_slot e]
    · exact safe_refused

/-- A register write records one access: the register and the word. -/
theorem trace_regWrite (r : Reg) (v : Word) (s : State) :
    Safe (regWrite r v s) fun _ t => t.trace = .wr r v :: s.trace := by
  unfold regWrite afterGap
  cases e : envSlot s with
  | fault f => exact safe_fault
  | refused x => exact safe_refused
  | next u =>
    dsimp only
    unfold memWrite
    split
    · rename_i q hq
      cases regAccess_reaches hq
      refine safe_andThen (safe_storeReg_trace r v u) fun _ t ht => safe_done ?_
      rw [logged_trace, ht, trace_slot e]
    · exact safe_refused

/-- A register read is one primitive; it keeps `CTRL`, and shows it. -/
theorem ran_regRead (r : Reg) (s : State) :
    Safe (regRead r s) fun v t => Ran [.rd r] s t ∧ t.ctrl = s.ctrl ∧ readShows r v t :=
  safe_mono ((trace_regRead r s).and (safe_regRead r s)) fun _ t ⟨k, p, sh⟩ =>
    ⟨⟨by unfold kinds; rw [k]; rfl, p.cfg⟩, p.ctrl, sh⟩

/-- A register write is one primitive; it keeps `CTRL` unless it is the register written. -/
theorem ran_regWrite (r : Reg) (v : Word) (s : State) (hl : r ≠ .txcmd) :
    Safe (regWrite r v s) fun _ t =>
      Ran [.wr r] s t ∧ (r = .ctrl → t.ctrl = v.setWidth 4) ∧ (r ≠ .ctrl → t.ctrl = s.ctrl) :=
  safe_mono ((trace_regWrite r v s).and (safe_regWrite r v s fun h => absurd h hl)) fun _ t ⟨k, h⟩ =>
    ⟨⟨by unfold kinds; rw [k]; rfl, h.1.cfg⟩, h.2.2.2.1, h.2.2.2.2.2.1⟩

/-! ### SPEED_SET -/

theorem Ends.and_safe {α : Type} {m : Run α} {P Q : α → State → Prop} (p : Ends m P) (q : Safe m Q) :
    Ends m fun a t => P a t ∧ Q a t := by
  obtain ⟨a, t, e, h⟩ := p
  exact ⟨a, t, e, h, q a t e⟩

theorem shown_exact (w : Word) : (RdWord.exact w).shown = w := BitVec.and_allOnes

theorem masterOff_ctrl (c : BitVec 4) :
    ((c.setWidth 32 &&& ~~~menMask).setWidth 4).setWidth 32 = c.setWidth 32 &&& ~~~menMask := by
  revert c; decide

theorem masterOn_off (c : BitVec 4) (h : c.getLsbD bitMEN = true) :
    (c.setWidth 32 &&& ~~~menMask) ||| menMask = c.setWidth 32 := by
  revert c; decide

theorem men_exact (c : BitVec 4) : (RdWord.exact (c.setWidth 32)).bit bitMEN = c.getLsbD bitMEN := by
  simp [RdWord.bit, RdWord.exact, bitMEN]

/-- A SPEED_SET that finds a pair makes exactly these accesses, whatever the environment does (R143,
R149). -/
theorem trace_speedSet {s : State} (g : Good s) (speed : Word) (hc : s.cfg.clockSrc ≠ 0#32)
    (hd : (dividerSearch s.cfg.clockSrc.toNat speed.toNat).chosen = true) :
    Ends (speedSet speed s) fun _ t => t.trace =
      (speedAccesses s (dividerSearch s.cfg.clockSrc.toNat speed.toNat).bestP
        (dividerSearch s.cfg.clockSrc.toNat speed.toNat).bestC).reverse ++ s.trace := by
  unfold speedSet
  rw [if_neg hc]
  refine ends_andThen ((regRead_spec g.inv g.plat (r := .ctrl) (by simp [readable])).and_safe
    (trace_regRead .ctrl s)) fun v s1 ⟨⟨p1, _, hv⟩, tr1⟩ => ?_
  have hv : v = .exact (s.ctrl.setWidth 32) := by rw [← p1.ctrl]; exact hv
  subst hv
  have gn : Good (note (fun w => { w with menSaved := some _ }) s1) :=
    (polls_note (fun w => { w with
      menSaved := some ((RdWord.exact (s.ctrl.setWidth 32)).bit bitMEN) }) rfl).good (p1.good g)
  dsimp only
  refine ends_andThen ((regWrite_ctrl_spec gn.inv gn.plat (masterOff (.exact (s.ctrl.setWidth 32)))).and_safe
    (trace_regWrite .ctrl _ _)) fun _ s2 ⟨⟨k2, c2, _, _, _, _, _, _, r2⟩, tr2⟩ => ?_
  have hoff : masterOff (.exact (s.ctrl.setWidth 32)) = s.ctrl.setWidth 32 &&& ~~~menMask := by
    unfold masterOff; rw [RdWord.exact_word]
  have hrst : (masterOff (.exact (s.ctrl.setWidth 32))).getLsbD bitRST = false := by
    rw [rst_masterOff]; exact g.run
  obtain ⟨_, o2, _⟩ := r2 hrst
  rw [hoff] at c2 tr2
  have g2 : Good s2 := ⟨k2.coreInv gn.inv, k2.keeps.platform gn.plat, by
    rw [c2, ← hoff]; simpa [bitRST] using hrst⟩
  have hcfg2 : s2.cfg = s.cfg := k2.keeps.cfg.trans p1.cfg
  simp only [hcfg2, hd, Bool.not_true, Bool.false_eq_true, if_false]
  have gn2 : Good (note (fun w => { w with
      div := some (dividerSearch s.cfg.clockSrc.toNat speed.toNat) }) s2) :=
    (polls_note _ rfl).good g2
  refine ends_andThen ((regWrite_config_spec gn2 .clkcfg _ (by simp)).and_safe
    (trace_regWrite .clkcfg _ _)) fun _ s3 ⟨⟨k3, c3, _, _, _, _, _, _, _, o3, _⟩, tr3⟩ => ?_
  have g3 : Good s3 := ⟨k3.coreInv gn2.inv, k3.keeps.platform gn2.plat, by rw [c3]; exact g2.run⟩
  refine ends_andThen ((regRead_spec g3.inv g3.plat (r := .cfg1) (by simp [readable])).and_safe
    (trace_regRead .cfg1 s3)) fun v4 s4 ⟨⟨p4, _, hv4⟩, tr4⟩ => ?_
  have g4 := p4.good g3
  have hv4 : v4 = .exact s.cfg1 := by
    have h : v4 = .exact s4.cfg1 := hv4
    rw [h, p4.cfg1, o3, if_neg (by simp), note_cfg1, o2, note_cfg1, p1.cfg1]
  subst hv4
  rw [RdWord.exact_word]
  refine ends_andThen ((regWrite_config_spec g4 .cfg1 _ (by simp)).and_safe
    (trace_regWrite .cfg1 _ _)) fun _ s5 ⟨⟨k5, c5, _⟩, tr5⟩ => ?_
  have c5' : s5.ctrl = (s.ctrl.setWidth 32 &&& ~~~menMask).setWidth 4 := by
    rw [c5, p4.ctrl, c3, note_ctrl, c2]
  have g5 : Good s5 := ⟨k5.coreInv g4.inv, k5.keeps.platform g4.plat, by
    rw [c5]; exact g4.run⟩
  rw [shown_exact] at tr1 tr4
  have T : s5.trace = .wr .cfg1 (withPrescale s.cfg1
      (dividerSearch s.cfg.clockSrc.toNat speed.toNat).bestP) :: .rd .cfg1 s.cfg1 ::
      .wr .clkcfg (clkcfgWord (dividerSearch s.cfg.clockSrc.toNat speed.toNat).bestC) ::
      .wr .ctrl (s.ctrl.setWidth 32 &&& ~~~menMask) :: .rd .ctrl (s.ctrl.setWidth 32) :: s.trace := by
    rw [tr5, tr4, tr3, note_trace, tr2, note_trace, tr1]
  unfold speedAccesses restoreMaster
  rw [men_exact]
  by_cases hm : s.ctrl.getLsbD bitMEN = true
  · rw [if_pos hm, if_pos hm]
    refine ends_andThen (P := fun _ t => t.trace = .wr .ctrl (s.ctrl.setWidth 32) ::
      .rd .ctrl (s.ctrl.setWidth 32 &&& ~~~menMask) :: s5.trace) ?_ fun _ s6 h6 =>
        ends_done (by show s6.trace = _; rw [h6, T]; rfl)
    refine ends_andThen ((regRead_spec g5.inv g5.plat (r := .ctrl) (by simp [readable])).and_safe
      (trace_regRead .ctrl s5)) fun v6 s6 ⟨⟨p6, _, hv6⟩, tr6⟩ => ?_
    have hv6 : v6 = .exact (s.ctrl.setWidth 32 &&& ~~~menMask) := by
      have h : v6 = .exact (s6.ctrl.setWidth 32) := hv6
      rw [h, p6.ctrl, c5', masterOff_ctrl]
    subst hv6
    have hon : masterOn (.exact (s.ctrl.setWidth 32 &&& ~~~menMask)) = s.ctrl.setWidth 32 := by
      unfold masterOn; rw [RdWord.exact_word]; exact masterOn_off _ hm
    rw [hon]
    have g6 := p6.good g5
    exact ends_mono ((regWrite_ctrl_spec g6.inv g6.plat _).and_safe (trace_regWrite .ctrl _ _))
      fun _ t ⟨_, tr⟩ => by rw [tr, tr6, shown_exact]
  · rw [if_neg hm, if_neg hm]
    refine ends_andThen (P := fun _ t => t = s5) (ends_done rfl) fun _ s6 h6 => ?_
    subst h6
    exact ends_done (by show s6.trace = _; rw [T]; rfl)

/-! ### INIT -/

/-- SPEED_SET with the master off on entry, as INIT runs it. -/
theorem ran_speedSet (speed : Word) {s : State} (off : s.ctrl.getLsbD bitMEN = false) :
    Safe (speedSet speed s) fun _ t => Ran (initSpeedPrims s.cfg) s t := by
  unfold speedSet initSpeedPrims
  split
  · exact safe_done Ran.refl
  · refine safe_andThen (ran_regRead .ctrl s) fun v s1 ⟨r1, c1, sh⟩ => ?_
    have men : v.bit bitMEN = false := by
      have hv : v = .exact (s1.ctrl.setWidth 32) := sh
      rw [hv, c1]
      simpa [RdWord.bit, RdWord.exact, bitMEN] using off
    dsimp only
    rw [men]
    refine safe_andThen (ran_regWrite .ctrl _ _ (by simp)) fun _ s2 ⟨r2, _⟩ => ?_
    have r2 := (r1.trans (ran_note _)).trans r2
    split
    · exact safe_refused
    · refine safe_andThen (ran_regWrite .clkcfg _ _ (by simp)) fun _ s3 ⟨r3, _⟩ => ?_
      refine safe_andThen (ran_regRead .cfg1 s3) fun w s4 ⟨r4, _⟩ => ?_
      refine safe_andThen (ran_regWrite .cfg1 _ _ (by simp)) fun _ s5 ⟨r5, _⟩ => ?_
      refine safe_andThen (P := fun _ t => t = s5) (safe_done rfl) fun _ s6 h6 => ?_
      subst h6
      exact safe_done (((((r2.trans (ran_note _)).trans r3).trans r4).trans r5).trans
        (.silent rfl rfl))

/-- INIT makes the primitives of R140, in order, whatever the environment does. -/
theorem ran_initBlock (speed : Word) (s : State) :
    Safe (initBlock speed s) fun _ t => Ran (initPrims s.cfg) s t := by
  unfold initBlock
  refine safe_andThen (ran_regWrite .ctrl _ s (by simp)) fun _ s1 ⟨r1, _⟩ => ?_
  have b1 : Ran [] s1 { s1 with bracket := false } := .silent rfl rfl
  refine safe_andThen (ran_regWrite .ctrl _ _ (by simp)) fun _ s2 ⟨r2, _⟩ => ?_
  refine safe_andThen (ran_regWrite .ctrl ctrlModeWord s2 (by simp)) fun _ s3 ⟨r3, c3, _⟩ => ?_
  refine safe_andThen (ran_regRead .cfg0 s3) fun v4 s4 ⟨r4, c4, _⟩ => ?_
  refine safe_andThen (ran_regWrite .cfg0 _ s4 (by simp)) fun _ s5 ⟨r5, _, c5⟩ => ?_
  refine safe_andThen (ran_regRead .cfg1 s5) fun v6 s6 ⟨r6, c6, _⟩ => ?_
  refine safe_andThen (ran_regWrite .cfg1 _ s6 (by simp)) fun _ s7 ⟨r7, _, c7⟩ => ?_
  have off : s7.ctrl.getLsbD bitMEN = false := by
    rw [c7 (by simp), c6, c5 (by simp), c4, c3 rfl]
    decide
  refine safe_andThen (ran_speedSet speed off) fun k s8 r8 => ?_
  refine safe_andThen (ran_regRead .ctrl s8) fun v9 s9 ⟨r9, _⟩ => ?_
  refine safe_andThen (ran_regWrite .ctrl _ s9 (by simp)) fun _ s10 ⟨r10, _⟩ => ?_
  have b7 := (((((r1.trans b1).trans r2).trans r3).trans r4).trans r5).trans (r6.trans r7)
  rw [b7.cfg] at r8
  have b := ((b7.trans r8).trans (r9.trans r10)).trans
    (.silent (t := initOutcome k s10) (by simp) (by simp))
  refine safe_done ?_
  simpa [initPrims] using b

/-! ### START on a bus that stays stuck -/

theorem ran_checkStuck (s : State) : Safe (checkStuck s) fun _ t => Ran [.rd .status] s t :=
  safe_andThen (ran_regRead .status s) fun _ _ ⟨r, _⟩ => safe_done (r.trans (ran_note _))

/-- START on a bus that stays stuck makes one status read, one INIT and one more status read (R172). -/
theorem start_stuck_ran {s : State} (g : Good s) (c : StuckCalm 18 s)
    (hd : dividerAnswers s.cfg (reinitSpeed s)) (a : BitVec 7) (d : Dir) :
    Safe (start a d s) fun _ t => Ran ([.rd .status] ++ initPrims s.cfg ++ [.rd .status]) s t := by
  unfold start recoverBus
  obtain ⟨b1, s1, e1, h1, c1, p1, _⟩ := stuckCalm_check (n := 17) c
  have r1 := ran_checkStuck s b1 s1 e1
  rw [e1, andThen_next, if_pos h1]
  have hd1 : dividerAnswers s1.cfg (reinitSpeed s1) := by
    rw [p1.cfg, reinitSpeed_congr p1.cfg (by rw [p1.handle])]; exact hd
  obtain ⟨k, s2, e2, c2, -⟩ := stuckCalm_init (n := 1) c1 (reinitSpeed s1) (p1.good g).inv hd1
  have r2 := ran_initBlock _ s1 k s2 e2
  rw [r1.cfg] at r2
  rw [e2, andThen_next]
  obtain ⟨b3, s3, e3, h3, -⟩ := stuckCalm_check (n := 0) c2
  have r3 := ran_checkStuck s2 b3 s3 e3
  rw [e3, andThen_next, if_pos h3]
  have r := (r1.trans r2).trans r3
  exact safe_done ⟨r.prims, r.cfg⟩

end Sys2Proof.Machine
end

