-- ==== Sys2Proof/Laws/Waits.lean ====
section
/-! SUPPORT. The waits, exactly: STOP's stop-detect loop and the first pass of RECEIVE's, with the variants
`P_STOP_DECODE` and `P_RX_CLEAR` (spec/41_start_stop.md R174 to R176, spec/42_byte_transfer.md R192 to
R195), when the environment raises some flags once and does nothing else; and an error that the wait for
space decodes (spec/43_poll_and_errors.md R210, R335). -/

namespace Sys2Proof.Machine

/-- The schedule raises flags and does nothing else before the next primitive. -/
theorem envSlot_raise {s : State} {w : BitVec 7} {r : List (List EnvMove)}
    (h : s.sched = [.raiseFlags w] :: r) (hr : s.ctrl.getLsbD bitRST = false) :
    envSlot s = .next { s with sched := r, flags := s.flags.raiseW1C w } := by
  unfold envSlot
  rw [h]
  simp [envMoves, envMove, hr]

theorem clearAll_cleared (f : Status) : f.clearW1C clearAll = clearedFlags f := clearAll_flags f

/-- CHECK_CLEAR_ERROR at any flags, in calm behind its status read (R211, R213). -/
structure Decoded (u t : State) : Prop where
  same : t =
    { u with
      work := t.work
      flags := if flagsCode u.flags = .ok then u.flags else clearedFlags u.flags
      txf := if flagsCode u.flags = .ok then u.txf else []
      rxf := if flagsCode u.flags = .ok then u.rxf else []
      timer := t.timer
      sched := t.sched
      ticks := t.ticks
      draws := t.draws
      trace := t.trace }
  words : wordsOf t.trace = wordsOf u.trace
  time : SameTime u t
  prims : kinds t = (decodePrims u.flags).reverse ++ kinds u
  sched : t.sched = u.sched ∨ t.sched = u.sched.drop 3

theorem decode_pass {s u : State} (e : envSlot s = .next u) (p : Platform u)
    (hr : u.ctrl.getLsbD bitRST = false) (c : Calm 3 u) :
    Ends (checkClearError s) fun k t => k = flagsCode u.flags ∧ Decoded u t := by
  by_cases hf : noErrorFlag u.flags
  · refine ends_mono (checkClearError_slot_ok e p hf) fun k t ⟨hk, r, st, tl⟩ => ?_
    have h := flagsCode_ok.2 hf
    refine ⟨hk.trans h.symm, ?_, r.passes.words, st, ?_, .inl r.sched⟩
    · have a := r.passes.same
      simp only [h, if_true]
      rw [a]
    · rw [tl, decodePrims, if_pos h]; rfl
  · refine ends_mono (checkClearError_slot_err e p hr c hf) fun k t ⟨hk, d, st, tl, ts⟩ => ?_
    have h : ¬ flagsCode u.flags = .ok := fun h => hf (flagsCode_ok.1 h)
    refine ⟨hk, ?_, d.words, st, ?_, .inr ts⟩
    · have a := d.same
      simp only [h, if_false]
      rw [a, clearAll_cleared]
    · rw [tl, decodePrims, if_neg h]; rfl

/-- The head of an idle schedule. -/
theorem idle_head {n : Nat} {l rest : List (List EnvMove)} (h : l = List.replicate (n + 4) [] ++ rest)
    {m : List (List EnvMove)} (k : m = l ∨ m = l.drop 3) : ∃ r, m = [] :: r := by
  rcases k with rfl | rfl
  · exact ⟨List.replicate (n + 3) [] ++ rest, by rw [h]; rfl⟩
  · exact ⟨List.replicate n [] ++ rest, by rw [h]; rfl⟩

theorem calm_of_idle {n : Nat} {s : State} {rest : List (List EnvMove)}
    (h : s.sched = List.replicate n [] ++ rest) : Calm n s := .inl ⟨rest, h⟩

/-! ### The stop-detect wait -/

/-- What a pass of the stop-detect wait that ends STOP leaves (R174 to R176). -/
structure StopEnded (u : State) (k : Code) (t : State) : Prop where
  code : k = stopCode u.cfg u.flags
  same : t =
    { u with
      work := t.work
      phase := if k = .ok then .idle else .error
      result := if k = .ok then u.result else k
      flags := stopFlags u.cfg u.flags
      txf := if stopErrs u.cfg u.flags then [] else u.txf
      rxf := if stopErrs u.cfg u.flags then [] else u.rxf
      timer := t.timer
      sched := t.sched
      ticks := t.ticks
      draws := t.draws
      trace := t.trace }
  words : wordsOf t.trace = wordsOf u.trace
  prims : kinds t = (stopPassPrims u.cfg u.flags).reverse ++ kinds u

theorem stopWait_pass {s u : State} {m t0 : Nat} {rest : List (List EnvMove)}
    (e : envSlot s = .next u) (p : Platform u) (hr : u.ctrl.getLsbD bitRST = false)
    (hs : u.sched = List.replicate 5 [] ++ rest)
    (late : u.flags.sdf = false → u.cfg.tStop < elapsed u.cfg (timerCount (tickTimer u)) t0) :
    Ends (stopWaitLoop (m + 1) t0 s) (StopEnded u) := by
  unfold stopWaitLoop
  refine ends_andThen (regRead_slot e p (r := .status) (by simp [readable]) (by simp))
    fun v t1 ⟨r1, st1, sh1, k1⟩ => ?_
  have hv : stopDetected v = u.flags.sdf := by
    rw [sdf_shows (f := t1.flags) sh1, r1.passes.flags]
  have rn := r1.trans (reads_note (fun w => { w with s := some v.word }) rfl)
  -- the decode of the variant, if selected
  have D : Ends (stopDecode (note (fun w => { w with s := some v.word }) t1)) fun e t =>
      e = (if stopErrs u.cfg u.flags then flagsCode u.flags else .ok) ∧
      (t = { u with
        work := t.work
        flags := if stopErrs u.cfg u.flags then clearedFlags u.flags else u.flags
        txf := if stopErrs u.cfg u.flags then [] else u.txf
        rxf := if stopErrs u.cfg u.flags then [] else u.rxf
        timer := t.timer
        sched := t.sched
        ticks := t.ticks
        draws := t.draws
        trace := t.trace }) ∧ wordsOf t.trace = wordsOf u.trace ∧ SameTime u t ∧
      kinds t = (if u.cfg.stopDecode then decodePrims u.flags else []).reverse ++ .rd .status ::
        kinds u ∧ ∃ r, t.sched = [] :: r := by
    have S : SameTime u (note (fun w => { w with s := some v.word }) t1) := ⟨st1.timer, st1.ticks⟩
    unfold stopDecode
    rw [note_cfg, r1.passes.cfg]
    split
    · rename_i hd
      obtain ⟨u2, e2, p2, st2, c2, k2⟩ := calm_slot (n := 4) (rn.calm (calm_of_idle hs))
      have q := rn.passes.trans p2
      have hs2 : u2.sched = List.replicate 4 [] ++ rest := by
        rw [calm_tail (rn.calm (calm_of_idle hs)) e2, rn.sched, hs]; rfl
      refine ends_mono (decode_pass e2 (q.platform p) (by rw [q.ctrl]; exact hr)
        (calm_of_idle (n := 3) (rest := [] :: rest) (by rw [hs2]; rfl))) fun k t ⟨hk, d⟩ => ?_
      rw [q.flags] at hk
      have hE : stopErrs u.cfg u.flags = decide (flagsCode u.flags ≠ .ok) := by
        unfold stopErrs; rw [hd, Bool.true_and]
      refine ⟨?_, ?_, d.words.trans q.words, S.trans (st2.trans d.time), ?_,
        idle_head (n := 0) hs2 d.sched⟩
      · rw [hE, hk]
        by_cases h : flagsCode u.flags = .ok <;> simp [h]
      · have a := d.same
        rw [q.flags, q.txf, q.rxf] at a
        have b := q.same
        rw [hE]
        by_cases h : flagsCode u.flags = .ok
        · simp only [h, if_true] at a
          simp only [h, ne_eq, not_true_eq_false, decide_false, Bool.false_eq_true, if_false]
          rw [a, b]
        · simp only [h, if_false] at a
          simp only [h, ne_eq, not_false_eq_true, decide_true, if_true]
          rw [a, b]
      · rw [d.prims, q.flags, k2]
        show _ ++ kinds t1 = _
        rw [k1]
    · rename_i hd
      have hE : stopErrs u.cfg u.flags = false := by
        unfold stopErrs; simp only [Bool.not_eq_true] at hd; rw [hd, Bool.false_and]
      refine ends_done ⟨by rw [hE]; rfl, ?_, rn.passes.words, S, ?_, ?_⟩
      · rw [hE]
        have b := rn.passes.same
        simp only [Bool.false_eq_true, if_false]
        rw [b]
      · show kinds t1 = _
        rw [k1]; rfl
      · exact ⟨List.replicate 4 [] ++ rest, by rw [rn.sched, hs]; rfl⟩
  refine ends_andThen D fun k2 t2 ⟨hk2, same2, w2, S2, tr2, r2, hs2⟩ => ?_
  have e3 := envSlot_quiet hs2
  have cf2 : t2.cfg = u.cfg := by rw [same2]
  have fl2 : t2.flags = if stopErrs u.cfg u.flags then clearedFlags u.flags else u.flags := by
    rw [same2]
  have pl2 : Platform { t2 with sched := r2 } := by rw [same2]; exact ⟨p.clockOn, p.aligned⟩
  rw [hv]
  by_cases hsd : u.flags.sdf = true
  · rw [if_pos hsd]
    unfold stopSeen
    rw [regWrite_status_slot e3 pl2, andThen_done]
    have fin : ∀ (ph : Phase) (rs : Code) (k : Code),
        k = (if stopErrs u.cfg u.flags then flagsCode u.flags else .ok) →
        ph = (if k = .ok then .idle else .error) → rs = (if k = .ok then u.result else k) →
        StopEnded u k { logged (.wr .status sdfMask)
          { t2 with sched := r2, flags := t2.flags.clearW1C sdfMask } with phase := ph, result := rs } := by
      intro ph rs k hk hp hrs
      refine ⟨by rw [stopCode, if_pos hsd]; exact hk, ?_, ?_, ?_⟩
      · rw [fl2, clearSdf_flags, hp, hrs, stopFlags]
        rw [same2]
        cases stopErrs u.cfg u.flags <;> rfl
      · show wordsOf (_ :: t2.trace) = _
        simp [wordsOf_cons, txcmdWord, w2]
      · show Prim.wr .status :: kinds t2 = _
        rw [tr2, stopPassPrims, if_pos hsd]
        simp
    by_cases hk : k2 = .ok
    · rw [if_pos hk]
      have h := fin .idle t2.result .ok (hk.symm.trans hk2) rfl (by rw [same2]; rfl)
      exact ends_done h
    · rw [if_neg hk]
      have h := fin .error k2 k2 hk2 (by rw [if_neg hk]) (by rw [if_neg hk])
      exact ends_done h
  · rw [if_neg hsd]
    have hsd' : u.flags.sdf = false := by simpa using hsd
    refine ends_andThen (now_slot e3) fun n3 t3 ⟨r3, h3, _, tr3⟩ => ?_
    have cf3 : t3.cfg = u.cfg := by rw [r3.passes.cfg]; exact cf2
    have hn : n3 = timerCount (tickTimer u) := by
      have T := tickTimer_congr (s := u) (t := { t2 with sched := r2 }) S2.timer S2.ticks
      rw [h3]
      exact timerCount_congr T.1 (by rw [tickTimer_cfg, tickTimer_cfg]; exact cf2)
    rw [cf3, hn, if_pos (late hsd')]
    have hc : stopCode u.cfg u.flags = .timeout := by rw [stopCode, hsd']; rfl
    refine ends_done ⟨hc.symm, ?_, ?_, ?_⟩
    · have a := r3.passes.same
      have f : stopFlags u.cfg u.flags =
          if stopErrs u.cfg u.flags then clearedFlags u.flags else u.flags := by
        have : { u.flags with sdf := false } = u.flags := by rw [← hsd']
        rw [stopFlags, this]
      rw [f, a, same2]
      rfl
    · show wordsOf t3.trace = _
      rw [r3.passes.words]; exact w2
    · show kinds t3 = _
      rw [tr3]
      show Prim.now :: kinds t2 = _
      rw [tr2, stopPassPrims, hsd']
      simp

/-- The turn before the next primitive, the schedule being idle there. -/
theorem idle_slot {n : Nat} {s : State} {rest : List (List EnvMove)}
    (h : s.sched = List.replicate (n + 1) [] ++ rest) :
    ∃ u, envSlot s = .next u ∧ Passes s u ∧ SameTime s u ∧ kinds u = kinds s ∧
      u.sched = List.replicate n [] ++ rest := by
  obtain ⟨u, e, p, st, -, k⟩ := calm_slot (calm_of_idle h)
  exact ⟨u, e, p, st, k, by rw [calm_tail (calm_of_idle h) e, h]; rfl⟩

/-- WAIT_TX_SPACE with space and time left, the schedule being idle (R210). -/
theorem waitTxSpace_idle {n : Nat} {s : State} {rest : List (List EnvMove)} (p : Platform s)
    (hf : noErrorFlag s.flags) (hd : s.cfg.fifoDepth ≤ 7) (hsp : s.txf.length < s.cfg.fifoDepth)
    (he : firstElapsed s ≤ s.cfg.tPoll) (h : s.sched = List.replicate (n + 4) [] ++ rest) :
    Ends (waitTxSpace s) fun k t => k = .ok ∧ Passes s t ∧ ticked2 s t ∧
      kinds t = .now :: .rd .status :: .rd .fifostat :: .now :: kinds s ∧
      t.sched = List.replicate n [] ++ rest := by
  obtain ⟨u, e, q, st, k, hu⟩ := idle_slot (n := n + 3) h
  have fe := firstElapsed_congr st q.cfg
  refine ends_mono (waitTxSpace_slot (n := n) e (q.platform p) (calm_of_idle hu)
    (by rw [q.flags]; exact hf) (by rw [q.cfg]; exact hd)
    (.inl (by rw [q.txf, q.cfg]; exact hsp))) fun c t ⟨hc, pt, tk, _, kt, ht⟩ => ?_
  rw [fe, q.cfg, if_neg (Nat.not_lt.2 he)] at hc
  exact ⟨hc, q.trans pt, ticked2_congr tk st, by rw [kt, k], by rw [ht, hu]; rfl⟩

theorem SameTime.tick {s t : State} (h : SameTime s t) : SameTime (tickTimer s) (tickTimer t) :=
  ⟨(tickTimer_congr h.timer h.ticks).1, (tickTimer_congr h.timer h.ticks).2⟩

theorem SameTime.reads {s t : State} (h : SameTime s t) (n : Nat) :
    SameTime (afterReads n s) (afterReads n t) := by
  induction n generalizing s t with
  | zero => exact h
  | succ n ih => exact ih h.tick

theorem afterReads_cfg (n : Nat) (s : State) : (afterReads n s).cfg = s.cfg := by
  induction n generalizing s with
  | zero => rfl
  | succ n ih => exact (ih _).trans (tickTimer_cfg s)

/-! ### The stop-detect loop, pass after pass -/

theorem stopWaitLoop_succ (m t0 : Nat) (s : State) : stopWaitLoop (m + 1) t0 s =
    andThen (regRead .status s) fun v s =>
    andThen (stopDecode (note (fun w => { w with s := some v.word }) s)) fun e s =>
    if stopDetected v then stopSeen e s
    else andThen (now s) fun t s =>
      if s.cfg.tStop < elapsed s.cfg t t0 then raiseError .timeout s
      else stopWaitLoop m t0 s := rfl

/-- A pass of the stop-detect loop that shows neither the stop nor an error, in time: the loop goes on,
also at an elapsed time equal to the budget (R174, R176, R215). -/
theorem stopWait_goes {s : State} {n t0 : Nat} {rest : List (List EnvMove)} (m : Nat)
    (p : Platform s) (hf : noErrorFlag s.flags) (hsd : s.flags.sdf = false)
    (hs : s.sched = List.replicate (n + (stopPassPrims s.cfg s.flags).length) [] ++ rest)
    (he : elapsed s.cfg (timerCount (tickTimer s)) t0 ≤ s.cfg.tStop) :
    ∃ t, stopWaitLoop (m + 1) t0 s = stopWaitLoop m t0 t ∧ Passes s t ∧ ticked s t ∧
      kinds t = (stopPassPrims s.cfg s.flags).reverse ++ kinds s ∧
      t.sched = List.replicate n [] ++ rest := by
  have hok := flagsCode_ok.2 hf
  -- the pass behind its decode: the timer read
  have last : ∀ x : State, Passes s x → SameTime s x →
      x.sched = List.replicate (n + 1) [] ++ rest →
      ∃ t, (andThen (now x) fun t y =>
          if y.cfg.tStop < elapsed y.cfg t t0 then raiseError .timeout y else stopWaitLoop m t0 y) =
          stopWaitLoop m t0 t ∧ Passes s t ∧ ticked s t ∧ kinds t = .now :: kinds x ∧
        t.sched = List.replicate n [] ++ rest := by
    intro x px st hx
    obtain ⟨u, e, q, st2, kd, hu⟩ := idle_slot (n := n) hx
    obtain ⟨c, t, et, r, hc, tk, kt⟩ := now_slot e
    have S := (st.trans st2).tick
    have Q := px.trans (q.trans r.passes)
    have hcs : c = timerCount (tickTimer s) := by
      rw [hc]
      exact timerCount_congr S.timer (by rw [tickTimer_cfg, tickTimer_cfg, q.cfg, px.cfg])
    refine ⟨t, ?_, Q, ⟨tk.1.trans S.timer, tk.2.trans S.ticks⟩, by rw [kt, kd], by rw [r.sched, hu]⟩
    rw [et, andThen_next, Q.cfg, hcs, if_neg (Nat.not_lt.2 he)]
  rw [stopWaitLoop_succ]
  cases hd : s.cfg.stopDecode with
  | false =>
    have hl : stopPassPrims s.cfg s.flags = [.rd .status, .now] := by
      unfold stopPassPrims; rw [hd, hsd]; rfl
    rw [hl] at hs ⊢
    obtain ⟨u, e, q, st, kd, hu⟩ := idle_slot (n := n + 1) hs
    obtain ⟨v, t1, e1, r1, st1, sh1, k1⟩ :=
      regRead_slot e (q.platform p) (r := .status) (by simp [readable]) (by simp)
    have Q := q.trans (r1.trans (reads_note (fun w => { w with s := some v.word }) rfl)).passes
    have hv : stopDetected v = false := by
      rw [sdf_shows (f := t1.flags) sh1, r1.passes.flags, q.flags, hsd]
    obtain ⟨t, et, P, tk, kt, hst⟩ := last _ Q
      (st.trans ⟨st1.timer, st1.ticks⟩) (r1.sched.trans hu)
    refine ⟨t, ?_, P, tk, ?_, hst⟩
    · rw [e1, andThen_next]
      unfold stopDecode
      rw [Q.cfg, hd, if_neg (by simp), andThen_done, hv, if_neg (by simp)]
      exact et
    · rw [kt]
      show Prim.now :: kinds t1 = _
      rw [k1, kd]
      rfl
  | true =>
    have hl : stopPassPrims s.cfg s.flags = [.rd .status, .rd .status, .now] := by
      unfold stopPassPrims decodePrims; rw [hd, hsd, if_pos hok]; rfl
    rw [hl] at hs ⊢
    obtain ⟨u, e, q, st, kd, hu⟩ := idle_slot (n := n + 2) hs
    obtain ⟨v, t1, e1, r1, st1, sh1, k1⟩ :=
      regRead_slot e (q.platform p) (r := .status) (by simp [readable]) (by simp)
    have rn := r1.trans (reads_note (fun w => { w with s := some v.word }) rfl)
    have Q := q.trans rn.passes
    have hv : stopDetected v = false := by
      rw [sdf_shows (f := t1.flags) sh1, r1.passes.flags, q.flags, hsd]
    obtain ⟨u2, e2, q2, st2, kd2, hu2⟩ := idle_slot (n := n + 1)
      (s := note (fun w => { w with s := some v.word }) t1) (rn.sched.trans hu)
    obtain ⟨c, t2, e3, hc, r3, st3, kd3⟩ := checkClearError_slot_ok e2 ((Q.trans q2).platform p)
      (by rw [q2.flags, Q.flags]; exact hf)
    subst hc
    obtain ⟨t, et, P, tk, kt, hst⟩ := last t2 (Q.trans (q2.trans r3.passes))
      (st.trans (u := t2) ⟨st3.timer.trans (st2.timer.trans st1.timer), st3.ticks.trans (st2.ticks.trans st1.ticks)⟩) (r3.sched.trans hu2)
    refine ⟨t, ?_, P, tk, ?_, hst⟩
    · rw [e1, andThen_next]
      unfold stopDecode
      rw [Q.cfg, hd, if_pos rfl, e3, andThen_next, hv, if_neg (by simp)]
      exact et
    · rw [kt, kd3, kd2]
      show Prim.now :: Prim.rd .status :: kinds t1 = _
      rw [k1, kd]
      rfl

/-- The stop-detect loop when `m` passes show nothing, in time, and the environment raises the flags `w`
before the next, which ends it. How many passes the model gives the loop is left open: without enough of
them it would be stuck. -/
theorem stopWait_passes {w : BitVec 7} {rest : List (List EnvMove)} {t0 : Nat} (m : Nat) :
    ∀ (fuel : Nat) (s : State), Platform s → s.ctrl.getLsbD bitRST = false → noErrorFlag s.flags →
      s.sched = List.replicate (m * (stopPassPrims s.cfg s.flags).length) [] ++
        [.raiseFlags w] :: (List.replicate 5 [] ++ rest) →
      (0 < m → s.flags.sdf = false) →
      (∀ j, j < m → elapsed s.cfg (timerCount (afterReads (j + 1) s)) t0 ≤ s.cfg.tStop) →
      ((s.flags.raiseW1C w).sdf = false →
        s.cfg.tStop < elapsed s.cfg (timerCount (afterReads (m + 1) s)) t0) →
      stopWaitLoop fuel t0 s = .fault .pollStuck ∨ ∃ v, Passes s v ∧
        kinds v = (List.replicate m (stopPassPrims s.cfg s.flags)).flatten.reverse ++ kinds s ∧
        Ends (stopWaitLoop fuel t0 s) (StopEnded
          { v with sched := List.replicate 5 [] ++ rest, flags := v.flags.raiseW1C w }) := by
  induction m with
  | zero =>
    intro fuel s p hr hf hs _ _ late
    cases fuel with
    | zero => exact .inl rfl
    | succ fuel =>
      refine .inr ⟨s, Passes.refl s, rfl, stopWait_pass (envSlot_raise (by simpa using hs) hr)
        ⟨p.clockOn, p.aligned⟩ hr rfl fun hz => ?_⟩
      have c : timerCount (tickTimer { s with
          sched := List.replicate 5 [] ++ rest, flags := s.flags.raiseW1C w }) =
          timerCount (tickTimer s) :=
        timerCount_congr (SameTime.tick (s := s) (t := { s with
          sched := List.replicate 5 [] ++ rest, flags := s.flags.raiseW1C w }) ⟨rfl, rfl⟩).timer
          (by rw [tickTimer_cfg, tickTimer_cfg])
      rw [c]
      exact late hz
  | succ m ih =>
    intro fuel s p hr hf hs hsd inTime late
    cases fuel with
    | zero => exact .inl rfl
    | succ fuel =>
      rw [Nat.succ_mul] at hs
      obtain ⟨t, et, q, tk, kt, ht⟩ := stopWait_goes fuel p hf (hsd (Nat.succ_pos m)) hs
        (inTime 0 (Nat.succ_pos m))
      have S : SameTime (tickTimer s) t := ⟨tk.1, tk.2⟩
      have later : ∀ j, timerCount (afterReads j t) = timerCount (afterReads (j + 1) s) := fun j =>
        timerCount_congr (S.reads j).timer (by rw [afterReads_cfg, afterReads_cfg, q.cfg])
      rw [et]
      rcases ih fuel t (q.platform p) (by rw [q.ctrl]; exact hr) (by rw [q.flags]; exact hf)
        (by rw [q.cfg, q.flags]; exact ht) (fun _ => by rw [q.flags]; exact hsd (Nat.succ_pos m))
        (fun j hj => by rw [q.cfg, later]; exact inTime (j + 1) (Nat.succ_lt_succ hj))
        (fun hz => by rw [q.cfg, later]; exact late (by rw [← q.flags]; exact hz)) with h | h
      · exact .inl h
      · obtain ⟨v, qv, kv, E⟩ := h
        refine .inr ⟨v, q.trans qv, ?_, E⟩
        rw [kv, kt, q.cfg, q.flags, ← List.append_assoc, ← List.reverse_append, List.replicate_succ,
          List.flatten_cons]

/-- STOP with space and time for its word, when `m` passes of the stop-detect loop show nothing, in time,
and the environment raises the flags `w` before the next and nothing else (R174 to R176, R215). -/
theorem stop_raise {s : State} {w : BitVec 7} {rest : List (List EnvMove)} (m : Nat) (g : Good s)
    (hf : noErrorFlag s.flags) (hsp : s.txf.length < s.cfg.fifoDepth)
    (he : firstElapsed s ≤ s.cfg.tPoll)
    (hs : s.sched = List.replicate (6 + m * (stopPassPrims s.cfg s.flags).length) [] ++
      [.raiseFlags w] :: (List.replicate 5 [] ++ rest))
    (hsd : 0 < m → s.flags.sdf = false)
    (inTime : ∀ j, j < m → elapsedAfter (j + 1) (afterReads 2 s) ≤ s.cfg.tStop)
    (late : (s.flags.raiseW1C w).sdf = false →
      s.cfg.tStop < elapsedAfter (m + 1) (afterReads 2 s)) :
    Ends (stop s) fun k t => k = stopCode s.cfg (s.flags.raiseW1C w) ∧ t = { s with
        work := t.work
        phase := if k = .ok then .idle else .error
        bracket := false
        result := if k = .ok then s.result else k
        flags := stopFlags s.cfg (s.flags.raiseW1C w)
        txf := if stopErrs s.cfg (s.flags.raiseW1C w) then [] else s.txf ++ [stopWord.setWidth 11]
        rxf := if stopErrs s.cfg (s.flags.raiseW1C w) then [] else s.rxf
        timer := t.timer
        sched := t.sched
        ticks := t.ticks
        draws := t.draws
        trace := t.trace } ∧
      wordsOf t.trace = wordsOf s.trace ++ [stopWord] ∧
      kinds t = (stopPassPrims s.cfg (s.flags.raiseW1C w)).reverse ++
        ((List.replicate m (stopPassPrims s.cfg s.flags)).flatten.reverse ++
        .now :: .wr .txcmd :: .now :: .rd .status :: .rd .fifostat :: .now :: kinds s) := by
  have ends := stop_spec g
  have p := g.plat
  have hr := g.run
  have pl0 : Platform { s with phase := .stop, bracket := false } := ⟨p.clockOn, p.aligned⟩
  have fe0 : firstElapsed { s with phase := .stop, bracket := false } = firstElapsed s :=
    firstElapsed_congr ⟨rfl, rfl⟩ rfl
  unfold stop at ends ⊢
  obtain ⟨k1, t1, e1, hk, p1, tk1, kd1, hs1⟩ := waitTxSpace_idle (n := 2)
    (s := { s with phase := .stop, bracket := false })
    (rest := List.replicate (m * (stopPassPrims s.cfg s.flags).length) [] ++ [.raiseFlags w] ::
      (List.replicate 5 [] ++ rest)) pl0 hf g.inv.cfgValid.2.1 hsp (by rw [fe0]; exact he) (by
        rw [← List.append_assoc, ← List.replicate_add]; exact hs)
  rw [e1, andThen_next, if_neg (by rw [hk]; simp)] at ends ⊢
  obtain ⟨u2, e2, q2, st2, kd2, hs2⟩ := idle_slot (n := 1) hs1
  have P2 := p1.trans q2
  have hr2 : u2.ctrl.getLsbD bitRST = false := by rw [P2.ctrl]; exact hr
  rw [regWrite_txcmd_slot e2 (P2.platform pl0) hr2 (by rw [P2.txf, P2.cfg]; exact hsp), andThen_done]
    at ends ⊢
  obtain ⟨u3, e3, q3, st3, kd3, hs3⟩ := idle_slot (n := 0) (s := logged (.wr .txcmd stopWord)
    { u2 with txf := u2.txf ++ [stopWord.setWidth 11] }) hs2
  obtain ⟨t0, t4, e4, r4, h4, k4, kd4⟩ := now_slot e3
  rw [e4, andThen_next] at ends ⊢
  let a5 := note (fun w => { w with t0 := some t0 }) t4
  have P4 : Passes (logged (.wr .txcmd stopWord)
      { u2 with txf := u2.txf ++ [stopWord.setWidth 11] }) a5 :=
    (q3.trans r4.passes).trans (passes_note _ rfl)
  have cf5 : a5.cfg = s.cfg := P4.cfg.trans P2.cfg
  have fl5 : a5.flags = s.flags := P4.flags.trans P2.flags
  have pl5 : Platform a5 := P4.platform ⟨(P2.platform pl0).clockOn, (P2.platform pl0).aligned⟩
  -- the timer behind the wait, and behind the stop's own first read
  have T2 : SameTime (afterReads 2 s) u3 := by
    have a : SameTime (afterReads 2 s) (afterReads 2 { s with phase := .stop, bracket := false }) :=
      SameTime.reads (s := s) (t := { s with phase := .stop, bracket := false }) ⟨rfl, rfl⟩ 2
    exact ⟨(st3.timer.trans st2.timer).trans (tk1.1.trans a.timer),
      (st3.ticks.trans st2.ticks).trans (tk1.2.trans a.ticks)⟩
  have T3 : SameTime (tickTimer (afterReads 2 s)) a5 := T2.tick.trans ⟨k4.1, k4.2⟩
  have cf3 : u3.cfg = s.cfg := q3.cfg.trans P2.cfg
  have el : ∀ j, elapsed a5.cfg (timerCount (afterReads (j + 1) a5)) t0 =
      elapsedAfter (j + 1) (afterReads 2 s) := by
    intro j
    have c1 : timerCount (afterReads (j + 1) a5) =
        timerCount (afterReads (j + 1) (tickTimer (afterReads 2 s))) :=
      timerCount_congr (T3.reads (j + 1)).timer (by
        rw [afterReads_cfg, afterReads_cfg, tickTimer_cfg, afterReads_cfg, cf5])
    have c2 : t0 = timerCount (tickTimer (afterReads 2 s)) := by
      rw [h4]
      exact timerCount_congr T2.tick.timer (by
        rw [tickTimer_cfg, tickTimer_cfg, afterReads_cfg, cf3])
    rw [c1, c2, cf5]
    unfold elapsedAfter
    rw [afterReads_cfg]
    rfl
  rcases stopWait_passes (w := w) (rest := rest) (t0 := t0) m (pollFuel t4.cfg.tStop t4) a5 pl5
    (by rw [P4.ctrl]; exact hr2) (by rw [fl5]; exact hf)
    (by rw [cf5, fl5]; exact r4.sched.trans hs3) (by rw [fl5]; exact hsd)
    (fun j hj => by rw [el, cf5]; exact inTime j hj)
    (fun hz => by rw [el, cf5]; exact late (by rw [← fl5]; exact hz)) with stuck | ⟨v, qv, kv, E⟩
  · obtain ⟨k, t, e, -⟩ := ends
    rw [stuck] at e
    cases e
  refine ends_mono E fun k t E => ?_
  have Q := P4.trans qv
  have cfv : v.cfg = s.cfg := qv.cfg.trans cf5
  have flv : v.flags = s.flags := qv.flags.trans fl5
  refine ⟨?_, ?_, ?_, ?_⟩
  · rw [E.code]
    show stopCode v.cfg (v.flags.raiseW1C w) = _
    rw [cfv, flv]
  · have a := E.same
    have b := Q.same
    have d := P2.same
    dsimp only at a
    rw [flv, cfv] at a
    rw [a, b]
    dsimp only [logged]
    rw [d]
  · rw [E.words]
    show wordsOf v.trace = _
    rw [Q.words, logged_trace, wordsOf_cons]
    show wordsOf u2.trace ++ [stopWord] = _
    rw [P2.words]
  · rw [E.prims]
    show (stopPassPrims v.cfg (v.flags.raiseW1C w)).reverse ++ kinds v = _
    rw [cfv, flv, kv, cf5, fl5]
    show _ ++ (_ ++ kinds t4) = _
    rw [kd4, kd3]
    show _ ++ (_ ++ Prim.now :: Prim.wr .txcmd :: kinds u2) = _
    rw [kd2, kd1]
    rfl

/-! ### The receive wait -/

/-- `P_RX_CLEAR`, selected or not, at the flags of the turn before the next primitive: the state before
the receive command is queued (R194). -/
theorem rxClear_queue {s u : State} {len : Nat} {rest : List (List EnvMove)}
    (e : envSlot s = .next u) (cf : s.cfg = u.cfg) (p : Platform u)
    (hr : u.ctrl.getLsbD bitRST = false) (hsp : u.txf.length < u.cfg.fifoDepth)
    (hs : u.sched = List.replicate 4 [] ++ rest) :
    ∃ t, andThen (rxClear s) (fun _ s => regWrite .txcmd (receiveWord len) s) = done () t ∧
      (t = { u with
        work := t.work
        flags := rxFlags u.cfg u.flags
        txf := u.txf ++ [(receiveWord len).setWidth 11]
        timer := t.timer
        sched := t.sched
        ticks := t.ticks
        draws := t.draws
        trace := t.trace }) ∧ SameTime u t ∧
      wordsOf t.trace = wordsOf u.trace ++ [receiveWord len] ∧
      kinds t = .wr .txcmd :: ((if u.cfg.rxClear then [.wr .status] else []) ++ kinds u) ∧
      (t.sched = List.replicate 4 [] ++ rest ∨
        t.sched = List.replicate 3 [] ++ rest ∧ flagsCode t.flags = .ok) := by
  unfold rxClear
  rw [cf]
  split
  · rename_i hc
    rw [regWrite_status_slot e p, andThen_done]
    obtain ⟨u2, e2, q2, st2, kd2, hs2⟩ := idle_slot (n := 3) (s := logged (.wr .status clearAll)
      { u with flags := u.flags.clearW1C clearAll }) hs
    have pl2 : Platform u2 := q2.platform ⟨p.clockOn, p.aligned⟩
    rw [regWrite_txcmd_slot e2 pl2 (by rw [q2.ctrl]; exact hr) (by rw [q2.txf, q2.cfg]; exact hsp)]
    refine ⟨_, rfl, ?_, ⟨st2.timer, st2.ticks⟩, ?_, ?_, .inr ⟨hs2, ?_⟩⟩
    · have a := q2.same
      rw [a]
      simp only [logged, rxFlags, hc, if_true, clearAll_cleared]
    · rw [logged_trace, wordsOf_cons]
      show wordsOf u2.trace ++ [receiveWord len] = _
      rw [q2.words, logged_trace, wordsOf_cons]
      simp [txcmdWord]
    · show Prim.wr .txcmd :: kinds u2 = _
      rw [kd2]
      rfl
    · show flagsCode u2.flags = .ok
      rw [q2.flags]
      exact flagsCode_ok.2 (noErrorFlag_cleared _)
  · rename_i hc
    rw [andThen_done, regWrite_txcmd_slot e p hr hsp]
    refine ⟨_, rfl, ?_, ⟨rfl, rfl⟩, ?_, rfl, .inl hs⟩
    · simp [logged, rxFlags, hc]
    · rw [logged_trace, wordsOf_cons]
      rfl

/-- The first poll of RECEIVE, when it ends the operation (R192). -/
theorem rxPoll_ends {s : State} {m t0 : Nat} {l : List (List EnvMove)} (p : Platform s)
    (hr : s.ctrl.getLsbD bitRST = false)
    (hs : s.sched = List.replicate 4 [] ++ l ∨ s.sched = List.replicate 3 [] ++ l ∧
      flagsCode s.flags = .ok)
    (late : flagsCode s.flags = .ok → s.cfg.tPoll < elapsed s.cfg (timerCount (tickTimer s)) t0) :
    Ends (rxPoll (m + 1) t0 s) fun r t =>
      ∃ k, r = .failed k ∧ k = (if flagsCode s.flags = .ok then .timeout else flagsCode s.flags) ∧
      (t = { s with
        work := t.work
        phase := .error
        result := k
        flags := if flagsCode s.flags = .ok then s.flags else clearedFlags s.flags
        txf := if flagsCode s.flags = .ok then s.txf else []
        rxf := if flagsCode s.flags = .ok then s.rxf else []
        timer := t.timer
        sched := t.sched
        ticks := t.ticks
        draws := t.draws
        trace := t.trace }) ∧ wordsOf t.trace = wordsOf s.trace ∧
      kinds t = (decodePrims s.flags ++ if flagsCode s.flags = Code.ok then [Prim.now] else []).reverse ++
        kinds s := by
  unfold rxPoll
  by_cases h : flagsCode s.flags = .ok
  · obtain ⟨l, hs⟩ : ∃ l, s.sched = List.replicate 3 [] ++ l := by
      rcases hs with hs | hs
      · exact ⟨[] :: l, by rw [hs]; rfl⟩
      · exact ⟨l, hs.1⟩
    obtain ⟨u, e, q, st, kd, hu⟩ := idle_slot (n := 2) hs
    refine ends_andThen (checkClearError_slot_ok e (q.platform p) (by
      rw [q.flags]; exact flagsCode_ok.1 h)) fun k1 t1 ⟨hk1, r1, st1, kd1⟩ => ?_
    rw [if_neg (by simp [hk1])]
    obtain ⟨u2, e2, q2, st2, kd2, hu2⟩ := idle_slot (n := 1) (s := t1) (by rw [r1.sched, hu])
    refine ends_andThen (now_slot e2) fun n t2 ⟨r2, h2, _, kd3⟩ => ?_
    have P := q.trans (r1.passes.trans (q2.trans r2.passes))
    have S : SameTime s u2 := st.trans (st1.trans st2)
    have hn : n = timerCount (tickTimer s) := by
      rw [h2]
      exact timerCount_congr S.tick.timer (by
        rw [tickTimer_cfg, tickTimer_cfg, q2.cfg, r1.passes.cfg, q.cfg])
    rw [P.cfg, hn, if_pos (late h)]
    refine ends_done ⟨.timeout, rfl, by rw [if_pos h], ?_, P.words, ?_⟩
    · have a := P.same
      simp only [h, if_true]
      rw [a]
    · show kinds t2 = _
      rw [kd3, kd2, kd1, kd, decodePrims, if_pos h, if_pos h]
      rfl
  · obtain hs : s.sched = List.replicate 4 [] ++ l := by
      rcases hs with hs | hs
      · exact hs
      · exact absurd hs.2 h
    obtain ⟨u, e, q, st, kd, hu⟩ := idle_slot (n := 3) hs
    refine ends_andThen (checkClearError_slot_err e (q.platform p) (by rw [q.ctrl]; exact hr)
      (calm_of_idle hu) (by rw [q.flags]; exact fun x => h (flagsCode_ok.2 x)))
      fun k1 t1 ⟨hk1, d, _, kd1, _⟩ => ?_
    rw [q.flags] at hk1
    rw [if_pos (by rw [hk1]; exact h)]
    refine ends_done ⟨k1, rfl, by rw [if_neg h, hk1], ?_, d.words.trans q.words, ?_⟩
    · have a := d.same
      rw [clearAll_cleared, q.flags] at a
      have b := q.same
      simp only [h, if_false]
      rw [a, b]
    · show kinds t1 = _
      rw [kd1, kd, decodePrims, if_neg h, if_neg h]
      rfl

/-- RECEIVE with space and time for its word, the environment raising the flags `w` behind its wait for
space and nothing else (R192, R194, R195). -/
theorem receive_raise {s : State} {w : BitVec 7} {rest : List (List EnvMove)} {dst : ByteDst}
    {len : Nat} (hl : len ≠ 0) (h256 : len ≤ 256) (p : Platform s)
    (hr : s.ctrl.getLsbD bitRST = false) (hf : noErrorFlag s.flags) (hd : s.cfg.fifoDepth ≤ 7)
    (hsp : s.txf.length < s.cfg.fifoDepth) (he : firstElapsed (tickTimer s) ≤ s.cfg.tPoll)
    (hs : s.sched = List.replicate 5 [] ++ [.raiseFlags w] :: (List.replicate 4 [] ++ rest))
    (late : flagsCode (rxFlags s.cfg (s.flags.raiseW1C w)) = .ok →
      s.cfg.tPoll < elapsedAfter 3 s) :
    Ends (receive dst len s) fun k t => k = rxCode s.cfg (s.flags.raiseW1C w) ∧ t = { s with
        work := t.work
        phase := .error
        result := k
        flags := rxEndFlags s.cfg (s.flags.raiseW1C w)
        txf := if rxErrs s.cfg (s.flags.raiseW1C w) then []
          else s.txf ++ [(receiveWord len).setWidth 11]
        rxf := if rxErrs s.cfg (s.flags.raiseW1C w) then [] else s.rxf
        timer := t.timer
        sched := t.sched
        ticks := t.ticks
        draws := t.draws
        trace := t.trace } ∧
      wordsOf t.trace = wordsOf s.trace ++ [receiveWord len] ∧
      kinds t = (rxPassPrims s.cfg (s.flags.raiseW1C w)).reverse ++
        .now :: .rd .status :: .rd .fifostat :: .now :: .now :: kinds s := by
  obtain ⟨m, rfl⟩ : ∃ m, len = m + 1 := Nat.exists_eq_succ_of_ne_zero hl
  unfold receive
  rw [if_neg hl, if_neg (by omega)]
  have pl0 : Platform { s with phase := .transferring } := ⟨p.clockOn, p.aligned⟩
  obtain ⟨u1, e1, q1, st1, kd1, hs1⟩ :=
    idle_slot (n := 4) (s := { s with phase := .transferring }) hs
  refine ends_andThen (now_slot e1) fun t0 t1 ⟨r1, h1, tk1, kn1⟩ => ?_
  have P1 := q1.trans r1.passes
  have S1 : SameTime (tickTimer s) t1 := by
    have a : SameTime (tickTimer s) (tickTimer u1) :=
      SameTime.tick (s := s) (t := u1) ⟨st1.timer, st1.ticks⟩
    exact a.trans ⟨tk1.1, tk1.2⟩
  have cf1 : t1.cfg = s.cfg := P1.cfg
  have fe1 := firstElapsed_congr S1 (cf1.trans (tickTimer_cfg s).symm)
  refine ends_andThen (waitTxSpace_idle (n := 0) (s := t1)
    (rest := [.raiseFlags w] :: (List.replicate 4 [] ++ rest)) (P1.platform pl0)
    (by rw [P1.flags]; exact hf) (by rw [cf1]; exact hd) (by rw [P1.txf, cf1]; exact hsp)
    (by rw [fe1, cf1]; exact he) (by rw [r1.sched, hs1])) fun k2 t2 ⟨hk2, p2, tk2, kd2, hs2⟩ => ?_
  rw [if_neg (by rw [hk2]; simp)]
  have P2 := P1.trans p2
  let a3 := note (fun w => { w with t0 := some t0 }) t2
  have P3 : Passes { s with phase := .transferring } a3 := P2.trans (passes_note _ rfl)
  let u3 : State := { a3 with
    sched := List.replicate 4 [] ++ rest, flags := a3.flags.raiseW1C w }
  have e3 : envSlot a3 = .next u3 := envSlot_raise hs2 (by rw [P3.ctrl]; exact hr)
  have cf3 : u3.cfg = s.cfg := P3.cfg
  have fl3 : u3.flags = s.flags.raiseW1C w := congrArg (fun f => Status.raiseW1C f w) P3.flags
  obtain ⟨t4, e4, same4, st4, w4, kd4, hs4⟩ := rxClear_queue (len := m + 1) (rest := rest) e3 rfl
    (by have := P3.platform pl0; exact ⟨this.clockOn, this.aligned⟩)
    (by show a3.ctrl.getLsbD bitRST = false; rw [P3.ctrl]; exact hr)
    (by show a3.txf.length < a3.cfg.fifoDepth; rw [P3.txf, P3.cfg]; exact hsp) rfl
  have cf4 : t4.cfg = s.cfg := by rw [same4]; exact cf3
  have fl4 : t4.flags = rxFlags s.cfg (s.flags.raiseW1C w) := by rw [same4, ← cf3, ← fl3]
  have assoc : ∀ k : State → Run Code,
      andThen (rxClear a3) (fun _ s => andThen (regWrite .txcmd (receiveWord (m + 1)) s) fun _ s => k s) =
        andThen (andThen (rxClear a3) fun _ s => regWrite .txcmd (receiveWord (m + 1)) s)
          fun _ s => k s := by
    intro k
    cases rxClear a3 <;> rfl
  rw [assoc, e4, andThen_done]
  unfold rxLoop
  have pl4 : Platform (note (fun w => { w with i := some 0 }) t4) := by
    have := P3.platform pl0
    rw [same4]
    exact ⟨this.clockOn, this.aligned⟩
  have T4 : SameTime (afterReads 3 s) t4 := by
    have b := (S1.tick.tick.trans ⟨tk2.1, tk2.2⟩ : SameTime (afterReads 3 s) t2)
    exact b.trans ⟨st4.timer, st4.ticks⟩
  have ht0 : t0 = timerCount (tickTimer s) := by
    rw [h1]
    exact timerCount_congr (SameTime.tick (s := s) (t := u1) ⟨st1.timer, st1.ticks⟩).timer (by
      rw [tickTimer_cfg, tickTimer_cfg]; exact q1.cfg)
  refine ends_andThen (rxPoll_ends (m := t4.ticks.length + t4.cfg.tPoll + 1) pl4
    (by rw [same4]; show a3.ctrl.getLsbD bitRST = false; rw [P3.ctrl]; exact hr) hs4 (by
      intro h
      have h' : flagsCode t4.flags = .ok := h
      rw [fl4] at h'
      have L := late h'
      have c : timerCount (tickTimer (note (fun w => { w with i := some 0 }) t4)) =
          timerCount (afterReads 4 s) :=
        timerCount_congr (SameTime.tick (s := afterReads 3 s)
          (t := note (fun w => { w with i := some 0 }) t4) ⟨T4.timer, T4.ticks⟩).timer (by
            rw [tickTimer_cfg, afterReads_cfg]; exact cf4)
      show t4.cfg.tPoll < elapsed t4.cfg _ t0
      rw [c, cf4, ht0]
      exact L)) fun r t ⟨k, hr5, hk, same5, w5, kd5⟩ => ?_
  rw [hr5]
  have hE : rxErrs s.cfg (s.flags.raiseW1C w) = decide (flagsCode t4.flags ≠ .ok) := by
    rw [fl4]; rfl
  have hk' : k = if flagsCode t4.flags = .ok then .timeout else flagsCode t4.flags := hk
  have kd5' : kinds t = (decodePrims t4.flags ++
      if flagsCode t4.flags = Code.ok then [Prim.now] else []).reverse ++ kinds t4 := kd5
  refine ends_done ⟨?_, ?_, ?_, ?_⟩
  · rw [hk', rxCode, hE, ← fl4]
    by_cases h : flagsCode t4.flags = .ok <;> simp [h]
  · have b := P3.same
    rw [rxEndFlags, hE, ← fl4]
    by_cases h : flagsCode t4.flags = .ok
    · have h' : flagsCode (note (fun w => { w with i := some 0 }) t4).flags = .ok := h
      simp only [h', if_true] at same5
      simp only [h, ne_eq, not_true_eq_false, decide_false, Bool.false_eq_true, if_false]
      rw [same5, fl4]
      dsimp only [note]
      rw [same4, cf3, fl3]
      dsimp only [u3]
      rw [b]
    · have h' : ¬ flagsCode (note (fun w => { w with i := some 0 }) t4).flags = .ok := h
      simp only [h', if_false] at same5
      simp only [h, ne_eq, not_false_eq_true, decide_true, if_true]
      rw [same5, fl4]
      dsimp only [note]
      rw [same4]
      dsimp only [u3]
      rw [b]
  · rw [w5]
    show wordsOf t4.trace = _
    rw [w4]
    show wordsOf a3.trace ++ _ = _
    rw [P3.words]
  · rw [kd5', kd4, rxPassPrims, hE, ← fl4, cf3]
    show _ ++ Prim.wr .txcmd :: (_ ++ kinds t2) = _
    rw [kd2, kn1, kd1]
    by_cases h : flagsCode t4.flags = .ok <;> cases s.cfg.rxClear <;> simp [h] <;> rfl

/-! ### An error decoded in the wait for space -/

/-- WAIT_TX_SPACE behind the environment's turn `u` with an error flag set, calm from there on: the error is
decoded in the first iteration, before the timer and the space are looked at (R210, R335). -/
theorem waitTxSpace_err {s u : State} (e : envSlot s = .next u) (p : Platform u)
    (hr : u.ctrl.getLsbD bitRST = false) (c : Calm 5 u) (hf : ¬ noErrorFlag u.flags)
    (hd : u.cfg.fifoDepth ≤ 7) (hb : u.txf.length ≤ u.cfg.fifoDepth) :
    Ends (waitTxSpace s) fun k t => k = flagsCode u.flags ∧ k ≠ .ok ∧ Cleared u t ∧
      kinds t = (decodePrims u.flags).reverse ++ .rd .fifostat :: .now :: kinds u := by
  have herr : ¬ flagsCode u.flags = .ok := fun h => hf (flagsCode_ok.1 h)
  unfold waitTxSpace
  refine ends_andThen (now_slot e) fun t0 t1 ⟨r1, _, _, kd1⟩ => ?_
  rw [show pollFuel t1.cfg.tPoll t1 = (t1.ticks.length + t1.cfg.tPoll + 1) + 1 from rfl]
  unfold txWaitLoop
  have rn1 := r1.trans (reads_note (fun w => { w with t0 := some t0 }) rfl)
  obtain ⟨u1, e1, p1, _, c1, q1⟩ := calm_slot (n := 4) (rn1.calm c)
  have P1 := rn1.passes.trans p1
  refine ends_andThen (regRead_slot e1 (P1.platform p) (r := .fifostat) (by simp [readable])
    (by simp)) fun f t2 ⟨r2, _, sh2, kd2⟩ => ?_
  have P2 := P1.trans r2.passes
  have hlen : txCount f = u.txf.length := by
    have hfv : f = .exact (fifostatWord t2) := sh2
    rw [hfv, txCount_fifostat (by rw [P2.txf]; omega), P2.txf]
  rw [hlen, P2.cfg, if_neg (Nat.not_lt.2 hb)]
  have rn2 := r2.trans (reads_note
    (fun w => { w with space := some (u.cfg.fifoDepth - u.txf.length) }) rfl)
  obtain ⟨u2, e2, p2, _, c2, q2⟩ := calm_slot (n := 3) (rn2.calm c1)
  have P3 := P1.trans (rn2.passes.trans p2)
  refine ends_andThen (checkClearError_slot_err e2 (P3.platform p) (by rw [P3.ctrl]; exact hr) c2
    (by rw [P3.flags]; exact hf)) fun k t3 ⟨hk, d, _, kd3, _⟩ => ?_
  rw [P3.flags] at hk
  rw [if_pos (by rw [hk]; exact herr)]
  refine ends_done ⟨hk, by rw [hk]; exact herr, ⟨?_, d.words.trans P3.words⟩, ?_⟩
  · have a := d.same
    rw [P3.same] at a
    exact a
  · rw [kd3, q2]
    show _ :: _ :: _ :: _ :: kinds t2 = _
    rw [kd2, q1]
    show _ :: _ :: _ :: _ :: _ :: kinds t1 = _
    rw [kd1, decodePrims, if_neg herr]
    rfl

/-- What an operation leaves that a decoded error ends before its first word: `raise` on top of R213. -/
structure Raised (s : State) (k : Code) (t : State) : Prop where
  code : k = flagsCode s.flags
  same : t =
    { s with
      work := t.work
      phase := .error
      result := k
      flags := clearedFlags s.flags
      txf := []
      rxf := []
      timer := t.timer
      sched := t.sched
      ticks := t.ticks
      draws := t.draws
      trace := t.trace }
  words : wordsOf t.trace = wordsOf s.trace

/-- An operation that begins with WAIT_TX_SPACE, in calm, with an error flag set: it ends with that error
(R174, R190, R210). -/
theorem wait_raises {s : State} (p : Platform s) (hr : s.ctrl.getLsbD bitRST = false) (c : Calm 6 s)
    (hf : ¬ noErrorFlag s.flags) (hd : s.cfg.fifoDepth ≤ 7) (hb : s.txf.length ≤ s.cfg.fifoDepth)
    (next : State → Run Code) :
    Ends (andThen (waitTxSpace s) fun e s => if e ≠ .ok then raiseError e s else next s)
      fun k t => Raised s k t ∧
        kinds t = (decodePrims s.flags).reverse ++ .rd .fifostat :: .now :: kinds s := by
  obtain ⟨u, e, q, _, c1, kd⟩ := calm_slot (n := 5) c
  refine ends_andThen (waitTxSpace_err e (q.platform p) (by rw [q.ctrl]; exact hr) c1
    (by rw [q.flags]; exact hf) (by rw [q.cfg]; exact hd) (by rw [q.txf, q.cfg]; exact hb))
    fun k t ⟨hk, hne, d, kt⟩ => ?_
  rw [if_pos hne]
  refine ends_done ⟨⟨by rw [hk, q.flags], ?_, d.words.trans q.words⟩, ?_⟩
  · have a := d.same
    rw [clearAll_cleared, q.flags] at a
    have b := q.same
    rw [a, b]
  · show kinds t = _
    rw [kt, kd, q.flags]

/-- What is no register of the controller and no agent does not disturb the calm. -/
theorem calm_relabel {n : Nat} {s : State} (w : Work) (ph : Phase) (b : Bool) (c : Calm n s) :
    Calm n { s with work := w, phase := ph, bracket := b } := by
  rcases c with ⟨r, h⟩ | ⟨h, r⟩
  · exact .inl ⟨r, h⟩
  · exact .inr ⟨h, r.noWord, r.noStart, r.noAutostop, r.noReceive⟩

/-- SEND of at least one byte in calm, with an error flag set (R190). -/
theorem send_err {s : State} {src : ByteSrc} (hl : srcLen src ≠ 0) (p : Platform s)
    (hr : s.ctrl.getLsbD bitRST = false) (c : Calm 6 s) (hf : ¬ noErrorFlag s.flags)
    (hd : s.cfg.fifoDepth ≤ 7) (hb : s.txf.length ≤ s.cfg.fifoDepth) :
    Ends (send src s) fun k t => Raised s k t ∧
      kinds t = (decodePrims s.flags).reverse ++ .rd .fifostat :: .now :: kinds s := by
  obtain ⟨m, hm⟩ : ∃ m, srcLen src = m + 1 := Nat.exists_eq_succ_of_ne_zero hl
  unfold send
  rw [hm]
  unfold sendLoop
  refine ends_mono (wait_raises (s := { s with work := { s.work with i := some 0 }, phase := .transferring })
    ⟨p.clockOn, p.aligned⟩ hr (calm_relabel _ _ s.bracket c) hf hd hb _) fun k t ⟨R, kt⟩ => ?_
  exact ⟨⟨R.code, by have a := R.same; rw [a], R.words⟩, kt⟩

/-- STOP in calm, with an error flag set: no stop word is written (R174). -/
theorem stop_err {s : State} (p : Platform s)
    (hr : s.ctrl.getLsbD bitRST = false) (c : Calm 6 s) (hf : ¬ noErrorFlag s.flags)
    (hd : s.cfg.fifoDepth ≤ 7) (hb : s.txf.length ≤ s.cfg.fifoDepth) :
    Ends (stop s) fun k t => Raised { s with bracket := false } k t ∧
      kinds t = (decodePrims s.flags).reverse ++ .rd .fifostat :: .now :: kinds s := by
  unfold stop
  refine ends_mono (wait_raises (s := { s with phase := .stop, bracket := false })
    ⟨p.clockOn, p.aligned⟩ hr (calm_relabel s.work _ _ c) hf hd hb _) fun k t ⟨R, kt⟩ => ?_
  exact ⟨⟨R.code, by have a := R.same; rw [a], R.words⟩, kt⟩

/-- RECEIVE of 1 to 256 bytes in calm, with an error flag set: no receive word is written (R192). -/
theorem receive_err {s : State} {dst : ByteDst} {len : Nat} (hl : len ≠ 0) (h256 : len ≤ 256)
    (p : Platform s) (hr : s.ctrl.getLsbD bitRST = false) (c : Calm 7 s) (hf : ¬ noErrorFlag s.flags)
    (hd : s.cfg.fifoDepth ≤ 7) (hb : s.txf.length ≤ s.cfg.fifoDepth) :
    Ends (receive dst len s) fun k t => Raised s k t ∧
      kinds t = (decodePrims s.flags).reverse ++ .rd .fifostat :: .now :: .now :: kinds s := by
  unfold receive
  rw [if_neg hl, if_neg (by omega)]
  obtain ⟨u, e, q, _, c1, kd⟩ := calm_slot (n := 6)
    (s := { s with phase := .transferring }) (calm_relabel s.work _ s.bracket c)
  refine ends_andThen (now_slot e) fun t0 t1 ⟨r1, _, _, kd1⟩ => ?_
  have P := q.trans r1.passes
  refine ends_mono (wait_raises (P.platform ⟨p.clockOn, p.aligned⟩) (by rw [P.ctrl]; exact hr)
    (r1.calm c1) (by rw [P.flags]; exact hf) (by rw [P.cfg]; exact hd)
    (by rw [P.txf, P.cfg]; exact hb) _) fun k t ⟨R, kt⟩ => ?_
  refine ⟨⟨by rw [R.code, P.flags], ?_, R.words.trans P.words⟩, ?_⟩
  · have a := R.same
    have b := P.same
    rw [P.flags] at a
    rw [a, b]
  · rw [kt, P.flags, kd1, kd]
    rfl

/-- START on a bus that is not stuck, the environment raising the flags `w`, an error among them, behind
its clear and before its wait for space: it ends with that error, auto-stop disabled and no word queued
(R171, R210). -/
theorem start_raise {s : State} {w : BitVec 7} {rest : List (List EnvMove)} (p : Platform s)
    (hr : s.ctrl.getLsbD bitRST = false) (hb : ¬ busStuck s)
    (hf : ¬ noErrorFlag ((s.flags.clearW1C clearAll).raiseW1C w)) (hd : s.cfg.fifoDepth ≤ 7)
    (hl : s.txf.length ≤ s.cfg.fifoDepth)
    (hs : s.sched = List.replicate 4 [] ++ [.raiseFlags w] :: (List.replicate 5 [] ++ rest))
    (a : BitVec 7) (d : Dir) :
    Ends (start a d s) fun k t => Raised { s with
        cfg1 := startCfg1 s.cfg1, flags := (s.flags.clearW1C clearAll).raiseW1C w } k t ∧
      kinds t = (decodePrims ((s.flags.clearW1C clearAll).raiseW1C w)).reverse ++
        [.rd .fifostat, .now, .wr .cfg1, .rd .cfg1, .wr .status, .rd .status] ++ kinds s := by
  obtain ⟨u, e, q, _, kd, hu⟩ := idle_slot (n := 3) hs
  obtain ⟨v, t1, e1, r1, _, sh1, k1⟩ :=
    regRead_slot e (q.platform p) (r := .status) (by simp [readable]) (by simp)
  have hst : stuckOf v = false := by
    rw [stuck_shows (f := t1.flags) sh1, r1.passes.flags, q.flags]
    unfold busStuck at hb
    cases h1 : s.flags.bbf <;> cases h2 : s.flags.mbf <;> simp_all
  let x1 := note (fun w => { w with s := some v.word, stuck := some (stuckOf v) }) t1
  have Q1 : Passes s x1 := q.trans (r1.passes.trans (passes_note _ rfl))
  have e2 : start a d s = queueStart a d x1 := by
    unfold start recoverBus checkStuck
    rw [e1, andThen_next, andThen_done, if_neg (by rw [hst]; simp), andThen_done, if_neg (by simp)]
  rw [e2]
  unfold queueStart
  -- the clear
  obtain ⟨u2, e3, q2, _, kd2, hu2⟩ := idle_slot (n := 2) (s := x1) (r1.sched.trans hu)
  have Q2 := Q1.trans q2
  rw [regWrite_status_slot e3 (Q2.platform p), andThen_done]
  -- auto-stop off
  obtain ⟨u3, e4, q3, _, kd3, hu3⟩ := idle_slot (n := 1) (s := logged (.wr .status clearAll)
    { u2 with flags := u2.flags.clearW1C clearAll }) hu2
  have pl2 := Q2.platform p
  obtain ⟨v4, t4, e4', r4, _, sh4, k4⟩ := regRead_slot e4 (q3.platform ⟨pl2.clockOn, pl2.aligned⟩)
    (r := .cfg1) (by simp [readable]) (by simp)
  rw [e4', andThen_next]
  have Q4 := q3.trans r4.passes
  have hv : v4.word &&& ~~~autostopMask = startCfg1 s.cfg1 := by
    have h : v4 = .exact t4.cfg1 := sh4
    rw [h, RdWord.exact_word, Q4.cfg1]
    show startCfg1 u2.cfg1 = _
    rw [Q2.cfg1]
  rw [hv]
  obtain ⟨u5, e5, q5, _, kd5, hu5⟩ := idle_slot (n := 0) (s := t4) (r4.sched.trans hu3)
  have Q5 := Q4.trans q5
  have pl5 : Platform u5 := Q5.platform ⟨pl2.clockOn, pl2.aligned⟩
  have hr5 : u5.ctrl.getLsbD bitRST = false := by
    rw [Q5.ctrl]; show u2.ctrl.getLsbD bitRST = false; rw [Q2.ctrl]; exact hr
  rw [regWrite_cfg1_slot e5 pl5 hr5, andThen_done]
  -- the wait
  let x5 := logged (.wr .cfg1 (startCfg1 s.cfg1)) { u5 with cfg1 := startCfg1 s.cfg1 }
  have fl5 : u5.flags = s.flags.clearW1C clearAll := by
    rw [Q5.flags]; show u2.flags.clearW1C clearAll = _; rw [Q2.flags]
  have cf5 : u5.cfg = s.cfg := Q5.cfg.trans Q2.cfg
  have tx5 : u5.txf = s.txf := Q5.txf.trans Q2.txf
  let x6 : State := { x5 with
    sched := List.replicate 5 [] ++ rest, flags := u5.flags.raiseW1C w }
  have e6 : envSlot x5 = .next x6 := envSlot_raise hu5 hr5
  have fl6 : x6.flags = (s.flags.clearW1C clearAll).raiseW1C w :=
    congrArg (fun f => Status.raiseW1C f w) fl5
  refine ends_andThen (waitTxSpace_err e6 ⟨pl5.clockOn, pl5.aligned⟩ hr5 (calm_of_idle rfl)
    (by rw [fl6]; exact hf) (by show u5.cfg.fifoDepth ≤ 7; rw [cf5]; exact hd)
    (by show u5.txf.length ≤ u5.cfg.fifoDepth; rw [tx5, cf5]; exact hl))
    fun k t ⟨hk, hne, D, kt⟩ => ?_
  rw [if_pos hne]
  refine ends_done ⟨⟨by rw [hk, fl6], ?_, ?_⟩, ?_⟩
  · have h1 := D.same
    rw [clearAll_cleared, fl6] at h1
    have h2 := Q5.same
    have h3 := Q2.same
    rw [h1]
    dsimp only [x6, x5, logged]
    rw [h2]
    dsimp only [logged]
    rw [h3]
  · show wordsOf t.trace = _
    rw [D.words]
    show wordsOf (_ :: u5.trace) = _
    rw [wordsOf_cons, Q5.words, logged_trace, wordsOf_cons]
    simp [txcmdWord, Q2.words]
  · show kinds t = _
    rw [kt, fl6]
    show _ ++ Prim.rd .fifostat :: Prim.now :: Prim.wr .cfg1 :: kinds u5 = _
    rw [kd5, k4, kd3]
    show _ ++ _ :: _ :: _ :: _ :: Prim.wr .status :: kinds u2 = _
    rw [kd2]
    show _ ++ _ :: _ :: _ :: _ :: _ :: kinds t1 = _
    rw [k1, kd]
    simp

end Sys2Proof.Machine
end

