-- ==== Sys2Proof/Tests/Slice0.lean ====
section
/-! SUPPORT. Tests of the model. Expected values come from the spec: the encodings of
spec/30_encoding.md, the worked examples of the rules, the vectors of spec/95_test_vectors.md. Behind
them, for every statement with premises, a state and operands that meet them. -/

namespace Sys2Proof.Tests

open Sys2Proof.Machine

set_option Elab.async false

/-! ### Well-formedness: a legal term passes, an ill-formed one is refused -/

theorem test_wf_msg : Msg.wf ⟨0x7F#16, 1#16, 5#32, 0#32⟩ = true := by decide
theorem test_wf_msg_address : Msg.wf ⟨0x80#16, 0#16, 5#32, 0#32⟩ = false := by decide
theorem test_wf_msg_flags : Msg.wf ⟨0x52#16, 2#16, 5#32, 0#32⟩ = false := by decide
theorem test_wf_msg_flags_high : Msg.wf ⟨0x52#16, 0x8001#16, 5#32, 0#32⟩ = false := by decide
theorem test_wf_chip : Chip.wf ⟨0x50#7, 4#3, 7#7, 6#8⟩ = true := by decide
theorem test_wf_chip_width : Chip.wf ⟨0x50#7, 5#3, 7#7, 0#8⟩ = false := by decide
theorem test_wf_chip_flag0 : Chip.wf ⟨0x50#7, 1#3, 7#7, 1#8⟩ = false := by decide
theorem test_wf_chip_flag3 : Chip.wf ⟨0x50#7, 1#3, 7#7, 8#8⟩ = false := by decide
theorem test_wf_transfer : Instr.wf (.transfer [⟨0x80#16, 0#16, 0#32, 0#32⟩]) = false := by decide
theorem test_wf_chip_requests :
    Instr.wf (.chipRead ⟨0#7, 5#3, 0#7, 0#8⟩ 0#32 0#32 0#32) = false ∧
    Instr.wf (.chipWrite ⟨0#7, 6#3, 0#7, 0#8⟩ 0#32 0#32 0#32) = false ∧
    Instr.wf (.crc32Region ⟨0#7, 7#3, 0#7, 0#8⟩ 0#32 0#32 0#32) = false ∧
    Instr.wf (.setupOffset ⟨0#7, 1#3, 0#7, 0x80#8⟩ 0#32) = false := by decide

/-! ### Decoding of words written out from R104 and R116 -/

theorem test_decode_init :
    decode .request [0x00#8, 0xA0#8, 0x86#8, 0x01#8, 0x00#8] = .ok (.init 100000#32) [] := by decide
theorem test_decode_speedSet :
    decode .request [0x01#8, 0x80#8, 0x1A#8, 0x06#8, 0x00#8] = .ok (.speedSet 400000#32) [] := by
  decide
theorem test_decode_start :
    decode .request [0x02#8, 0x52#8, 0x01#8] = .ok (.start 0x52#7 .read) [] := by decide
theorem test_decode_stop : decode .request [0x03#8] = .ok .stop [] := by decide
theorem test_decode_send : decode .request
    [0x04#8, 0x78#8, 0x56#8, 0x34#8, 0x12#8, 0x05#8, 0x00#8, 0x00#8, 0x00#8] =
      .ok (.send 0x12345678#32 5#32) [] := by decide
theorem test_decode_receive : decode .request
    [0x05#8, 0x00#8, 0x10#8, 0x00#8, 0x00#8, 0x00#8, 0x01#8, 0x00#8, 0x00#8] =
      .ok (.receive 0x1000#32 256#32) [] := by decide
theorem test_decode_transfer : decode .request
    [0x06#8, 0x01#8, 0x00#8, 0x00#8, 0x00#8,
      0x52#8, 0x00#8, 0x01#8, 0x00#8, 0x02#8, 0x00#8, 0x00#8, 0x00#8, 0x00#8, 0x20#8, 0x00#8, 0x00#8] =
      .ok (.transfer [⟨0x52#16, 1#16, 2#32, 0x2000#32⟩]) [] := by decide
theorem test_decode_chipRead : decode .request
    [0x07#8, 0x50#8, 0x01#8, 0x07#8, 0x02#8, 0xA5#8, 0x02#8, 0x00#8, 0x00#8,
      0x00#8, 0x20#8, 0x00#8, 0x00#8, 0x02#8, 0x00#8, 0x00#8, 0x00#8] =
      .ok (.chipRead ⟨0x50#7, 1#3, 7#7, 2#8⟩ 0x2A5#32 0x2000#32 2#32) [] := by decide
theorem test_decode_chipWrite : decode .request
    [0x08#8, 0x52#8, 0x01#8, 0x00#8, 0x04#8, 0x20#8, 0x00#8, 0x00#8, 0x00#8,
      0x00#8, 0x10#8, 0x00#8, 0x00#8, 0x02#8, 0x00#8, 0x00#8, 0x00#8] =
      .ok (.chipWrite ⟨0x52#7, 1#3, 0#7, 4#8⟩ 0x20#32 0x1000#32 2#32) [] := by decide
theorem test_decode_crc32Region : decode .request
    [0x09#8, 0x52#8, 0x01#8, 0x00#8, 0x00#8, 0x40#8, 0x00#8, 0x00#8, 0x00#8,
      0x09#8, 0x00#8, 0x00#8, 0x00#8, 0x26#8, 0x39#8, 0xF4#8, 0xCB#8] =
      .ok (.crc32Region ⟨0x52#7, 1#3, 0#7, 0#8⟩ 0x40#32 9#32 0xCBF43926#32) [] := by decide
theorem test_decode_validateMagic :
    decode .request [0x0A#8, 0x44#8, 0x54#8] = .ok (.validateMagic 0x44#8 0x54#8) [] := by decide
theorem test_decode_waitTxSpace : decode .request [0x10#8] = .ok .waitTxSpace [] := by decide
theorem test_decode_checkClearError : decode .request [0x11#8] = .ok .checkClearError [] := by decide
theorem test_decode_checkStuck : decode .request [0x12#8] = .ok .checkStuck [] := by decide
theorem test_decode_setupOffset : decode .request
    [0x13#8, 0x50#8, 0x02#8, 0x01#8, 0x00#8, 0xCD#8, 0xAB#8, 0x01#8, 0x00#8] =
      .ok (.setupOffset ⟨0x50#7, 2#3, 1#7, 0#8⟩ 0x1ABCD#32) [] := by decide
theorem test_decode_crc32Update : decode .request
    [0x14#8, 0xB7#8, 0xEF#8, 0xDC#8, 0x83#8, 0x32#8] =
      .ok (.crc32Update 0x83DCEFB7#32 0x32#8) [] := by decide
theorem test_decode_cmdTxdata : decode .command [0xFF#8, 0x00#8] = .ok (.cmdTxdata 0xFF#8) [] := by
  decide
theorem test_decode_cmdReceive : decode .command [0xFF#8, 0x01#8] = .ok (.cmdReceive 0xFF#8) [] := by
  decide
theorem test_decode_cmdStop : decode .command [0x00#8, 0x02#8] = .ok .cmdStop [] := by decide
theorem test_decode_cmdStart : decode .command [0x21#8, 0x04#8] = .ok (.cmdStart 0x10#7 .read) [] := by
  decide

/-- R105, R116: what is reserved is refused by name. -/
theorem test_decode_reserved :
    decode .command [0x00#8, 0x03#8] = .bad .reservedCommand ∧
    decode .command [0x00#8, 0x07#8] = .bad .reservedCommand ∧
    decode .request [0x0B#8] = .bad .reservedOpcode ∧
    decode .request [0x1F#8] = .bad .reservedOpcode ∧
    decode .request [0x02#8, 0x80#8, 0x00#8] = .bad .illegalOperand ∧
    decode .request [0x02#8, 0x52#8] = .bad .truncated := by decide

/-- The rows of the opcode table, each with the mnemonic's instruction and zero operands. -/
theorem test_table_rows :
    decodeTableWord 8 0x00 = some (.init 0#32) ∧ decodeTableWord 8 0x01 = some (.speedSet 0#32) ∧
    decodeTableWord 8 0x02 = some (.start 0#7 .write) ∧ decodeTableWord 8 0x03 = some .stop ∧
    decodeTableWord 8 0x04 = some (.send 0#32 0#32) ∧
    decodeTableWord 8 0x05 = some (.receive 0#32 0#32) ∧
    decodeTableWord 8 0x06 = some (.transfer []) ∧
    decodeTableWord 8 0x0A = some (.validateMagic 0#8 0#8) ∧
    decodeTableWord 8 0x10 = some .waitTxSpace ∧ decodeTableWord 8 0x14 = some (.crc32Update 0#32 0#8) ∧
    decodeTableWord 16 0x4A5 = some (.cmdStart 0x52#7 .read) ∧
    decodeTableWord 16 0x200 = some .cmdStop := by decide

/-! ### States -/

/-- A state reached behind a successful `INIT 100000` (vector P1): the bus is free, the EEPROM of the
platform attached, the engine the nominal one. -/
def ready : State :=
  { State.reset with
    ctrl := 5#4, inited := true, phase := .initialized, cfg1 := 2#32, clkcfg := 0x09131326#32
    handle := ⟨0#8, 0#32, 100000#32⟩ }

/-- `ready` with this master on the bus, the EEPROM addressed, in this direction. -/
def onBus (d : Dir) : State :=
  { ready with
    flags := { Status.clear with mbf := true, bbf := true }
    engine := ⟨decide (d = .read), 0, none⟩
    target := some { Target.platform with addressed := true }
    bracket := true }

/-- `ready` with another agent on the bus. -/
def stuckBus : State := { ready with flags := { Status.clear with bbf := true } }

/-- An engine that does nothing at the next 18 primitives. -/
def asleep (s : State) : State := { s with sched := List.replicate 18 [] }

/-- An EEPROM of 2048 bytes that folds three offset bits into its address, three bytes written. -/
def folding : Target :=
  { Target.platform with
    addr := 0x50#7, mask := 7#7, size := 2048
    mem := [⟨0xFF, 0x11#8⟩, ⟨0x100, 0x22#8⟩, ⟨0x2A5, 0x33#8⟩] }

/-- Its chip descriptor in block mode, and in bytewise mode. -/
def chipF : Chip := ⟨0x50#7, 1#3, 7#7, 0#8⟩
def chipB : Chip := ⟨0x50#7, 1#3, 7#7, 6#8⟩

/-- Does the outcome go on, in a state with this property? -/
def goes (o : Host.Outcome State Fault Refusal) (p : State → Bool) : Bool :=
  match o with
  | .next t => p t
  | .fault _ => false
  | .refused _ => false

/-- The writes among the primitives, in order. -/
def writesOf (s : State) : List Access :=
  s.trace.reverse.filter fun a => match a with
    | .wr _ _ => true
    | .rd _ _ => false
    | .now _ => false

/-! ### Table words as the first instruction after reset (R339, R361) -/

/-- Admitted before the first INIT: INIT, SPEED_SET, VALIDATE_MAGIC and the micro-operations. -/
theorem test_fetch_requests :
    ([0x00, 0x01, 0x0A, 0x10, 0x11, 0x12, 0x13, 0x14].all fun w =>
      goes (step (State.reset.withFetchWord 8 w)) fun _ => true) = true := by decide +kernel

/-- Not admitted before it: the operations on the bus. -/
theorem test_fetch_turned_away :
    ([0x02, 0x03, 0x04, 0x05, 0x06, 0x07, 0x08, 0x09].all fun w =>
      match step (State.reset.withFetchWord 8 w) with
      | .next _ => false
      | .fault _ => false
      | .refused r => decide (r = .notInitialised)) = true := by
  decide +kernel

/-- The command words, taken by the engine. -/
theorem test_fetch_commands :
    ([0x000, 0x100, 0x200, 0x400].all fun w =>
      goes (step (State.reset.withFetchWord 16 w)) fun t => t.txf.isEmpty) = true := by
  decide +kernel

/-! ### One step of each instruction -/

/-- R140, worked example. -/
theorem test_init : goes (exec (.init 100000#32) State.reset) (fun t =>
    decide (writesOf t = [.wr .ctrl 2#32, .wr .ctrl 0#32, .wr .ctrl 4#32, .wr .cfg0 0#32,
      .wr .cfg1 0#32, .wr .ctrl 4#32, .wr .clkcfg 0x09131326#32, .wr .cfg1 2#32, .wr .ctrl 5#32]) &&
    decide (t.phase = .initialized)) = true := by decide +kernel
/-- Vector 2.1: `INIT 100000` with no source clock. -/
theorem test_init_no_clock :
    goes (exec (.init 100000#32) { State.reset with cfg := { Config.default with clockSrc := 0#32 } })
      (fun t => decide (t.trace.reverse = [.wr .ctrl 2#32, .wr .ctrl 0#32, .wr .ctrl 4#32,
        .rd .cfg0 0#32, .wr .cfg0 0#32, .rd .cfg1 0#32, .wr .cfg1 0#32, .rd .ctrl 4#32,
        .wr .ctrl 5#32]) && decide (t.result = .divider)) = true := by decide +kernel
/-- Vector 2.1: `SPEED_SET 400000` on a running controller. -/
theorem test_speedSet : goes (exec (.speedSet 400000#32) ready) (fun t =>
    decide (t.trace.reverse = [.rd .ctrl 5#32, .wr .ctrl 4#32, .wr .clkcfg 0x04090912#32,
      .rd .cfg1 2#32, .wr .cfg1 1#32, .rd .ctrl 4#32, .wr .ctrl 5#32]) &&
    decide (t.handle.rate = 400000#32)) = true := by decide +kernel
/-- Vector 2.1: the master is off on entry and stays off. -/
theorem test_speedSet_master_off :
    goes (exec (.speedSet 187500#32) { ready with ctrl := 4#4 }) (fun t =>
      decide (writesOf t = [.wr .ctrl 4#32, .wr .clkcfg 0x050A0A14#32, .wr .cfg1 2#32]) &&
      decide (t.ctrl = 4#4)) = true := by decide +kernel
/-- Vector 2.5, repeated start behind a word the engine has not taken, auto-stop on. -/
theorem test_start :
    goes (exec (.start 0x52#7 .read) (asleep { onBus .write with
        cfg1 := 0x102#32, txf := [0x004#11], timer := 5, ticks := [0, 1] })) (fun t =>
      decide (t.trace.reverse = [.rd .status 0x03000000#32, .wr .status 0x7F00#32,
        .rd .cfg1 0x102#32, .wr .cfg1 2#32, .now 5, .rd .fifostat 1#32, .rd .status 0x03000000#32,
        .now 6, .wr .txcmd 0x4A5#32]) && decide (t.phase = .start)) = true := by decide +kernel
/-- Vector 2.5: `ALF` set by the engine after the clear. -/
theorem test_start_arbitration_lost :
    goes (exec (.start 0x52#7 .write) { ready with
        sched := [[], [], [], [], [], [], [.raiseFlags 8#7]], ticks := [0] }) (fun t =>
      decide (t.trace.reverse = [.rd .status 0#32, .wr .status 0x7F00#32, .rd .cfg1 2#32,
        .wr .cfg1 2#32, .now 0, .rd .fifostat 0#32, .rd .status 0x800#32, .wr .status 0x7F00#32,
        .rd .ctrl 5#32, .wr .ctrl 0x305#32]) && decide (t.result = .arbLost)) = true := by
  decide +kernel
/-- Vector 2.6, first row. -/
theorem test_stop : goes (exec .stop { onBus .write with ticks := [0, 1, 1] }) (fun t =>
    decide (t.trace.reverse = [.now 0, .rd .fifostat 0#32, .rd .status 0x03000000#32, .now 1,
      .wr .txcmd 0x200#32, .now 2, .rd .status 0x200#32, .wr .status 0x200#32]) &&
    decide (t.phase = .idle)) = true := by decide +kernel
/-- Vector 2.6: the engine never stops. -/
theorem test_stop_timeout :
    goes (exec .stop (asleep { onBus .write with ticks := [0, 400, 400, 400, 400, 400] })) (fun t =>
      decide (t.trace.take 1 = [.now 2000]) && decide (t.trace.length = 12) &&
      decide (t.result = .timeout) && decide (t.phase = .error)) = true := by decide +kernel
/-- R190, worked example. -/
theorem test_send :
    goes (exec (.send 0x100#32 1#32) (asleep { onBus .write with
        txf := [0x4A4#11], timer := 1010, ticks := [0, 0] })) (fun t =>
      decide (t.trace.reverse = [.now 1010, .rd .fifostat 1#32, .rd .status 0x03000000#32, .now 1010,
        .wr .txcmd 0#32]) && decide (t.phase = .transferring)) = true := by decide +kernel
/-- Vector 2.7: `NDF` found at the second byte's wait. -/
theorem test_send_nack :
    goes (exec (.send 0x100#32 2#32) { onBus .write with
        mem := [⟨0x100, 0xAA#8⟩, ⟨0x101, 0xBB#8⟩]
        sched := [[], [], [], [], [], [.raiseFlags 4#7]] }) (fun t =>
      decide (txWritten t = [0xAA#32]) && decide (t.result = .nack) && decide (t.txf = [])) = true := by
  decide +kernel
/-- R192, worked example: the engine delivers 0x44, then 0x54. -/
theorem test_receive :
    goes (exec (.receive 0x200#32 2#32) { onBus .read with
        timer := 2000, ticks := [0, 0, 0, 1, 89, 90]
        sched := List.replicate 11 [] ++ [[.take, .deliver 0x44#8], [], [], [.deliver 0x54#8]] })
      (fun t => decide (t.trace.reverse = [.now 2000, .now 2000, .rd .fifostat 0#32,
        .rd .status 0x03000000#32, .now 2000, .wr .txcmd 0x101#32,
        .rd .status 0x03000000#32, .now 2001, .rd .rxdata 0x4000#32,
        .rd .status 0x03000000#32, .now 2090, .rd .rxdata 0x44#32,
        .rd .status 0x03000000#32, .now 2180, .rd .rxdata 0x54#32]) &&
        decide (t.mem = [⟨0x200, 0x44#8⟩, ⟨0x201, 0x54#8⟩])) = true := by decide +kernel
/-- Vector 2.7: no byte comes, timer 0, 0, 0, 60000, 100001. -/
theorem test_receive_timeout :
    goes (exec (.receive 0x200#32 2#32) (asleep { onBus .read with ticks := [0, 0, 0, 60000, 40001] }))
      (fun t => decide (t.trace.take 2 = [.now 100001, .rd .status 0x03000000#32]) &&
        decide (t.result = .timeout) && decide (t.mem = [])) = true := by decide +kernel
/-- R230, worked example. -/
theorem test_transfer :
    goes (exec (.transfer [⟨0x52#16, 0#16, 1#32, 0x100#32⟩, ⟨0x52#16, 1#16, 2#32, 0x200#32⟩])
        { ready with target := some { Target.platform with mem := [⟨0, 0x44#8⟩, ⟨1, 0x54#8⟩] } })
      (fun t => decide (txWritten t = [0x4A4#32, 0x000#32, 0x4A5#32, 0x101#32, 0x200#32]) &&
        decide (t.result = .ok) && decide (t.mem = [⟨0x200, 0x44#8⟩, ⟨0x201, 0x54#8⟩])) = true := by
  decide +kernel
/-- Vector 2.8: a failed read message does not end the loop; the error stays. -/
theorem test_transfer_first_error :
    goes (exec (.transfer [⟨0x10#16, 1#16, 1#32, 0x200#32⟩, ⟨0x52#16, 0#16, 2#32, 0x100#32⟩])
        { ready with mem := [⟨0x100, 0x30#8⟩, ⟨0x101, 0x99#8⟩] })
      (fun t => decide (txWritten t = [0x421#32, 0x4A4#32, 0x030#32, 0x099#32, 0x200#32]) &&
        decide (t.result = .nack) && decide (t.phase = .idle) &&
        decide (t.target.map Target.mem = some [⟨0x30, 0x99#8⟩])) = true := by decide +kernel
/-- Vector 2.9: folded address bits. -/
theorem test_chipRead :
    goes (exec (.chipRead chipF 0x2A5#32 0x200#32 2#32) { ready with target := some folding }) (fun t =>
      decide (txWritten t = [0x4A4#32, 0x0A5#32, 0x4A5#32, 0x101#32, 0x200#32]) &&
      decide (t.mem = [⟨0x200, 0x33#8⟩])) = true := by decide +kernel
/-- Vector 2.9: bytewise, the folded address moves at the boundary. -/
theorem test_chipRead_bytewise :
    goes (exec (.chipRead chipB 0xFF#32 0x200#32 2#32) { ready with target := some folding }) (fun t =>
      decide (txWritten t = [0x4A0#32, 0x0FF#32, 0x4A1#32, 0x100#32, 0x200#32,
        0x4A2#32, 0x000#32, 0x4A3#32, 0x100#32, 0x200#32]) &&
      decide (t.mem = [⟨0x200, 0x11#8⟩, ⟨0x201, 0x22#8⟩])) = true := by decide +kernel
/-- R253, worked example. -/
theorem test_chipWrite :
    goes (exec (.chipWrite chip0 0x20#32 0x100#32 2#32)
        { ready with mem := [⟨0x100, 0xDE#8⟩, ⟨0x101, 0xAD#8⟩] }) (fun t =>
      decide (txWritten t = [0x4A4#32, 0x020#32, 0x0DE#32, 0x0AD#32, 0x200#32]) &&
      decide (t.target.map Target.mem = some [⟨0x20, 0xDE#8⟩, ⟨0x21, 0xAD#8⟩])) = true := by
  decide +kernel
/-- R254, worked example. -/
theorem test_chipWrite_bytewise :
    goes (exec (.chipWrite ⟨0x52#7, 1#3, 0#7, 4#8⟩ 0x20#32 0x100#32 2#32)
        { ready with mem := [⟨0x100, 0xDE#8⟩, ⟨0x101, 0xAD#8⟩] }) (fun t =>
      decide (txWritten t = [0x4A4#32, 0x020#32, 0x0DE#32, 0x200#32,
        0x4A4#32, 0x021#32, 0x0AD#32, 0x200#32])) = true := by decide +kernel

/-- A target with the bytes 31 to 39 at 0x40 to 0x48. -/
def nineBytes : State :=
  { ready with target := some { Target.platform with
      mem := (List.range 9).map fun i => ⟨0x40 + i, BitVec.ofNat 8 (0x31 + i)⟩ } }

/-- R281, worked example. -/
theorem test_crc32Region : goes (exec (.crc32Region chip0 0x40#32 9#32 0xCBF43926#32) nineBytes)
    (fun t => decide (t.result = .ok)) = true := by decide +kernel
theorem test_crc32Region_mismatch :
    goes (exec (.crc32Region chip0 0x40#32 9#32 0xCBF43927#32) nineBytes)
      (fun t => decide (t.result = .crc)) = true := by decide +kernel
/-- R283. -/
theorem test_validateMagic : goes (exec (.validateMagic 0x44#8 0x54#8) ready)
    (fun t => decide (t.result = .ok)) = true := by decide +kernel
theorem test_validateMagic_swapped : goes (exec (.validateMagic 0x54#8 0x44#8) ready)
    (fun t => decide (t.result = .magic) && decide (t.phase = .initialized)) = true := by
  decide +kernel
/-- Vector 2.3: an elapsed time equal to the budget does not fail. -/
theorem test_waitTxSpace : goes (exec .waitTxSpace (asleep { ready with ticks := [0, 100000] }))
    (fun t => decide (t.result = .ok)) = true := by decide +kernel
/-- Vector 2.3: timer 0, 50000, 100001 with a full FIFO: two iterations. -/
theorem test_waitTxSpace_timeout :
    goes (exec .waitTxSpace (asleep { ready with
        txf := [0#11, 0#11, 0#11, 0#11], ticks := [0, 50000, 50001] })) (fun t =>
      decide (t.trace.reverse = [.now 0, .rd .fifostat 4#32, .rd .status 0#32, .now 50000,
        .rd .fifostat 4#32, .rd .status 0#32, .now 100001]) && decide (t.result = .timeout)) = true := by
  decide +kernel
/-- R211, worked example. -/
theorem test_checkClearError :
    goes (exec .checkClearError (asleep { onBus .write with
        flags := { Status.clear with ndf := true, alf := true, mbf := true, bbf := true } })) (fun t =>
      decide (t.trace.reverse = [.rd .status 0x03000C00#32, .wr .status 0x7F00#32, .rd .ctrl 5#32,
        .wr .ctrl 0x305#32]) && decide (t.result = .arbLost) && decide (t.ctrl = 5#4)) = true := by
  decide +kernel
/-- Vector 2.4: `SDF` alone is no error and stays. -/
theorem test_checkClearError_none :
    goes (exec .checkClearError { ready with flags := { Status.clear with sdf := true } }) (fun t =>
      decide (t.trace = [.rd .status 0x200#32]) && t.flags.sdf && decide (t.result = .ok)) = true := by
  decide +kernel
/-- R170, worked example. -/
theorem test_checkStuck : goes (exec .checkStuck stuckBus)
    (fun t => decide (t.work.stuck = some true)) = true := by decide +kernel
theorem test_checkStuck_owned : goes (exec .checkStuck (onBus .write))
    (fun t => decide (t.work.stuck = some false)) = true := by decide +kernel
/-- Vector 2.2. -/
theorem test_setupOffset : goes (exec (.setupOffset chipF 0x2A5#32) ready) (fun t =>
    decide (t.work.msgs = some [.write 0x52#7 (.bytes [0xA5#8])]) &&
    decide (t.work.zeroWidth = some false)) = true := by decide +kernel
theorem test_setupOffset_zero_width :
    goes (exec (.setupOffset ⟨0x50#7, 0#3, 7#7, 0#8⟩ 0x0D#32) ready) (fun t =>
      decide (t.work.msgs = some [.write 0x55#7 (.bytes [])]) &&
      decide (t.work.zeroWidth = some true)) = true := by decide +kernel
/-- R280, worked example: the first step, and the nine bytes in the two other readings. -/
theorem test_crc32Update : goes (exec (.crc32Update 0#32 0x31#8) ready)
    (fun t => decide (t.work.crc = some 0x83DCEFB7#32)) = true := by decide +kernel
theorem test_crc32Update_variants :
    ([0x31#8, 0x32#8, 0x33#8, 0x34#8, 0x35#8, 0x36#8, 0x37#8, 0x38#8, 0x39#8].foldl
      (crcUpdate .raw0) 0#32 = 0x2DFD2D88#32) ∧
    ([0x31#8, 0x32#8, 0x33#8, 0x34#8, 0x35#8, 0x36#8, 0x37#8, 0x38#8, 0x39#8].foldl
      (crcUpdate .msb0) 0#32 = 0x89A1897F#32) := by decide +kernel
/-- R301: a byte nobody acknowledges. -/
theorem test_cmdTxdata_nack :
    goes (exec (.cmdTxdata 0x55#8) { onBus .write with txf := [0x055#11], target := none }) (fun t =>
      t.flags.ndf && t.flags.sdf && !t.flags.mbf && decide (t.txf = [])) = true := by decide +kernel
/-- R301, R308: the first byte behind a start loads the pointer. -/
theorem test_cmdTxdata : goes (exec (.cmdTxdata 0x30#8) { onBus .write with txf := [0x030#11] })
    (fun t => decide (t.target.map Target.ptr = some 0x30) && decide (t.target.map Target.mem = some []))
      = true := by decide +kernel
/-- R302: six bytes into a FIFO of four; two are to come. -/
theorem test_cmdReceive : goes (exec (.cmdReceive 5#8) { onBus .read with txf := [0x105#11] }) (fun t =>
    decide (t.rxf.length = 4) && decide (t.engine.recvLeft = 2)) = true := by decide +kernel
/-- R303. -/
theorem test_cmdStop : goes (exec .cmdStop { onBus .read with txf := [0x200#11] }) (fun t =>
    t.flags.sdf && !t.flags.mbf && !t.flags.bbf) = true := by decide +kernel
theorem test_cmdStop_dropped : goes (exec .cmdStop { ready with txf := [0x200#11] }) (fun t =>
    !t.flags.sdf && decide (t.txf = [])) = true := by decide +kernel
/-- R304: no target at 0x10; on a bus another agent holds the start waits. -/
theorem test_cmdStart_nack : goes (exec (.cmdStart 0x10#7 .read) { ready with txf := [0x421#11] })
    (fun t => decide (t.flags.word = 0x600#32)) = true := by decide +kernel
theorem test_cmdStart_waits : goes (exec (.cmdStart 0x52#7 .write) { stuckBus with txf := [0x4A4#11] })
    (fun t => decide (t.engine.pendingStart = some 0xA4#8) && !t.flags.mbf) = true := by decide +kernel

/-! ### Premises met: the conditions of the statements as tests -/

/-- `Inv`, evaluated. -/
def invOk (s : State) : Bool :=
  decide (1 ≤ s.cfg.fifoDepth ∧ s.cfg.fifoDepth ≤ 7 ∧ s.cfg.tPoll + 1 < 2 ^ s.cfg.timerBits ∧
    s.cfg.tStop + 1 < 2 ^ s.cfg.timerBits ∧ s.txf.length ≤ s.cfg.fifoDepth ∧
    s.rxf.length ≤ s.cfg.fifoDepth ∧ s.mier = 0#32 ∧ s.ctrl.getLsbD bitRST = false) &&
  s.txf.all (fun w => (decodeCmd w).isSome) && s.mem.wf &&
  (match s.target with
    | some e => e.mem.wf
    | none => true)

theorem inv_of_ok {s : State} (h : invOk s = true) : Inv s := by
  unfold invOk at h
  simp only [Bool.and_eq_true, decide_eq_true_eq, List.all_eq_true] at h
  obtain ⟨⟨⟨⟨h1, h2, h3, h4, h5, h6, h7, h8⟩, h9⟩, h10⟩, h11⟩ := h
  refine ⟨⟨⟨h1, h2, h3, h4⟩, h5, h6, h9, h7, h10, fun e he => ?_⟩, h8⟩
  rw [he] at h11
  exact h11

/-- `EngineRests`, evaluated. -/
def restsOk (s : State) : Bool :=
  decide (s.txf = [] ∧ s.engine.pendingStart = none ∧
    (s.cfg1.getLsbD bitAUTOSTOP = false ∨ s.flags.mbf = false) ∧
    (s.engine.recvLeft = 0 ∨ s.cfg.fifoDepth ≤ s.rxf.length))

theorem rests_of_ok {s : State} (h : restsOk s = true) : EngineRests s := by
  unfold restsOk at h
  simp only [decide_eq_true_eq] at h
  exact ⟨h.1, h.2.1, h.2.2.1, h.2.2.2⟩

/-- `BusReady`, evaluated. -/
def busReadyOk (s : State) (e : Target) : Bool :=
  restsOk s && engineOn s &&
    decide (s.rxf = [] ∧ s.target = some e ∧ ¬ (s.flags.bbf = true ∧ s.flags.mbf = false))

theorem busReady_of_ok {s : State} {e : Target} (h : busReadyOk s e = true) : BusReady s e := by
  unfold busReadyOk at h
  simp only [Bool.and_eq_true, decide_eq_true_eq] at h
  exact ⟨h.1.2, rests_of_ok h.1.1, h.2.1, h.2.2.1, h.2.2.2⟩

/-- `InBracket`, evaluated. -/
def inBracketOk (d : Dir) (s : State) (e : Target) : Bool :=
  busReadyOk s e && decide (s.flags.mbf = true ∧ s.engine.dirRead = decide (d = .read) ∧
    e.addressed = true ∧ s.flags.pltf = false ∧ s.flags.alf = false ∧ s.flags.ndf = false ∧
    s.flags.fef = false)

theorem inBracket_of_ok {d : Dir} {s : State} {e : Target} (h : inBracketOk d s e = true) :
    InBracket d s e := by
  unfold inBracketOk at h
  simp only [Bool.and_eq_true, decide_eq_true_eq] at h
  obtain ⟨h1, h2, h3, h4, h5⟩ := h
  exact ⟨busReady_of_ok h1, h2, h3, h4, h5⟩

theorem calm_rests {s : State} (n : Nat) (h : s.sched = []) (r : restsOk s = true) : Calm n s :=
  .inr ⟨h, rests_of_ok r⟩

theorem calm_asleep (s : State) (n k : Nat) (h : n + k = 18) : Calm n (asleep s) :=
  .inl ⟨List.replicate k [], by
    show List.replicate 18 [] = _
    rw [← h, List.replicate_add]⟩

theorem next_of_goes {o : Host.Outcome State Fault Refusal} {p : State → Bool}
    (h : goes o p = true) : ∃ t, o = .next t ∧ p t = true := by
  cases o with
  | next t => exact ⟨t, rfl, h⟩
  | fault f => exact absurd h (by simp [goes])
  | refused r => exact absurd h (by simp [goes])

theorem inv_ready : Inv ready := inv_of_ok (by decide +kernel)
theorem platform_ready : Platform ready := ⟨rfl, by decide +kernel⟩
theorem nominal_ready : Nominal ready := ⟨rfl, rfl⟩
theorem busReady_ready : BusReady ready Target.platform := busReady_of_ok (by decide +kernel)
theorem answers_ready : dividerAnswers ready.cfg (reinitSpeed ready) := .inr (by decide +kernel)

/-- The EEPROM of `onBus`. -/
def addressedEeprom : Target := { Target.platform with addressed := true }

theorem inv_onBus (d : Dir) : Inv (onBus d) := by
  cases d <;> exact inv_of_ok (by decide +kernel)
theorem platform_onBus (d : Dir) : Platform (onBus d) := ⟨rfl, by
  show (0#32) &&& 3#32 = 0#32; decide⟩
theorem inBracket_onBus (d : Dir) : InBracket d (onBus d) addressedEeprom := by
  cases d <;> exact inBracket_of_ok (by decide +kernel)

/-! ### Witnesses, in the order of the statements -/

/-- One instruction for every constructor, with operands at the edges of their ranges. -/
def samples : List Instr :=
  [.init 100000#32, .speedSet 0#32, .start 0x7F#7 .read, .stop, .send 0xFFFFFFFF#32 0#32,
    .receive 0x200#32 256#32, .transfer [⟨0x7F#16, 1#16, 256#32, 0#32⟩, ⟨0#16, 0#16, 0#32, 0#32⟩],
    .chipRead ⟨0x7F#7, 4#3, 0x7F#7, 6#8⟩ 0xFFFFFFFF#32 0#32 256#32,
    .chipWrite ⟨0#7, 0#3, 0#7, 0#8⟩ 0#32 0#32 65535#32,
    .crc32Region ⟨0x50#7, 1#3, 7#7, 2#8⟩ 0#32 1#32 0#32, .validateMagic 0x44#8 0x54#8, .waitTxSpace,
    .checkClearError, .checkStuck, .setupOffset ⟨0x50#7, 4#3, 7#7, 0#8⟩ 1#32,
    .crc32Update 0#32 0#8, .cmdTxdata 0xFF#8, .cmdReceive 0xFF#8, .cmdStop, .cmdStart 0#7 .write]

theorem test_witness_DecodeEncode : ∀ i ∈ samples, i.wf = true := by decide
theorem test_witness_CommandWordCodes : decodeCmd 0x0FF#11 = some (.txdata 0xFF#8) ∧
    decodeCmd 0x1FF#11 = some (.receive 0xFF#8) ∧ decodeCmd 0x2FF#11 = some .stop ∧
    decodeCmd 0x4FF#11 = some (.start 0x7F#7 .read) := by decide
theorem test_witness_ReservedRequestsRefused :
    (∀ op ∈ [0x0B#8, 0x0F#8, 0x15#8, 0x1F#8],
      (0x0B ≤ op.toNat ∧ op.toNat ≤ 0x0F) ∨ (0x15 ≤ op.toNat ∧ op.toNat ≤ 0x1F)) ∧
    decode .request [0x10#8] = .ok .waitTxSpace [] ∧ Instr.isMicro .waitTxSpace = true := by decide

/-- `ready` whose host does this next. -/
def asked (a : HostAct) : State := { ready with host := [a] }

theorem test_witness_StepRunsInstruction :
    (asked (.request [0x0A#8, 0#8, 0#8])).host = .request [0x0A#8, 0#8, 0#8] :: [] ∧
    decode .request [0x0A#8, 0#8, 0#8] = .ok (.validateMagic 0#8 0#8) [] ∧
    Instr.isMicro (.validateMagic 0#8 0#8) = false ∧
    (asked (.micro [0x12#8])).host = .micro [0x12#8] :: [] ∧
    decode .request [0x12#8] = .ok .checkStuck [] ∧ Instr.isMicro .checkStuck = true ∧
    nextEntry { ready with txf := [0x4A4#11] } = some 0x4A4#11 ∧
    decodeCmd 0x4A4#11 = some (.start 0x52#7 .write) ∧ ready.host = [] ∧ nextEntry ready = none ∧
    (asked (.loadHandle 1#8 0x40#32)).host = .loadHandle 1#8 0x40#32 :: [] ∧
    (asked (.loadChip chipF)).host = .loadChip chipF :: [] ∧
    (asked (.loadBytes 0#32 [1#8])).host = .loadBytes 0#32 [1#8] :: [] := by decide +kernel
theorem test_witness_InvariantKept : ∃ t, Inv (asked (.request [0x02#8, 0x52#8, 0#8])) ∧
    step (asked (.request [0x02#8, 0x52#8, 0#8])) = .next t := by
  obtain ⟨t, e, -⟩ := next_of_goes (o := step (asked (.request [0x02#8, 0x52#8, 0#8])))
    (p := fun _ => true) (by decide +kernel)
  exact ⟨t, inv_of_ok (by decide +kernel), e⟩
theorem test_witness_InstructionFrame :
    ∃ t, Inv (onBus .read) ∧ exec (.receive 0x200#32 2#32) (onBus .read) = .next t ∧
      (onBus .read).inited = true ∧ outsideOf (.receive 0x200#32 2#32) 0x202 := by
  obtain ⟨t, e, -⟩ := next_of_goes (o := exec (.receive 0x200#32 2#32) (onBus .read))
    (p := fun _ => true) (by decide +kernel)
  refine ⟨t, inv_onBus _, e, rfl, ?_⟩
  show ∀ i, i < 2 → 0x202 ≠ hostAddr 0x200#32 i
  decide
theorem test_witness_ConfigurationFrame :
    (∃ t, Inv (onBus .write) ∧ exec .stop (onBus .write) = .next t ∧ configUse .stop = .none) ∧
    ∃ t, Inv ready ∧ exec (.start 0x52#7 .write) ready = .next t ∧
      configUse (.start 0x52#7 .write) = .restarts ∧ ¬ reinited t := by
  constructor
  · obtain ⟨t, e, -⟩ := next_of_goes (o := exec .stop (onBus .write)) (p := fun _ => true)
      (by decide +kernel)
    exact ⟨t, inv_onBus _, e, rfl⟩
  · obtain ⟨t, e, h⟩ := next_of_goes (o := exec (.start 0x52#7 .write) ready)
      (p := fun t => decide (Access.wr .ctrl ctrlResetWord ∉ t.trace)) (by decide +kernel)
    exact ⟨t, inv_ready, e, rfl, by unfold reinited; exact of_decide_eq_true h⟩
theorem test_witness_WorkingRegistersEmpty : ∃ t, Instr.space .stop = .request ∧
    Instr.isMicro .stop = false ∧ exec .stop (onBus .write) = .next t := by
  obtain ⟨t, e, -⟩ := next_of_goes (o := exec .stop (onBus .write)) (p := fun _ => true)
    (by decide +kernel)
  exact ⟨t, rfl, rfl, e⟩
theorem test_witness_NothingBlocks :
    Inv ready ∧ Platform ready ∧ (∀ i ∈ samples, i.wf = true ∧ admitted i ready) := by
  refine ⟨inv_ready, platform_ready, fun i hi => ⟨test_witness_DecodeEncode i hi, ?_⟩⟩
  simp only [samples, List.mem_cons, List.not_mem_nil, or_false] at hi
  rcases hi with rfl | rfl | rfl | rfl | rfl | rfl | rfl | rfl | rfl | rfl | rfl | rfl | rfl | rfl |
    rfl | rfl | rfl | rfl | rfl | rfl
  · exact .inr (by decide +kernel)
  · exact ⟨rfl, .inr (by decide +kernel)⟩
  · exact ⟨rfl, answers_ready⟩
  · exact rfl
  · exact rfl
  · exact ⟨rfl, by decide⟩
  · refine ⟨rfl, answers_ready, fun m hm => ?_⟩
    simp only [List.mem_cons, List.not_mem_nil, or_false] at hm
    rcases hm with rfl | rfl
    · show (256#32).toNat ≤ 256; decide
    · trivial
  · exact ⟨rfl, answers_ready, .inl (by decide)⟩
  · exact ⟨rfl, answers_ready, by decide +kernel⟩
  · exact ⟨rfl, answers_ready⟩
  all_goals trivial

theorem test_witness_DividerOptimal : (dividerSearch 24000000 100000).chosen = true ∧
    (dividerSearch 8 0xFFFFFFFF).chosen = true ∧
    1 ∈ [1, 2, 4, 8, 16, 32, 64, 128] ∧ 128 ∈ [1, 2, 4, 8, 16, 32, 64, 128] := by decide +kernel
theorem test_witness_DividerFirst : (dividerSearch 24000000 187500).chosen = true ∧
    (1, 1) ∈ allPairs ∧ before (1, 1) ((dividerSearch 24000000 187500).bestP,
      (dividerSearch 24000000 187500).bestC) := by
  refine ⟨by decide +kernel, by decide +kernel, .inl ?_⟩
  decide +kernel
theorem test_witness_SpeedSetDone : Inv ready ∧ Platform ready ∧ ready.bracket = false ∧
    ready.cfg.clockSrc ≠ 0#32 ∧ ¬ (ready.cfg.clockSrc.toNat < 8 ∧ 400000#32 = 0xFFFFFFFF#32) :=
  ⟨inv_ready, platform_ready, rfl, by decide +kernel, by decide +kernel⟩

/-- `ready` with another source clock. -/
def clocked (clk : Word) : State := { ready with cfg := { Config.default with clockSrc := clk } }

theorem inv_clocked (clk : Word) : Inv (clocked clk) :=
  ⟨⟨inv_ready.core.cfgValid, inv_ready.core.txBound, inv_ready.core.rxBound, inv_ready.core.txLegal,
    inv_ready.core.noInterrupt, inv_ready.core.memWf, inv_ready.core.targetMemWf⟩, inv_ready.notReset⟩

theorem test_witness_SpeedSetNoClock :
    (clocked 0#32).bracket = false ∧ (clocked 0#32).cfg.clockSrc = 0#32 := ⟨rfl, rfl⟩
theorem test_witness_SpeedSetRefused : (onBus .write).bracket = true ∧
    (Inv (clocked 7#32) ∧ Platform (clocked 7#32) ∧ (clocked 7#32).cfg.clockSrc ≠ 0#32 ∧
      (clocked 7#32).cfg.clockSrc.toNat < 8 ∧ (clocked 7#32).bracket = false) :=
  ⟨rfl, inv_clocked _, ⟨rfl, by decide +kernel⟩, by decide +kernel, by decide +kernel, rfl⟩
theorem test_witness_InitDone : Inv State.reset ∧ Platform State.reset ∧
    State.reset.cfg.clockSrc ≠ 0#32 ∧
    ¬ (State.reset.cfg.clockSrc.toNat < 8 ∧ 100000#32 = 0xFFFFFFFF#32) :=
  ⟨inv_of_ok (by decide +kernel), ⟨rfl, by decide +kernel⟩, by decide +kernel, by decide +kernel⟩
theorem test_witness_InitNoClock : Inv (clocked 0#32) ∧ Platform (clocked 0#32) ∧
    (clocked 0#32).cfg.clockSrc = 0#32 := ⟨inv_clocked _, ⟨rfl, by decide +kernel⟩, rfl⟩
theorem test_witness_CheckStuckReads : Inv stuckBus ∧ Platform stuckBus :=
  ⟨inv_of_ok (by decide +kernel), ⟨rfl, by decide +kernel⟩⟩

/-- `ready` with three words the sleeping engine has not taken and a timer at the budget. -/
def nearlyFull : State :=
  asleep { ready with txf := [0x4A4#11, 0x000#11, 0x001#11], ticks := [0, 100000] }

theorem test_witness_StartQueues : Inv nearlyFull ∧ Platform nearlyFull ∧
    nearlyFull.inited = true ∧ Calm 9 nearlyFull ∧ ¬ busStuck nearlyFull ∧
    nearlyFull.txf.length < nearlyFull.cfg.fifoDepth ∧ firstElapsed nearlyFull = nearlyFull.cfg.tPoll :=
  ⟨inv_of_ok (by decide +kernel), ⟨rfl, by decide +kernel⟩, rfl, calm_asleep _ 9 9 rfl,
    fun h => absurd h.1 (by decide +kernel), by decide +kernel, by decide +kernel⟩

/-- `ready` with a full transmit FIFO and a timer one tick beyond the budget at each later read. -/
def late : State :=
  asleep { ready with
    txf := [0x4A4#11, 0x000#11, 0x001#11, 0x002#11], ticks := [0, 100001, 100001] }

theorem test_witness_LateTimer : Inv late ∧ Platform late ∧ late.inited = true ∧ Calm 9 late ∧
    noErrorFlag late.flags ∧ ¬ busStuck late ∧ late.cfg.tPoll + 1 = firstElapsed late ∧
    late.cfg.tPoll + 1 = firstElapsed (tickTimer late) ∧ 1#32 ≠ 0#32 ∧ 256#32 ≠ 0#32 ∧
    (256#32).toNat ≤ 256 :=
  ⟨inv_of_ok (by decide +kernel), ⟨rfl, by decide +kernel⟩, rfl, calm_asleep _ 9 9 rfl,
    ⟨rfl, rfl, rfl, rfl⟩, fun h => absurd h.1 (by decide +kernel), by decide +kernel,
    by decide +kernel, by decide, by decide, by decide⟩
theorem test_witness_StartStuck : Inv stuckBus ∧ Platform stuckBus ∧ stuckBus.inited = true ∧
    Calm 18 stuckBus ∧ busStuck stuckBus ∧ dividerAnswers stuckBus.cfg (reinitSpeed stuckBus) :=
  ⟨inv_of_ok (by decide +kernel), ⟨rfl, by decide +kernel⟩, rfl,
    calm_rests _ rfl (by decide +kernel), ⟨rfl, rfl⟩, answers_ready⟩
/-- A NACK raised behind START's clear; the transmit FIFO is full and the timer past the budget. -/
theorem test_witness_StartAny_exact :
    Inv { late with sched := List.replicate 4 [] ++ [.raiseFlags 4#7] :: (List.replicate 5 [] ++ []) } ∧
    Platform late ∧ late.inited = true ∧ ¬ busStuck late ∧
    flagsCode ((late.flags.clearW1C clearAll).raiseW1C 4#7) = .nack ∧
    late.txf.length = late.cfg.fifoDepth ∧ late.cfg.tPoll < firstElapsed late :=
  ⟨inv_of_ok (by decide +kernel), ⟨rfl, by decide +kernel⟩, rfl,
    fun h => absurd h.1 (by decide +kernel), by decide +kernel, by decide +kernel, by decide +kernel⟩
theorem test_witness_StartAny : Inv ready ∧ Platform ready ∧ ready.inited = true ∧
    dividerAnswers ready.cfg (reinitSpeed ready) :=
  ⟨inv_ready, platform_ready, rfl, answers_ready⟩
theorem test_witness_StopReleases (d : Dir) : Inv (onBus d) ∧ Platform (onBus d) ∧
    (onBus d).inited = true ∧ Nominal (onBus d) ∧ InBracket d (onBus d) addressedEeprom ∧
    1 ≤ (onBus d).cfg.tPoll :=
  ⟨inv_onBus d, platform_onBus d, rfl, ⟨rfl, rfl⟩, inBracket_onBus d, by
    show 1 ≤ 100000; decide⟩
theorem test_witness_StopAny_SendAny (d : Dir) : Inv (onBus d) ∧ Platform (onBus d) ∧
    (onBus d).inited = true := ⟨inv_onBus d, platform_onBus d, rfl⟩

/-- `onBus .write` with these timer advances, the environment raising the flags `w` before a read of the
stop-detect loop: the first, or behind passes that make `n` primitives. -/
def stopping (decode : Bool) (w : BitVec 7) (ticks : List Nat) (n : Nat := 0) : State :=
  { onBus .write with
    cfg := { Config.default with stopDecode := decode }
    sched := List.replicate (6 + n) [] ++ [.raiseFlags w] :: (List.replicate 5 [] ++ [])
    ticks := ticks }

/-- A stop seen after a wait of exactly the budget; none, the timer one past `T_STOP`; and a stop seen
together with a NACK under `P_STOP_DECODE`. -/
theorem test_witness_StopAny :
    (Inv (stopping false 2#7 [0, 100000]) ∧ Platform (stopping false 2#7 [0, 100000]) ∧
      firstElapsed (stopping false 2#7 [0, 100000]) = 100000 ∧
      ((stopping false 2#7 [0, 100000]).flags.raiseW1C 2#7).sdf = true) ∧
    (Inv (stopping false 0#7 [0, 0, 0, 1001]) ∧ Platform (stopping false 0#7 [0, 0, 0, 1001]) ∧
      noErrorFlag (stopping false 0#7 [0, 0, 0, 1001]).flags ∧
      elapsedAfter 1 (afterReads 2 (stopping false 0#7 [0, 0, 0, 1001])) = 1001) ∧
    (Inv (stopping true 6#7 []) ∧ Platform (stopping true 6#7 []) ∧
      firstElapsed (stopping true 6#7 []) ≤ (stopping true 6#7 []).cfg.tPoll ∧
      stopCode (stopping true 6#7 []).cfg ((stopping true 6#7 []).flags.raiseW1C 6#7) = .nack ∧
      (stopping true 6#7 []).txf.length < (stopping true 6#7 []).cfg.fifoDepth ∧
      (stopping true 6#7 []).inited = true ∧ (stopping true 6#7 []).sched =
        List.replicate 6 [] ++ [.raiseFlags 6#7] :: (List.replicate 5 [] ++ [])) :=
  ⟨⟨inv_of_ok (by decide +kernel), ⟨rfl, by decide +kernel⟩, by decide +kernel, by decide +kernel⟩,
    ⟨inv_of_ok (by decide +kernel), ⟨rfl, by decide +kernel⟩, ⟨rfl, rfl, rfl, rfl⟩, by decide +kernel⟩,
    inv_of_ok (by decide +kernel), ⟨rfl, by decide +kernel⟩, by decide +kernel, by decide +kernel,
    by decide +kernel, rfl, rfl⟩
/-- One pass without the stop, the timer exactly at `T_STOP`, and the stop seen in the second (vector 2.6);
with the decode of `P_STOP_DECODE`, the timer one past `T_STOP` in the second pass. -/
theorem test_witness_StopAny_passes :
    (Inv (stopping false 2#7 [0, 0, 0, 1000] 2) ∧ Platform (stopping false 2#7 [0, 0, 0, 1000] 2) ∧
      (stopping false 2#7 [0, 0, 0, 1000] 2).flags.sdf = false ∧
      elapsedAfter 1 (afterReads 2 (stopping false 2#7 [0, 0, 0, 1000] 2)) =
        (stopping false 2#7 [0, 0, 0, 1000] 2).cfg.tStop ∧
      (stopPassPrims (stopping false 2#7 [0, 0, 0, 1000] 2).cfg
        (stopping false 2#7 [0, 0, 0, 1000] 2).flags).length = 2 ∧
      stopCode (stopping false 2#7 [0, 0, 0, 1000] 2).cfg
        ((stopping false 2#7 [0, 0, 0, 1000] 2).flags.raiseW1C 2#7) = .ok) ∧
    (Inv (stopping true 0#7 [0, 0, 0, 1000, 1] 3) ∧ noErrorFlag (stopping true 0#7 [] 3).flags ∧
      elapsedAfter 1 (afterReads 2 (stopping true 0#7 [0, 0, 0, 1000, 1] 3)) = 1000 ∧
      elapsedAfter 2 (afterReads 2 (stopping true 0#7 [0, 0, 0, 1000, 1] 3)) = 1001 ∧
      (stopPassPrims (stopping true 0#7 [] 3).cfg (stopping true 0#7 [] 3).flags).length = 3) :=
  ⟨⟨inv_of_ok (by decide +kernel), ⟨rfl, by decide +kernel⟩, rfl, by decide +kernel,
      by decide +kernel, by decide +kernel⟩,
    inv_of_ok (by decide +kernel), ⟨rfl, rfl, rfl, rfl⟩, by decide +kernel, by decide +kernel,
    by decide +kernel⟩
theorem test_witness_SendDelivers : Inv (onBus .write) ∧ Platform (onBus .write) ∧
    (onBus .write).inited = true ∧ Nominal (onBus .write) ∧
    InBracket .write (onBus .write) addressedEeprom ∧ 1 ≤ (onBus .write).cfg.tPoll :=
  test_witness_StopReleases .write

/-- `onBus .read` with a budget that just suffices for 256 bytes. -/
def tight : State := { onBus .read with cfg := { Config.default with tPoll := 258 } }

theorem test_witness_ReceiveFills : Inv tight ∧ Platform tight ∧ tight.inited = true ∧
    Nominal tight ∧ InBracket .read tight addressedEeprom ∧ 1#32 ≠ 0#32 ∧ 256#32 ≠ 0#32 ∧
    (256#32).toNat ≤ 256 ∧ (256#32).toNat + 2 ≤ tight.cfg.tPoll :=
  ⟨inv_of_ok (by decide +kernel), ⟨rfl, by decide +kernel⟩, rfl, ⟨rfl, rfl⟩,
    inBracket_of_ok (by decide +kernel), by decide, by decide, by decide, by decide +kernel⟩
theorem test_witness_ReceiveAny : Inv tight ∧ Platform tight ∧ tight.inited = true ∧
    1#32 ≠ 0#32 ∧ (1#32).toNat ≤ 256 ∧ (256#32).toNat ≤ 256 :=
  ⟨inv_of_ok (by decide +kernel), ⟨rfl, by decide +kernel⟩, rfl, by decide, by decide, by decide⟩

/-- `onBus .read` with these timer advances, the environment raising the flags `w` behind RECEIVE's wait
for space. -/
def receiving (clear : Bool) (w : BitVec 7) (ticks : List Nat) : State :=
  { onBus .read with
    cfg := { Config.default with rxClear := clear }
    sched := List.replicate 5 [] ++ [.raiseFlags w] :: (List.replicate 4 [] ++ [])
    ticks := ticks }

/-- A NACK behind a wait of exactly the budget; the same flag cleared under `P_RX_CLEAR`, the timer one
past the budget. -/
theorem test_witness_ReceiveAny_exact :
    (Inv (receiving false 4#7 [0, 0, 100000]) ∧ Platform (receiving false 4#7 [0, 0, 100000]) ∧
      noErrorFlag (receiving false 4#7 [0, 0, 100000]).flags ∧
      firstElapsed (tickTimer (receiving false 4#7 [0, 0, 100000])) = 100000 ∧
      rxCode (receiving false 4#7 [0, 0, 100000]).cfg
        ((receiving false 4#7 [0, 0, 100000]).flags.raiseW1C 4#7) = .nack) ∧
    (Inv (receiving true 4#7 [0, 0, 0, 100001]) ∧ Platform (receiving true 4#7 [0, 0, 0, 100001]) ∧
      firstElapsed (tickTimer (receiving true 4#7 [0, 0, 0, 100001])) = 0 ∧
      elapsedAfter 3 (receiving true 4#7 [0, 0, 0, 100001]) = 100001 ∧
      flagsCode (rxFlags (receiving true 4#7 [0, 0, 0, 100001]).cfg
        ((receiving true 4#7 [0, 0, 0, 100001]).flags.raiseW1C 4#7)) = .ok ∧
      (receiving true 4#7 [0, 0, 0, 100001]).txf.length <
        (receiving true 4#7 [0, 0, 0, 100001]).cfg.fifoDepth ∧
      (receiving true 4#7 [0, 0, 0, 100001]).inited = true ∧
      (receiving true 4#7 [0, 0, 0, 100001]).sched =
        List.replicate 5 [] ++ [.raiseFlags 4#7] :: (List.replicate 4 [] ++ [])) :=
  ⟨⟨inv_of_ok (by decide +kernel), ⟨rfl, by decide +kernel⟩, ⟨rfl, rfl, rfl, rfl⟩, by decide +kernel,
    by decide +kernel⟩,
    inv_of_ok (by decide +kernel), ⟨rfl, by decide +kernel⟩, by decide +kernel, by decide +kernel,
    by decide +kernel, by decide +kernel, rfl, rfl⟩
theorem test_witness_ReceiveLengths : Inv ready ∧ Platform ready ∧ ready.inited = true ∧
    256 < (257#32).toNat := ⟨inv_ready, platform_ready, rfl, by decide⟩

/-- Does a part of an operation answer a code with this property? -/
def answersCode (o : Run Code) (p : Code → Bool) : Bool :=
  match o with
  | .next q => p q.1
  | .fault _ => false
  | .refused _ => false

theorem next_of_answers {o : Run Code} {p : Code → Bool} (h : answersCode o p = true) :
    ∃ c t, o = .next (c, t) ∧ p c = true := by
  cases o with
  | next q => exact ⟨q.1, q.2, rfl, h⟩
  | fault f => exact absurd h (by simp [answersCode])
  | refused r => exact absurd h (by simp [answersCode])

/-- `onBus .write` with `ALF` and `NDF` set, the engine asleep. -/
def broken : State :=
  asleep { onBus .write with
    flags := { Status.clear with ndf := true, alf := true, mbf := true, bbf := true } }

/-- STOP, SEND and RECEIVE with an error flag set on entry. -/
theorem test_witness_wait_errors :
    (Inv broken ∧ Platform broken ∧ broken.inited = true ∧ Calm 6 broken ∧ Calm 7 broken ∧
      ¬ noErrorFlag broken.flags ∧ flagsCode broken.flags = .arbLost) ∧
    1#32 ≠ 0#32 ∧ (256#32).toNat ≤ 256 ∧
    ∃ t, waitTxSpace (note (fun w => { w with i := some 0 }) broken) = .next (.arbLost, t) := by
  refine ⟨⟨inv_of_ok (by decide +kernel), ⟨rfl, by decide +kernel⟩, rfl, calm_asleep _ 6 12 rfl,
    calm_asleep _ 7 11 rfl, fun h => absurd h.2.1 (by decide +kernel), by decide +kernel⟩,
    by decide, by decide, ?_⟩
  obtain ⟨c, t, e, h⟩ := next_of_answers (o := waitTxSpace (note (fun w => { w with i := some 0 })
    broken)) (p := fun c => decide (c = .arbLost)) (by decide +kernel)
  exact ⟨t, of_decide_eq_true h ▸ e⟩
theorem test_witness_CheckClearErrorDecodes :
    (Inv broken ∧ Platform broken ∧ Calm 4 broken ∧ ¬ noErrorFlag broken.flags) ∧
    (Inv ready ∧ Platform ready ∧ Calm 4 ready ∧ noErrorFlag ready.flags) :=
  ⟨⟨inv_of_ok (by decide +kernel), ⟨rfl, by decide +kernel⟩, calm_asleep _ 4 14 rfl,
    fun h => absurd h.2.1 (by decide +kernel)⟩,
    inv_ready, platform_ready, calm_rests _ rfl (by decide +kernel), rfl, rfl, rfl, rfl⟩
theorem test_witness_WaitTxSpaceFirstTest :
    (Inv nearlyFull ∧ Platform nearlyFull ∧ Calm 4 nearlyFull ∧ noErrorFlag nearlyFull.flags ∧
      nearlyFull.txf.length < nearlyFull.cfg.fifoDepth) ∧
    (Inv late ∧ Platform late ∧ Calm 4 late ∧ noErrorFlag late.flags ∧
      late.cfg.tPoll < firstElapsed late) :=
  ⟨⟨inv_of_ok (by decide +kernel), ⟨rfl, by decide +kernel⟩, calm_asleep _ 4 14 rfl,
    ⟨rfl, rfl, rfl, rfl⟩, by decide +kernel⟩,
    inv_of_ok (by decide +kernel), ⟨rfl, by decide +kernel⟩, calm_asleep _ 4 14 rfl,
    ⟨rfl, rfl, rfl, rfl⟩, by decide +kernel⟩
theorem test_witness_PollingAny : Inv late ∧ Platform late ∧
    Instr.waitTxSpace ∈ [Instr.waitTxSpace, Instr.checkClearError] ∧
    Instr.checkClearError ∈ [Instr.waitTxSpace, Instr.checkClearError] :=
  ⟨inv_of_ok (by decide +kernel), ⟨rfl, by decide +kernel⟩, by decide, by decide⟩

/-- A write message and a read message for the platform's EEPROM. -/
def twoMsgs : List Msg := [⟨0x52#16, 0#16, 1#32, 0x100#32⟩, ⟨0x52#16, 1#16, 256#32, 0x200#32⟩]

theorem test_witness_TransferBrackets : (Instr.transfer twoMsgs).wf = true ∧ Inv ready ∧
    Platform ready ∧ ready.inited = true ∧ dividerAnswers ready.cfg (reinitSpeed ready) ∧
    ∀ m ∈ twoMsgs, lenLegal (busMsg m) := by
  refine ⟨by decide, inv_ready, platform_ready, rfl, answers_ready, fun m hm => ?_⟩
  simp only [twoMsgs, List.mem_cons, List.not_mem_nil, or_false] at hm
  rcases hm with rfl | rfl
  · trivial
  · show (256#32).toNat ≤ 256; decide

/-- `ready` with two ticks for a stop. -/
def quick : State := { ready with cfg := { Config.default with tStop := 2 } }

/-- One byte of a bytewise read, write or CRC: its transfer, or its read. -/
def oneRead (c : Chip) : Run Code :=
  transfer [offsetMsg c (offsetPlus 0x10#32 1),
      .read (foldedAddr c (offsetPlus 0x10#32 1)) 1 (dstAt (.host 0#32) 1)]
    (setupOffset c (offsetPlus 0x10#32 1) (note (fun w => { w with i := some 1 }) quick))
def oneWrite (c : Chip) : Run Code :=
  transfer [writeMsg c (offsetPlus 0x10#32 0) [quick.mem.read (hostAddr 0#32 0)]]
    (fillStage c (offsetPlus 0x10#32 0) [quick.mem.read (hostAddr 0#32 0)]
      (setupOffset c (offsetPlus 0x10#32 0) (note (fun w => { w with i := some 0 }) quick)))
def oneCrc (c : Chip) : Run Code :=
  chipRead c (offsetPlus 0x10#32 0) .reg 1
    (note (fun w => { w with j := some 0, crc := some 0#32 }) quick)

/-- No target answers `chipB`, the platform's EEPROM answers `chip0`. -/
theorem test_witness_FirstErrorWins_bytewise :
    offsetWidth chipB ≠ 0 ∧ offsetWidth chip0 ≠ 0 ∧ rdBytewise chipB = true ∧ wrBytewise chipB = true ∧
    ([oneRead chipB, oneWrite chipB, oneCrc chipB].all fun o =>
      answersCode o fun r => decide (r = .nack)) = true ∧
    ([oneRead chip0, oneWrite chip0, oneCrc chip0].all fun o =>
      answersCode o fun r => decide (r = .ok)) = true := by decide +kernel
theorem test_witness_FirstErrorWins :
    (∃ r t, runMsg (.write 0x10#7 (.bytes [0#8])) (note (fun w => { w with k := some 0 }) ready) =
      .next (r, t) ∧ r ≠ .ok) ∧
    (∃ r t, runMsg (.read 0x10#7 1 .reg) (note (fun w => { w with k := some 0 }) ready) =
      .next (r, t) ∧ r ≠ .ok) ∧
    (∃ c t, Code.nack ≠ .ok ∧ transferLoop 0 [.write 0x52#7 (.bytes [])] .nack ready = .next (c, t)) ∧
    ∃ ret t rs u, transferLoop 0 [.write 0x52#7 (.bytes [])] .ok (note (fun w => { w with
      ret := some .ok, msgs := some [.write 0x52#7 (.bytes [])] }) ready) = .next (ret, t) ∧
      stop t = .next (rs, u) := by
  refine ⟨?_, ?_, ?_, ?_⟩
  · obtain ⟨c, t, e, h⟩ := next_of_answers (o := runMsg (.write 0x10#7 (.bytes [0#8]))
      (note (fun w => { w with k := some 0 }) ready)) (p := fun c => decide (c ≠ .ok))
      (by decide +kernel)
    exact ⟨c, t, e, of_decide_eq_true h⟩
  · obtain ⟨c, t, e, h⟩ := next_of_answers (o := runMsg (.read 0x10#7 1 .reg)
      (note (fun w => { w with k := some 0 }) ready)) (p := fun c => decide (c ≠ .ok))
      (by decide +kernel)
    exact ⟨c, t, e, of_decide_eq_true h⟩
  · obtain ⟨c, t, e, -⟩ := next_of_answers
      (o := transferLoop 0 [.write 0x52#7 (.bytes [])] .nack ready) (p := fun _ => true)
      (by decide +kernel)
    exact ⟨c, t, by decide, e⟩
  · have h : answersCode (andThen (transferLoop 0 [.write 0x52#7 (.bytes [])] .ok (note (fun w =>
        { w with ret := some .ok, msgs := some [.write 0x52#7 (.bytes [])] }) ready)) fun _ t => stop t)
        (fun _ => true) = true := by decide +kernel
    cases e : transferLoop 0 [.write 0x52#7 (.bytes [])] .ok (note (fun w =>
        { w with ret := some .ok, msgs := some [.write 0x52#7 (.bytes [])] }) ready) with
    | next q =>
      rw [e] at h
      obtain ⟨c, u, e2, -⟩ := next_of_answers h
      exact ⟨q.1, q.2, c, u, rfl, e2⟩
    | fault f => rw [e] at h; exact absurd h (by simp [answersCode, andThen])
    | refused r => rw [e] at h; exact absurd h (by simp [answersCode, andThen])

/-- `ready` with a budget that just suffices for 256 bytes, and for one. -/
def budget (n : Nat) : State := { ready with cfg := { Config.default with tPoll := n } }

theorem test_witness_TransferDelivers : (Instr.transfer twoMsgs).wf = true ∧ twoMsgs ≠ [] ∧
    Inv (budget 258) ∧ Platform (budget 258) ∧ (budget 258).inited = true ∧ Nominal (budget 258) ∧
    BusReady (budget 258) Target.platform ∧
    ∀ m ∈ twoMsgs, msgFits Target.platform (budget 258).cfg (busMsg m) := by
  refine ⟨by decide, by decide, inv_of_ok (by decide +kernel), ⟨rfl, by decide +kernel⟩, rfl,
    ⟨rfl, rfl⟩, busReady_of_ok (by decide +kernel), fun m hm => ?_⟩
  simp only [twoMsgs, List.mem_cons, List.not_mem_nil, or_false] at hm
  rcases hm with rfl | rfl
  · exact ⟨by decide +kernel, by decide +kernel, by decide +kernel⟩
  · exact ⟨by decide +kernel, by decide +kernel, by decide +kernel⟩
theorem test_witness_ChipReadWords : chipB.wf = true ∧ chipF.wf = true ∧ Inv ready ∧
    Platform ready ∧ ready.inited = true ∧ dividerAnswers ready.cfg (reinitSpeed ready) ∧
    rdBytewise chipB = true ∧ (256#32).toNat ≤ 256 :=
  ⟨by decide, by decide, inv_ready, platform_ready, rfl, answers_ready, by decide, by decide⟩

/-- `budget n` with the folding EEPROM attached. -/
def folded (n : Nat) : State := { budget n with target := some folding }

theorem inv_folded : Inv (folded 258) ∧ Inv (folded 3) ∧ Inv (folded 2) :=
  ⟨inv_of_ok (by decide +kernel), inv_of_ok (by decide +kernel), inv_of_ok (by decide +kernel)⟩
theorem platform_folded (n : Nat) : Platform (folded n) := ⟨rfl, by
  show (0#32) &&& 3#32 = 0#32; decide⟩
theorem busReady_folded (n : Nat) : BusReady (folded n) folding := by
  have h : BusReady { ready with target := some folding } folding := busReady_of_ok (by decide +kernel)
  exact ⟨h.on, ⟨h.rests.noWord, h.rests.noStart, h.rests.noAutostop, .inl rfl⟩, h.noReceived,
    h.attached, h.notStuck⟩

theorem test_witness_ChipReadBlock : chipF.wf = true ∧ rdBytewise chipF = false ∧
    (256#32).toNat ≤ 256 ∧ (offsetWidth chipF ≠ 0 ∨ 256#32 ≠ 0#32) ∧ Inv (folded 258) ∧
    Platform (folded 258) ∧ (folded 258).inited = true ∧ Nominal (folded 258) ∧
    BusReady (folded 258) folding ∧ folding.answers (foldedAddr chipF 0x7FF#32) = true ∧
    (256#32).toNat + 2 ≤ (folded 258).cfg.tPoll :=
  ⟨by decide, by decide, by decide, by decide, inv_folded.1, platform_folded _, rfl, ⟨rfl, rfl⟩,
    busReady_folded _, by decide +kernel, by decide +kernel⟩

theorem wired_chips : Wired chipF folding ∧ Wired chipB folding :=
  ⟨⟨rfl, rfl, rfl, by decide +kernel, by decide +kernel⟩,
    ⟨rfl, rfl, rfl, by decide +kernel, by decide +kernel⟩⟩

theorem seen_chips : offsetsSeen chipF 0xFE#32 4 ∧ offsetsSeen chipB 0xFE#32 4 := by
  unfold offsetsSeen offsetSeen
  exact ⟨⟨by decide +kernel, by decide +kernel, by decide +kernel⟩,
    ⟨by decide +kernel, by decide +kernel, by decide +kernel⟩⟩

theorem test_witness_ChipReadEeprom :
    (chipF.wf = true ∧ offsetWidth chipF ≠ 0 ∧ Wired chipF folding ∧
      offsetsSeen chipF 0xFE#32 (4#32).toNat ∧ Inv (folded 258) ∧ Platform (folded 258) ∧
      (folded 258).inited = true ∧ Nominal (folded 258) ∧ BusReady (folded 258) folding ∧
      rdBytewise chipF = false ∧ (4#32).toNat ≤ 256 ∧ (4#32).toNat + 2 ≤ (folded 258).cfg.tPoll) ∧
    (chipB.wf = true ∧ offsetWidth chipB ≠ 0 ∧ Wired chipB folding ∧
      offsetsSeen chipB 0xFE#32 (4#32).toNat ∧ Inv (folded 3) ∧ Platform (folded 3) ∧
      (folded 3).inited = true ∧ Nominal (folded 3) ∧ BusReady (folded 3) folding ∧
      rdBytewise chipB = true ∧ 4#32 ≠ 0#32 ∧ 3 ≤ (folded 3).cfg.tPoll) :=
  ⟨⟨by decide, by decide, wired_chips.1, seen_chips.1, inv_folded.1, platform_folded _, rfl,
    ⟨rfl, rfl⟩, busReady_folded _, by decide, by decide, by decide +kernel⟩,
    by decide, by decide, wired_chips.2, seen_chips.2, inv_folded.2.1, platform_folded _, rfl,
    ⟨rfl, rfl⟩, busReady_folded _, by decide, by decide, by decide +kernel⟩
theorem test_witness_ChipWriteWords : chipF.wf = true ∧ chipB.wf = true ∧ Inv ready ∧
    Platform ready ∧ ready.inited = true ∧ dividerAnswers ready.cfg (reinitSpeed ready) ∧
    (65535#32).toNat ≤ ready.cfg.maxXfer :=
  ⟨by decide, by decide, inv_ready, platform_ready, rfl, answers_ready, by decide +kernel⟩
theorem test_witness_ChipWriteBlock : chipF.wf = true ∧ wrBytewise chipF = false ∧
    (65535#32).toNat ≤ (folded 2).cfg.maxXfer ∧ Inv (folded 2) ∧ Platform (folded 2) ∧
    (folded 2).inited = true ∧ Nominal (folded 2) ∧ BusReady (folded 2) folding ∧
    folding.answers (foldedAddr chipF 0x100#32) = true ∧ 2 ≤ (folded 2).cfg.tPoll :=
  ⟨by decide, by decide, by decide +kernel, inv_folded.2.2, platform_folded _, rfl, ⟨rfl, rfl⟩,
    busReady_folded _, by decide +kernel, by decide +kernel⟩
theorem test_witness_ChipWriteEeprom :
    (chipF.wf = true ∧ offsetWidth chipF ≠ 0 ∧ Wired chipF folding ∧
      offsetsSeen chipF 0xFE#32 (4#32).toNat ∧ wrBytewise chipF = false) ∧
    (chipB.wf = true ∧ offsetWidth chipB ≠ 0 ∧ Wired chipB folding ∧
      offsetsSeen chipB 0xFE#32 (4#32).toNat ∧ wrBytewise chipB = true ∧ 4#32 ≠ 0#32) ∧
    (4#32).toNat ≤ (folded 2).cfg.maxXfer ∧ (4#32).toNat ≤ folding.size ∧ Inv (folded 2) ∧
    Platform (folded 2) ∧ (folded 2).inited = true ∧ Nominal (folded 2) ∧
    BusReady (folded 2) folding ∧ 2 ≤ (folded 2).cfg.tPoll :=
  ⟨⟨by decide, by decide, wired_chips.1, seen_chips.1, by decide⟩,
    ⟨by decide, by decide, wired_chips.2, seen_chips.2, by decide, by decide⟩, by decide +kernel,
    by decide +kernel, inv_folded.2.2, platform_folded _, rfl, ⟨rfl, rfl⟩, busReady_folded _,
    by decide +kernel⟩
theorem test_witness_ZeroWidthBytewise : Chip.wf ⟨0x50#7, 0#3, 7#7, 6#8⟩ = true ∧
    ready.inited = true ∧ offsetWidth ⟨0x50#7, 0#3, 7#7, 6#8⟩ = 0 ∧ 1#32 ≠ 0#32 ∧
    rdBytewise ⟨0x50#7, 0#3, 7#7, 6#8⟩ = true ∧ wrBytewise ⟨0x50#7, 0#3, 7#7, 6#8⟩ = true ∧
    (65535#32).toNat ≤ ready.cfg.maxXfer := by decide +kernel
theorem test_witness_RequestsRefused : State.reset.inited = false ∧ Instr.wf .stop = true ∧
    Msg.wf ⟨0x80#16, 0#16, 0#32, 0#32⟩ = false ∧ Chip.wf ⟨0#7, 5#3, 0#7, 0#8⟩ = false ∧
    chipF.wf = true ∧ ready.inited = true ∧ rdBytewise chipF = false ∧ 256 < (257#32).toNat ∧
    ready.cfg.maxXfer < (65536#32).toNat := by decide +kernel
theorem test_witness_SetupOffsetBuilds : chipF.wf = true ∧ Chip.wf ⟨0x50#7, 0#3, 7#7, 0#8⟩ = true := by
  decide
theorem test_witness_OffsetRoundTrip : (0xFF#32).toNat < 2 ^ (8 * offsetWidth chipF) ∧
    (0#32).toNat < 2 ^ (8 * offsetWidth ⟨0x50#7, 0#3, 7#7, 0#8⟩) ∧
    (0xFFFFFFFF#32).toNat < 2 ^ (8 * offsetWidth ⟨0x50#7, 4#3, 7#7, 0#8⟩) := by decide
theorem test_witness_CrcDetectsOneByte : 0x31#8 ≠ 0x32#8 := by decide
theorem test_witness_Crc32RegionChecks : chipF.wf = true ∧ offsetWidth chipF ≠ 0 ∧
    Wired chipF folding ∧ offsetsSeen chipF 0xFE#32 (4#32).toNat ∧ 4#32 ≠ 0#32 ∧ Inv (folded 3) ∧
    Platform (folded 3) ∧ (folded 3).inited = true ∧ Nominal (folded 3) ∧
    BusReady (folded 3) folding ∧ 3 ≤ (folded 3).cfg.tPoll :=
  ⟨by decide, by decide, wired_chips.1, seen_chips.1, by decide, inv_folded.2.1, platform_folded _,
    rfl, ⟨rfl, rfl⟩, busReady_folded _, by decide +kernel⟩
theorem test_witness_Crc32RegionAny : chipB.wf = true ∧ Inv ready ∧ Platform ready ∧
    ready.inited = true ∧ dividerAnswers ready.cfg (reinitSpeed ready) :=
  ⟨by decide, inv_ready, platform_ready, rfl, answers_ready⟩

/-- The magic bytes at the document's value, and another pair of them. -/
theorem test_witness_ValidateMagicExact : ready.cfg.magic0 = 0x44#8 ∧ ready.cfg.magic1 = 0x54#8 ∧
    magicResult { Config.default with magic0 := 0x54#8, magic1 := 0x44#8 } 0x54#8 0x44#8 = .ok ∧
    magicResult { Config.default with magic0 := 0x54#8, magic1 := 0x44#8 } 0x44#8 0x54#8 = .magic := by
  decide +kernel

/-- This state with one word in the transmit FIFO. -/
def queued (s : State) (w : CmdEntry) : State := { s with txf := [w] }

/-- In a bracket with no target on the bus and `IGNACK = 1`. -/
def deaf (d : Dir) : State := { onBus d with target := none, cfg1 := 0x00000200#32 }

/-- This state with a start in progress, or with bytes of a receive still to come. -/
def waiting (s : State) (a : BitVec 7) (d : Dir) : State :=
  { s with engine := { s.engine with pendingStart := some (addrByte a d) } }
def midReceive (s : State) (n : Nat) : State := { s with engine := { s.engine with recvLeft := n } }

/-- R36, R302, R304: what the engine goes on with. -/
theorem test_witness_engineContinue :
    (engineOn (waiting stuckBus 0x52#7 .write) = true ∧ stuckBus.engine.recvLeft = 0 ∧
      stuckBus.flags.bbf = true ∧ stuckBus.flags.mbf = false) ∧
    (engineOn (waiting ready 0x52#7 .read) = true ∧ ready.flags.bbf = false ∧
      ready.target = some Target.platform ∧ Target.platform.answers 0x52#7 = true ∧
      Target.platform.answers 0x10#7 = false ∧ ready.cfg1.getLsbD bitIGNACK = false) ∧
    ((deaf .write).flags.mbf = true ∧ engineOn (waiting (deaf .write) 0x52#7 .read) = true ∧
      (deaf .write).cfg1.getLsbD bitIGNACK = true ∧ (deaf .write).target = none) ∧
    (engineOn (midReceive (onBus .read) 5) = true ∧
      (midReceive (onBus .read) 5).target = some addressedEeprom ∧
      addressedEeprom.addressed = true ∧ engineOn (midReceive (deaf .read) 1) = true) ∧
    (engineOn { onBus .write with cfg1 := 0x100#32 } = true ∧ (onBus .write).engine.recvLeft = 0 ∧
      (onBus .write).engine.pendingStart = none ∧ (onBus .write).txf = [] ∧
      (0x100#32).getLsbD bitAUTOSTOP = true ∧ (onBus .write).flags.mbf = true ∧
      (onBus .write).cfg1.getLsbD bitAUTOSTOP = false) := by decide +kernel


theorem test_witness_CmdTxdataSends :
    (engineReady (queued (onBus .write) 0x055#11) = true ∧
      (queued (onBus .write) 0x055#11).flags.mbf = true ∧
      (queued (onBus .write) 0x055#11).engine.dirRead = false ∧
      (queued (onBus .write) 0x055#11).target = some addressedEeprom ∧
      addressedEeprom.addressed = true) ∧
    (engineReady (queued { onBus .write with target := some Target.platform } 0x055#11) = true ∧
      Target.platform.addressed = false ∧ (onBus .write).cfg1.getLsbD bitIGNACK = false) ∧
    (engineReady (queued (deaf .write) 0x055#11) = true ∧ (deaf .write).flags.mbf = true ∧
      (deaf .write).engine.dirRead = false ∧ (deaf .write).target = none ∧
      (deaf .write).cfg1.getLsbD bitIGNACK = true) ∧
    (engineReady (queued (onBus .read) 0x055#11) = true ∧ (onBus .read).engine.dirRead = true) ∧
    engineReady (queued ready 0x055#11) = true ∧ (queued ready 0x055#11).flags.mbf = false := by
  decide +kernel
theorem test_witness_CmdReceiveMoves :
    (engineReady (queued (onBus .read) 0x105#11) = true ∧
      (queued (onBus .read) 0x105#11).flags.mbf = true ∧
      (queued (onBus .read) 0x105#11).engine.dirRead = true ∧
      (queued (onBus .read) 0x105#11).target = some addressedEeprom ∧
      addressedEeprom.addressed = true) ∧
    (engineReady (queued (deaf .read) 0x105#11) = true ∧ (deaf .read).flags.mbf = true ∧
      (deaf .read).engine.dirRead = true ∧ (deaf .read).target = none) ∧
    (engineReady (queued (onBus .write) 0x105#11) = true ∧
      (onBus .write).engine.dirRead = false) ∧
    engineReady (queued ready 0x105#11) = true ∧ (queued ready 0x105#11).flags.mbf = false := by
  decide +kernel
theorem test_witness_CmdStopReleases :
    (engineReady (queued (onBus .read) 0x200#11) = true ∧
      (queued (onBus .read) 0x200#11).flags.mbf = true) ∧
    engineReady (queued ready 0x200#11) = true ∧ (queued ready 0x200#11).flags.mbf = false := by
  decide +kernel
theorem test_witness_CmdStartAddresses :
    (engineReady (queued ready 0x4A4#11) = true ∧ (queued ready 0x4A4#11).flags.bbf = false ∧
      (queued ready 0x4A4#11).target = some Target.platform ∧
      Target.platform.answers 0x52#7 = true ∧ Target.platform.answers 0x10#7 = false ∧
      ready.cfg1.getLsbD bitIGNACK = false) ∧
    (engineReady (queued (deaf .write) 0x4A4#11) = true ∧ (deaf .write).flags.mbf = true ∧
      (deaf .write).target = none ∧ (deaf .write).cfg1.getLsbD bitIGNACK = true) ∧
    (queued (onBus .write) 0x4A5#11).flags.mbf = true ∧
    engineReady (queued stuckBus 0x4A4#11) = true ∧ (queued stuckBus 0x4A4#11).flags.bbf = true ∧
    (queued stuckBus 0x4A4#11).flags.mbf = false := by decide +kernel
/-- The controller held in reset, the environment trying to raise all flags and to take the bus. -/
def heldState : State :=
  { ready with ctrl := 2#4, sched := [[.raiseFlags 0x7F#7, .busy true true, .deliver 1#8, .take]] }

/-- R362: of all that only `BBF` shows. -/
theorem test_held_in_reset : goes (envSlot heldState) (fun t =>
    decide (t = { heldState with flags := { Status.clear with bbf := true }, sched := [] })) = true := by
  decide +kernel

/-- R105, V9: a reserved word is refused when the engine of R300 (a) takes it; one with a meaning goes. -/
theorem test_take_reserved :
    envSlot { queued ready 0x300#11 with sched := [[.take]] } = .refused .reservedCommand ∧
    goes (envSlot { queued ready 0x2FF#11 with sched := [[.take]] }) (fun t => decide (t.txf = [])) =
      true := by
  exact ⟨rfl, by decide +kernel⟩

theorem test_witness_EngineWithinContract :
    (∃ t, envSlot (queued ready 0x4A4#11) = .next t) ∧
    ((∃ t, envSlot heldState = .next t) ∧ heldState.ctrl.getLsbD bitRST = true) ∧
    (∃ r, envSlot (queued ready 0x300#11) = .refused r) ∧
    State.reset.ctrl.getLsbD bitMEN = false ∧ State.reset.sched = [] ∧
    (decodeCmd 0x300#11 = none ∧ engineOn (queued ready 0x300#11) = true ∧
      engineReady (queued ready 0x300#11) = true ∧ (queued ready 0x300#11).sched = [] ∧
      (queued ready 0x300#11).host = []) ∧
    ((queued ready 0x4A4#11).sched = [] ∧ nextEntry (queued ready 0x4A4#11) = some 0x4A4#11 ∧
      decodeCmd 0x4A4#11 = some (.start 0x52#7 .write) ∧ nextEntry ready = none ∧
      ready.sched = []) := by
  refine ⟨?_, ⟨?_, by decide +kernel⟩, ⟨_, rfl⟩, by decide +kernel, rfl, by decide +kernel,
    by decide +kernel⟩
  · obtain ⟨t, e, -⟩ := next_of_goes (o := envSlot (queued ready 0x4A4#11)) (p := fun _ => true)
      (by decide +kernel)
    exact ⟨t, e⟩
  · obtain ⟨t, e, -⟩ := next_of_goes test_held_in_reset
    exact ⟨t, e⟩
theorem test_witness_RegisterEffects : Platform ready ∧ ready.rxf = [] ∧
    (Platform { ready with rxf := [0x44#8] } ∧ { ready with rxf := [0x44#8] }.rxf = [0x44#8]) ∧
    (0x2#32).getLsbD bitRST = true ∧ (0x305#32).getLsbD bitRST = false ∧
    ready.ctrl.getLsbD bitRST = false ∧ ready.txf.length < ready.cfg.fifoDepth ∧
    late.cfg.fifoDepth ≤ late.txf.length ∧ Platform late ∧ late.ctrl.getLsbD bitRST = false ∧
    { ready with handle := ⟨0#8, 2#32, 0#32⟩ }.handle.base &&& 3#32 ≠ 0#32 ∧
    ready.cfg.busClock = true ∧
    0x2C#32 ∉ [0x10#32, 0x14#32, 0x20#32, 0x24#32, 0x48#32, 0x5C#32, 0x60#32, 0x70#32] :=
  ⟨platform_ready, rfl, ⟨⟨rfl, by decide +kernel⟩, rfl⟩, by decide, by decide, by decide +kernel,
    by decide +kernel, by decide +kernel, ⟨rfl, by decide +kernel⟩, by decide +kernel, by decide +kernel, rfl, by decide⟩

end Sys2Proof.Tests
end

/-! The scope of the machine (spec/00_scope.md): the invariant at reset, what no instruction changes,
CHECK_STUCK's one read and the magic test. -/

namespace Sys2Proof.Machine

/-! ### Beginning and ending an operation -/

section Operation

variable {O : Nat → Prop} {s t : State} {m : Run Code}

theorem CoreInv.beginOp (i : CoreInv s) : CoreInv (beginOp s) :=
  ⟨i.cfgValid, i.txBound, i.rxBound, i.txLegal, i.noInterrupt, i.memWf, i.targetMemWf⟩

theorem Platform.beginOp (p : Platform s) : Platform (beginOp s) := ⟨p.clockOn, p.aligned⟩

/-- `beginOp` writes only fields no frame speaks of, and empties the trace. -/
theorem Plain.of_beginOp (p : Plain O s t) : Plain O (beginOp s) t where
  cfg := p.cfg
  chip := p.chip
  host := p.host
  base := p.base
  index := p.index
  inited := p.inited
  mem := p.mem
  grows := ⟨t.trace, by simp⟩
  core := fun i => p.core
    ⟨i.cfgValid, i.txBound, i.rxBound, i.txLegal, i.noInterrupt, i.memWf, i.targetMemWf⟩
  ctrl := p.ctrl
  handle := p.handle
  initedSame := p.initedSame
  cfg0 := p.cfg0
  cfg1 := p.cfg1
  clkcfg := p.clkcfg
  mier := p.mier

theorem next_of_ifInited {k : Host.Outcome State Fault Refusal} (e : ifInited s k = .next t) :
    k = .next t := by
  unfold ifInited at e
  split at e
  · exact e
  · cases e

theorem next_of_ifLegal {ok : Bool} {k : Host.Outcome State Fault Refusal}
    (e : ifLegal ok k = .next t) : k = .next t := by
  unfold ifLegal at e
  split at e
  · exact e
  · cases e

/-- Ending an operation writes only `result` and the working registers. -/
theorem finish_answers (e : finish m = .next t) : ∃ c u, m = .next (c, u) ∧ Plain O u t := by
  cases m with
  | next p => cases e; exact ⟨p.1, p.2, rfl, plain_update _ _ _ _ _ _ _⟩
  | fault f => cases e
  | refused r => cases e

theorem finishMicro_answers (e : finishMicro m = .next t) :
    ∃ c u, m = .next (c, u) ∧ Plain O u t := by
  cases m with
  | next p => cases e; exact ⟨p.1, p.2, rfl, plain_update _ _ _ _ _ _ _⟩
  | fault f => cases e
  | refused r => cases e

theorem plain_finish (h : Safe m fun _ u => Plain O s u) (e : finish m = .next t) : Plain O s t := by
  obtain ⟨c, u, em, p⟩ := finish_answers e
  exact (h c u em).trans p

theorem plain_finishMicro (h : Safe m fun _ u => Plain O s u) (e : finishMicro m = .next t) :
    Plain O s t := by
  obtain ⟨c, u, em, p⟩ := finishMicro_answers e
  exact (h c u em).trans p

theorem kindly_finish (h : Safe m fun _ u => Kindly O s u) (e : finish m = .next t) :
    Kindly O s t := by
  obtain ⟨c, u, em, p⟩ := finish_answers e
  exact (h c u em).trans p.kindly

theorem brings_finish (h : Safe m fun _ u => Brings s u) (e : finish m = .next t) :
    Brings s t := by
  obtain ⟨c, u, em, p⟩ := finish_answers e
  exact (h c u em).trans p.brings

end Operation

/-! ### What an instruction leaves alone, by its use of the configuration -/

section Instruction

variable {i : Instr} {s t : State}

theorem beyond_of_outside {buf : Word} {len a : Nat} (h : outsideBuffer buf len a) :
    beyond (.host buf) 0 len a := fun j _ hj => h j (by omega)

theorem forall_outside_map {ms : List Msg} {a : Nat} (h : ∀ m ∈ ms, outsideMsg (busMsg m) a) :
    ∀ m ∈ ms.map busMsg, outsideMsg m a := List.forall_mem_map.2 h

/-- A command word is the environment's work, within the contract of R300. -/
theorem plain_runCmd {O : Nat → Prop} (c : Cmd) (e : runCmd c s = .next t) : Plain O s t := by
  obtain ⟨u, eu, k⟩ := runCmd_spec c s
  rw [e] at eu
  cases eu
  exact k.plain fun h => targetWf_runCmd c h e

theorem execCheckStuck_answers (e : exec .checkStuck s = .next t) :
    ∃ b, checkStuck (beginOp s) = .next (b, t) := by
  change execCheckStuck s = _ at e
  unfold execCheckStuck at e
  split at e
  · rename_i p hp
    cases e
    exact ⟨p.1, hp⟩
  · cases e
  · cases e

/-- An instruction that writes none of the configuration is plain. -/
theorem exec_plain (hr : runs s) (hu : configUse i = .none) (e : exec i s = .next t) :
    Plain (outsideOf i) (beginOp s) t := by
  have hb : runs (beginOp s) := hr
  cases i with
  | init | speedSet | start | transfer | chipRead | chipWrite | crc32Region => cases hu
  | stop => exact (plain_finish (safe_stop hb) (next_of_ifInited e)).any
  | send buf len => exact (plain_finish (safe_send _ hb) (next_of_ifInited e)).any
  | receive buf len =>
    exact (plain_finish (safe_receive _ _ hb) (next_of_ifInited e)).mono
      fun _ => beyond_of_outside
  | validateMagic m0 m1 => exact plain_finish (safe_done Plain.refl) e
  | waitTxSpace => exact (plain_finishMicro (safe_waitTxSpace hb) e).any
  | checkClearError => exact (plain_finishMicro (safe_checkClearError hb) e).any
  | checkStuck =>
    obtain ⟨b, k⟩ := execCheckStuck_answers e
    exact (safe_checkStuck _ b t k).any
  | setupOffset chip offset =>
    have k := next_of_ifLegal e
    cases k
    exact plain_setupOffset chip offset _
  | crc32Update crc b =>
    cases e
    exact plain_note _
  | cmdTxdata data => exact (plain_runCmd (.txdata data) e).of_beginOp
  | cmdReceive count => exact (plain_runCmd (.receive count) e).of_beginOp
  | cmdStop => exact (plain_runCmd .stop e).of_beginOp
  | cmdStart addr dir => exact (plain_runCmd (.start addr dir) e).of_beginOp

/-- START and what is built on it: everything but `CFG1.AUTOSTOP`, unless an INIT ran inside. -/
theorem exec_kindly (hr : runs s) (hu : configUse i = .restarts) (e : exec i s = .next t) :
    Kindly (outsideOf i) (beginOp s) t := by
  have hb : runs (beginOp s) := hr
  cases i with
  | start addr dir => exact (kindly_finish (safe_start addr dir hb) (next_of_ifInited e)).any
  | transfer msgs =>
    exact (kindly_finish (safe_transfer _ hb) (next_of_ifInited (next_of_ifLegal e))).mono
      fun _ h => forall_outside_map h
  | chipRead chip offset buf len =>
    exact (kindly_finish (safe_chipRead chip offset _ _ hb)
      (next_of_ifInited (next_of_ifLegal e))).mono fun _ => beyond_of_outside
  | chipWrite chip offset buf len =>
    exact (kindly_finish (safe_chipWrite chip offset buf _ hb)
      (next_of_ifInited (next_of_ifLegal e))).any
  | crc32Region chip start length expected =>
    exact (kindly_finish (safe_crcLoop chip start expected _ 0 0#32 hb)
      (next_of_ifInited (next_of_ifLegal e))).any
  | _ => cases hu

/-- INIT and SPEED_SET program the configuration, and leave the controller out of reset. -/
theorem exec_brings (hu : configUse i = .programs) (e : exec i s = .next t) :
    Brings (beginOp s) t := by
  cases i with
  | init speed =>
    exact brings_finish (safe_mono (safe_initBlock speed _) fun _ _ ⟨k, out, _⟩ =>
      ⟨k, fun _ => out⟩) e
  | speedSet speed =>
    change execSpeedSet speed s = _ at e
    unfold execSpeedSet at e
    split at e
    · cases e
    · exact brings_finish (safe_speedSet speed _) e
  | _ => cases hu

theorem exec_sound (hr : runs s) (e : exec i s = .next t) : Sound (outsideOf i) (beginOp s) t := by
  cases hu : configUse i with
  | programs => exact (exec_brings hu e).sound.any
  | restarts => exact (exec_kindly hr hu e).sound
  | none => exact (exec_plain hr hu e).toSound

end Instruction

/-- Settles O9: the frame every operation keeps, read off the state it begins in; the interrupt enables
are 0 on both sides by the invariant. -/
theorem instructionFrame : Obligations.InstructionFrame := by
  intro i s t inv e
  have k : Sound (outsideOf i) (beginOp s) t := exec_sound inv.notReset e
  have hm : t.mier = s.mier :=
    (k.core inv.core.beginOp).noInterrupt.trans inv.core.noInterrupt.symm
  exact ⟨k.cfg, k.chip, k.host, k.base, k.index, hm, k.inited, k.mem⟩

/-! ### CHECK_STUCK -/

theorem exec_checkStuck_of {s t : State} {b : Bool} (e : checkStuck (beginOp s) = .next (b, t)) :
    exec .checkStuck s = .next t := by
  change execCheckStuck s = _
  unfold execCheckStuck
  rw [e]

/-- An operation begins with an empty trace, so its primitives are those it ran. -/
theorem Ran.primsOf {ps : List Prim} {s t : State} (r : Ran ps (beginOp s) t) : primsOf t = ps := by
  have h : t.trace.map Access.prim = ps.reverse ++ [] := r.prims
  unfold Machine.primsOf
  rw [h, List.append_nil, List.reverse_reverse]

/-- Settles O22: the environment's turn never stops under the invariant; the read behind it decides the
answer. -/
theorem checkStuckReads : Obligations.CheckStuckReads := by
  intro s inv plat
  obtain ⟨u, eu, c, -⟩ := envSlot_inv inv.core.beginOp
  obtain ⟨t, et, -, same, stuck⟩ := checkStuck_eq eu (platform_of_contract plat.beginOp c)
  have prims : primsOf t = [.rd .status] := (ran_checkStuck _ _ _ et).primsOf
  exact ⟨u, t, eu, c, exec_checkStuck_of et, stuck, same, prims⟩

/-! ### Reset -/

theorem configValid_default : configValid Config.default := by
  unfold configValid
  decide

theorem coreInv_reset : CoreInv State.reset where
  cfgValid := configValid_default
  txBound := Nat.zero_le _
  rxBound := Nat.zero_le _
  txLegal := fun _ h => absurd h List.not_mem_nil
  noInterrupt := rfl
  memWf := rfl
  targetMemWf := targetWf_some rfl

/-- Settles O7: both FIFOs and both byte spaces are empty at power-on, and `CTRL` is 0. -/
theorem resetInvariant : Obligations.ResetInvariant := ⟨coreInv_reset, by decide⟩

/-! ### The magic test -/

theorem bitVec_append_inj {v w : Nat} {a c : BitVec v} {b d : BitVec w} :
    a ++ b = c ++ d ↔ a = c ∧ b = d := by
  refine ⟨fun h => ⟨?_, ?_⟩, fun ⟨hl, hr⟩ => by rw [hl, hr]⟩
  · simpa only [BitVec.extractLsb'_append_eq_left] using congrArg (BitVec.extractLsb' w v) h
  · simpa only [BitVec.setWidth_append_eq_right] using congrArg (BitVec.setWidth w) h

/-- The magic test compares byte by byte (R283). -/
theorem magicResult_eq (cfg : Config) (m0 m1 : Byte) :
    magicResult cfg m0 m1 = if m0 = cfg.magic0 ∧ m1 = cfg.magic1 then .ok else .magic := by
  unfold magicResult
  simp only [bitVec_append_inj]

theorem exec_validateMagic (m0 m1 : Byte) (s : State) :
    exec (.validateMagic m0 m1) s = .next { s with
      result := if m0 = s.cfg.magic0 ∧ m1 = s.cfg.magic1 then .ok else .magic
      work := {}
      trace := [] } := by
  rw [← magicResult_eq]
  rfl

/-- Settles O54: the test of the two bytes of `MAGIC`, and of the document's value for them. -/
theorem validateMagicExact : Obligations.ValidateMagicExact := by
  refine ⟨exec_validateMagic, fun m0 m1 s h0 h1 => ?_, rfl, rfl⟩
  rw [exec_validateMagic, h0, h1]

end Sys2Proof.Machine

/-! The state (spec/10_state.md): which step runs which instruction, what every step keeps, power-on, who
writes the configuration, the working registers, CMD_STOP, and START on a bus that stays stuck. -/

namespace Sys2Proof.Machine

/-! ### Which step runs what -/

section Step

variable {s t : State}

theorem step_of_act {a : HostAct} {acts : List HostAct} (h : s.host = a :: acts) :
    step s = hostTurn a { s with host := acts } := by
  unfold step
  rw [h]

theorem step_of_idle_host (h : s.host = []) : step s = engineTurn s := by
  unfold step
  rw [h]

theorem hostRequest_ok {bs rest : List Byte} {i : Instr} (hd : decode .request bs = .ok i rest)
    (hm : i.isMicro = false) : hostRequest bs s = exec i (loadChipOf i s) := by
  unfold hostRequest
  rw [hd]
  simp only [hm, Bool.false_eq_true, if_false]

theorem microRequest_ok {bs rest : List Byte} {i : Instr} (hd : decode .request bs = .ok i rest)
    (hm : i.isMicro = true) : microRequest bs s = exec i s := by
  unfold microRequest
  rw [hd]
  simp only [hm, if_true]

theorem engineTurn_word {w : CmdEntry} {c : Cmd} (hn : nextEntry s = some w)
    (hd : decodeCmd w = some c) : engineTurn s = exec c.toInstr s := by
  unfold engineTurn
  rw [hn]
  dsimp only
  rw [hd]

theorem engineTurn_continue (hn : nextEntry s = none) : engineTurn s = .next (engineContinue s) := by
  unfold engineTurn
  rw [hn]

/-- A request that is answered ran an instruction. -/
theorem hostRequest_answers {bs : List Byte} (e : hostRequest bs s = .next t) :
    ∃ i, exec i (loadChipOf i s) = .next t := by
  unfold hostRequest at e
  split at e
  · rename_i i _ _
    split at e
    · cases e
    · exact ⟨i, e⟩
  · cases e

theorem microRequest_answers {bs : List Byte} (e : microRequest bs s = .next t) :
    ∃ i, exec i s = .next t := by
  unfold microRequest at e
  split at e
  · rename_i i _ _
    split at e
    · exact ⟨i, e⟩
    · cases e
  · cases e

/-- The engine's turn runs a command word, or goes on with what is in progress. -/
theorem engineTurn_answers (e : engineTurn s = .next t) :
    (∃ i, exec i s = .next t) ∨ t = engineContinue s := by
  unfold engineTurn at e
  split at e
  · split at e
    · exact .inl ⟨_, e⟩
    · cases e
  · cases e
    exact .inr rfl

end Step

/-- Settles O5: the equations of the request port and of the engine's turn. -/
theorem stepRunsInstruction : Obligations.StepRunsInstruction := by
  refine ⟨fun s bs rest i acts h hd hm => ?_, fun s bs rest i acts h hd hm => ?_,
    fun s w c h hn hd => ?_, fun s h hn => ?_, fun s index base acts h => ?_,
    fun s c acts h => ?_, fun s addr bs acts h => ?_⟩
  · exact (step_of_act h).trans (hostRequest_ok hd hm)
  · exact (step_of_act h).trans (microRequest_ok hd hm)
  · exact (step_of_idle_host h).trans (engineTurn_word hn hd)
  · exact (step_of_idle_host h).trans (engineTurn_continue hn)
  · exact step_of_act h
  · exact step_of_act h
  · exact step_of_act h

/-! ### The invariant -/

section Invariant

variable {i : Instr} {s t : State}

/-- No instruction ends with the controller held in reset. -/
theorem exec_runs (hr : runs s) (e : exec i s = .next t) : runs t := by
  cases hu : configUse i with
  | programs => exact (exec_brings hu e).runs hr
  | restarts => exact (exec_kindly hr hu e).runs hr
  | none => exact (exec_plain hr hu e).runs hr

theorem exec_inv (inv : Inv s) (e : exec i s = .next t) : Inv t :=
  ⟨(exec_sound inv.notReset e).core inv.core.beginOp, exec_runs inv.notReset e⟩

/-- Of what the host loads the invariant speaks of its memory alone. -/
theorem Inv.hostLoads (inv : Inv s) (acts : List HostAct) (h : Handle) (c : Chip) {m : Memory}
    (hm : m.wf = true) : Inv { s with host := acts, handle := h, chip := c, mem := m } :=
  ⟨⟨inv.core.cfgValid, inv.core.txBound, inv.core.rxBound, inv.core.txLegal, inv.core.noInterrupt,
    hm, inv.core.targetMemWf⟩, inv.notReset⟩

theorem Inv.loadChipOf (inv : Inv s) (i : Instr) : Inv (loadChipOf i s) := by
  unfold Machine.loadChipOf
  split
  · exact inv.hostLoads s.host s.handle _ inv.core.memWf
  · exact inv

theorem Inv.contract (inv : Inv s) (c : Contract s t) (ht : targetWf t.target) : Inv t :=
  ⟨coreInv_of_contract inv.core c ht, by rw [c.ctrl]; exact inv.notReset⟩

theorem hostTurn_inv {a : HostAct} (inv : Inv s) (e : hostTurn a s = .next t) : Inv t := by
  cases a with
  | loadHandle index base => cases e; exact inv.hostLoads _ _ _ inv.core.memWf
  | loadChip c => cases e; exact inv.hostLoads _ _ _ inv.core.memWf
  | loadBytes addr bs =>
    cases e
    exact inv.hostLoads _ _ _ (Memory.wf_writeBytes bs s.mem addr 0 inv.core.memWf)
  | request bs =>
    obtain ⟨i, ei⟩ := hostRequest_answers e
    exact exec_inv (inv.loadChipOf i) ei
  | micro bs =>
    obtain ⟨i, ei⟩ := microRequest_answers e
    exact exec_inv inv ei

theorem engineTurn_inv (inv : Inv s) (e : engineTurn s = .next t) : Inv t := by
  obtain ⟨i, ei⟩ | rfl := engineTurn_answers e
  · exact exec_inv inv ei
  · exact inv.contract (contract_engineContinue s) (targetWf_engineContinue inv.core.targetMemWf)

end Invariant

/-- Settles O8: a step is the host's next act or the engine's turn, and each keeps the invariant. -/
theorem invariantKept : Obligations.InvariantKept := by
  intro s t inv e
  cases h : s.host with
  | nil => exact engineTurn_inv inv ((step_of_idle_host h).symm.trans e)
  | cons a acts =>
    have inv' : Inv { s with host := acts } := inv.hostLoads acts _ _ inv.core.memWf
    exact hostTurn_inv inv' ((step_of_act h).symm.trans e)

/-! ### Power-on -/

/-- Settles O6: `State.reset` field by field. -/
theorem resetValues : Obligations.ResetValues :=
  ⟨rfl, rfl, rfl, rfl, rfl, rfl, by decide, rfl, rfl, rfl, rfl, rfl, rfl⟩

/-! ### Who writes the configuration -/

/-- Settles O10: an operation frames the state it begins in, whose configuration is that of `s`. -/
theorem configurationFrame : Obligations.ConfigurationFrame := by
  intro i s t inv e
  refine ⟨fun hu => ?_, fun hu hn => ?_⟩
  · have p : Plain (outsideOf i) (beginOp s) t := exec_plain inv.notReset hu e
    exact ⟨p.ctrl, p.handle, p.initedSame, p.cfg0, p.cfg1, p.clkcfg⟩
  · have q : Quiet (beginOp s) t := (exec_kindly inv.notReset hu e).quiet hn
    exact ⟨q.ctrl, q.handle, q.inited, q.cfg0, q.cfg1, q.clkcfg⟩

/-! ### The working registers -/

theorem finish_work {m : Run Code} {t : State} (e : finish m = .next t) : t.work = {} := by
  cases m with
  | next p => cases e; rfl
  | fault f => cases e
  | refused r => cases e

/-- Settles O11: every host operation ends by `finish`. -/
theorem workingRegistersEmpty : Obligations.WorkingRegistersEmpty := by
  intro i s t hs hm e
  cases i with
  | waitTxSpace | checkClearError | checkStuck | setupOffset | crc32Update => cases hm
  | cmdTxdata | cmdReceive | cmdStop | cmdStart => cases hs
  | init => exact finish_work e
  | validateMagic m0 m1 =>
    rw [exec_validateMagic] at e
    cases e
    rfl
  | speedSet speed =>
    change execSpeedSet speed s = _ at e
    unfold execSpeedSet at e
    split at e
    · cases e
    · exact finish_work e
  | start | stop | send | receive => exact finish_work (next_of_ifInited e)
  | transfer | chipRead | chipWrite | crc32Region =>
    exact finish_work (next_of_ifInited (next_of_ifLegal e))

/-! ### CMD_STOP and auto-stop -/

section Stop

variable {s : State}

theorem exec_cmdStop_owned (hr : engineReady s = true) (own : s.flags.mbf = true) :
    exec .cmdStop s = .next (busStop (popTx s)) := by
  change execCmdStop s = _
  unfold execCmdStop ownsBus
  rw [if_pos hr, if_pos own]

theorem exec_cmdStop_free (hr : engineReady s = true) (own : s.flags.mbf = false) :
    exec .cmdStop s = .next (popTx s) := by
  change execCmdStop s = _
  unfold execCmdStop ownsBus
  rw [if_pos hr, own, if_neg Bool.false_ne_true]

/-- An engine with nothing in progress goes on by an auto-stop, if one is due. -/
theorem engineContinue_autostop (on : engineOn s = true) (h0 : s.engine.recvLeft = 0)
    (hp : s.engine.pendingStart = none) :
    engineContinue s =
      if s.txf.isEmpty && s.cfg1.getLsbD bitAUTOSTOP && s.flags.mbf then busStop s else s := by
  unfold engineContinue ownsBus
  rw [on, h0, hp]
  rfl

end Stop

/-- Settles O57: both ways to a STOP condition are `busStop`. -/
theorem cmdStopReleases : Obligations.CmdStopReleases := by
  refine ⟨fun s w r h hr => ⟨fun own => ?_, fun own => ?_⟩, fun s on h0 hp =>
    ⟨fun htx hauto own => ?_, fun hno => ?_⟩⟩
  · rw [exec_cmdStop_owned hr own]
    unfold busStop popTx
    rw [h]
    rfl
  · rw [exec_cmdStop_free hr own]
    unfold popTx
    rw [h]
    rfl
  · rw [engineContinue_autostop on h0 hp]
    exact if_pos (by rw [htx, hauto, own]; rfl)
  · rw [engineContinue_autostop on h0 hp]
    refine if_neg fun due => ?_
    obtain ⟨⟨htx, hauto⟩, own⟩ : (s.txf = [] ∧ s.cfg1.getLsbD bitAUTOSTOP = true) ∧
        s.flags.mbf = true := by simpa using due
    rcases hno with h | h | h
    · exact h htx
    · exact absurd (h.symm.trans hauto) Bool.false_ne_true
    · exact absurd (h.symm.trans own) Bool.false_ne_true

/-! ### START on a bus that stays stuck -/

theorem exec_start_of {s : State} (hi : s.inited = true) (a : BitVec 7) (d : Dir) :
    exec (.start a d) s = finish (start a d (beginOp s)) := if_pos hi

theorem Good.beginOp {s : State} (g : Good s) : Good (beginOp s) :=
  ⟨g.inv.beginOp, g.plat.beginOp, g.run⟩

/-- `beginOp` touches nothing calm speaks of. -/
theorem Calm.beginOp {n : Nat} {s : State} (c : Calm n s) : Calm n (beginOp s) := by
  rcases c with h | ⟨h, r⟩
  · exact .inl h
  · exact .inr ⟨h, r.noWord, r.noStart, r.noAutostop, r.noReceive⟩

/-- Settles O25: what START leaves on a bus that stays stuck, with the primitives it ran. -/
theorem startStuck : Obligations.StartStuck := by
  intro a d s inv plat hi calm hst hd
  have g : Good (beginOp s) := (Good.of_inv inv plat).beginOp
  have c : StuckCalm 18 (beginOp s) := ⟨g.plat, calm.beginOp, hst⟩
  obtain ⟨k, u, eu, ⟨hk, hphase, -, htx, hrx, hctrl, hmem, hwords, -⟩, ran⟩ :=
    ends_finish ((start_stuck g c hd a d).and_safe (start_stuck_ran g c hd a d))
  refine ⟨_, (exec_start_of hi a d).trans eu, hk, hphase, hwords, htx, hrx, hctrl, hmem, ?_⟩
  exact ran.primsOf

end Sys2Proof.Machine

/-! The registers (spec/10_state.md R31 to R42, spec/20_memory.md R71 to R79): what an access shows, stores
and refuses. -/

namespace Sys2Proof.Machine

/-! ### Register words -/

theorem flagBit_true (n : Nat) : flagBit true n = BitVec.twoPow 32 n :=
  BitVec.eq_of_toNat_eq (by rw [BitVec.toNat_twoPow]; exact BitVec.toNat_ofNat _ _)

theorem flagBit_and (b : Bool) (n : Nat) (m : Word) :
    flagBit b n &&& m = flagBit (b && m.getLsbD n) n := by
  cases b with
  | false => exact BitVec.zero_and
  | true =>
    rw [flagBit_true, BitVec.twoPow_and, ← flagBit_true]
    cases m.getLsbD n <;> rfl

/-- A mask keeps of `STATUS` the flags at whose bits it has a 1. -/
theorem Status.word_and (f : Status) (m : Word) :
    f.word &&& m =
      Status.word ⟨f.epf && m.getLsbD bitEPF, f.sdf && m.getLsbD bitSDF, f.ndf && m.getLsbD bitNDF,
        f.alf && m.getLsbD bitALF, f.fef && m.getLsbD bitFEF, f.pltf && m.getLsbD bitPLTF,
        f.dmf && m.getLsbD bitDMF, f.mbf && m.getLsbD bitMBF, f.bbf && m.getLsbD bitBBF⟩ := by
  unfold Status.word
  simp only [BitVec.and_or_distrib_right, flagBit_and]

theorem Status.word_and_named (f : Status) : f.word &&& statusNamed = f.word := by
  rw [Status.word_and]
  simp [statusNamed, bitEPF, bitSDF, bitNDF, bitALF, bitFEF, bitPLTF, bitDMF, bitMBF, bitBBF]

theorem Status.word_clearW1C (f : Status) (v : Word) :
    (f.clearW1C v).word = f.word &&& ~~~(v &&& clearAll) := by
  rw [Status.word_and]
  simp [Status.clearW1C, clearAll, bitEPF, bitSDF, bitNDF, bitALF, bitFEF, bitPLTF, bitDMF, bitMBF,
    bitBBF]

/-- The open bits are outside the bits the register names. -/
theorem RdWord.word_and_named (r : RdWord) : r.word &&& r.named = r.shown := by
  unfold RdWord.word RdWord.shown
  refine BitVec.eq_of_getLsbD_eq fun i hi => ?_
  simp only [BitVec.getLsbD_and, BitVec.getLsbD_or, BitVec.getLsbD_not]
  cases r.named.getLsbD i <;> simp

/-- `FIFOSTAT` has a count in each of its two fields (R38). -/
theorem fifostatWord_counts (s : State) :
    (fifostatWord s).extractLsb' 0 3 = BitVec.ofNat 3 s.txf.length ∧
    (fifostatWord s).extractLsb' 16 3 = BitVec.ofNat 3 s.rxf.length := by
  unfold fifostatWord
  generalize BitVec.ofNat 3 s.txf.length = a
  generalize BitVec.ofNat 3 s.rxf.length = b
  revert a b
  decide

/-- An empty `RXDATA` shows `RXEMPTY`, whatever the open bits are (R40). -/
theorem rxdata_word_empty (o : Word) :
    RdWord.bit ⟨flagBit true bitRXEMPTY, rxEmptyNamed, o⟩ bitRXEMPTY = true := by
  have named : rxEmptyNamed.getLsbD bitRXEMPTY = true := by decide
  have set : (flagBit true bitRXEMPTY).getLsbD bitRXEMPTY = true := by decide
  unfold RdWord.bit
  rw [if_pos named, set]

/-! ### Accesses that are refused -/

section Access

variable {s t : State} {r : Reg} {v : Word} {e : Refusal}

/-- An access that reaches no register is refused, a read and a write alike. -/
theorem access_refused {a : Word} {n : Nat} (h : regAccess a n s = .error e) :
    memRead a n s = .refused e ∧ memWrite a n v s = .refused e := by
  unfold memRead memWrite
  rw [h]
  exact ⟨rfl, rfl⟩

theorem regAccess_misaligned {a : Word} {n : Nat} (hc : s.cfg.busClock = true)
    (hb : s.handle.base &&& 3#32 ≠ 0#32) : regAccess a n s = .error .misalignedBase := by
  unfold regAccess
  rw [hc, if_pos hb]
  rfl

theorem regAccess_width {a : Word} {n : Nat} (p : Platform s) (hn : n ≠ 4) :
    regAccess a n s = .error .accessWidth := by
  unfold regAccess
  rw [p.clockOn, if_neg (not_not.2 p.aligned), if_pos hn]
  rfl

theorem regAtOff_eq_none {o : Word}
    (h : o ∉ [0x10#32, 0x14#32, 0x20#32, 0x24#32, 0x48#32, 0x5C#32, 0x60#32, 0x70#32]) :
    regAtOff o = none := by
  simp only [List.mem_cons, List.not_mem_nil, or_false, not_or] at h
  obtain ⟨h1, h2, h3, h4, h5, h6, h7, h8⟩ := h
  unfold regAtOff Reg.off
  simp only [h1, h2, h3, h4, h5, h6, h7, h8, if_false]

theorem regAccess_unmapped {o : Word} (p : Platform s) (h : regAtOff o = none) :
    regAccess (s.handle.base + o) 4 s = .error .unmappedOffset := by
  have hsub : s.handle.base + o - s.handle.base = o := by
    rw [BitVec.add_comm, BitVec.add_sub_cancel]
  unfold regAccess
  rw [p.clockOn, if_neg (not_not.2 p.aligned), hsub, h]
  rfl

/-! ### Accesses that reach their register -/

/-- A read whose register answers shows the word and records it. -/
theorem memRead_of_load {w : RdWord} (p : Platform s) (h : loadReg r s = done w t) :
    memRead (s.handle.base + r.off) 4 s = .next (w, logged (.rd r w.shown) t) := by
  rw [memRead_eq p, h]
  rfl

theorem memWrite_of_store (p : Platform s) (h : storeReg r v s = done () t) :
    memWrite (s.handle.base + r.off) 4 v s = .next ((), logged (.wr r v) t) := by
  rw [memWrite_eq p, h]
  rfl

theorem memRead_status (p : Platform s) :
    memRead (s.handle.base + 0x14#32) 4 s =
      .next (⟨s.flags.word, statusNamed, Config.openBits s.draws⟩,
        { s with draws := s.draws + 1, trace := .rd .status s.flags.word :: s.trace }) := by
  have h := memRead_of_load (r := .status) p rfl
  have shown : (⟨s.flags.word, statusNamed, Config.openBits s.draws⟩ : RdWord).shown =
      s.flags.word := s.flags.word_and_named
  rw [shown] at h
  exact h

/-- A register that shows a stored word reads as it, and the read changes nothing. -/
theorem memRead_of_exact {w : Word} (p : Platform s) (h : loadReg r s = done (.exact w) s) :
    memRead (s.handle.base + r.off) 4 s = .next (.exact w, logged (.rd r w) s) := by
  rw [memRead_of_load p h, shown_exact]

theorem loadReg_rxdata_empty (h : s.rxf = []) :
    loadReg .rxdata s =
      done ⟨flagBit true bitRXEMPTY, rxEmptyNamed, Config.openBits s.draws⟩
        { s with draws := s.draws + 1 } := by
  unfold loadReg
  rw [h]

theorem loadReg_rxdata_head {b : Byte} {l : List Byte} (h : s.rxf = b :: l) :
    loadReg .rxdata s =
      done ⟨b.setWidth 32, rxDataNamed, Config.openBits s.draws⟩
        { s with rxf := l, draws := s.draws + 1 } := by
  unfold loadReg
  rw [h]

theorem storeReg_ctrl_reset (h : v.getLsbD bitRST = true) :
    storeReg .ctrl v s = done () (controllerReset { s with ctrl := v.setWidth 4 }) :=
  congrArg (done ()) (if_pos h)

theorem storeReg_ctrl_runs (h : v.getLsbD bitRST = false) :
    storeReg .ctrl v s = done () { s with
      ctrl := v.setWidth 4
      txf := if v.getLsbD bitRTF then [] else s.txf
      rxf := if v.getLsbD bitRRF then [] else s.rxf } :=
  congrArg (done ()) (if_neg (by rw [h]; exact Bool.false_ne_true))

/-- A controller that is not held in reset takes a configuration write. -/
theorem storeReg_config (hr : runs s) :
    storeReg .cfg0 v s = done () { s with cfg0 := v } ∧
    storeReg .cfg1 v s = done () { s with cfg1 := v } ∧
    storeReg .clkcfg v s = done () { s with clkcfg := v } := by
  have h : heldInReset s = false := hr
  unfold storeReg
  rw [h]
  exact ⟨rfl, rfl, rfl⟩

theorem storeReg_txcmd (hr : runs s) :
    storeReg .txcmd v s = if s.txf.length < s.cfg.fifoDepth then
      done () { s with txf := s.txf ++ [v.setWidth 11] } else .refused .txFifoFull := by
  have h : heldInReset s = false := hr
  unfold storeReg
  rw [h]
  rfl

theorem memWrite_txcmd_full (p : Platform s) (hr : runs s) (h : s.cfg.fifoDepth ≤ s.txf.length) :
    memWrite (s.handle.base + Reg.txcmd.off) 4 v s = .refused .txFifoFull := by
  rw [memWrite_eq p, storeReg_txcmd hr, if_neg (Nat.not_lt.2 h)]
  rfl

end Access

/-- Settles O60: per register what its load or its store does, at the address the register stands at. -/
theorem registerEffects : Obligations.RegisterEffects := by
  refine ⟨fun s v p => ?_, fun s p => ?_, fun s v p => ⟨fun h => ?_, fun h => ?_⟩,
    fun s v p hr => ?_, fun s p => ?_, fun s p h => ?_, fun s b l p h => ?_,
    fun s v p hr => ⟨fun h => ?_, fun h => ?_⟩, fun s a v n hc hb => ?_, fun s a v n p hn => ?_,
    fun s o v p ho => ?_⟩
  · exact ⟨memWrite_of_store (r := .status) p rfl, s.flags.word_clearW1C v⟩
  · obtain ⟨tx, rx⟩ := fifostatWord_counts s
    refine ⟨_, _, memRead_of_exact (r := .fifostat) p rfl, ?_, ?_, rfl⟩
    · rw [RdWord.exact_word, tx, BitVec.toNat_ofNat]
    · rw [RdWord.exact_word, rx, BitVec.toNat_ofNat]
  · exact ⟨_, memWrite_of_store (r := .ctrl) p (storeReg_ctrl_reset h), rfl⟩
  · exact ⟨_, memWrite_of_store (r := .ctrl) p (storeReg_ctrl_runs h), rfl⟩
  · obtain ⟨h0, h1, hk⟩ := storeReg_config (v := v) hr
    exact ⟨memWrite_of_store (r := .cfg0) p h0, memWrite_of_store (r := .cfg1) p h1,
      memWrite_of_store (r := .clkcfg) p hk⟩
  · have flags : ∀ o : Word, RdWord.word ⟨s.flags.word, statusNamed, o⟩ &&& statusNamed =
        s.flags.word := fun o => (RdWord.word_and_named _).trans s.flags.word_and_named
    exact ⟨memRead_of_exact (r := .ctrl) p rfl, memRead_of_exact (r := .cfg0) p rfl,
      memRead_of_exact (r := .cfg1) p rfl, _, _, memRead_status p, flags _, rfl⟩
  · exact ⟨_, _, memRead_of_load (r := .rxdata) p (loadReg_rxdata_empty h), rxdata_word_empty _, rfl⟩
  · obtain ⟨notEmpty, low⟩ := rxdata_word b (Config.openBits s.draws)
    exact ⟨_, _, memRead_of_load (r := .rxdata) p (loadReg_rxdata_head h), notEmpty, low, rfl⟩
  · exact memWrite_of_store (r := .txcmd) p ((storeReg_txcmd hr).trans (if_pos h))
  · exact memWrite_txcmd_full p hr h
  · exact access_refused (regAccess_misaligned hc hb)
  · exact access_refused (regAccess_width p hn)
  · exact access_refused (regAccess_unmapped p (regAtOff_eq_none ho))

end Sys2Proof.Machine

/-! Memory (spec/20_memory.md R70 (4), R76, R84, R88, R89): what SEND reads from the host's buffer and RECEIVE
leaves alone outside its own, under any environment; what CHIP_READ and CHIP_WRITE move between the host's
buffer and the EEPROM's array. -/

namespace Sys2Proof.Machine

/-! ### A bus operation as its run -/

section Request

variable {s : State} {c : Chip}

theorem exec_send_of (hi : s.inited = true) (buf len : Word) :
    exec (.send buf len) s = finish (send (.host buf len.toNat) (beginOp s)) := if_pos hi

theorem exec_receive_of (hi : s.inited = true) (buf len : Word) :
    exec (.receive buf len) s = finish (receive (.host buf) len.toNat (beginOp s)) := if_pos hi

theorem exec_chipRead_of (hw : c.wf = true) (hi : s.inited = true) (o buf len : Word) :
    exec (.chipRead c o buf len) s =
      finish (chipRead c o (.host buf) len.toNat (beginOp s)) :=
  (if_pos hw).trans (if_pos hi)

theorem exec_chipWrite_of (hw : c.wf = true) (hi : s.inited = true) (o buf len : Word) :
    exec (.chipWrite c o buf len) s = finish (chipWrite c o buf len.toNat (beginOp s)) :=
  (if_pos hw).trans (if_pos hi)

end Request

/-! ### What an operation wrote, from its beginning -/

theorem primsOf_of_kinds {ps : List Prim} {t : State} (h : kinds t = ps.reverse) : primsOf t = ps :=
  (congrArg List.reverse h).trans (List.reverse_reverse ps)

theorem decodePrims_error {f : Status} (h : ¬ noErrorFlag f) :
    decodePrims f = [.rd .status, .wr .status, .rd .ctrl, .wr .ctrl] :=
  if_neg fun e => h (flagsCode_ok.1 e)

/-- The words SEND writes from a host buffer are the data words of its bytes (R84, R190). -/
theorem sendWords_host (buf : Word) (len k : Nat) (s : State) :
    sendWords (.host buf len) 0 k s = (bufferBytes s buf k).map dataWord := by
  unfold sendWords bufferBytes
  rw [List.map_map]
  refine List.map_congr_left fun j _ => ?_
  rw [Nat.zero_add]
  rfl

/-- An operation that a decoded error ends before its first word, ended: what it leaves, no word, and the
decode's primitives behind those it began with (R213, R320). -/
theorem finish_raised {s : State} {m : Run Code} (begun : List Prim) (herr : ¬ noErrorFlag s.flags)
    (h : Ends m fun k t => Raised (beginOp s) k t ∧
      kinds t = (decodePrims s.flags).reverse ++ begun.reverse) :
    ∃ t, finish m = .next t ∧ txWritten t = [] ∧
      primsOf t = begun ++ [.rd .status, .wr .status, .rd .ctrl, .wr .ctrl] ∧
      t = { s with
        result := flagsCode s.flags
        work := {}
        phase := .error
        flags := clearedFlags s.flags
        txf := []
        rxf := []
        timer := t.timer
        sched := t.sched
        ticks := t.ticks
        draws := t.draws
        trace := t.trace } := by
  obtain ⟨k, u, eu, raised, prims⟩ := ends_finish h
  have code : k = flagsCode s.flags := raised.code
  subst code
  refine ⟨_, eu, raised.words, primsOf_of_kinds ?_,
    congrArg (fun x : State => { x with result := flagsCode s.flags, work := {} }) raised.same⟩
  rw [decodePrims_error herr] at prims
  exact prims.trans List.reverse_append.symm

theorem elapsedAfter_congr {s t : State} (n : Nat) (h : SameTime s t) (hc : t.cfg = s.cfg) :
    elapsedAfter n t = elapsedAfter n s := by
  unfold elapsedAfter
  rw [timerCount_congr (h.reads (n + 1)).timer (by rw [afterReads_cfg, afterReads_cfg, hc]),
    timerCount_congr h.tick.timer (by rw [tickTimer_cfg, tickTimer_cfg, hc]), hc]

/-! ### SEND -/

/-- A wait for space that fails ends SEND at its byte (R190). -/
theorem sendLoop_of_wait_error {src : ByteSrc} {i : Nat} {e : Code} {s t : State} (n : Nat)
    (hw : waitTxSpace (note (fun w => { w with i := some i }) s) = .next (e, t)) (he : e ≠ .ok) :
    sendLoop src i (n + 1) s = .next (e, { t with phase := .error, result := e }) := by
  unfold sendLoop
  rw [hw, andThen_next, if_pos he]
  rfl

/-- Settles O30: the loop's outcomes under any environment, the error decoded on entry, the failed wait. -/
theorem sendAny : Obligations.SendAny := by
  refine ⟨fun buf len s inv plat hi => ?_, fun buf len s inv plat hi hl calm herr => ?_,
    fun src i n e s t hw he => sendLoop_of_wait_error n hw he⟩
  · have g : Good (beginOp s) := (Good.of_inv inv plat).beginOp
    obtain ⟨c, u, eu, -, still, hb, out⟩ := ends_finish (send_spec (.host buf len.toNat) g)
    refine ⟨_, (exec_send_of hi buf len).trans eu, still.mem, hb, ?_⟩
    rcases out with ⟨hc, hp, hw⟩ | ⟨hc, hp, k, hk, hw⟩
    · exact .inl ⟨hc, hp, hw.trans (sendWords_host buf _ _ _)⟩
    · exact .inr ⟨hc, hp, k, hk, hw.trans (sendWords_host buf _ _ _)⟩
  · rw [exec_send_of hi]
    exact finish_raised [.now, .rd .fifostat] herr (send_err (BitVec.toNat_ne.1 hl) plat.beginOp
      inv.notReset calm.beginOp herr inv.core.cfgValid.2.1 inv.core.txBound)

/-! ### RECEIVE -/

/-- Settles O32: the outcomes under any environment; the first poll that ends it; the error decoded on
entry. -/
theorem receiveAny : Obligations.ReceiveAny := by
  refine ⟨fun buf len s inv plat hi hl h256 => ?_,
    fun buf len s w rest inv plat hi hl h256 hf hsp he hs late => ?_,
    fun buf len s inv plat hi hl h256 calm herr => ?_⟩
  · have g : Good (beginOp s) := (Good.of_inv inv plat).beginOp
    obtain ⟨c, u, eu, -, ⟨outside, -⟩, hb, -, out⟩ := ends_finish (receive_spec (.host buf) h256 g)
    refine ⟨_, (exec_receive_of hi buf len).trans eu, hb,
      fun a ha => outside a (beyond_of_outside ha), ?_⟩
    rcases out (BitVec.toNat_ne.1 hl) with ⟨hc, hp, hw, -⟩ | ⟨hc, hp, hw⟩
    · exact .inl ⟨hc, hp, hw⟩
    · exact .inr ⟨hc, hp, hw⟩
  · have same : SameTime s (beginOp s) := ⟨rfl, rfl⟩
    obtain ⟨k, u, eu, hk, hu, words, prims⟩ := ends_finish (receive_raise (s := beginOp s) (w := w)
      (rest := rest) (dst := .host buf) (BitVec.toNat_ne.1 hl) h256 plat.beginOp inv.notReset hf
      inv.core.cfgValid.2.1 hsp
      (by rw [firstElapsed_congr same.tick (by rw [tickTimer_cfg, tickTimer_cfg]; rfl)]; exact he) hs
      (fun h => by rw [elapsedAfter_congr 3 same rfl]; exact late h))
    subst hk
    refine ⟨_, (exec_receive_of hi buf len).trans eu, words, primsOf_of_kinds ?_,
      congrArg (fun x : State => { x with result := rxCode s.cfg (s.flags.raiseW1C w), work := {} }) hu⟩
    change kinds u = _
    rw [prims, List.reverse_append]
    rfl
  · rw [exec_receive_of hi]
    exact finish_raised [.now, .now, .rd .fifostat] herr (receive_err (BitVec.toNat_ne.1 hl) h256
      plat.beginOp inv.notReset calm.beginOp herr inv.core.cfgValid.2.1 inv.core.txBound)

/-! ### The EEPROM -/

/-- The premises of the nominal statements put the bus where the laws of the nominal engine begin. -/
theorem avail_beginOp {s : State} {e : Target} (inv : Inv s) (plat : Platform s) (nom : Nominal s)
    (b : BusReady s e) (h : 1 ≤ s.cfg.tPoll) : Avail e (beginOp s) := by
  have noReceive : s.engine.recvLeft = 0 := by
    refine b.rests.noReceive.resolve_right fun full => ?_
    rw [b.noReceived] at full
    exact absurd inv.core.cfgValid.1 (Nat.not_lt.2 full)
  exact .inl ⟨nom.sched, nom.ticks, inv.core.cfgValid, h, plat.clockOn, plat.aligned, b.on,
    b.rests.noWord, b.rests.noStart, noReceive, b.noReceived, b.attached, b.notStuck,
    b.rests.noAutostop⟩

/-- The EEPROM a descriptor describes answers every address its operations use, in both modes. -/
theorem wired_chipAnswered {c : Chip} {e : Target} (w : Wired c e) (o : Word) (len : Nat)
    (bytewise : Bool) : chipAnswered e c o len bytewise := by
  unfold chipAnswered
  split
  · exact fun j _ => wired_answers w (offsetPlus o j)
  · exact wired_answers w o

theorem eepromBytes_length (m : Memory) (size o len : Nat) : (eepromBytes m size o len).length = len := by
  simp [eepromBytes]

/-- Settles O42: the bus view behind CHIP_READ, then the buffer it fills byte by byte. -/
theorem chipReadEeprom : Obligations.ChipReadEeprom := by
  intro c o buf len s e hw h0 wired seen inv plat hi nom ready hmode
  obtain ⟨hlen, hne, hpoll⟩ : (rdBytewise c = true ∨ len.toNat ≤ 256) ∧
      (len.toNat ≠ 0 ∨ rdBytewise c = false) ∧
      (if rdBytewise c then 1 else len.toNat) + 2 ≤ s.cfg.tPoll := by
    cases hb : rdBytewise c with
    | true =>
      rw [hb] at hmode
      exact ⟨.inl rfl, .inl (BitVec.toNat_ne.1 hmode.1), hmode.2⟩
    | false =>
      rw [hb] at hmode
      exact ⟨.inr hmode.1, .inr rfl, hmode.2⟩
  have hz := width_zero h0
  obtain ⟨k, u, eu, hk, left⟩ := ends_finish (chipRead_avail (dst := .host buf)
    (avail_beginOp inv plat nom ready (by omega)) hlen (.inl hz) hne (.inl hz)
    (wired_chipAnswered wired o _ _) hpoll)
  obtain ⟨filled, kept⟩ :=
    readView_eeprom (x := viewOf e (beginOp s)) wired h0 buf seen
  have hmem : u.mem = s.mem.writeBytes buf 0 (eepromBytes e.mem e.size o.toNat len.toNat) :=
    left.mem.trans filled
  refine ⟨_, _, (exec_chipRead_of hw hi o buf len).trans eu, hk, left.parked.idle, fun j hj => ?_,
    fun a ha => ?_, left.parked.free.attached, kept.mem⟩
  · have stored := Memory.read_writeBytes (eepromBytes e.mem e.size o.toNat len.toNat) s.mem buf 0
      inv.core.memWf (by rw [eepromBytes_length]; have := len.isLt; omega) j
      (by rw [eepromBytes_length]; exact hj)
    rw [Nat.zero_add, ← hmem] at stored
    exact stored.trans (by simp [eepromBytes])
  · change u.mem.read a = _
    rw [hmem]
    refine Memory.read_writeBytes_other _ _ _ _ _ fun j _ hj => ha j ?_
    rwa [eepromBytes_length, Nat.zero_add] at hj

/-- Settles O45: the bus view behind CHIP_WRITE, then the array it stores to byte by byte. -/
theorem chipWriteEeprom : Obligations.ChipWriteEeprom := by
  intro c o buf len s e hw h0 wired seen hmax hsize hmode inv plat hi nom ready hpoll
  have hz := width_zero h0
  have hne : len.toNat ≠ 0 ∨ wrBytewise c = false := by
    cases hb : wrBytewise c with
    | true => exact .inl (BitVec.toNat_ne.1 (hmode hb))
    | false => exact .inr rfl
  obtain ⟨k, u, eu, hk, left⟩ := ends_finish (chipWrite_avail (c := c) (o := o) (buf := buf)
    (avail_beginOp inv plat nom ready (by omega)) hmax (.inl hz) hne
    (wired_chipAnswered wired o _ _) hpoll)
  obtain ⟨stored, host, -⟩ := writeView_eeprom (x := viewOf e (beginOp s)) wired h0 buf seen
  have hptr : o.toNat % e.size < e.size := Nat.mod_lt _ wired.size
  have hlen : (bufferBytes s buf len.toNat).length = len.toNat := by simp [bufferBytes]
  have harray : (writeView c o buf len.toNat (viewOf e (beginOp s))).2.1.mem =
    storeAll e.mem e.size (o.toNat % e.size) (bufferBytes s buf len.toNat) := stored
  refine ⟨_, _, (exec_chipWrite_of hw hi o buf len).trans eu, hk, left.parked.idle,
    left.mem.trans host, left.parked.free.attached, fun j hj => ?_, fun a ha => ?_⟩
  · have at_j := storeAll_read (bufferBytes s buf len.toNat) e.mem e.size _
      (inv.core.targetMemWf e ready.attached) hptr (by rw [hlen]; exact hsize) j
      (by rw [hlen]; exact hj)
    rw [Nat.mod_add_mod, ← harray] at at_j
    exact at_j.trans (by simp [bufferBytes])
  · rw [harray]
    refine storeAll_other _ _ _ _ _ hptr fun j hj => ?_
    rw [Nat.mod_add_mod]
    exact ha j (hlen ▸ hj)

end Sys2Proof.Machine

/-! The encoding (spec/30_encoding.md R101 to R107, R116): command words and requests, decoded. -/

namespace Sys2Proof

/-! ### Command words -/

section Words

variable (data : Byte)

theorem decodeCmd_txdata : decodeCmd (0#3 ++ data) = some (.txdata data) := by
  unfold decodeCmd
  rw [BitVec.extractLsb'_append_eq_left, BitVec.extractLsb'_append_eq_right]
  rfl

theorem decodeCmd_receive : decodeCmd (1#3 ++ data) = some (.receive data) := by
  unfold decodeCmd
  rw [BitVec.extractLsb'_append_eq_left, BitVec.extractLsb'_append_eq_right]
  rfl

theorem decodeCmd_stop : decodeCmd (2#3 ++ data) = some .stop := by
  unfold decodeCmd
  rw [BitVec.extractLsb'_append_eq_left]
  rfl

theorem decodeCmd_start (a : BitVec 7) (d : Dir) :
    decodeCmd (4#3 ++ addrByte a d) = some (.start a d) := by
  obtain ⟨address, direction⟩ := Machine.addrByte_parts a d
  unfold decodeCmd
  rw [BitVec.extractLsb'_append_eq_left, BitVec.extractLsb'_append_eq_right]
  dsimp only
  rw [address, direction]
  cases d <;> rfl

theorem decodeCmd_reserved {code : BitVec 3} (h : code ∉ [0#3, 1#3, 2#3, 4#3]) :
    decodeCmd (code ++ data) = none := by
  have reserved : code.toNat = 3 ∨ code.toNat = 5 ∨ code.toNat = 6 ∨ code.toNat = 7 := by
    revert code
    decide
  unfold decodeCmd
  rw [BitVec.extractLsb'_append_eq_left]
  rcases reserved with e | e | e | e <;> (rw [e]; rfl)

theorem decodeCmd_encodeCmd (c : Cmd) : decodeCmd (encodeCmd c) = some c := by
  cases c with
  | txdata d => exact decodeCmd_txdata d
  | receive n => exact decodeCmd_receive n
  | stop => exact decodeCmd_stop 0#8
  | start a d => exact decodeCmd_start a d

/-- A byte is an address byte (R102). -/
theorem eq_addrByte : ∃ a d, data = addrByte a d := by
  refine ⟨data.extractLsb' 1 7, if data.getLsbD 0 then .read else .write, ?_⟩
  revert data
  decide

/-- The three kinds of entry: an encoding, a stop with data the engine ignores, a reserved code (R105). -/
theorem entry_cases (w : CmdEntry) :
    (∃ c, w = encodeCmd c) ∨ (∃ d : Byte, w = 2#3 ++ d) ∨
    ∃ (code : BitVec 3) (d : Byte), code ∉ [0#3, 1#3, 2#3, 4#3] ∧ w = code ++ d := by
  have parts : w = w.extractLsb' 8 3 ++ w.extractLsb' 0 8 :=
    (BitVec.extractLsb'_append_extractLsb' (w := 3) (len := 8)).symm
  generalize w.extractLsb' 8 3 = code at parts
  generalize w.extractLsb' 0 8 = d at parts
  subst parts
  by_cases h : code ∈ [0#3, 1#3, 2#3, 4#3]
  · simp only [List.mem_cons, List.not_mem_nil, or_false] at h
    rcases h with rfl | rfl | rfl | rfl
    · exact .inl ⟨.txdata d, rfl⟩
    · exact .inl ⟨.receive d, rfl⟩
    · exact .inr (.inl ⟨d, rfl⟩)
    · obtain ⟨a, dir, rfl⟩ := eq_addrByte d
      exact .inl ⟨.start a dir, rfl⟩
  · exact .inr (.inr ⟨code, d, h, rfl⟩)

theorem encodeCmd_code (c : Cmd) : (encodeCmd c).extractLsb' 8 3 ∈ [0#3, 1#3, 2#3, 4#3] := by
  cases c <;> (unfold encodeCmd; rw [BitVec.extractLsb'_append_eq_left]; decide)

end Words

/-- Settles O2: an entry is an encoding, a stop with data, or reserved. -/
theorem commandWordCodes : Obligations.CommandWordCodes := by
  intro w
  rcases entry_cases w with ⟨c, rfl⟩ | ⟨d, rfl⟩ | ⟨code, d, reserved, rfl⟩
  · rw [decodeCmd_encodeCmd]
    refine ⟨iff_of_true rfl (encodeCmd_code c), fun c' h => .inl ?_⟩
    cases h
    rfl
  · rw [decodeCmd_stop, BitVec.extractLsb'_append_eq_left]
    refine ⟨iff_of_true rfl (by decide), fun c h => .inr ?_⟩
    cases h
    exact ⟨rfl, rfl⟩
  · rw [decodeCmd_reserved d reserved, BitVec.extractLsb'_append_eq_left]
    exact ⟨iff_of_false Bool.false_ne_true reserved, fun c h => nomatch h⟩

/-! ### Operand bytes -/

section Operands

variable (r : List Byte)

theorem halfBytes_append (h : BitVec 16) : h.extractLsb' 8 8 ++ h.extractLsb' 0 8 = h :=
  BitVec.extractLsb'_append_extractLsb' (w := 8) (len := 8)

theorem wordBytes_append (w : Word) :
    w.extractLsb' 24 8 ++ w.extractLsb' 16 8 ++ w.extractLsb' 8 8 ++ w.extractLsb' 0 8 = w := by
  have upper : w.extractLsb' 24 8 ++ w.extractLsb' 16 8 = w.extractLsb' 16 16 :=
    BitVec.extractLsb'_append_extractLsb'_eq_extractLsb' rfl
  have three : w.extractLsb' 16 16 ++ w.extractLsb' 8 8 = w.extractLsb' 8 24 :=
    BitVec.extractLsb'_append_extractLsb'_eq_extractLsb' rfl
  rw [upper, three]
  exact BitVec.extractLsb'_append_extractLsb' (w := 24) (len := 8)

@[simp] theorem withHalf_bytes (h : BitVec 16) (k : BitVec 16 → List Byte → Decoded) :
    withHalf (bytesOfHalf h ++ r) k = k h r := congrArg (k · r) (halfBytes_append h)

@[simp] theorem withWord_bytes (w : Word) (k : Word → List Byte → Decoded) :
    withWord (bytesOfWord w ++ r) k = k w r := congrArg (k · r) (wordBytes_append w)

@[simp] theorem withSeven_byte (a : BitVec 7) (k : BitVec 7 → List Byte → Decoded) :
    withSeven (a.setWidth 8 :: r) k = k a r := by
  obtain ⟨small, same⟩ : (a.setWidth 8).ult 0x80#8 = true ∧ (a.setWidth 8).setWidth 7 = a := by
    revert a
    decide
  unfold withSeven withByte
  dsimp only
  rw [if_pos small, same]

@[simp] theorem withDir_byte (d : Dir) (k : Dir → List Byte → Decoded) :
    withDir (d.bit.setWidth 8 :: r) k = k d r := by
  cases d <;> rfl

@[simp] theorem withChip_bytes (c : Chip) (k : Chip → List Byte → Decoded) :
    withChip (bytesOfChip c ++ r) k = k c r := by
  have fits : ∀ w : BitVec 3, (w.setWidth 8).ult 8#8 = true ∧ (w.setWidth 8).setWidth 3 = w := by
    decide
  obtain ⟨addr, width, mask, flags⟩ := c
  obtain ⟨small, same⟩ := fits width
  unfold withChip bytesOfChip
  simp only [List.cons_append, List.nil_append, withSeven_byte, withByte, small, same, if_true]

@[simp] theorem withMsg_bytes (m : Msg) (k : Msg → List Byte → Decoded) :
    withMsg (bytesOfMsg m ++ r) k = k m r := by
  unfold withMsg bytesOfMsg
  simp only [List.append_assoc, withHalf_bytes, withWord_bytes]

@[simp] theorem withMsgs_bytes (ms : List Msg) (k : List Msg → List Byte → Decoded) :
    withMsgs ms.length (ms.flatMap bytesOfMsg ++ r) k = k ms r := by
  induction ms generalizing k with
  | nil => rfl
  | cons m ms ih =>
    rw [List.flatMap_cons, List.append_assoc]
    unfold withMsgs
    exact (withMsg_bytes _ m _).trans (ih _)

/-- An entry is the low 11 bits of its two bytes (R39, R101). -/
theorem entryOfBytes_bytes (w : CmdEntry) :
    entryOfBytes ((w.setWidth 16).extractLsb' 0 8) ((w.setWidth 16).extractLsb' 8 8) = w := by
  unfold entryOfBytes
  rw [halfBytes_append, BitVec.setWidth_setWidth_of_le _ (by decide), BitVec.setWidth_eq]

end Operands

/-! ### Requests -/

section Requests

variable {i : Instr} (r : List Byte)

theorem checked_wf (h : i.wf = true) : checked i r = .ok i r := if_pos h

theorem decode_request (op : Byte) : decode .request (op :: r) = decodeOperands op.toNat r := rfl

theorem decode_command (w : CmdEntry) {c : Cmd} (h : decodeCmd w = some c) :
    decode .command (bytesOfEntry w ++ r) = .ok c.toInstr r := by
  unfold decode bytesOfEntry bytesOfHalf
  simp only [List.cons_append, List.nil_append, entryOfBytes_bytes, h]

theorem decode_encodeCmd (c : Cmd) :
    decode .command (bytesOfEntry (encodeCmd c) ++ r) = .ok c.toInstr r :=
  decode_command r _ (decodeCmd_encodeCmd c)

end Requests

/-- Settles O1: per opcode the operands are read back one after the other; a command word by its code. -/
theorem decodeEncode : Obligations.DecodeEncode := by
  intro i rest wf
  have legal : checked i rest = .ok i rest := checked_wf rest wf
  cases i with
  | transfer ms =>
    obtain ⟨-, short⟩ : ms.all Msg.wf = true ∧ ms.length < 2 ^ 32 := by
      simpa only [Instr.wf, Bool.and_eq_true, decide_eq_true_eq] using wf
    have count : (BitVec.ofNat 32 ms.length).toNat = ms.length := by
      rw [BitVec.toNat_ofNat, Nat.mod_eq_of_lt short]
    simp [Instr.space, encode, decode_request, decodeOperands, count, legal]
  | cmdTxdata data => exact decode_encodeCmd rest (.txdata data)
  | cmdReceive count => exact decode_encodeCmd rest (.receive count)
  | cmdStop => exact decode_encodeCmd rest .stop
  | cmdStart a d => exact decode_encodeCmd rest (.start a d)
  | stop | validateMagic | waitTxSpace | checkClearError | checkStuck => exact legal
  | _ => simp [Instr.space, encode, decode_request, decodeOperands, withByte, legal]

/-- Settles O3: fixed words, by running both decoders. -/
theorem writtenWordsDecode : Obligations.WrittenWordsDecode :=
  ⟨rfl, rfl, rfl, rfl, rfl, rfl, rfl⟩

/-- The opcodes R116 gives no meaning (V14). -/
theorem decodeOperands_reserved {op : Nat} (r : List Byte)
    (h : (0x0B ≤ op ∧ op ≤ 0x0F) ∨ (0x15 ≤ op ∧ op ≤ 0x1F)) :
    decodeOperands op r = .bad .reservedOpcode := by
  rcases h with ⟨lo, hi⟩ | ⟨lo, hi⟩ <;> (interval_cases op <;> rfl)

end Sys2Proof

/-! What the encoded requests do: the reserved ones and those turned away, the operands assembled for them
(R108 to R113), the environment's turn between their primitives, INIT, RECEIVE, CHECK_CLEAR_ERROR and the
chip layer's messages. -/

namespace Sys2Proof.Machine

/-! ### Reserved requests -/

theorem hostRequest_bad {s : State} {bs : List Byte} {e : DecodeError}
    (h : decode .request bs = .bad e) : hostRequest bs s = .refused (refusalOf e) := by
  unfold hostRequest
  rw [h]

theorem hostRequest_micro {s : State} {bs r : List Byte} {i : Instr}
    (hd : decode .request bs = .ok i r) (hm : i.isMicro = true) :
    hostRequest bs s = .refused .microFromHost := by
  unfold hostRequest
  rw [hd]
  exact if_pos hm

/-- Settles O4: a step asks the request port, which refuses both. -/
theorem reservedRequestsRefused : Obligations.ReservedRequestsRefused := by
  refine ⟨fun s op rest acts h hop => ?_, fun s bs rest i acts h hd hm => ?_⟩
  · have bad : decode .request (op :: rest) = .bad .reservedOpcode := decodeOperands_reserved rest hop
    exact (step_of_act h).trans (hostRequest_bad bad)
  · exact (step_of_act h).trans (hostRequest_micro hd hm)

/-! ### Requests that are refused -/

section Refused

variable {s : State} {c : Chip} {k : Host.Outcome State Fault Refusal}

theorem ifInited_refused (h : s.inited = false) : ifInited s k = .refused .notInitialised :=
  if_neg (by rw [h]; exact Bool.false_ne_true)

theorem ifLegal_refused {ok : Bool} (h : ok = false) : ifLegal ok k = .refused .illegalOperand :=
  if_neg (by rw [h]; exact Bool.false_ne_true)

/-- A legal request before the first INIT (R339, R372). -/
theorem ifLegal_uninited {ok : Bool} (hl : ok = true) (h : s.inited = false) :
    ifLegal ok (ifInited s k) = .refused .notInitialised := (if_pos hl).trans (ifInited_refused h)

theorem chipRead_tooLong (hb : rdBytewise c = false) {len : Nat} (h : 256 < len) (o : Word)
    (dst : ByteDst) (s : State) : chipRead c o dst len s = .refused .receiveTooLong := by
  unfold chipRead
  rw [hb, if_neg Bool.false_ne_true, if_pos h]

theorem chipWrite_aboveMax {len : Nat} (h : s.cfg.maxXfer < len) (o buf : Word) :
    chipWrite c o buf len s = .refused .aboveMaxXfer := if_pos h

end Refused

/-- Settles O47: each refusal by the check that makes it, of admission, of the operands, of the length. -/
theorem requestsRefused : Obligations.RequestsRefused := by
  refine ⟨fun i s wf h hi => ?_, fun ms s ⟨m, hm, bad⟩ => ?_, fun c o b l x s bad => ?_,
    fun c o b l s hw hi hb hl => ?_, fun c o b l s hw hi hl => ?_⟩
  · rcases hi with ⟨a, d, rfl⟩ | rfl | ⟨b, l, rfl⟩ | ⟨b, l, rfl⟩ | ⟨ms, rfl⟩ | ⟨c, o, b, l, rfl⟩ |
      ⟨c, o, b, l, rfl⟩ | ⟨c, a, n, x, rfl⟩
    · exact ifInited_refused h
    · exact ifInited_refused h
    · exact ifInited_refused h
    · exact ifInited_refused h
    · exact ifLegal_uninited (Bool.and_eq_true_iff.1 wf).1 h
    · exact ifLegal_uninited wf h
    · exact ifLegal_uninited wf h
    · exact ifLegal_uninited wf h
  · exact ifLegal_refused (List.all_eq_false.2 ⟨m, hm, by rw [bad]; exact Bool.false_ne_true⟩)
  · exact ⟨ifLegal_refused bad, ifLegal_refused bad, ifLegal_refused bad, ifLegal_refused bad⟩
  · rw [exec_chipRead_of hw hi, chipRead_tooLong hb hl]
    rfl
  · rw [exec_chipWrite_of hw hi, chipWrite_aboveMax (s := beginOp s) hl]
    rfl

/-! ### Offsets -/

theorem offsetOfBytes_offsetBytes (w : Nat) (o : Word) :
    offsetOfBytes (offsetBytes w o) = o.toNat % 2 ^ (8 * w) := by
  unfold offsetOfBytes
  rw [offset_fold, Nat.zero_mul, Nat.zero_add, Nat.pow_mul]

/-- An offset that its offset bytes hold folds nothing into the address (R109). -/
theorem foldedAddr_of_lt {c : Chip} {o : Word} (h : o.toNat < 2 ^ (8 * offsetWidth c)) :
    foldedAddr c o = c.addr := by
  unfold foldedAddr
  rw [Nat.shiftRight_eq_div_pow, Nat.div_eq_of_lt h]
  simp

/-- Settles O49: the offset bytes are base-256 digits, and nothing is left above them to fold. -/
theorem offsetRoundTrip : Obligations.OffsetRoundTrip := by
  refine ⟨fun w o => ⟨offsetBytes_length w o, offsetOfBytes_offsetBytes w o⟩, fun c o h => ⟨?_, ?_⟩⟩
  · rw [offsetOfBytes_offsetBytes, Nat.mod_eq_of_lt h]
  · exact foldedAddr_of_lt h

/-! ### The timing word -/

/-- Four 6-bit fields at bits 24, 16, 8 and 0 (R113). -/
def timingWord (d h n l : BitVec 6) : Word :=
  d.setWidth 32 <<< 24 ||| h.setWidth 32 <<< 16 ||| n.setWidth 32 <<< 8 ||| l.setWidth 32

theorem timingWord_fields (d h n l : BitVec 6) :
    (timingWord d h n l).extractLsb' 24 6 = d ∧ (timingWord d h n l).extractLsb' 16 6 = h ∧
    (timingWord d h n l).extractLsb' 8 6 = n ∧ (timingWord d h n l).extractLsb' 0 6 = l ∧
    timingWord d h n l &&& 0xC0C0C0C0#32 = 0#32 := by
  unfold timingWord
  refine ⟨?_, ?_, ?_, ?_, ?_⟩ <;>
    (refine BitVec.eq_of_getLsbD_eq fun i hi => ?_; interval_cases i <;> simp)

theorem ofNat_setWidth {v w n : Nat} (h : n < 2 ^ v) :
    (BitVec.ofNat v n).setWidth w = BitVec.ofNat w n := by
  refine BitVec.eq_of_toNat_eq ?_
  rw [BitVec.toNat_setWidth, BitVec.toNat_ofNat, BitVec.toNat_ofNat, Nat.mod_eq_of_lt h]

/-- For every count the fields fit (R148). -/
theorem timings_fit {c : Nat} (h : c ≤ 31) :
    dataVd c < 2 ^ 6 ∧ setHold c < 2 ^ 6 ∧ clkLo c < 2 ^ 6 := by
  unfold dataVd setHold clkLo
  split <;> omega

theorem clkcfgWord_eq {c : Nat} (h : c ≤ 31) :
    clkcfgWord c = timingWord (BitVec.ofNat 6 (dataVd c)) (BitVec.ofNat 6 (setHold c))
      (BitVec.ofNat 6 c) (BitVec.ofNat 6 (clkLo c)) := by
  obtain ⟨hdata, hhold, hlo⟩ := timings_fit h
  have hhi : c < 2 ^ 6 := by omega
  unfold clkcfgWord timingWord
  rw [ofNat_setWidth hdata, ofNat_setWidth hhold, ofNat_setWidth hlo, ofNat_setWidth hhi]

/-- Settles O16: the fields of `clkcfgWord` fit their 6 bits, so each reads back as the number written. -/
theorem timingFields : Obligations.TimingFields := by
  intro c _ h31
  obtain ⟨hdata, hhold, hlo⟩ := timings_fit h31
  obtain ⟨atData, atHold, atHi, atLo, reserved⟩ := timingWord_fields (BitVec.ofNat 6 (dataVd c))
    (BitVec.ofNat 6 (setHold c)) (BitVec.ofNat 6 c) (BitVec.ofNat 6 (clkLo c))
  rw [clkcfgWord_eq h31, atData, atHold, atHi, atLo]
  exact ⟨Nat.mod_eq_of_lt (by omega), Nat.mod_eq_of_lt hlo, Nat.mod_eq_of_lt hhold,
    Nat.mod_eq_of_lt hdata, reserved⟩

/-! ### INIT -/

/-- Settles O20: a pair is found for this speed, so INIT ends in the first way `initBlock_spec` lists. -/
theorem initDone : Obligations.InitDone := by
  intro speed s inv plat hc hsp
  have chosen := search_finds hsp
  obtain ⟨k, u, eu, out, ran⟩ := ends_finish
    ((initBlock_spec (s := beginOp s) inv.core.beginOp plat.beginOp speed (.inr chosen)).and_safe
      (ran_initBlock speed (beginOp s)))
  rcases out with ⟨-, rfl, ended⟩ | ⟨noClock, -⟩
  · have base : InitBase (beginOp s) u := ended.base
    exact ⟨_, eu, rfl, ended.phase, ended.inited, base.ctrl, base.cfg0, ended.cfg1, ended.clkcfg,
      ended.handle, base.noTx, base.noRx, base.mier, base.bracket, base.controls.mem,
      base.controls.words, ran.primsOf⟩
  · exact absurd noClock hc

/-! ### The environment's turn -/

section Environment

variable {s t : State} {w : CmdEntry} {c : Cmd}

theorem contract_of_envSlot (e : envSlot s = .next t) : Contract s t := by
  rcases envSlot_spec s with ⟨u, eu, k⟩ | ⟨refused, -⟩
  · rw [e] at eu
    cases eu
    exact k
  · rw [e] at refused
    cases refused

theorem envSlot_no_fault (s : State) (f : Fault) : envSlot s ≠ .fault f := by
  rcases envSlot_spec s with ⟨u, eu, -⟩ | ⟨refused, -⟩
  · rw [eu]
    exact nofun
  · rw [refused]
    exact nofun

theorem envSlot_refusal {r : Refusal} (e : envSlot s = .refused r) :
    r = .reservedCommand ∧ ∃ w ∈ s.txf, decodeCmd w = none := by
  rcases envSlot_spec s with ⟨u, eu, -⟩ | ⟨refused, w, hw, illegal⟩
  · rw [e] at eu
    cases eu
  · rw [e] at refused
    cases refused
    exact ⟨rfl, w, hw, Option.not_isSome_iff_eq_none.1 illegal⟩

theorem envSlot_nominal (h : s.sched = []) : envSlot s = engineMove s := by
  unfold envSlot
  rw [h]

theorem exec_toInstr (c : Cmd) (s : State) : exec c.toInstr s = runCmd c s := by
  cases c <;> rfl

theorem engineMove_word (hn : nextEntry s = some w) (hd : decodeCmd w = some c) :
    engineMove s = runCmd c s := by
  unfold engineMove
  rw [hn]
  dsimp only
  rw [hd]

theorem engineMove_reserved (hn : nextEntry s = some w) (hd : decodeCmd w = none) :
    engineMove s = .refused .reservedCommand := by
  unfold engineMove
  rw [hn]
  dsimp only
  rw [hd]

theorem engineTurn_reserved (hn : nextEntry s = some w) (hd : decodeCmd w = none) :
    engineTurn s = .refused .reservedCommand := by
  unfold engineTurn
  rw [hn]
  dsimp only
  rw [hd]

theorem engineMove_continue (hn : nextEntry s = none) : engineMove s = .next (engineContinue s) := by
  unfold engineMove
  rw [hn]

theorem nextEntry_ready {r : List CmdEntry} (hr : engineReady s = true) (h : s.txf = w :: r) :
    nextEntry s = some w := by
  unfold nextEntry
  rw [if_pos hr, h]
  rfl

theorem envSlot_scheduled {ms : List EnvMove} {sch : List (List EnvMove)} (h : s.sched = ms :: sch) :
    envSlot s = envMoves ms { s with sched := sch } := by
  unfold envSlot
  rw [h]

theorem envMoves_refused {m : EnvMove} {e : Refusal} (ms : List EnvMove)
    (h : envMove m s = .refused e) : envMoves (m :: ms) s = .refused e := by
  unfold envMoves
  rw [h]

/-- A move that takes a reserved word is refused (R105). -/
theorem envMove_take_reserved {r : List CmdEntry} (on : engineOn s = true) (h : s.txf = w :: r)
    (hd : decodeCmd w = none) : envMove .take s = .refused .reservedCommand := by
  unfold envMove takeWord
  dsimp only
  rw [if_pos on, h]
  dsimp only
  rw [hd]
  rfl

/-! ### A controller that is switched off -/

theorem not_ready_of_off (off : engineOn s = false) : engineReady s = false := by
  unfold engineReady
  rw [off]
  rfl

theorem runCmd_off (off : engineOn s = false) (c : Cmd) : runCmd c s = .next s := by
  have idle : ¬ engineReady s = true := by
    rw [not_ready_of_off off]
    exact Bool.false_ne_true
  cases c <;> exact congrArg _ (if_neg idle)

theorem engineMove_off (off : engineOn s = false) : engineMove s = .next s := by
  have none : nextEntry s = none := by
    unfold nextEntry
    rw [not_ready_of_off off]
    rfl
  rw [engineMove_continue none]
  unfold engineContinue
  rw [off]
  rfl

end Environment

/-- Settles O59: the laws of the environment's turn under any schedule; with none, it is the nominal
engine's move. -/
theorem engineWithinContract : Obligations.EngineWithinContract := by
  refine ⟨fun s t e => contract_of_envSlot e, envSlot_no_fault, fun s r e => envSlot_refusal e,
    fun s t e reset => ?_, fun s men => ?_, fun s w r h hd => ⟨fun on ms sch hs => ?_, fun ready => ?_⟩,
    fun s hs => ⟨fun w c hn hd => ?_, fun hn => ?_⟩⟩
  · have k : StaysReset s t := envSlot_reset reset e
    exact ⟨k.mbf, k.same⟩
  · have off := engineOn_false_of_men men
    exact ⟨fun hs => (envSlot_nominal hs).trans (engineMove_off off),
      fun c => (exec_toInstr c s).trans (runCmd_off off c)⟩
  · exact (envSlot_scheduled hs).trans (envMoves_refused ms (envMove_take_reserved on h hd))
  · have hn := nextEntry_ready ready h
    exact ⟨fun hs => (envSlot_nominal hs).trans (engineMove_reserved hn hd),
      fun idle => (step_of_idle_host idle).trans (engineTurn_reserved hn hd)⟩
  · exact (envSlot_nominal hs).trans ((engineMove_word hn hd).trans (exec_toInstr c s).symm)
  · exact (envSlot_nominal hs).trans (engineMove_continue hn)

/-! ### RECEIVE -/

/-- With no word queued the bus is free: neither a start nor a byte is under way. -/
theorem Avail.free {e : Target} {s : State} (h : Avail e s) (noWord : s.txf = []) :
    Free e (wires s) := by
  rcases h with free | ⟨r, held | ⟨b, e0, -, -, word, -⟩ | ⟨a, d, e0, -, -, -, word, -⟩⟩
  · exact free
  · exact held.toFree
  · exact absurd (noWord.symm.trans word) (List.cons_ne_nil _ _).symm
  · exact absurd (noWord.symm.trans word) (List.cons_ne_nil _ _).symm

/-- A read bracket of the nominal engine is where RECEIVE's law begins. -/
theorem ready_read {s : State} {e : Target} (inv : Inv s) (plat : Platform s) (nom : Nominal s)
    (b : InBracket .read s e) (h : 1 ≤ s.cfg.tPoll) : Ready true e (beginOp s) :=
  .inl ⟨(avail_beginOp inv plat nom b.toBusReady h).free b.rests.noWord, b.direction, b.owned, b.clean,
    b.addressed⟩

/-- Settles O31: the bus behind the last byte, and the word and phase RECEIVE leaves after OK. -/
theorem receiveFills : Obligations.ReceiveFills := by
  intro buf len s e inv plat hi nom b h0 h256 hpoll
  have len0 : len.toNat ≠ 0 := BitVec.toNat_ne.1 h0
  have g : Good (beginOp s) := (Good.of_inv inv plat).beginOp
  obtain ⟨k, u, eu, ⟨rfl, -, filled, -, held⟩, -, -, -, -, out⟩ := ends_finish (ends_both
    (receive_ready (.host buf) h256 (ready_read inv plat nom b (by omega)) hpoll)
    (receive_spec (.host buf) h256 g))
  obtain ⟨-, phase, words, -⟩ := (out len0).resolve_right fun failed => failed.1 rfl
  rw [received_host] at filled
  exact ⟨_, (exec_receive_of hi buf len).trans eu, rfl, phase, words, (held len0).noWord,
    (held len0).noByte, congrArg Prod.fst filled, (held len0).attached⟩

/-! ### CHECK_CLEAR_ERROR -/

/-- In calm from before its status read on, the decode sees the flags the operation begins at (R211, R213). -/
theorem decode_calm {s : State} (p : Platform s) (hr : runs s) (c : Calm 4 s) :
    Ends (checkClearError s) fun k t => k = flagsCode s.flags ∧
      kinds t = (decodePrims s.flags).reverse ++ kinds s ∧
      t = { s with
        work := t.work
        flags := if flagsCode s.flags = .ok then s.flags else clearedFlags s.flags
        txf := if flagsCode s.flags = .ok then s.txf else []
        rxf := if flagsCode s.flags = .ok then s.rxf else []
        sched := t.sched
        draws := t.draws
        trace := t.trace } := by
  obtain ⟨v, ev, passes, time, calm, prims⟩ := calm_slot (n := 3) c
  have running : v.ctrl.getLsbD bitRST = false := by
    rw [passes.ctrl]
    exact hr
  refine ends_mono (decode_pass ev (passes.platform p) running calm) fun k t ⟨code, d⟩ => ?_
  refine ⟨by rw [code, passes.flags], by rw [d.prims, passes.flags, prims], ?_⟩
  have same := d.same
  rw [d.time.timer, d.time.ticks, time.timer, time.ticks, passes.same] at same
  exact same

/-- Settles O34: the two cases of `decode_calm`, as an instruction. -/
theorem checkClearErrorDecodes : Obligations.CheckClearErrorDecodes := by
  intro s inv plat calm
  obtain ⟨k, u, eu, rfl, prims, same⟩ :=
    ends_finishMicro (decode_calm plat.beginOp inv.notReset calm.beginOp)
  have exactly : primsOf u = decodePrims s.flags := primsOf_of_kinds (prims.trans (List.append_nil _))
  refine ⟨_, eu, rfl, fun clean => ?_, fun error => ?_⟩
  · have code : flagsCode (beginOp s).flags = .ok := flagsCode_ok.2 clean
    simp only [code, if_true] at same ⊢
    exact ⟨exactly.trans (if_pos code), congrArg (fun x : State => { x with result := .ok }) same⟩
  · have code : flagsCode (beginOp s).flags ≠ .ok := fun h => error (flagsCode_ok.1 h)
    simp only [code, if_false] at same
    exact ⟨exactly.trans (decodePrims_error error),
      congrArg (fun x : State => { x with result := flagsCode s.flags }) same⟩

/-! ### The chip layer -/

theorem readView_block {c : Chip} (hb : rdBytewise c = false) (o : Word) (dst : ByteDst) (len : Nat)
    (x : BusView) : readView c o dst len x = xfer (readMsgs c o dst len) x :=
  if_neg (by rw [hb]; exact Bool.false_ne_true)

theorem writeView_block {c : Chip} (hb : wrBytewise c = false) (o buf : Word) (len : Nat)
    (x : BusView) : writeView c o buf len x =
      xfer [writeMsg c o ((List.range len).map fun i => x.1.read (hostAddr buf i))] x :=
  if_neg (by rw [hb]; exact Bool.false_ne_true)

/-- Settles O41: in block mode the bus view behind CHIP_READ is one transfer's, the fold of its messages. -/
theorem chipReadBlock : Obligations.ChipReadBlock := by
  intro c o buf len s e hw hb h256 hne inv plat hi nom ready answers hpoll
  have nonempty : isZeroWidth c = false ∨ len.toNat ≠ 0 := hne.imp width_zero BitVec.toNat_ne.1
  obtain ⟨k, u, eu, hk, left⟩ := ends_finish (chipRead_avail (c := c) (o := o) (dst := .host buf)
    (avail_beginOp inv plat nom ready (by omega)) (.inr h256) (.inr hb) (.inr hb) nonempty
    (by rw [hb]; exact answers) (by rw [hb]; exact hpoll))
  rw [readView_block hb] at left
  have effect := msgRuns_effect (readMsgs c o (.host buf) len.toNat) (viewOf e (beginOp s))
  refine ⟨_, (exec_chipRead_of hw hi o buf len).trans eu, hk, left.parked.idle,
    left.parked.free.noWord, left.parked.free.noByte, left.mem.trans (congrArg Prod.fst effect), ?_⟩
  exact left.parked.free.attached.trans
    (congrArg (fun x : Memory × Target => some x.2.release) effect)

/-- Settles O43: the words and the memory of `chipWrite_spec`, from an empty trace on. -/
theorem chipWriteWords : Obligations.ChipWriteWords := by
  intro c o buf len s hw inv plat hi hd hmax
  have g : Good (beginOp s) := (Good.of_inv inv plat).beginOp
  obtain ⟨k, u, eu, -, same, -, out⟩ := ends_finish (chipWrite_spec (s := beginOp s) c o buf hmax g hd)
  refine ⟨_, (exec_chipWrite_of hw hi o buf len).trans eu, same, fun ok => ?_⟩
  obtain ⟨-, words⟩ := out ok
  exact words

/-- Settles O44: in block mode the bus view behind CHIP_WRITE is that of its one coalesced message. -/
theorem chipWriteBlock : Obligations.ChipWriteBlock := by
  intro c o buf len s e hw hb hmax inv plat hi nom ready answers hpoll
  obtain ⟨k, u, eu, hk, left⟩ := ends_finish (chipWrite_avail (c := c) (o := o) (buf := buf)
    (avail_beginOp inv plat nom ready (by omega)) hmax (.inr hb) (.inr hb)
    (by rw [hb]; exact answers) hpoll)
  rw [writeView_block hb] at left
  exact ⟨_, (exec_chipWrite_of hw hi o buf len).trans eu, hk, left.parked.idle,
    left.parked.free.noWord, left.parked.free.noByte, left.mem, left.parked.free.attached⟩

end Sys2Proof.Machine

/-! Bring-up and the divider (spec/40_init_and_divider.md R140 to R153): the pair the search selects and when
it selects none, and SPEED_SET and INIT with a pair, without one and without a source clock. -/

namespace Sys2Proof.Machine

/-! ### The pair the search selects -/

section Search

variable {clk speed p c : Nat}

theorem mem_counts : c ∈ counts ↔ 1 ≤ c ∧ c ≤ 31 := by
  unfold counts
  rw [List.mem_range'_1]
  omega

theorem mem_allPairs : (p, c) ∈ allPairs ↔ p ∈ prescalers ∧ 1 ≤ c ∧ c ≤ 31 := by
  unfold allPairs
  simp [mem_counts]

/-- The best error the search ends with is that of the pair it selects. -/
theorem search_bestErr (h : (dividerSearch clk speed).chosen = true) :
    (dividerSearch clk speed).bestErr =
      pairErr clk speed ((dividerSearch clk speed).bestP, (dividerSearch clk speed).bestC) :=
  ((found_search clk speed).best h).2.1

end Search

/-- Settles O13: the best error is at most that of any pair seen, and the search sees all pairs. -/
theorem dividerOptimal : Obligations.DividerOptimal := by
  intro clk speed chosen p c hp h1 h31
  have least := (found_search clk speed).least (p, c) (mem_allPairs.2 ⟨hp, h1, h31⟩)
  rw [search_bestErr chosen] at least
  exact least

/-- Settles O14: a pair replaces the best so far only if its error is strictly smaller. -/
theorem dividerFirst : Obligations.DividerFirst := by
  intro clk speed chosen
  obtain ⟨selected, err, first⟩ := (found_search clk speed).best chosen
  rw [err] at first
  exact ⟨selected, first⟩

/-! ### When the search selects no pair -/

section NoPair

variable {clk speed : Nat}

theorem searchCounts_keeps {P : DivRegs → Prop} (hstep : ∀ d p c, P d → P (d.try clk speed p c))
    (p : Nat) (cs : List Nat) {d : DivRegs} (h : P d) : P (searchCounts clk speed p cs d) := by
  induction cs generalizing d with
  | nil => exact h
  | cons c r ih =>
    unfold searchCounts
    dsimp only
    split
    · exact hstep d p c h
    · exact ih (hstep d p c h)

theorem searchPrescalers_keeps {P : DivRegs → Prop}
    (hstep : ∀ d p c, P d → P (d.try clk speed p c)) (ps : List Nat) {d : DivRegs} (h : P d) :
    P (searchPrescalers clk speed ps d) := by
  induction ps generalizing d with
  | nil => exact h
  | cons p r ih =>
    unfold searchPrescalers
    split
    · exact h
    · exact ih (searchCounts_keeps hstep p counts h)

/-- The best error is at most its start value, and below it once a pair is chosen (R146). -/
structure BelowStart (d : DivRegs) : Prop where
  le : d.bestErr ≤ 0xFFFFFFFF
  lt : d.chosen = true → d.bestErr < 0xFFFFFFFF

theorem belowStart_try {d : DivRegs} (h : BelowStart d) (p c : Nat) :
    BelowStart (d.try clk speed p c) := by
  obtain ⟨-, better, worse⟩ := try_best d clk speed p c
  by_cases hlt : pairErr clk speed (p, c) < d.bestErr
  · obtain ⟨err, -⟩ := better hlt
    have lt : (d.try clk speed p c).bestErr < 0xFFFFFFFF := err ▸ hlt.trans_le h.le
    exact ⟨lt.le, fun _ => lt⟩
  · obtain ⟨err, -, -, chosen⟩ := worse hlt
    exact ⟨err ▸ h.le, fun hc => err ▸ h.lt (chosen ▸ hc)⟩

theorem belowStart_start : BelowStart DivRegs.start := ⟨Nat.le_refl 0xFFFFFFFF, nofun⟩

theorem belowStart_search : BelowStart (dividerSearch clk speed) :=
  searchPrescalers_keeps (P := BelowStart) (fun _ p c h => belowStart_try h p c) prescalers
    belowStart_start

/-- A pair is selected exactly when some pair's error is below the start value (R146). -/
theorem search_chosen_iff : (dividerSearch clk speed).chosen = true ↔
    ∃ q ∈ allPairs, pairErr clk speed q < 0xFFFFFFFF := by
  refine ⟨fun chosen => ?_, fun ⟨⟨p, c⟩, mem, lt⟩ => ?_⟩
  · obtain ⟨selected, err, -⟩ := (found_search clk speed).best chosen
    exact ⟨_, selected, err ▸ belowStart_search.lt chosen⟩
  · obtain ⟨hp, hc⟩ := mem_allPairs.1 mem
    exact search_chosen hp (mem_counts.2 hc) lt

/-- Below 8 Hz every rate is 0: the divisor is at least 8 for `p` = 1 and at least 6 behind that (R144). -/
theorem rateOf_slow {p c : Nat} (hk : clk < 8) (hp : 1 ≤ p) (hc : 1 ≤ c) : rateOf clk p c = 0 := by
  have small : clk / p < 6 + 2 / p := by
    obtain rfl | h2 := hp.eq_or_lt
    · omega
    · have half : clk / p ≤ clk / 2 := Nat.div_le_div_left h2 (by omega)
      exact Nat.lt_add_right _ (by omega)
  unfold rateOf
  split <;> exact Nat.div_eq_of_lt (by omega)

theorem one_le_of_mem_prescalers : ∀ p ∈ prescalers, 1 ≤ p := by decide

/-- Every rate is 0, so every error is the speed itself, which is the start value (R153). -/
theorem search_noPair (hk : clk < 8) : (dividerSearch clk 0xFFFFFFFF).chosen = false := by
  refine Bool.eq_false_iff.2 fun chosen => ?_
  obtain ⟨⟨p, c⟩, mem, lt⟩ := search_chosen_iff.1 chosen
  obtain ⟨hp, h1, -⟩ := mem_allPairs.1 mem
  have zero : rateOf clk p c = 0 := rateOf_slow hk (one_le_of_mem_prescalers p hp) h1
  have err : pairErr clk 0xFFFFFFFF (p, c) = 0xFFFFFFFF := by
    unfold pairErr
    rw [zero]
    rfl
  exact lt.ne err

end NoPair

/-- Settles O15: `search_finds` and `search_noPair` are the two directions. -/
theorem dividerNoPair : Obligations.DividerNoPair := by
  intro clk speed
  refine ⟨fun unselected => ?_, ?_⟩
  · by_contra h
    exact Bool.false_ne_true (unselected.symm.trans (search_finds h))
  · rintro ⟨hk, rfl⟩
    exact search_noPair hk

/-! ### SPEED_SET, and INIT with no pair -/

section Requests

variable {s : State} (speed : Word)

theorem exec_speedSet_inBracket (h : s.bracket = true) :
    exec (.speedSet speed) s = .refused .speedSetInBracket := if_pos h

theorem exec_speedSet_of (h : s.bracket = false) :
    exec (.speedSet speed) s = finish (speedSet speed (beginOp s)) :=
  if_neg (by rw [h]; exact Bool.false_ne_true)

theorem exec_init : exec (.init speed) s = finish (initBlock speed (beginOp s)) := rfl

end Requests

/-- Settles O17: what `speedSet_spec` leaves, with the accesses of `trace_speedSet`, from an empty trace on. -/
theorem speedSetDone : Obligations.SpeedSetDone := by
  intro speed s inv plat outside hc hsp
  have g : Good (beginOp s) := (Good.of_inv inv plat).beginOp
  have chosen := search_finds hsp
  obtain ⟨k, u, eu, ⟨rfl, left⟩, accesses⟩ :=
    ends_finish (ends_both (speedSet_spec g speed hc chosen) (trace_speedSet g speed hc chosen))
  have trace : u.trace.reverse = speedAccesses s
      (dividerSearch s.cfg.clockSrc.toNat speed.toNat).bestP
      (dividerSearch s.cfg.clockSrc.toNat speed.toNat).bestC := by
    rw [accesses, List.reverse_append, List.reverse_reverse]
    rfl
  exact ⟨_, (exec_speedSet_of speed outside).trans eu, rfl, left.clkcfg, left.cfg1, left.handle,
    left.ctrl, left.cfg0, left.phase, left.inited, left.bracket, left.controls.mem,
    left.controls.words, trace⟩

/-- Settles O18: SPEED_SET is done before its first access. -/
theorem speedSetNoClock : Obligations.SpeedSetNoClock := by
  intro speed s outside hc
  rw [exec_speedSet_of speed outside, speedSet_noClock (s := beginOp s) speed hc]
  rfl

/-- Settles O19: SPEED_SET refuses a bracket before it begins; with no pair it is refused, and so is the INIT
it is part of. -/
theorem speedSetRefused : Obligations.SpeedSetRefused := by
  refine ⟨fun speed s inside => exec_speedSet_inBracket speed inside,
    fun speed s inv plat hc hk hsp => ?_⟩
  have noPair := (dividerNoPair s.cfg.clockSrc speed).2 ⟨hk, hsp⟩
  refine ⟨fun outside => ?_, ?_⟩
  · rw [exec_speedSet_of speed outside, speedSet_noPair inv.core.beginOp plat.beginOp speed hc noPair]
    rfl
  · rw [exec_init, initBlock_noPair inv.core.beginOp plat.beginOp speed hc noPair]
    rfl

/-! ### INIT with no source clock -/

/-- Settles O21: with no source clock INIT ends in the second way `initBlock_spec` lists. -/
theorem initNoClock : Obligations.InitNoClock := by
  intro speed s inv plat hc
  obtain ⟨k, u, eu, out, ran⟩ := ends_finish
    ((initBlock_spec (s := beginOp s) inv.core.beginOp plat.beginOp speed (.inl hc)).and_safe
      (ran_initBlock speed (beginOp s)))
  rcases out with ⟨clocked, -⟩ | ⟨-, rfl, ended⟩
  · exact absurd hc clocked
  · have base : InitBase (beginOp s) u := ended.base
    exact ⟨_, eu, rfl, ended.phase, ended.inited, base.ctrl, base.cfg0, ended.cfg1, ended.clkcfg,
      ended.handle, base.noTx, base.noRx, base.controls.mem, ran.primsOf⟩

end Sys2Proof.Machine

/-! START and STOP (spec/41_start_stop.md R171 to R177): START on a free bus in a quiet environment, STOP of a
bracket the nominal engine holds, and what both leave under any environment. -/

namespace Sys2Proof.Machine

theorem exec_stop_of {s : State} (hi : s.inited = true) :
    exec .stop s = finish (stop (beginOp s)) := if_pos hi

/-! ### The timer where an operation begins -/

theorem sameTime_beginOp (s : State) : SameTime s (beginOp s) := ⟨rfl, rfl⟩

theorem firstElapsed_beginOp (s : State) : firstElapsed (beginOp s) = firstElapsed s :=
  firstElapsed_congr (sameTime_beginOp s) rfl

theorem elapsedAfter_beginOp (k n : Nat) (s : State) :
    elapsedAfter n (afterReads k (beginOp s)) = elapsedAfter n (afterReads k s) :=
  elapsedAfter_congr n ((sameTime_beginOp s).reads k) (by rw [afterReads_cfg, afterReads_cfg]; rfl)

/-! ### START -/

/-- Settles O23: the environment's turn before START's status read changes nothing; what START leaves behind
it is `Started`. -/
theorem startQueues : Obligations.StartQueues := by
  intro a d s inv plat hi calm free space time
  obtain ⟨u, eu, passes, same, calmU, -⟩ := calm_slot (n := 8) calm.beginOp
  have elapsed : firstElapsed u = firstElapsed s :=
    (firstElapsed_congr same passes.cfg).trans (firstElapsed_beginOp s)
  have running : u.ctrl.getLsbD bitRST = false := by
    rw [passes.ctrl]
    exact inv.notReset
  have depth : u.cfg.fifoDepth ≤ 7 := by
    rw [passes.cfg]
    exact inv.core.cfgValid.2.1
  have room : u.txf.length < u.cfg.fifoDepth := by
    rw [passes.txf, passes.cfg]
    exact space
  have free' : ¬ busStuck u := by
    unfold busStuck
    rw [passes.flags]
    exact free
  obtain ⟨k, t, et, inTime, -⟩ := ends_finish
    (start_calm (n := 0) eu (passes.platform plat.beginOp) running calmU depth (.inl room) free' a d)
  obtain ⟨rfl, started, -, -⟩ := inTime (by rw [elapsed, passes.cfg]; exact time)
  have left := started.same
  rw [passes.flags, passes.cfg1, passes.txf, passes.same] at left
  exact ⟨_, (exec_start_of hi a d).trans et, started.words.trans (congrArg (· ++ _) passes.words),
    congrArg (fun x : State => { x with result := .ok, work := {} }) left⟩

/-- Settles O26: the outcomes of `start_spec`; the error decoded in the wait for space, at the flags the
environment has raised. -/
theorem startAny : Obligations.StartAny := by
  refine ⟨fun a d s inv plat hi hd => ?_, fun a d s w rest inv plat hi free herr hs => ?_⟩
  · have g : Good (beginOp s) := (Good.of_inv inv plat).beginOp
    obtain ⟨c, u, eu, -, still, out⟩ := ends_finish (start_spec g hd a d)
    refine ⟨_, (exec_start_of hi a d).trans eu, still.mem, ?_⟩
    rcases out with ⟨ok, phase, bracket, words⟩ | ⟨failed, phase, words⟩
    · exact .inl ⟨ok, phase, bracket, words⟩
    · exact .inr ⟨failed, phase, words⟩
  · have raised := start_raise (s := beginOp s) plat.beginOp inv.notReset free herr
      inv.core.cfgValid.2.1 inv.core.txBound hs a d
    rw [exec_start_of hi]
    exact finish_raised
      (s := { s with cfg1 := startCfg1 s.cfg1, flags := (s.flags.clearW1C clearAll).raiseW1C w })
      [.rd .status, .wr .status, .rd .cfg1, .wr .cfg1, .now, .rd .fifostat] herr
      (ends_mono raised fun _ _ ⟨left, prims⟩ => ⟨left, prims.trans (List.append_nil _)⟩)

/-! ### STOP -/

/-- Settles O27: the bus behind a STOP of the nominal engine, and the word and bracket of every STOP. -/
theorem stopReleases : Obligations.StopReleases := by
  intro d s e inv plat hi nom b hpoll
  have g : Good (beginOp s) := (Good.of_inv inv plat).beginOp
  have free : Free e (wires { beginOp s with phase := .stop, bracket := false }) :=
    (avail_beginOp inv plat nom b.toBusReady hpoll).free b.rests.noWord
  obtain ⟨k, t, et, ⟨rfl, freed, mem, mbf, bbf, sdf, clean, -, -, idle⟩, -, -, bracket, out⟩ :=
    ends_finish (ends_both (stop_held free.slot free b.owned b.clean) (stop_spec g))
  obtain ⟨-, -, words⟩ := out.resolve_right fun failed => failed.1 rfl
  exact ⟨_, (exec_stop_of hi).trans et, rfl, idle, bracket, words, freed.noWord, freed.noByte, mbf, bbf,
    sdf, clean, freed.attached, mem⟩

/-- Settles O28: the outcomes of `stop_spec`; the pass of the stop-detect loop that ends it; the error decoded
on entry. -/
theorem stopAny : Obligations.StopAny := by
  refine ⟨fun s inv plat hi => ?_,
    fun s m w rest inv plat hi hf space time hs unseen inTime late => ?_,
    fun s inv plat hi calm herr => ?_⟩
  · have g : Good (beginOp s) := (Good.of_inv inv plat).beginOp
    obtain ⟨c, u, eu, -, still, bracket, out⟩ := ends_finish (stop_spec g)
    refine ⟨_, (exec_stop_of hi).trans eu, still.mem, bracket, ?_⟩
    rcases out with ⟨ok, phase, words⟩ | ⟨failed, phase, words⟩
    · exact .inl ⟨ok, phase, words⟩
    · exact .inr ⟨failed, phase, words⟩
  · have g : Good (beginOp s) := (Good.of_inv inv plat).beginOp
    obtain ⟨k, u, eu, rfl, left, words, prims⟩ := ends_finish (stop_raise (s := beginOp s) m g hf space
      (by rw [firstElapsed_beginOp]; exact time) hs unseen
      (fun j hj => by rw [elapsedAfter_beginOp]; exact inTime j hj)
      (fun h => by rw [elapsedAfter_beginOp]; exact late h))
    refine ⟨_, (exec_stop_of hi).trans eu, words, primsOf_of_kinds ?_, congrArg (fun x : State =>
      { x with result := stopCode s.cfg (s.flags.raiseW1C w), work := {} }) left⟩
    change kinds u = _
    rw [prims, List.reverse_append, List.reverse_append]
    rfl
  · rw [exec_stop_of hi]
    exact finish_raised (s := { s with bracket := false }) [.now, .rd .fifostat] herr
      (stop_err plat.beginOp inv.notReset calm.beginOp herr inv.core.cfgValid.2.1 inv.core.txBound)

end Sys2Proof.Machine

/-! SEND and RECEIVE (spec/42_byte_transfer.md R190, R193): what the target of the nominal engine has received
behind a SEND, and the three lengths RECEIVE tells apart. -/

namespace Sys2Proof.Machine

/-! ### SEND -/

/-- A bracket of the nominal engine, of either direction, is a bus this master holds. -/
theorem held_inBracket {d : Dir} {s : State} {e : Target} (inv : Inv s) (plat : Platform s)
    (nom : Nominal s) (b : InBracket d s e) (h : 1 ≤ s.cfg.tPoll) :
    Held (decide (d = .read)) e (wires (beginOp s)) :=
  ⟨(avail_beginOp inv plat nom b.toBusReady h).free b.rests.noWord, b.direction, b.owned, b.clean,
    b.addressed⟩

/-- Settles O29: behind SEND a word may still be queued, and the engine's next turn takes it. -/
theorem sendDelivers : Obligations.SendDelivers := by
  intro buf len s e inv plat hi nom b hpoll
  have g : Good (beginOp s) := (Good.of_inv inv plat).beginOp
  have ready : Ready false e (beginOp s) := .inl (held_inBracket inv plat nom b hpoll)
  obtain ⟨k, t, et, ⟨rfl, sent, mem, -⟩, -, -, -, out⟩ := ends_finish (ends_both
    (send_ready (.host buf len.toNat) ready) (send_spec (.host buf len.toNat) g))
  obtain ⟨-, phase, words⟩ := out.resolve_right fun failed => failed.1 rfl
  have sent' : Ready false (e.putBytes (bufferBytes s buf len.toNat))
      { t with result := .ok, work := {} } := sent
  obtain ⟨u, eu, held, -⟩ := ready_slot sent'
  exact ⟨_, u, (exec_send_of hi buf len).trans et, rfl, phase,
    words.trans (sendWords_host buf _ _ _), mem, eu, held.noWord, held.owned, held.clean, held.attached⟩

/-! ### RECEIVE -/

theorem receive_zero (dst : ByteDst) (s : State) : receive dst 0 s = done .ok s := if_pos rfl

theorem receive_tooLong (dst : ByteDst) {len : Nat} (h : 256 < len) (s : State) :
    receive dst len s = .refused .receiveTooLong :=
  (if_neg (Nat.ne_zero_of_lt h)).trans (if_pos h)

/-- Settles O33: 256 is within the lengths of `receive_spec`; the others end before the first primitive. -/
theorem receiveLengths : Obligations.ReceiveLengths := by
  refine ⟨fun buf s hi => ?_, fun buf len s hi h => ?_, fun buf s inv plat hi => ?_⟩
  · rw [exec_receive_of hi, show (0#32).toNat = 0 from rfl, receive_zero]
    rfl
  · rw [exec_receive_of hi, receive_tooLong (.host buf) h]
    rfl
  · have g : Good (beginOp s) := (Good.of_inv inv plat).beginOp
    obtain ⟨k, u, eu, -, -, -, -, out⟩ := ends_finish
      (receive_spec (.host buf) (len := (256#32).toNat) (by decide) g)
    refine ⟨_, (exec_receive_of hi buf 256#32).trans eu, fun ok => ?_⟩
    obtain ⟨-, -, words, -⟩ := (out (by decide)).resolve_right fun failed => failed.1 ok
    have word : receiveWord (256#32).toNat = 0x1FF#32 := by decide
    exact words.trans (congrArg ([·]) word)

end Sys2Proof.Machine

/-! Polling and errors (spec/43_poll_and_errors.md R210 to R217): the first timer test of WAIT_TX_SPACE, the
operations it ends, the two micro-operations under any environment, and that every admitted request ends. -/

namespace Sys2Proof.Machine

/-! ### A quiet environment with no error pending -/

/-- At the next `n` primitives the environment does nothing, no error flag is set, and every access reaches
its register. -/
structure QuietClean (n : Nat) (s : State) : Prop where
  plat : Platform s
  calm : Calm n s
  clean : noErrorFlag s.flags
  depth : s.cfg.fifoDepth ≤ 7
  bound : s.txf.length ≤ s.cfg.fifoDepth

section Quiet

variable {n : Nat} {s t : State}

theorem QuietClean.of_inv (inv : Inv s) (plat : Platform s) (calm : Calm n s)
    (clean : noErrorFlag s.flags) : QuietClean n (beginOp s) :=
  ⟨plat.beginOp, calm.beginOp, clean, inv.core.cfgValid.2.1, inv.core.txBound⟩

theorem QuietClean.weaken {k : Nat} (q : QuietClean (n + k) s) : QuietClean n s :=
  ⟨q.plat, q.calm.weaken, q.clean, q.depth, q.bound⟩

theorem QuietClean.relabel (q : QuietClean n s) (w : Work) (ph : Phase) (b : Bool) :
    QuietClean n { s with work := w, phase := ph, bracket := b } :=
  ⟨⟨q.plat.clockOn, q.plat.aligned⟩, calm_relabel w ph b q.calm, q.clean, q.depth, q.bound⟩

theorem QuietClean.passes {k : Nat} (q : QuietClean n s) (h : Passes s t) (c : Calm k t) :
    QuietClean k t :=
  ⟨h.platform q.plat, c, by rw [h.flags]; exact q.clean, by rw [h.cfg]; exact q.depth,
    by rw [h.txf, h.cfg]; exact q.bound⟩

/-- The environment's turn. -/
theorem QuietClean.slot (q : QuietClean (n + 1) s) :
    ∃ u, envSlot s = .next u ∧ QuietClean n u ∧ Passes s u ∧ SameTime s u ∧ kinds u = kinds s := by
  obtain ⟨u, e, passes, time, calm, prims⟩ := calm_slot q.calm
  exact ⟨u, e, q.passes passes calm, passes, time, prims⟩

theorem QuietClean.now (q : QuietClean (n + 1) s) :
    Ends (now s) fun _ t => QuietClean n t ∧ Passes s t ∧ SameTime (tickTimer s) t ∧
      kinds t = .now :: kinds s := by
  obtain ⟨u, e, qu, passes, time, prims⟩ := q.slot
  refine ends_mono (now_slot e) fun _ t ⟨reads, _, ⟨timer, ticks⟩, read⟩ => ?_
  exact ⟨qu.passes reads.passes (reads.calm qu.calm), passes.trans reads.passes,
    time.tick.trans ⟨timer, ticks⟩, by rw [read, prims]⟩

/-! ### WAIT_TX_SPACE -/

/-- The primitives of one pass of WAIT_TX_SPACE, the timer read before it included (R210). -/
def waitPassPrims : List Prim := [.now, .rd .fifostat, .rd .status, .now]

/-- A free entry, or else a full FIFO under a late timer. -/
theorem QuietClean.decides (q : QuietClean n s)
    (h : s.txf.length < s.cfg.fifoDepth ∨ s.cfg.tPoll < firstElapsed s) :
    s.txf.length < s.cfg.fifoDepth ∨
      s.txf.length = s.cfg.fifoDepth ∧ s.cfg.tPoll < firstElapsed s := by
  rcases q.bound.lt_or_eq with space | full
  · exact .inl space
  · exact .inr ⟨full, h.resolve_left full.not_lt⟩

/-- With space or a late timer the first timer test decides WAIT_TX_SPACE (R210, R215). -/
theorem waitTxSpace_quiet (q : QuietClean 4 s)
    (h : s.txf.length < s.cfg.fifoDepth ∨ s.cfg.tPoll < firstElapsed s) :
    Ends (waitTxSpace s) fun k t =>
      k = (if s.cfg.tPoll < firstElapsed s then .timeout else .ok) ∧ Passes s t ∧
      kinds t = waitPassPrims.reverse ++ kinds s := by
  obtain ⟨u, e, qu, passes, time, prims⟩ := q.slot
  have first : firstElapsed u = firstElapsed s := firstElapsed_congr time passes.cfg
  have decides := qu.decides (by rw [passes.txf, passes.cfg, first]; exact h)
  refine ends_mono (waitTxSpace_slot (n := 0) e qu.plat qu.calm qu.clean qu.depth decides)
    fun k t ⟨code, left, _, _, ran, _⟩ => ?_
  exact ⟨by rw [code, passes.cfg, first], passes.trans left, by rw [ran, prims]; rfl⟩

end Quiet

/-- Settles O35: `waitTxSpace_quiet`, as an instruction. -/
theorem waitTxSpaceFirstTest : Obligations.WaitTxSpaceFirstTest := by
  intro s inv plat calm clean h
  have q : QuietClean 4 (beginOp s) := .of_inv inv plat calm clean
  obtain ⟨k, t, et, code, left, prims⟩ := ends_finishMicro
    (waitTxSpace_quiet q (by rw [firstElapsed_beginOp]; exact h))
  rw [firstElapsed_beginOp] at code
  subst code
  refine ⟨_, et, primsOf_of_kinds (prims.trans (List.append_nil _)), ?_⟩
  exact congrArg (fun x : State => { x with
    result := if s.cfg.tPoll < firstElapsed s then .timeout else .ok }) left.same

/-! ### A timer beyond the budget at the first test -/

/-- An operation that the timer ends before its first word, with the primitives it ran (R217, R320). -/
structure TimedOut (ps : List Prim) (s : State) (k : Code) (t : State) : Prop where
  code : k = .timeout
  phase : t.phase = .error
  words : wordsOf t.trace = wordsOf s.trace
  prims : kinds t = ps.reverse ++ kinds s

theorem finish_timedOut {ps : List Prim} {s : State} {m : Run Code}
    (h : Ends m (TimedOut ps (beginOp s))) :
    ∃ t, finish m = .next t ∧ t.result = .timeout ∧ t.phase = .error ∧ txWritten t = [] ∧
      primsOf t = ps := by
  obtain ⟨k, t, et, out⟩ := ends_finish h
  exact ⟨_, et, out.code, out.phase, out.words,
    primsOf_of_kinds (out.prims.trans (List.append_nil _))⟩

/-- Where an operation's wait for space meets a late timer, the environment quiet and no error pending. -/
structure LateWait (s : State) : Prop extends QuietClean 4 s where
  late : s.cfg.tPoll < firstElapsed s

section Late

variable {s : State}

theorem LateWait.relabel (l : LateWait s) (w : Work) (ph : Phase) (b : Bool) :
    LateWait { s with work := w, phase := ph, bracket := b } where
  toQuietClean := l.toQuietClean.relabel w ph b
  late :=
    have same : SameTime s { s with work := w, phase := ph, bracket := b } := ⟨rfl, rfl⟩
    l.late.trans_eq (firstElapsed_congr same rfl).symm

theorem TimedOut.of_relabel {ps : List Prim} {w : Work} {ph : Phase} {b : Bool} {k : Code} {t : State}
    (o : TimedOut ps { s with work := w, phase := ph, bracket := b } k t) : TimedOut ps s k t :=
  ⟨o.code, o.phase, o.words, o.prims⟩

/-- An operation that begins with WAIT_TX_SPACE raises its timeout (R217). -/
theorem wait_late (l : LateWait s) (next : State → Run Code) :
    Ends (andThen (waitTxSpace s) fun e s => if e ≠ .ok then raiseError e s else next s)
      (TimedOut waitPassPrims s) := by
  refine ends_andThen (waitTxSpace_quiet l.toQuietClean (.inr l.late))
    fun k t ⟨code, left, prims⟩ => ?_
  rw [if_pos l.late] at code
  rw [if_pos (by rw [code]; exact nofun)]
  exact ends_done ⟨code, rfl, left.words, prims⟩

theorem stop_late (l : LateWait s) : Ends (stop s) (TimedOut waitPassPrims s) :=
  ends_mono (wait_late (l.relabel s.work .stop false) _) fun _ _ out => out.of_relabel

theorem send_late {src : ByteSrc} (hl : srcLen src ≠ 0) (l : LateWait s) :
    Ends (send src s) (TimedOut waitPassPrims s) := by
  obtain ⟨m, hm⟩ : ∃ m, srcLen src = m + 1 := Nat.exists_eq_succ_of_ne_zero hl
  unfold send
  rw [hm]
  exact ends_mono (wait_late (l.relabel { s.work with i := some 0 } .transferring s.bracket) _)
    fun _ _ out => out.of_relabel

/-- RECEIVE reads the timer once before its wait (R192). -/
theorem receive_late {dst : ByteDst} {len : Nat} (hl : len ≠ 0) (h256 : len ≤ 256)
    (q : QuietClean 5 s) (late : s.cfg.tPoll < firstElapsed (tickTimer s)) :
    Ends (receive dst len s) (TimedOut (.now :: waitPassPrims) s) := by
  unfold receive
  rw [if_neg hl, if_neg h256.not_gt]
  have begun : SameTime s { s with phase := .transferring } := ⟨rfl, rfl⟩
  refine ends_andThen (q.relabel s.work .transferring s.bracket).now
    fun t0 t ⟨qt, passes, time, read⟩ => ?_
  have first : firstElapsed t = firstElapsed (tickTimer s) :=
    firstElapsed_congr (begun.tick.trans time) (by rw [tickTimer_cfg]; exact passes.cfg)
  have l : LateWait t := ⟨qt, by rw [first, passes.cfg]; exact late⟩
  refine ends_mono (wait_late l _) fun k u out => ?_
  exact ⟨out.code, out.phase, out.words.trans passes.words, by rw [out.prims, read]; rfl⟩

/-- START on a bus that is not stuck clears the flags and `CFG1.AUTOSTOP` before its wait (R171). -/
theorem start_late (q : QuietClean 9 s) (hr : runs s) (free : ¬ busStuck s)
    (late : s.cfg.tPoll < firstElapsed s) (a : BitVec 7) (d : Dir) :
    Ends (start a d s)
      (TimedOut ([.rd .status, .wr .status, .rd .cfg1, .wr .cfg1] ++ waitPassPrims) s) := by
  obtain ⟨u, e, qu, passes, time, prims⟩ := q.slot
  have lateU : u.cfg.tPoll < firstElapsed u := by
    rw [firstElapsed_congr time passes.cfg, passes.cfg]
    exact late
  have running : u.ctrl.getLsbD bitRST = false := by
    rw [passes.ctrl]
    exact hr
  have freeU : ¬ busStuck u := by
    unfold busStuck
    rw [passes.flags]
    exact free
  refine ends_mono (start_calm (n := 0) e qu.plat running qu.calm qu.depth (qu.decides (.inr lateU))
    freeU a d) fun k t ⟨_, outOfTime⟩ => ?_
  obtain ⟨code, phase, words, ran⟩ := outOfTime lateU
  exact ⟨code, phase, words.trans passes.words, by rw [ran, prims]; rfl⟩

end Late

/-- Settles O24: START, STOP, SEND and RECEIVE, each where its wait meets the late timer. -/
theorem lateTimer : Obligations.LateTimer := by
  intro s inv plat hi calm clean
  have q : QuietClean 9 (beginOp s) := .of_inv inv plat calm clean
  have l (late : s.cfg.tPoll < firstElapsed s) : LateWait (beginOp s) :=
    ⟨q.weaken (k := 5), by rw [firstElapsed_beginOp]; exact late⟩
  refine ⟨fun a d free late => ?_, fun late => ?_, fun buf len hl late => ?_,
    fun buf len hl h256 late => ?_⟩
  · rw [exec_start_of hi]
    exact finish_timedOut (start_late q inv.notReset free (l late).late a d)
  · rw [exec_stop_of hi]
    exact finish_timedOut (stop_late (l late))
  · rw [exec_send_of hi]
    exact finish_timedOut (send_late (BitVec.toNat_ne.1 hl) (l late))
  · have begun : firstElapsed (tickTimer (beginOp s)) = firstElapsed (tickTimer s) :=
      firstElapsed_congr (sameTime_beginOp s).tick (by rw [tickTimer_cfg, tickTimer_cfg]; rfl)
    rw [exec_receive_of hi]
    exact finish_timedOut (receive_late (BitVec.toNat_ne.1 hl) h256 (q.weaken (k := 4))
      (by rw [begun]; exact late))

/-! ### The two micro-operations under any environment -/

/-- What a micro-operation that only polls leaves, ended with its code (R210, R211). -/
theorem finishMicro_polls {s : State} {m : Run Code} {Q : Code → State → Prop}
    (h : Ends m fun c u => Polls (beginOp s) u ∧ Q c u) :
    ∃ c u, finishMicro m = .next { u with result := c } ∧ Q c u ∧
      txWritten { u with result := c } = [] ∧ (∀ w ∈ u.txf, w ∈ s.txf) ∧
      { u with result := c } = { s with
        result := c
        work := u.work
        flags := u.flags
        txf := u.txf
        rxf := u.rxf
        engine := u.engine
        target := u.target
        timer := u.timer
        sched := u.sched
        ticks := u.ticks
        draws := u.draws
        trace := u.trace } := by
  obtain ⟨c, u, e, polls, hQ⟩ := ends_finishMicro h
  exact ⟨c, u, e, hQ, polls.words, polls.txSub,
    congrArg (fun x : State => { x with result := c }) polls.same⟩

theorem decoded_mem {c : Code} (h : decoded c) :
    c ∈ [.ok, .timeout, .pinLowTimeout, .arbLost, .nack, .fifo] := by
  rcases h with rfl | rfl | rfl | rfl | rfl <;> decide

theorem spaceResult_mem {c : Code} {t : State} (h : spaceResult c t) :
    c ∈ [.ok, .timeout, .pinLowTimeout, .arbLost, .nack, .fifo] := by
  rcases h with ⟨rfl, -⟩ | ⟨-, error | rfl⟩
  · decide
  · exact decoded_mem error
  · decide

theorem decoded_ne_timeout {c : Code} (h : decoded c) : c ≠ .timeout := by
  rintro rfl
  exact absurd h (by unfold decoded; decide)

/-- Settles O36: `waitTxSpace_spec` and `checkClearError_spec`, as instructions. -/
theorem pollingAny : Obligations.PollingAny := by
  intro s inv plat i hi
  have g : Good (beginOp s) := (Good.of_inv inv plat).beginOp
  obtain rfl | rfl : i = .waitTxSpace ∨ i = .checkClearError := by simpa using hi
  · obtain ⟨c, u, e, space, words, queued, same⟩ := finishMicro_polls (waitTxSpace_spec g)
    exact ⟨_, e, words, fun _ ok => (space.resolve_right fun failed => failed.1 ok).2,
      spaceResult_mem space, nofun, queued, same⟩
  · obtain ⟨c, u, e, ⟨-, code⟩, words, queued, same⟩ := finishMicro_polls (checkClearError_spec g)
    exact ⟨_, e, words, nofun, decoded_mem code, fun _ => decoded_ne_timeout code, queued, same⟩

/-! ### Every admitted instruction ends -/

theorem finish_ends {m : Run Code} {Q : Code → State → Prop} (h : Ends m Q) :
    ∃ t, finish m = .next t := by
  obtain ⟨c, u, e, -⟩ := ends_finish h
  exact ⟨_, e⟩

theorem finishMicro_ends {m : Run Code} {Q : Code → State → Prop} (h : Ends m Q) :
    ∃ t, finishMicro m = .next t := by
  obtain ⟨c, u, e, -⟩ := ends_finishMicro h
  exact ⟨_, e⟩

theorem exec_transfer_of {s : State} {ms : List Msg} (hw : ms.all Msg.wf = true)
    (hi : s.inited = true) :
    exec (.transfer ms) s = finish (transfer (ms.map busMsg) (beginOp s)) :=
  (if_pos hw).trans (if_pos hi)

theorem exec_crc32Region_of {s : State} {c : Chip} (hw : c.wf = true) (hi : s.inited = true)
    (start length expected : Word) :
    exec (.crc32Region c start length expected) s =
      finish (crc32Region c start length expected (beginOp s)) :=
  (if_pos hw).trans (if_pos hi)

/-- SPEED_SET ends with OK, or at once for want of a source clock (R143, R150). -/
theorem speedSet_ends {s : State} (g : Good s) (speed : Word) (hd : dividerAnswers s.cfg speed) :
    Ends (speedSet speed s) fun c _ => c = if s.cfg.clockSrc = 0#32 then .divider else .ok := by
  by_cases hc : s.cfg.clockSrc = 0#32
  · rw [speedSet_noClock speed hc, if_pos hc]
    exact ends_done rfl
  · rw [if_neg hc]
    exact ends_mono (speedSet_spec g speed hc (hd.resolve_left hc)) fun _ _ ⟨code, _⟩ => code

/-- Every operation ends under any environment, by the law that says how (R216). -/
theorem exec_answers {i : Instr} {s : State} (wf : i.wf = true) (inv : Inv s) (plat : Platform s)
    (adm : admitted i s) : ∃ t, exec i s = .next t := by
  have g : Good (beginOp s) := (Good.of_inv inv plat).beginOp
  have runs_word (c : Cmd) : ∃ t, exec c.toInstr s = .next t := by
    obtain ⟨t, e, -⟩ := runCmd_spec c s
    exact ⟨t, (exec_toInstr c s).trans e⟩
  cases i with
  | init speed => exact finish_ends (initBlock_spec (s := beginOp s) g.inv g.plat speed adm)
  | speedSet speed =>
    obtain ⟨outside, hd⟩ := adm
    rw [exec_speedSet_of speed outside]
    exact finish_ends (speedSet_ends g speed hd)
  | start a d =>
    obtain ⟨hi, hd⟩ := adm
    rw [exec_start_of hi]
    exact finish_ends (start_spec g hd a d)
  | stop =>
    rw [exec_stop_of adm]
    exact finish_ends (stop_spec g)
  | send buf len =>
    rw [exec_send_of adm]
    exact finish_ends (send_spec _ g)
  | receive buf len =>
    obtain ⟨hi, h256⟩ := adm
    rw [exec_receive_of hi]
    exact finish_ends (receive_spec _ h256 g)
  | transfer ms =>
    obtain ⟨hi, hd, legal⟩ := adm
    rw [exec_transfer_of (Bool.and_eq_true_iff.1 wf).1 hi]
    exact finish_ends (transfer_spec _ g hd (List.forall_mem_map.2 legal))
  | chipRead c o buf len =>
    obtain ⟨hi, hd, hl⟩ := adm
    rw [exec_chipRead_of wf hi]
    exact finish_ends (chipRead_spec c o _ hl g hd)
  | chipWrite c o buf len =>
    obtain ⟨hi, hd, hl⟩ := adm
    rw [exec_chipWrite_of wf hi]
    exact finish_ends (chipWrite_spec c o buf hl g hd)
  | crc32Region c start length expected =>
    obtain ⟨hi, hd⟩ := adm
    rw [exec_crc32Region_of wf hi]
    exact finish_ends (crcLoop_spec c start expected length.toNat 0 0#32 g hd)
  | validateMagic m0 m1 => exact ⟨_, exec_validateMagic m0 m1 s⟩
  | waitTxSpace => exact finishMicro_ends (waitTxSpace_spec g)
  | checkClearError => exact finishMicro_ends (checkClearError_spec g)
  | checkStuck =>
    obtain ⟨b, t, e, -⟩ := checkStuck_spec g
    exact ⟨t, exec_checkStuck_of e⟩
  | setupOffset c o => exact ⟨_, if_pos wf⟩
  | crc32Update crc b => exact ⟨_, rfl⟩
  | cmdTxdata data => exact runs_word (.txdata data)
  | cmdReceive count => exact runs_word (.receive count)
  | cmdStop => exact runs_word .stop
  | cmdStart a d => exact runs_word (.start a d)

/-- Settles O12: the request answers, and an answered request keeps the invariant. -/
theorem nothingBlocks : Obligations.NothingBlocks := by
  intro i s wf inv plat adm
  obtain ⟨t, e⟩ := exec_answers wf inv plat adm
  exact ⟨t, e, exec_inv inv e⟩

end Sys2Proof.Machine

/-! The dispatcher (spec/44_dispatcher.md R230 to R238): what TRANSFER writes under any environment, which
failure it and the loops above it answer, and what it does with the nominal engine and target. -/

namespace Sys2Proof.Machine

/-! ### TRANSFER as a request -/

theorem msgs_wf_of_transfer {ms : List Msg} (hw : (Instr.transfer ms).wf = true) : ms.all Msg.wf = true :=
  (Bool.and_eq_true_iff.1 hw).1

/-- Settles O37: the words, the phase and the memory of `transfer_spec`, from an empty trace on. -/
theorem transferBrackets : Obligations.TransferBrackets := by
  intro ms s hw inv plat hi hd legal
  have g : Good (beginOp s) := (Good.of_inv inv plat).beginOp
  obtain ⟨c, u, eu, -, kept, bracket, ws, noStop, inOrder, words, out, phase⟩ := ends_finish
    (transfer_spec (ms.map busMsg) g hd (List.forall_mem_map.2 legal))
  refine ⟨_, ws, (exec_transfer_of (msgs_wf_of_transfer hw) hi).trans eu, bracket, noStop, inOrder, words,
    fun ok => ?_, phase, fun a outside => kept a (forall_outside_map outside)⟩
  obtain ⟨idle, stopped, started, -, -⟩ := out ok
  exact ⟨idle, stopped, started⟩

/-- Settles O39: the bus view behind TRANSFER is the fold of its messages, released; the first message's
budget gives START's. -/
theorem transferDelivers : Obligations.TransferDelivers := by
  intro ms s e hw hne inv plat hi nom ready fits
  have budget : 1 ≤ s.cfg.tPoll := by
    obtain ⟨m, hm⟩ := List.exists_mem_of_ne_nil ms hne
    obtain ⟨-, -, inTime⟩ := fits m hm
    omega
  obtain ⟨c, u, eu, ok, left⟩ := ends_finish (transfer_avail (mt List.map_eq_nil_iff.1 hne)
    (avail_beginOp inv plat nom ready budget) (List.forall_mem_map.2 fits))
  have effect := msgRuns_effect (ms.map busMsg) (viewOf e (beginOp s))
  exact ⟨_, (exec_transfer_of (msgs_wf_of_transfer hw) hi).trans eu, ok, left.parked.idle,
    left.parked.free.noWord, left.parked.free.noByte, left.parked.notOwned, left.parked.notBusy,
    left.parked.noStop, left.parked.noError, left.mem.trans (congrArg Prod.fst effect),
    left.parked.free.attached.trans
      (congrArg (fun x : Memory × Target => some x.2.release) effect)⟩

/-! ### The first error -/

theorem firstError_of_error {ret : Code} (h : ret ≠ .ok) (r : Code) : firstError ret r = ret := if_neg h

section Loops

variable {k i j n : Nat} {m : BusMsg} {rest ms : List BusMsg} {ret r rs : Code} {s t u : State}
  {c : Chip} {o buf start expected crc : Word} {dst : ByteDst}

/-- The message loop behind a message that ends (R230, R231, R232). -/
theorem transferLoop_cons (h : runMsg m (note (fun w => { w with k := some k }) s) = .next (r, t)) :
    transferLoop k (m :: rest) ret s =
      if endsLoop m r then
        done (firstError ret r) (note (fun w => { w with r := some r, ret := some (firstError ret r) }) t)
      else transferLoop (k + 1) rest (firstError ret r)
        (note (fun w => { w with r := some r, ret := some (firstError ret r) }) t) := by
  rw [transferLoop, h, andThen_next]

/-- An error found before the loop is what it answers, whatever its messages do (R234). -/
theorem transferLoop_keeps_error (hret : ret ≠ .ok) (ms : List BusMsg) : ∀ (k : Nat) (s : State),
    Safe (transferLoop k ms ret s) fun c _ => c = ret := by
  induction ms with
  | nil => exact fun k s => safe_done rfl
  | cons m rest ih =>
    intro k s
    rw [transferLoop]
    refine safe_andThen (P := fun _ _ => True) (fun _ _ _ => trivial) fun r t _ => ?_
    dsimp only
    rw [firstError_of_error hret r]
    split
    · exact safe_done rfl
    · exact ih (k + 1) _

/-- TRANSFER answers the loop's error, or else STOP's answer (R233, R234). -/
theorem transfer_of_loop_stop
    (hl : transferLoop 0 ms .ok (note (fun w => { w with ret := some .ok, msgs := some ms }) s) =
      .next (ret, t)) (hs : stop t = .next (rs, u)) :
    transfer ms s = .next (firstError ret rs,
      note (fun w => { w with rs := some rs, ret := some (firstError ret rs) }) u) := by
  rw [transfer, hl, andThen_next, hs, andThen_next]
  rfl

/-- A byte that fails ends READ_BYTEWISE, a byte that does not lets it go on (R252). -/
theorem readBytewise_succ (h0 : offsetWidth c ≠ 0)
    (h : transfer
      [offsetMsg c (offsetPlus o i), .read (foldedAddr c (offsetPlus o i)) 1 (dstAt dst i)]
      (setupOffset c (offsetPlus o i) (note (fun w => { w with i := some i }) s)) = .next (r, t)) :
    readBytewise c o dst i (n + 1) s =
      if r = .ok then readBytewise c o dst (i + 1) n t else .next (r, t) := by
  rw [readBytewise, if_neg (ne_true_of_eq_false (width_zero h0))]
  exact (congrArg (andThen · _) h).trans (ite_not _ _ _)

/-- A byte that fails ends WRITE_BYTEWISE, a byte that does not lets it go on (R254). -/
theorem writeBytewise_succ (h0 : offsetWidth c ≠ 0)
    (h : transfer [writeMsg c (offsetPlus o i) [s.mem.read (hostAddr buf i)]]
      (fillStage c (offsetPlus o i) [s.mem.read (hostAddr buf i)]
        (setupOffset c (offsetPlus o i) (note (fun w => { w with i := some i }) s))) =
      .next (r, t)) :
    writeBytewise c o buf i (n + 1) s =
      if r = .ok then writeBytewise c o buf (i + 1) n t else .next (r, t) := by
  rw [writeBytewise, if_neg (ne_true_of_eq_false (width_zero h0))]
  exact (congrArg (andThen · _) h).trans (ite_not _ _ _)

/-- A read that fails ends CRC32_REGION's loop with its code (R285). -/
theorem crcLoop_of_failed_read (h : chipRead c (offsetPlus start j) .reg 1
      (note (fun w => { w with j := some j, crc := some crc }) s) = .next (r, t)) (hr : r ≠ .ok) :
    crcLoop c start expected j (n + 1) crc s = .next (r, t) := by
  rw [crcLoop, h, andThen_next, if_pos hr]
  rfl

/-- A byte read updates the accumulator, and the loop goes on (R281). -/
theorem crcLoop_of_read {b : Byte} (h : chipRead c (offsetPlus start j) .reg 1
      (note (fun w => { w with j := some j, crc := some crc }) s) = .next (.ok, t))
    (hb : t.work.b = some b) :
    crcLoop c start expected j (n + 1) crc s =
      crcLoop c start expected (j + 1) n (crcUpdate t.cfg.crcVariant crc b) t := by
  rw [crcLoop, h, andThen_next, if_neg (not_not_intro rfl), hb]

/-- CHIP_READ of an admitted length: the bytewise loop, or one transfer (R251). -/
theorem chipRead_of_legal {len : Nat} (h : rdBytewise c = true ∨ len ≤ 256) :
    chipRead c o dst len s =
      if rdBytewise c then readBytewise c o dst 0 len s
      else transfer (readMsgs c o dst len) (setupOffset c o s) := by
  unfold chipRead
  refine if_ctx_congr Iff.rfl (fun _ => rfl) fun block => ?_
  exact if_neg (h.resolve_left block).not_gt

/-- CHIP_WRITE of an admitted length: the bytewise loop, or one transfer of the payload (R253). -/
theorem chipWrite_of_legal {len : Nat} (h : len ≤ s.cfg.maxXfer) :
    chipWrite c o buf len s =
      if wrBytewise c then writeBytewise c o buf 0 len s
      else transfer [writeMsg c o (bufferBytes s buf len)] (fillStage c o (bufferBytes s buf len) s) :=
  if_neg h.not_gt

end Loops

/-- Settles O38: the equations above, and for the four requests that they end with what their run answers. -/
theorem firstErrorWins : Obligations.FirstErrorWins := by
  refine ⟨fun k m rest ret r s t h hr => ⟨?_, ?_⟩,
    fun k ms ret c s t hret => transferLoop_keeps_error hret ms k s c t,
    fun ms ret rs s t u hl hs => ⟨_, transfer_of_loop_stop hl hs⟩,
    fun c o dst i n r s t h0 h => readBytewise_succ h0 h,
    fun c o buf i n r s t h0 h => writeBytewise_succ h0 h,
    fun c start expected crc j n r s t h => ⟨crcLoop_of_failed_read h, ?_⟩,
    fun c o dst len s => chipRead_of_legal,
    fun c o buf len s hw hi => exec_chipRead_of hw hi o buf len,
    fun c o buf len s hw hi hmax => ?_,
    fun c start length expected s hw hi => exec_crc32Region_of hw hi start length expected,
    fun ms s hw hi => exec_transfer_of (List.all_eq_true.2 hw) hi⟩
  · rintro ⟨a, src, rfl⟩
    exact (transferLoop_cons h).trans (if_pos (decide_eq_true hr))
  · rintro ⟨a, len, dst, rfl⟩
    exact (transferLoop_cons h).trans (if_neg Bool.false_ne_true)
  · rintro rfl b hb
    exact crcLoop_of_read h hb
  · rw [exec_chipWrite_of hw hi, chipWrite_of_legal (s := beginOp s) hmax]
    rfl

end Sys2Proof.Machine

/-! The chip-addressing layer (spec/45_chip_addressing.md R250 to R257): what CHIP_READ writes under any
environment, and what SETUP_OFFSET builds. -/

namespace Sys2Proof.Machine

/-- A read from the first byte of a host buffer on keeps every byte outside the buffer (R251). -/
theorem read_outside_of_readKept {buf : Word} {len a : Nat} {s t : State}
    (kept : readKept (.host buf) 0 len s t) (outside : outsideBuffer buf len a) :
    t.mem.read a = s.mem.read a := by
  refine kept a fun addr same j _ hj => ?_
  obtain rfl : buf = addr := ByteDst.host.inj same
  exact outside j (by omega)

/-- Settles O40: the words and the memory of `chipRead_spec`, from an empty trace on. -/
theorem chipReadWords : Obligations.ChipReadWords := by
  intro c o buf len s hw inv plat hi hd hlen
  have g : Good (beginOp s) := (Good.of_inv inv plat).beginOp
  obtain ⟨k, u, eu, -, kept, -, out⟩ := ends_finish (chipRead_spec c o (.host buf) hlen g hd)
  refine ⟨_, (exec_chipRead_of hw hi o buf len).trans eu,
    fun a outside => read_outside_of_readKept kept outside, fun ok => ?_⟩
  obtain ⟨-, words, -⟩ := out ok
  exact words

/-- SETUP_OFFSET as a request: no bus operation, so no INIT is asked for (R250, R339). -/
theorem exec_setupOffset_of {c : Chip} (hw : c.wf = true) (o : Word) (s : State) :
    exec (.setupOffset c o) s = .next (setupOffset c o (beginOp s)) := if_pos hw

theorem isZeroWidth_eq_decide (c : Chip) : isZeroWidth c = decide (offsetWidth c = 0) :=
  beq_eq_decide _ _

/-- Settles O48: `setupOffset` writes three working registers, behind `beginOp` the only ones that hold a
value. -/
theorem setupOffsetBuilds : Obligations.SetupOffsetBuilds := by
  intro c o s hw
  rw [exec_setupOffset_of hw, ← isZeroWidth_eq_decide]
  rfl

end Sys2Proof.Machine

/-! The integrity checker (spec/46_integrity.md R280 to R285): what CRC32_UPDATE computes, why a changed byte
always shows, and what CRC32_REGION answers under any environment and of the EEPROM. -/

namespace Sys2Proof.Machine

/-! ### The CRC step -/

section Step

variable {shift : Word → Word} {poly : Word} {dropped fresh : Nat}

/-- One bit of a CRC: a shift, and the polynomial added when the bit shifted out is set (R280). -/
def crcBit (shift : Word → Word) (poly : Word) (dropped : Nat) (x : Word) : Word :=
  if x.getLsbD dropped then shift x ^^^ poly else shift x

theorem crcBitReflected_eq : crcBitReflected = crcBit (· >>> 1) 0xEDB88320#32 0 := rfl

theorem crcBitMsbFirst_eq : crcBitMsbFirst = crcBit (· <<< 1) 0x04C11DB7#32 31 := rfl

/-- The bit shifted out stands where the shift brought in a zero, if the polynomial is set there. -/
theorem getLsbD_crcBit (set : poly.getLsbD fresh = true) (zero : ∀ x, (shift x).getLsbD fresh = false)
    (x : Word) : (crcBit shift poly dropped x).getLsbD fresh = x.getLsbD dropped := by
  unfold crcBit
  split
  case isTrue out => rw [BitVec.getLsbD_xor, zero, set, out]; rfl
  case isFalse out => rw [zero, Bool.eq_false_iff.2 out]

/-- So a CRC bit loses nothing, if the shift loses only the bit shifted out. -/
theorem crcBit_injective (set : poly.getLsbD fresh = true)
    (zero : ∀ x, (shift x).getLsbD fresh = false)
    (whole : ∀ x y, x.getLsbD dropped = y.getLsbD dropped → shift x = shift y → x = y) :
    Function.Injective (crcBit shift poly dropped) := by
  intro x y same
  have out : x.getLsbD dropped = y.getLsbD dropped := by
    rw [← getLsbD_crcBit set zero x, same, getLsbD_crcBit set zero y]
  refine whole x y out ?_
  unfold crcBit at same
  rw [out] at same
  split at same
  · exact (BitVec.xor_left_inj poly).1 same
  · exact same

end Step

theorem crcBitReflected_injective : Function.Injective crcBitReflected := by
  rw [crcBitReflected_eq]
  refine crcBit_injective (fresh := 31) (by decide) (fun x => by simp) fun x y out shifted => ?_
  ext i hi
  cases i with
  | zero => exact out
  | succ i =>
    have bit := congrArg (BitVec.getLsbD · i) shifted
    simpa [Nat.add_comm, BitVec.getLsbD_eq_getElem hi] using bit

theorem crcBitMsbFirst_injective : Function.Injective crcBitMsbFirst := by
  rw [crcBitMsbFirst_eq]
  refine crcBit_injective (fresh := 0) (by decide) (fun x => by simp) fun x y out shifted => ?_
  ext i hi
  by_cases top : i = 31
  · subst top; exact out
  · have bit := congrArg (BitVec.getLsbD · (i + 1)) shifted
    simpa [show i + 1 < 32 by omega] using bit

theorem applyN_eq_iterate (f : Word → Word) (n : Nat) (x : Word) : applyN f n x = f^[n] x := by
  induction n generalizing x with
  | zero => rfl
  | succ n ih => exact ih (f x)

theorem applyN_injective {f : Word → Word} (hf : Function.Injective f) (n : Nat) :
    Function.Injective (applyN f n) := by
  rw [funext (applyN_eq_iterate f n)]
  exact hf.iterate n

/-- Where a byte is added to the accumulator: at its low end, or most significant bit first at its high end
(R280). -/
def crcByte (v : CrcVariant) (b : Byte) : Word :=
  match v with
  | .zlib | .raw0 => b.setWidth 32
  | .msb0 => b.setWidth 32 <<< 24

theorem crcByte_injective (v : CrcVariant) : Function.Injective (crcByte v) := by
  intro a b same
  cases v with
  | zlib | raw0 | msb0 =>
    simp only [crcByte] at same
    bv_omega

/-- CRC32_UPDATE loses nothing of the sum of accumulator and byte. -/
theorem crcUpdate_inj (v : CrcVariant) (x y : Word) (a b : Byte) :
    crcUpdate v x a = crcUpdate v y b ↔ x ^^^ crcByte v a = y ^^^ crcByte v b := by
  cases v with
  | zlib =>
    have order (z : Word) (d : Byte) : z ^^^ 0xFFFFFFFF#32 ^^^ d.setWidth 32 =
        z ^^^ d.setWidth 32 ^^^ 0xFFFFFFFF#32 := by ac_rfl
    unfold crcUpdate crcByte
    rw [BitVec.xor_left_inj, (applyN_injective crcBitReflected_injective 8).eq_iff, order, order,
      BitVec.xor_left_inj]
  | raw0 => exact (applyN_injective crcBitReflected_injective 8).eq_iff
  | msb0 => exact (applyN_injective crcBitMsbFirst_injective 8).eq_iff

/-- Different accumulators stay different, whatever bytes follow. -/
theorem crcUpdate_foldl_injective (v : CrcVariant) (r : List Byte) :
    Function.Injective fun crc => r.foldl (crcUpdate v) crc := by
  induction r with
  | nil => exact Function.injective_id
  | cons b r ih => exact ih.comp fun x y same =>
      (BitVec.xor_left_inj (crcByte v b)).1 ((crcUpdate_inj v x y b b).1 same)

/-- Settles O51: the two accumulators behind the changed byte differ, and stay different. -/
theorem crcDetectsOneByte : Obligations.CrcDetectsOneByte := by
  intro v l r a b seed differ same
  rw [List.foldl_append, List.foldl_append, List.foldl_cons, List.foldl_cons] at same
  have atByte := (crcUpdate_inj v _ _ a b).1 (crcUpdate_foldl_injective v r same)
  exact differ (crcByte_injective v ((BitVec.xor_right_inj _).1 atByte))

/-- Settles O50: the step is one note behind `beginOp`, and the rule's examples are computed. -/
theorem crc32UpdateEffect : Obligations.Crc32UpdateEffect :=
  ⟨fun _ _ _ => rfl, by decide +kernel, by decide +kernel, by decide +kernel, by decide +kernel⟩

/-! ### CRC32_REGION -/

/-- Settles O53: the words and the memory of `crcLoop_spec`, from an empty trace on; of no byte the loop is
its test. -/
theorem crc32RegionAny : Obligations.Crc32RegionAny := by
  refine ⟨fun c start length expected s hw inv plat hi hd => ?_, fun c start expected s hw hi => ?_⟩
  · have g : Good (beginOp s) := (Good.of_inv inv plat).beginOp
    obtain ⟨k, u, eu, -, same, out, -⟩ := ends_finish
      (crcLoop_spec c start expected length.toNat 0 0#32 g hd)
    refine ⟨_, (exec_crc32Region_of hw hi start length expected).trans eu, same, fun ok => ?_⟩
    obtain ⟨-, words⟩ := out ok
    simp only [Nat.zero_add] at words
    exact words
  · rw [exec_crc32Region_of hw hi]
    simp only [eq_comm (a := expected)]
    rfl

/-- Settles O52: the loop's accumulator is the CRC of the EEPROM's bytes, and its bus view keeps host memory
and the EEPROM's array. -/
theorem crc32RegionChecks : Obligations.Crc32RegionChecks := by
  intro c start length expected s e hw h0 wired seen hne inv plat hi nom ready hpoll
  obtain ⟨k, u, eu, hk, left⟩ := ends_finish (crcLoop_avail c start expected (.inl (width_zero h0))
    length.toNat 0 0#32 (avail_beginOp inv plat nom ready (by omega))
    (fun empty => absurd empty (BitVec.toNat_ne.1 hne))
    (fun j _ _ => wired_answers wired (offsetPlus start j)) hpoll)
  obtain ⟨crc, host, kept⟩ := crcRun_eeprom h0 s.cfg.crcVariant seen length.toNat 0 0#32
    (viewOf e (beginOp s)) wired (by omega)
  refine ⟨_, _, (exec_crc32Region_of hw hi start length expected).trans eu, ?_, left.parked.idle,
    left.mem.trans host, left.parked.free.attached, kept.mem⟩
  exact hk.trans (by rw [show (beginOp s).cfg = s.cfg from rfl, crc]; rfl)

end Sys2Proof.Machine

/-! The command words (spec/47_command_words.md R301, R302, R304): a word at the head of the transmit FIFO by
what the engine does with it, and what the engine goes on with when it takes none. -/

namespace Sys2Proof.Machine

/-! ### Taking a word, and a byte that nobody acknowledges -/

section Engine

variable {s : State} {e : Target} {b data : Byte} {w : CmdEntry} {r : List CmdEntry}

theorem popTx_of_txf (h : s.txf = w :: r) : popTx s = { s with txf := r } := by
  unfold popTx
  rw [h]
  rfl

theorem busNack_stops (h : s.cfg1.getLsbD bitIGNACK = false) :
    busNack s = { s with
      target := s.target.map Target.release
      flags := { s.flags with ndf := true, sdf := true, mbf := false, bbf := false } } :=
  if_neg (ne_true_of_eq_false h)

theorem busNack_ignored (h : s.cfg1.getLsbD bitIGNACK = true) : busNack s = s := if_pos h

/-! ### CMD_TXDATA -/

theorem sendByte_addressed (ht : s.target = some e) (ha : e.addressed = true) :
    sendByte b s = { s with target := some (e.putByte b) } := by
  unfold sendByte
  rw [ht]
  exact if_pos ha

theorem sendByte_unaddressed (h : ∀ e, s.target = some e → e.addressed = false) :
    sendByte b s = busNack s := by
  unfold sendByte
  cases ht : s.target with
  | none => rfl
  | some e => exact if_neg (ne_true_of_eq_false (h e ht))

theorem exec_cmdTxdata_inside (hr : engineReady s = true) (htx : s.txf = w :: r)
    (own : s.flags.mbf = true) (dir : s.engine.dirRead = false) :
    exec (.cmdTxdata b) s = .next (sendByte b { s with txf := r }) := by
  change execCmdTxdata b s = _
  unfold execCmdTxdata ownsBus
  rw [if_pos hr, own, dir, popTx_of_txf htx]
  rfl

theorem exec_cmdTxdata_unheard (hr : engineReady s = true) (htx : s.txf = w :: r)
    (own : s.flags.mbf = true) (dir : s.engine.dirRead = false)
    (unheard : ∀ e, s.target = some e → e.addressed = false) :
    exec (.cmdTxdata b) s = .next (busNack { s with txf := r }) :=
  (exec_cmdTxdata_inside hr htx own dir).trans (congrArg _ (sendByte_unaddressed unheard))

theorem exec_cmdTxdata_outside (hr : engineReady s = true) (htx : s.txf = w :: r)
    (out : s.flags.mbf = false ∨ s.engine.dirRead = true) :
    exec (.cmdTxdata b) s = .next (fifoError { s with txf := r }) := by
  have outside : (ownsBus s && !s.engine.dirRead) = false :=
    Bool.and_eq_false_iff.2 (out.imp_right fun read => by rw [read]; rfl)
  change execCmdTxdata b s = _
  unfold execCmdTxdata
  rw [if_pos hr, outside, popTx_of_txf htx]
  rfl

/-! ### CMD_RECEIVE -/

/-- A receive in progress from an addressed target: its next bytes, as many as there are bytes left and places
in the FIFO (R302). -/
theorem deliver_addressed (n : Nat) (ht : s.target = some e) (ha : e.addressed = true) :
    deliver n s = { s with
      rxf := s.rxf ++ (e.getBytes (min n (s.cfg.fifoDepth - s.rxf.length))).1
      target := some (e.getBytes (min n (s.cfg.fifoDepth - s.rxf.length))).2
      engine := { s.engine with recvLeft := n - (s.cfg.fifoDepth - s.rxf.length) } } := by
  obtain ⟨k, m, total, same, stopped, -, bound⟩ := deliver_eq n s e ht ha
  rw [List.length_append, getBytes_length] at stopped bound
  obtain rfl : k = min n (s.cfg.fifoDepth - s.rxf.length) := by omega
  obtain rfl : m = n - (s.cfg.fifoDepth - s.rxf.length) := by omega
  exact same

theorem exec_cmdReceive_inside (hr : engineReady s = true) (htx : s.txf = w :: r)
    (own : s.flags.mbf = true) (dir : s.engine.dirRead = true) :
    exec (.cmdReceive b) s = .next (deliver (b.toNat + 1) { s with txf := r }) := by
  change execCmdReceive b s = _
  unfold execCmdReceive ownsBus
  rw [if_pos hr, own, dir, popTx_of_txf htx]
  rfl

theorem exec_cmdReceive_outside (hr : engineReady s = true) (htx : s.txf = w :: r)
    (out : s.flags.mbf = false ∨ s.engine.dirRead = false) :
    exec (.cmdReceive b) s = .next (fifoError { s with txf := r }) := by
  have outside : (ownsBus s && s.engine.dirRead) = false := Bool.and_eq_false_iff.2 out
  change execCmdReceive b s = _
  unfold execCmdReceive
  rw [if_pos hr, outside, popTx_of_txf htx]
  rfl

theorem engineContinue_receive (on : engineOn s = true) (h : s.engine.recvLeft ≠ 0) :
    engineContinue s = deliver s.engine.recvLeft s := by
  unfold engineContinue
  rw [on]
  exact if_pos h

/-! ### CMD_START -/

theorem busTaken_eq_false (h : s.flags.bbf = false ∨ s.flags.mbf = true) : busTaken s = false :=
  Bool.and_eq_false_iff.2 (h.imp_right fun own => by rw [own]; rfl)

theorem busTaken_eq_true (busy : s.flags.bbf = true) (other : s.flags.mbf = false) :
    busTaken s = true := by
  unfold busTaken
  rw [busy, other]
  rfl

theorem exec_cmdStart_of {a : BitVec 7} {d : Dir} (hr : engineReady s = true)
    (htx : s.txf = w :: r) :
    exec (.cmdStart a d) s = .next (beginStart (addrByte a d) { s with txf := r }) := by
  rw [← popTx_of_txf htx]
  exact congrArg _ (if_pos hr)

theorem beginStart_taken (h : busTaken s = true) :
    beginStart data s = { s with engine := { s.engine with pendingStart := some data } } := if_pos h

theorem beginStart_free (h : busTaken s = false) : beginStart data s = sendAddress data s :=
  if_neg (ne_true_of_eq_false h)

/-- A start in progress is not over before the bus is free or this master's (R304). -/
theorem engineContinue_start (on : engineOn s = true) (h0 : s.engine.recvLeft = 0)
    (hp : s.engine.pendingStart = some data) :
    engineContinue s = if busTaken s then s else sendAddress data s := by
  unfold engineContinue
  rw [on, h0, hp]
  rfl

theorem nextEntry_start (hp : s.engine.pendingStart = some data) : nextEntry s = none := by
  have busy : engineReady s = false := by
    unfold engineReady
    rw [hp]
    exact Bool.and_false _
  exact if_neg (ne_true_of_eq_false busy)

section Address

variable {a : BitVec 7} {d : Dir}

/-- The address byte is on the bus and nothing has answered yet: flags and direction are set, and a target
addressed before is released (R304). -/
def afterAddress (d : Dir) (s : State) : State :=
  { s with
    flags := { s.flags with mbf := true, bbf := true }
    engine := { s.engine with dirRead := decide (d = .read), pendingStart := none }
    target := s.target.map Target.release }

theorem sendAddress_answered (ht : s.target = some e) (answers : e.answers a = true) :
    sendAddress (addrByte a d) s = { afterAddress d s with
      target := some (if d = .read then e.startRead else e.startWrite a) } := by
  obtain ⟨address, direction⟩ := addrByte_parts a d
  unfold sendAddress afterAddress
  dsimp only
  rw [ht, address, direction]
  dsimp only
  rw [if_pos answers]
  simp only [decide_eq_true_eq]

theorem sendAddress_unanswered (h : ∀ e, s.target = some e → e.answers a = false) :
    sendAddress (addrByte a d) s = busNack (afterAddress d s) := by
  obtain ⟨address, direction⟩ := addrByte_parts a d
  unfold sendAddress afterAddress
  dsimp only
  rw [address, direction]
  cases ht : s.target with
  | none => rfl
  | some e => exact if_neg (ne_true_of_eq_false (h e ht))

theorem afterAddress_released :
    (afterAddress d s).target.map Target.release = (afterAddress d s).target :=
  Option.map_map _ _ _

theorem sendAddress_stops (h : ∀ e, s.target = some e → e.answers a = false)
    (nack : s.cfg1.getLsbD bitIGNACK = false) :
    sendAddress (addrByte a d) s = { afterAddress d s with
      flags := { s.flags with ndf := true, sdf := true, mbf := false, bbf := false } } := by
  rw [sendAddress_unanswered h, busNack_stops (s := afterAddress d s) nack, afterAddress_released]
  rfl

theorem sendAddress_ignored (h : ∀ e, s.target = some e → e.answers a = false)
    (ignore : s.cfg1.getLsbD bitIGNACK = true) :
    sendAddress (addrByte a d) s = afterAddress d s :=
  (sendAddress_unanswered h).trans (busNack_ignored ignore)

end Address

end Engine

/-- Settles O55: a byte in a write bracket is `sendByte`'s, every other word an error of the FIFO. -/
theorem cmdTxdataSends : Obligations.CmdTxdataSends := by
  refine fun data s w r htx hr => ⟨fun e own dir ht ha => ?_, fun own dir unheard nack => ?_,
    fun own dir unheard ignore => ?_, fun out => exec_cmdTxdata_outside hr htx out⟩
  · exact (exec_cmdTxdata_inside hr htx own dir).trans (congrArg _ (sendByte_addressed ht ha))
  · exact (exec_cmdTxdata_unheard hr htx own dir unheard).trans (congrArg _ (busNack_stops nack))
  · exact (exec_cmdTxdata_unheard hr htx own dir unheard).trans (congrArg _ (busNack_ignored ignore))

/-- Settles O56: a word in a read bracket and a receive in progress are both `deliver`'s. -/
theorem cmdReceiveMoves : Obligations.CmdReceiveMoves := by
  refine ⟨fun count s w r htx hr => ⟨fun e own dir ht ha => ?_, fun own dir silent => ?_,
    fun out => exec_cmdReceive_outside hr htx out⟩, fun s n on hn h0 => ?_⟩
  · exact (exec_cmdReceive_inside hr htx own dir).trans (congrArg _ (deliver_addressed _ ht ha))
  · obtain ⟨l, hl, moved⟩ := deliver_free (count.toNat + 1) (s := { s with txf := r }) silent
    exact ⟨l, hl, (exec_cmdReceive_inside hr htx own dir).trans (congrArg _ moved)⟩
  · subst hn
    rw [engineContinue_receive on h0]
    exact ⟨fun e ht ha => deliver_addressed _ ht ha, fun silent => deliver_free _ silent⟩

/-- Settles O58: a start goes out by `sendAddress`, whether its word is taken or it has waited. -/
theorem cmdStartAddresses : Obligations.CmdStartAddresses := by
  refine ⟨fun a d s w r htx hr => ⟨fun free => ?_, fun busy other => ?_⟩, fun a d s on h0 hp =>
    ⟨nextEntry_start hp, fun busy other => ?_, fun free => ?_⟩⟩
  · have sent : exec (.cmdStart a d) s = .next (sendAddress (addrByte a d) { s with txf := r }) :=
      (exec_cmdStart_of hr htx).trans (congrArg _ (beginStart_free (busTaken_eq_false free)))
    exact ⟨fun e ht answers => sent.trans (congrArg _ (sendAddress_answered ht answers)),
      fun unheard nack => sent.trans (congrArg _ (sendAddress_stops unheard nack)),
      fun unheard ignore => sent.trans (congrArg _ (sendAddress_ignored unheard ignore))⟩
  · exact (exec_cmdStart_of hr htx).trans
      (congrArg _ (beginStart_taken (busTaken_eq_true busy other)))
  · exact (engineContinue_start on h0 hp).trans (if_pos (busTaken_eq_true busy other))
  · have sent : engineContinue s = sendAddress (addrByte a d) s :=
      (engineContinue_start on h0 hp).trans (if_neg (ne_true_of_eq_false (busTaken_eq_false free)))
    exact ⟨fun e ht answers => sent.trans (sendAddress_answered ht answers),
      fun unheard nack => sent.trans (sendAddress_stops unheard nack),
      fun unheard ignore => sent.trans (sendAddress_ignored unheard ignore)⟩

end Sys2Proof.Machine

/-! The exceptions (spec/60_exceptions.md R328): an offset width of 0 ends a bytewise loop in its first pass,
before the transfer. -/

namespace Sys2Proof.Machine

section ZeroWidth

variable {c : Chip} {n : Nat}

theorem isZeroWidth_of (h : offsetWidth c = 0) : isZeroWidth c = true := by
  rw [isZeroWidth_eq_decide]
  exact decide_eq_true h

theorem readBytewise_zeroWidth (h : offsetWidth c = 0) (hn : n ≠ 0) (o : Word) (dst : ByteDst) (i : Nat)
    (s : State) : readBytewise c o dst i n s =
      .next (.invalidOffsetCfg,
        setupOffset c (offsetPlus o i) (note (fun w => { w with i := some i }) s)) := by
  obtain ⟨n, rfl⟩ := Nat.exists_eq_succ_of_ne_zero hn
  exact if_pos (isZeroWidth_of h)

theorem writeBytewise_zeroWidth (h : offsetWidth c = 0) (hn : n ≠ 0) (o buf : Word) (i : Nat)
    (s : State) : writeBytewise c o buf i n s =
      .next (.invalidOffsetCfg,
        setupOffset c (offsetPlus o i) (note (fun w => { w with i := some i }) s)) := by
  obtain ⟨n, rfl⟩ := Nat.exists_eq_succ_of_ne_zero hn
  exact if_pos (isZeroWidth_of h)

theorem chipRead_zeroWidth (h : offsetWidth c = 0) (bytewise : rdBytewise c = true) (hn : n ≠ 0)
    (o : Word) (dst : ByteDst) (s : State) : chipRead c o dst n s =
      .next (.invalidOffsetCfg,
        setupOffset c (offsetPlus o 0) (note (fun w => { w with i := some 0 }) s)) :=
  (if_pos bytewise).trans (readBytewise_zeroWidth h hn o dst 0 s)

end ZeroWidth

/-- Settles O46: each request ends in its first pass, which has written working registers only; CRC32_REGION
in its first read. -/
theorem zeroWidthBytewise : Obligations.ZeroWidthBytewise := by
  intro c o buf len s hw hi h0 hlen
  have nonempty : len.toNat ≠ 0 := BitVec.toNat_ne.1 hlen
  refine ⟨fun bytewise => ?_, fun bytewise hmax => ?_, fun bytewise expected => ?_⟩
  · rw [exec_chipRead_of hw hi, chipRead_zeroWidth h0 bytewise nonempty]
    rfl
  · rw [exec_chipWrite_of hw hi, chipWrite_of_legal (s := beginOp s) hmax, if_pos bytewise,
      writeBytewise_zeroWidth h0 nonempty]
    rfl
  · obtain ⟨n, hn⟩ := Nat.exists_eq_succ_of_ne_zero nonempty
    rw [exec_crc32Region_of hw hi, crc32Region, hn, crcLoop_of_failed_read
      (chipRead_zeroWidth h0 bytewise one_ne_zero _ _ _) (by decide)]
    rfl

end Sys2Proof.Machine
